-- ==== Sys2Proof/Word.lean ====
section
/-! DEFINITION. The word of OST-CORE: every register, sample, tap and coefficient is 32 bits
(10_state.md R31, 00_scope.md R14). -/

namespace Sys2Proof

/-- A 32-bit register, bus datum or binary32 bit pattern. -/
abbrev Word := BitVec 32

/-- A byte of the bus address space (20_memory.md R81). -/
abbrev Byte := BitVec 8

/-- 2^k. The large powers of the number formats are written with it, so that nothing unfolds them by
accident. -/
def pow2 (k : Nat) : Nat := 2 ^ k

end Sys2Proof
end

