-- ==== Sys2Proof/Config.lean ====
section
/-! DEFINITION. What an implementation fixes (00_scope.md R7) and the values the spec leaves open.
The parameters are plain data; the open values are opaque, so that nothing can be proved of them. -/

namespace Sys2Proof

/-- The parameter SIN2PI (00_scope.md R7, 93_implementation_defined.md I4): the default function or
some other total function. -/
inductive SinChoice where
  /-- The correctly rounded sin(2π·p). -/
  | default
  /-- Any other total function from binary32 to binary32: `Config.sin2piOther`. -/
  | other
deriving DecidableEq, Repr

/-- The implementation parameters (00_scope.md R7). -/
structure Params where
  /-- Channels held. -/
  nchMax : Nat
  /-- Largest base-rate block. -/
  blkMax : Nat
  /-- Largest impulse response. -/
  tapMax : Nat
  /-- Sections per recursive stage. -/
  rlpSecMax : Nat
  /-- Largest vibrato line. -/
  vibMax : Nat
  /-- Flush subnormals to zero in arithmetic. -/
  ftz : Bool
  /-- The LFO sine. -/
  sin2pi : SinChoice
deriving DecidableEq, Repr

/-- The default values, "the value this spec's hardware takes" (00_scope.md R7). -/
def Params.default : Params where
  nchMax := 2
  blkMax := 4096
  tapMax := 255
  rlpSecMax := 4
  vibMax := 8192
  ftz := false
  sin2pi := .default

/-- The legal ranges of 00_scope.md R7. -/
def Params.legal (p : Params) : Bool :=
  decide (1 ≤ p.nchMax) && decide (p.nchMax ≤ 4) &&
  decide (1 ≤ p.blkMax) && decide (p.blkMax ≤ 16383) &&
  decide (1 ≤ p.tapMax) && decide (p.tapMax ≤ 1023) && decide (p.tapMax % 2 = 1) &&
  decide (1 ≤ p.rlpSecMax) && decide (p.rlpSecMax ≤ 4) &&
  decide (2 ≤ p.vibMax) && decide (p.vibMax ≤ 65535)

/-- FREE VALUE (log 2). The byte that an address of IN, OUT or SCR holds when nothing has written it
since the given reset (10_state.md R62: "a value under no law"). -/
opaque Config.freeByte : (resets addr : Nat) → Byte

/-- FREE VALUE (log 2). The element VB[c][k] before the first PREPARE (10_state.md R57, R62). -/
opaque Config.freeVibElement : (resets c k : Nat) → Word

/-- FREE VALUE (log 4). SIN2PI where the parameter is not the default (00_scope.md R7). -/
opaque Config.sin2piOther : Word → Word

/-- FREE VALUE (log 5). What the default SIN2PI gives for a NaN or an infinity (46_effects.md R279
states none). -/
opaque Config.sin2piNonFinite : Word → Word

/-- FREE VALUE (log 6). The position that `floor(r) mod L` reads for a non-finite `r`
(46_effects.md R281 states none); the model reduces it mod L. -/
opaque Config.freeVibIndex : (r : Word) → (len : Nat) → Nat

/-- FREE VALUE (log 6). The fraction `real(r) - floor(real(r))` for a non-finite `r`. -/
opaque Config.freeVibFraction : (r : Word) → Word

end Sys2Proof
end

