-- ==== Sys2Proof/Syntax.lean ====
section
/-! DEFINITION. The operations of OST-CORE: one constructor per row of spec/opcode_table.json
(30_encoding.md R120 to R123). -/

namespace Sys2Proof

/-- The four filter stages, in the order of their index STG (00_scope.md R4). -/
inductive Stage where
  /-- 0: recursive low-pass, up path, stage 1. -/
  | up2
  /-- 1: recursive low-pass, down path, stage 1. -/
  | dn2
  /-- 2: FIR convolution, up path, stage 2. -/
  | up4
  /-- 3: FIR convolution, down path, stage 2. -/
  | dn4
deriving DecidableEq, Repr

/-- The operations. The first eleven are CMD words (the ENGINE runs them); the last two are REGW
operations, made by the bus write itself (30_encoding.md R120). -/
inductive Instr where
  /-- 44_orchestrator.md R200. -/
  | nop
  /-- 44_orchestrator.md R201. -/
  | prepare
  /-- 44_orchestrator.md R210; `n` is CNT, the base-rate samples per channel. -/
  | upsample (n : BitVec 16)
  /-- 44_orchestrator.md R215. -/
  | downsample
  /-- 44_orchestrator.md R220; `n` is CNT. -/
  | process (n : BitVec 16)
  /-- 46_effects.md R260. -/
  | wavefold
  /-- 46_effects.md R268. -/
  | saturate
  /-- 46_effects.md R275. -/
  | vibrato
  /-- 42_convolution.md R173: STG, CH, CNT. -/
  | convDirect (stg : Stage) (ch : BitVec 4) (n : BitVec 16)
  /-- 42_convolution.md R175: STG, CH, CNT. -/
  | convPoly (stg : Stage) (ch : BitVec 4) (n : BitVec 16)
  /-- 43_recursive.md R193: STG, CH, CNT. -/
  | rlpRun (stg : Stage) (ch : BitVec 4) (n : BitVec 16)
  /-- 44_orchestrator.md R230: the data word written to OS_REQ (bit 0 is EN, the rest ignored). -/
  | setEnabled (data : Word)
  /-- 45_latency.md R243: the data word written to LAT_TICK (ignored). -/
  | latTick (data : Word)
deriving DecidableEq, Repr

end Sys2Proof
end

