-- ==== Sys2Proof/Machine/State.lean ====
section
/-! DEFINITION. The state of OST-CORE (10_state.md): registers, arrays, ENGINE state, the parameters
in force, and the model's own three fields (`inputs`, `reply`, `resets`). -/

namespace Sys2Proof.Machine

/-- Nothing in OST-CORE stops the machine: "OST-CORE takes no traps" (60_exceptions.md R310) and an
error only sets status bits (R300, R303). So there is no fault, and this type is empty (safe: no
behaviour of the hardware is cut short). -/
inductive Fault where
deriving DecidableEq, Repr

/-- Why the model gives an operation no meaning. -/
inductive Refusal where
  /-- Raised by an arm of `exec` that has no meaning yet (safe: nothing is claimed of it). No arm
  answers it: every row of the opcode table has its meaning. -/
  | notModelled (mnemonic : String)
deriving DecidableEq, Repr

/-- The phase of the ENGINE (10_state.md R59). -/
inductive EngPhase where
  | idle
  | queued
  | started
deriving DecidableEq, Repr

/-- STATUS.WMODE, the work-buffer mode (10_state.md R36): 0, 1, 2, 3. -/
inductive WMode where
  | none
  | pass
  | os4
  | trans
deriving DecidableEq, Repr

/-- The error codes of 60_exceptions.md R301. -/
inductive ErrorCode where
  | illegal
  | busy
  | range
  | notPrep
  | seq
  | bus
deriving DecidableEq, Repr

/-- The two FIR stages (00_scope.md R4). -/
inductive FirStage where
  | up4
  | dn4
deriving DecidableEq, Repr

/-- The two recursive stages (00_scope.md R4). -/
inductive RlpStage where
  | up2
  | dn2
deriving DecidableEq, Repr

/-- The convolution state of one stage and channel (10_state.md R55): the write cursor CUR[s][c] and
the history HIST[s][c][k], whose unlisted elements are +0. -/
structure FirLine where
  cur : Nat
  hist : List (Nat × Word)
deriving DecidableEq, Repr

/-- The state of one second-order section, RST[s][c][q] (10_state.md R56). -/
structure Biquad where
  x1 : Word
  x2 : Word
  y1 : Word
  y2 : Word
deriving DecidableEq, Repr

/-- The vibrato line of one channel (10_state.md R57): the write cursor VW[c] and the elements
VB[c][k]. An unlisted element is +0 once a PREPARE has run and holds no value before. -/
structure VibLine where
  vw : Nat
  vb : List (Nat × Word)
deriving DecidableEq, Repr

/-- The external agents (00_scope.md R8). The port does not tell them apart. -/
inductive Agent where
  | audio
  | control
  | timer
deriving DecidableEq, Repr

/-- The kind of a bus access (20_memory.md R80). -/
inductive AccessKind where
  | read
  | write
deriving DecidableEq, Repr

/-- A bus access: (agent, kind, addr, size, wdata) (20_memory.md R80). -/
structure BusAccess where
  agent : Agent
  kind : AccessKind
  addr : Word
  size : Nat
  wdata : Word
deriving DecidableEq, Repr

/-- The port's response (20_memory.md R80). -/
inductive Response where
  | okay
  | error
deriving DecidableEq, Repr

/-- The port's answer to an access: the response, and the read data (0 for a write). -/
structure BusReply where
  resp : Response
  rdata : Word
deriving DecidableEq, Repr

/-- One step of the interleaving (60_exceptions.md R320, R321; 70_reset_and_hazards.md R340). -/
inductive Event where
  /-- A bus access of an external agent. -/
  | bus (a : BusAccess)
  /-- The ENGINE takes its enabled step, if it has one. -/
  | engine
  /-- The platform drives the reset input between two steps. -/
  | reset
deriving DecidableEq, Repr

/-- The state. Names follow 10_state.md. STATUS.BUSY and STATUS.PENDING, OS_LAT and VIB_LAT are
computed, not held (R36, R39, R59, R60). -/
structure State where
  /-- The parameters in force (R33); no step changes them. -/
  params : Params
  /-- PEND_CMD (R35, R59). -/
  pendCmd : Word
  /-- ENG_PHASE (R59). -/
  engPhase : EngPhase
  /-- REQ_SNAP (R59). -/
  reqSnap : Bool
  /-- STATUS.DONE (R36). -/
  done : Bool
  /-- STATUS.ERR (R36). -/
  err : Bool
  /-- STATUS.NUMERR (R36, R63). -/
  numerr : Bool
  /-- STATUS.LAT_NEW (R36). -/
  latNew : Bool
  /-- STATUS.PREPARED (R36). -/
  prepared : Bool
  /-- STATUS.ACTIVE (R36). -/
  active : Bool
  /-- STATUS.PREPARE_REQ (R36). -/
  prepareReq : Bool
  /-- STATUS.WMODE (R36). -/
  wmode : WMode
  /-- STATUS.LAST_TRANS (R36). -/
  lastTrans : Bool
  /-- ERRCODE bits 7:0 (R37). -/
  errcode : BitVec 8
  /-- OS_REQ.EN (R38). -/
  osReq : Bool
  /-- LAT_PUB (R39). -/
  latPub : Word
  /-- LAT_DIRTY.OS_DIRTY (R39). -/
  osDirty : Bool
  /-- LAT_DIRTY.VIB_DIRTY (R39). -/
  vibDirty : Bool
  /-- OS_TOTAL (R39). -/
  osTotal : Word
  /-- VIB_TOTAL (R39). -/
  vibTotal : Word
  /-- FS_LO (R40). -/
  fsLo : Word
  /-- FS_HI (R40). -/
  fsHi : Word
  /-- BLOCK_SIZE bits 15:0 (R41). -/
  blockSize : BitVec 16
  /-- NCH_IN (R42). -/
  nchIn : Word
  /-- NCH_OUT (R42). -/
  nchOut : Word
  /-- UP_FS_LO (R43). -/
  upFsLo : Word
  /-- UP_FS_HI (R43). -/
  upFsHi : Word
  /-- UP_BLOCK bits 15:0 (R43). -/
  upBlock : BitVec 16
  /-- FX_CTRL bits 2:0: WF_EN, SAT_EN, VIB_EN (R44). -/
  fxCtrl : BitVec 3
  /-- WF_DRIVE (R45). -/
  wfDrive : Word
  /-- SAT_DRIVE (R45). -/
  satDrive : Word
  /-- VIB_FREQ (R45). -/
  vibFreq : Word
  /-- VIB_DEPTH (R45). -/
  vibDepth : Word
  /-- VIB_LEN bits 15:0 (R46). -/
  vibLen : BitVec 16
  /-- VPH, shown as VIB_PHASE (R46, R58). -/
  vph : Word
  /-- VIB_INC (R46). -/
  vibInc : Word
  /-- IR_LEN_UP4 (R47). -/
  irLenUp4 : Word
  /-- IR_LEN_DN4 (R47). -/
  irLenDn4 : Word
  /-- RLP_NSEC_UP2 (R48). -/
  rlpNsecUp2 : Word
  /-- RLP_NSEC_DN2 (R48). -/
  rlpNsecDn2 : Word
  /-- RLP_LAT_UP2 bits 15:0 (R49). -/
  rlpLatUp2 : BitVec 16
  /-- RLP_LAT_DN2 bits 15:0 (R49). -/
  rlpLatDn2 : BitVec 16
  /-- WLEN (R50). -/
  wlen : Word
  /-- WCH (R50). -/
  wch : Word
  /-- WN (R50). -/
  wn : Word
  /-- The bytes of COEF, TAP, IN, OUT and SCR at their bus addresses (R51 to R54; 20_memory.md R81,
  R83), in the canonical form of `Memory.wf`. -/
  mem : List Host.Cell
  /-- HIST[UP4][c] and CUR[UP4][c], one entry per channel c (R55). -/
  firUp4 : List FirLine
  /-- HIST[DN4][c] and CUR[DN4][c] (R55). -/
  firDn4 : List FirLine
  /-- RST[UP2][c][q]: per channel, per section (R56). -/
  rlpUp2 : List (List Biquad)
  /-- RST[DN2][c][q] (R56). -/
  rlpDn2 : List (List Biquad)
  /-- VB[c] and VW[c], one entry per channel (R57). -/
  vib : List VibLine
  /-- MODEL'S OWN (log 1): the events of the interleaving still to come. -/
  inputs : List Event
  /-- MODEL'S OWN (log 11): the port's answer to the last bus access. -/
  reply : Option BusReply
  /-- MODEL'S OWN (log 2): how many resets have happened; it tells one power-up's free values from
  the next one's. -/
  resets : Nat
deriving DecidableEq, Repr

/-- A zeroed convolution state (10_state.md R55). -/
def FirLine.zero : FirLine := ⟨0, []⟩

/-- A zeroed section state (10_state.md R56). -/
def Biquad.zero : Biquad := ⟨0#32, 0#32, 0#32, 0#32⟩

/-- A vibrato line with VW = 0 and nothing listed (10_state.md R57). -/
def VibLine.empty : VibLine := ⟨0, []⟩

/-- The convolution state of every channel, zeroed (42_convolution.md R172). -/
def zeroFir (p : Params) : List FirLine := List.replicate p.nchMax FirLine.zero

/-- The recursive state of every channel and section, zeroed (43_recursive.md R192). -/
def zeroRlp (p : Params) : List (List Biquad) :=
  List.replicate p.nchMax (List.replicate p.rlpSecMax Biquad.zero)

/-- The vibrato line of every channel, with nothing listed. -/
def emptyVib (p : Params) : List VibLine := List.replicate p.nchMax VibLine.empty

/-- The state that reset `n` leaves on a machine with parameters `p` (70_reset_and_hazards.md R341).
The bus windows list nothing: TAP and COEF read as their reset contents, IN, OUT and SCR hold no
value (R342). -/
def State.afterReset (p : Params) (n : Nat) : State where
  params := p
  pendCmd := 0#32
  engPhase := .idle
  reqSnap := false
  done := false
  err := false
  numerr := false
  latNew := false
  prepared := false
  active := false
  prepareReq := false
  wmode := .none
  lastTrans := false
  errcode := 0#8
  osReq := false
  latPub := 0#32
  osDirty := false
  vibDirty := false
  osTotal := 0#32
  vibTotal := 0#32
  fsLo := 0#32
  fsHi := 0#32
  blockSize := 0#16
  nchIn := 1#32
  nchOut := 1#32
  upFsLo := 0#32
  upFsHi := 0#32
  upBlock := 0#16
  fxCtrl := 0#3
  wfDrive := 0x3F800000#32
  satDrive := 0#32
  vibFreq := 0#32
  vibDepth := 0#32
  vibLen := 0#16
  vph := 0#32
  vibInc := 0#32
  irLenUp4 := 1#32
  irLenDn4 := 1#32
  rlpNsecUp2 := 1#32
  rlpNsecDn2 := 1#32
  rlpLatUp2 := 1#16
  rlpLatDn2 := 1#16
  wlen := 0#32
  wch := 0#32
  wn := 0#32
  mem := []
  firUp4 := zeroFir p
  firDn4 := zeroFir p
  rlpUp2 := zeroRlp p
  rlpDn2 := zeroRlp p
  vib := emptyVib p
  inputs := []
  reply := none
  resets := n

/-- The machine right after reset, with the default parameters (00_scope.md R7). -/
def State.reset : State := State.afterReset Params.default 0

/-- The result of an operation or a step. -/
abbrev Result := Host.Outcome State Fault Refusal

end Sys2Proof.Machine
end

