-- ==== Sys2Proof/Machine/Store.lean ====
section
/-! DEFINITION. A sparse store: (key, value) pairs with keys strictly rising and no pair equal to what
an unlisted key reads as, so that equal contents are equal lists. The bus memory, HIST and VB are
such stores. `dflt k` is what an unlisted key reads as; `none` is "holds no value". -/

namespace Sys2Proof.Machine.Store

variable {α : Type}

/-- The value listed at `k`. -/
def lookup : List (Nat × α) → Nat → Option α
  | [], _ => none
  | (a, v) :: m, k => if k = a then some v else lookup m k

/-- List `v` at `k`, in place of what was listed there. -/
def put : List (Nat × α) → Nat → α → List (Nat × α)
  | [], k, v => [(k, v)]
  | (a, w) :: m, k, v =>
    if k < a then (k, v) :: (a, w) :: m
    else if k = a then (k, v) :: m
    else (a, w) :: put m k v

/-- List nothing at `k`. -/
def drop : List (Nat × α) → Nat → List (Nat × α)
  | [], _ => []
  | (a, w) :: m, k => if k = a then drop m k else (a, w) :: drop m k

/-- What `k` holds: the listed value, else the default. -/
def read (dflt : Nat → Option α) (m : List (Nat × α)) (k : Nat) : Option α :=
  match lookup m k with
  | some v => some v
  | none => dflt k

/-- Write `v` at `k`, keeping the canonical form. -/
def write [DecidableEq α] (dflt : Nat → Option α) (m : List (Nat × α)) (k : Nat) (v : α) :
    List (Nat × α) :=
  if dflt k = some v then drop m k else put m k v

/-- Keys strictly rise. -/
def sorted : List (Nat × α) → Bool
  | [] => true
  | (a, _) :: m => m.all (fun c => decide (a < c.1)) && sorted m

/-- The canonical form. -/
def wf [DecidableEq α] (dflt : Nat → Option α) (m : List (Nat × α)) : Bool :=
  sorted m && m.all (fun c => !decide (dflt c.1 = some c.2))

end Sys2Proof.Machine.Store
end

