-- ==== Sys2Proof/Machine/Ops.lean ====
section
/-! DEFINITION. The shared operations over memory, arrays and registers, and raising an error
(60_exceptions.md R303), which is all that this machine has in the place of an exception. -/

namespace Sys2Proof.Machine

/-! ### Bytes and words of the bus windows -/

/-- The bus memory. -/
abbrev Memory := List Host.Cell

/-- Byte `i` of a word, little-endian: bits 8i+7 : 8i (20_memory.md R81). -/
def wordByte (w : Word) (i : Nat) : Byte := w.extractLsb' (8 * i) 8

/-- The word of four bytes, the first at the lowest address (20_memory.md R81). -/
def wordOfBytes (b0 b1 b2 b3 : Byte) : Word := b3 ++ b2 ++ b1 ++ b0

/-- The reset coefficient COEF[s][q][j], the same for both stages (10_state.md R54). -/
def resetCoef (q j : Nat) : Word :=
  if q = 0 then
    if j = 0 then 0x3E95F61A#32
    else if j = 1 then 0x3F15F61A#32
    else if j = 2 then 0x3E95F61A#32
    else if j = 3 then 0x00000000#32
    else if j = 4 then 0x3E2FB0CD#32
    else 0#32
  else if j = 0 then 0x3F800000#32
  else 0#32

/-- The reset tap TAP[s][k] (10_state.md R53): the unity IR. -/
def resetTap (k : Nat) : Word := if k = 0 then 0x3F800000#32 else 0#32

/-- The reset contents of the word at an aligned address of the COEF and TAP windows; none elsewhere
(IN, OUT and SCR hold no value at reset, 10_state.md R62). -/
def resetWord (a : Nat) : Option Word :=
  if 0x1000 ≤ a ∧ a < 0x1100 then
    some (resetCoef ((a - 0x1000) % 0x80 / 0x20) ((a - 0x1000) % 0x20 / 4))
  else if 0x2000 ≤ a ∧ a < 0x3000 then some (resetTap ((a - 0x2000) / 4))
  else if 0x3000 ≤ a ∧ a < 0x4000 then some (resetTap ((a - 0x3000) / 4))
  else none

/-- What an unlisted byte reads as: its reset contents, or no value. -/
def Memory.unlisted (a : Nat) : Option Byte :=
  match resetWord (a - a % 4) with
  | some w => some (wordByte w (a % 4))
  | none => none

/-- The canonical form of the bus memory. -/
def Memory.wf (m : Memory) : Bool := Store.wf Memory.unlisted m

/-- A byte of a window: what is held, or the free value of a byte that holds none (10_state.md R62). -/
def State.readByte (s : State) (a : Nat) : Byte :=
  match Store.read Memory.unlisted s.mem a with
  | some b => b
  | none => Config.freeByte s.resets a

/-- The element (word) at an address (20_memory.md R81, R85). -/
def State.loadWord (s : State) (a : Nat) : Word :=
  wordOfBytes (s.readByte a) (s.readByte (a + 1)) (s.readByte (a + 2)) (s.readByte (a + 3))

/-- The memory with the word `w` at address `a` (20_memory.md R81). -/
def Memory.putWord (m : Memory) (a : Nat) (w : Word) : Memory :=
  Store.write Memory.unlisted
    (Store.write Memory.unlisted
      (Store.write Memory.unlisted
        (Store.write Memory.unlisted m a (wordByte w 0)) (a + 1) (wordByte w 1))
      (a + 2) (wordByte w 2))
    (a + 3) (wordByte w 3)

/-- Replace the element at an address (20_memory.md R85). -/
def State.storeWord (s : State) (a : Nat) (w : Word) : State :=
  { s with mem := Memory.putWord s.mem a w }

/-- The `n` elements from address `a` on. -/
def State.loadBlock (s : State) (a n : Nat) : List Word :=
  (List.range n).map (fun i => s.loadWord (a + 4 * i))

/-- The memory with elements replaced from address `a` on, in ascending order. -/
def Memory.putBlock : Memory → Nat → List Word → Memory
  | m, _, [] => m
  | m, a, w :: ws => Memory.putBlock (Memory.putWord m a w) (a + 4) ws

/-- Replace the elements from address `a` on, in ascending order. -/
def State.storeBlock (s : State) (a : Nat) (ws : List Word) : State :=
  { s with mem := Memory.putBlock s.mem a ws }

/-! ### Ring arithmetic (00_scope.md R19) -/

/-- `(cur + 1) mod len`. -/
def ringNext (cur len : Nat) : Nat := (cur + 1) % len

/-- `(cur - n) mod len`, Euclidean. -/
def ringBack (cur n len : Nat) : Nat := (cur % len + (len - n % len)) % len

/-! ### The filter state of a stage and channel -/

/-- HIST[s][c] and CUR[s][c] (10_state.md R55). -/
def State.firLines (s : State) : FirStage → List FirLine
  | .up4 => s.firUp4
  | .dn4 => s.firDn4

/-- Replace the convolution state of a stage. -/
def State.setFirLines (s : State) (g : FirStage) (l : List FirLine) : State :=
  match g with
  | .up4 => { s with firUp4 := l }
  | .dn4 => { s with firDn4 := l }

/-- The convolution state of one channel. -/
def State.firLine (s : State) (g : FirStage) (c : Nat) : FirLine :=
  (s.firLines g).getD c FirLine.zero

/-- Replace the convolution state of one channel. -/
def State.setFirLine (s : State) (g : FirStage) (c : Nat) (l : FirLine) : State :=
  s.setFirLines g ((s.firLines g).set c l)

/-- An unlisted history element is +0 (10_state.md R55, 42_convolution.md R172). -/
def FirLine.unlisted (_ : Nat) : Option Word := some 0#32

/-- HIST[k]. -/
def FirLine.get (l : FirLine) (k : Nat) : Word := (Store.read FirLine.unlisted l.hist k).getD 0#32

/-- `HIST[k] <- x; CUR <- k`. -/
def FirLine.push (l : FirLine) (k : Nat) (x : Word) : FirLine :=
  ⟨k, Store.write FirLine.unlisted l.hist k x⟩

/-- RST[s] (10_state.md R56). -/
def State.rlpLines (s : State) : RlpStage → List (List Biquad)
  | .up2 => s.rlpUp2
  | .dn2 => s.rlpDn2

/-- Replace the recursive state of a stage. -/
def State.setRlpLines (s : State) (g : RlpStage) (l : List (List Biquad)) : State :=
  match g with
  | .up2 => { s with rlpUp2 := l }
  | .dn2 => { s with rlpDn2 := l }

/-- RST[s][c]. -/
def State.rlpLine (s : State) (g : RlpStage) (c : Nat) : List Biquad :=
  (s.rlpLines g).getD c []

/-- Replace RST[s][c]. -/
def State.setRlpLine (s : State) (g : RlpStage) (c : Nat) (l : List Biquad) : State :=
  s.setRlpLines g ((s.rlpLines g).set c l)

/-- VB[c] and VW[c] (10_state.md R57). -/
def State.vibLine (s : State) (c : Nat) : VibLine := s.vib.getD c VibLine.empty

/-- Replace VB[c] and VW[c]. -/
def State.setVibLine (s : State) (c : Nat) (l : VibLine) : State := { s with vib := s.vib.set c l }

/-- What an unlisted element of VB reads as: +0 once a PREPARE has run, no value before
(10_state.md R57). -/
def VibLine.unlisted (prepared : Bool) (_ : Nat) : Option Word :=
  if prepared then some 0#32 else none

/-- VB[k]; `free k` stands for an element that holds no value. -/
def VibLine.get (l : VibLine) (prepared : Bool) (free : Nat → Word) (k : Nat) : Word :=
  match Store.read (VibLine.unlisted prepared) l.vb k with
  | some w => w
  | none => free k

/-- `VB[k] <- x; VW <- k`. -/
def VibLine.push (l : VibLine) (prepared : Bool) (k : Nat) (x : Word) : VibLine :=
  ⟨k, Store.write (VibLine.unlisted prepared) l.vb k x⟩

/-! ### Configuration of a stage -/

/-- IR_LEN_s (10_state.md R47). -/
def State.irLen (s : State) : FirStage → Nat
  | .up4 => s.irLenUp4.toNat
  | .dn4 => s.irLenDn4.toNat

/-- RLP_NSEC_s (10_state.md R48). -/
def State.rlpNsec (s : State) : RlpStage → Nat
  | .up2 => s.rlpNsecUp2.toNat
  | .dn2 => s.rlpNsecDn2.toNat

/-! ### Errors (60_exceptions.md) -/

/-- The code held in ERRCODE[7:0] (60_exceptions.md R301). -/
def ErrorCode.code : ErrorCode → BitVec 8
  | .illegal => 0x01#8
  | .busy => 0x02#8
  | .range => 0x03#8
  | .notPrep => 0x04#8
  | .seq => 0x05#8
  | .bus => 0x06#8

/-- `raise Error(code)`: only the first error is recorded (60_exceptions.md R303). -/
def State.raise (s : State) (e : ErrorCode) : State :=
  { s with errcode := if s.err then s.errcode else e.code, err := true }

/-- Writing 1 to STATUS.ERR clears ERR and sets ERRCODE to 0 in one step: the return from an error
(60_exceptions.md R304). -/
def State.clearErr (s : State) : State := { s with err := false, errcode := 0#8 }

/-- The end of a command's FINISH step (60_exceptions.md R322): of a body that completed, DONE is set;
of one that raised, only the error bookkeeping remains. In both cases BUSY clears. -/
def finishCommand (s : State) (body : Except ErrorCode State) : Result :=
  match body with
  | .ok t => .next { t with done := true, engPhase := .idle }
  | .error e => .next { s.raise e with engPhase := .idle }

end Sys2Proof.Machine
end

