-- ==== Sys2Proof/Machine/Latency.lean ====
section
/-! DEFINITION. The latency registry (45_latency.md): the two inducers' delays and LAT_TICK. -/

namespace Sys2Proof.Machine

/-- OS_LAT: the sum of the four stage latencies while ACTIVE, else 0 (45_latency.md R240). -/
def State.osLat (s : State) : Word :=
  if s.active then
    BitVec.ofNat 32 (s.rlpLatUp2.toNat + s.rlpLatDn2.toNat + s.irLen .up4 / 2 + s.irLen .dn4 / 2)
  else 0#32

/-- VIB_LAT = VIB_LEN div 2 (45_latency.md R241). -/
def State.vibLat (s : State) : Word := BitVec.ofNat 32 (s.vibLen.toNat / 2)

/-- The operation LAT_TICK: when an inducer is dirty, publish the total, write it back, clear both
dirty flags and set LAT_NEW; otherwise nothing (45_latency.md R243). -/
def State.latTick (s : State) : State :=
  if s.osDirty || s.vibDirty then
    { s with
      latPub := s.osLat + s.vibLat
      osTotal := s.osLat + s.vibLat
      vibTotal := s.osLat + s.vibLat
      osDirty := false
      vibDirty := false
      latNew := true }
  else s

/-- LAT_TICK (45_latency.md R243): the data written is ignored. -/
def execLatTick (_data : Word) (s : State) : Result := .next s.latTick

end Sys2Proof.Machine
end

