-- ==== Sys2Proof/Machine/Float32.lean ====
section
/-! DEFINITION. binary32 arithmetic (00_scope.md R12 to R17). Every finite binary32 is a whole number
of units 2^-149, so a value is unpacked to a sign and a natural number of units, each operation is
exact on those, and one rounding (R15) packs the result. -/

namespace Sys2Proof.Machine

/-- An unpacked binary32: the magnitude of a finite one counts units of 2^-149. -/
inductive Fl where
  | nan
  | inf (neg : Bool)
  | fin (neg : Bool) (mag : Nat)
deriving DecidableEq, Repr

/-- The sign bit, bit 31 (R14). -/
def signBit (w : Word) : Bool := w.getLsbD 31

/-- The biased exponent field, bits 30:23 (R14). -/
def expField (w : Word) : Nat := w.toNat / 2 ^ 23 % 2 ^ 8

/-- The fraction field, bits 22:0 (R14). -/
def fracField (w : Word) : Nat := w.toNat % 2 ^ 23

/-- The value of a binary32 pattern (R14). -/
def unpack (w : Word) : Fl :=
  if expField w = 255 then
    if fracField w = 0 then .inf (signBit w) else .nan
  else if expField w = 0 then .fin (signBit w) (fracField w)
  else .fin (signBit w) ((2 ^ 23 + fracField w) * 2 ^ (expField w - 1))

/-- A pattern from a sign and bits 30:0. -/
def packBits (neg : Bool) (bits : Nat) : Word :=
  BitVec.ofNat 32 ((if neg then 2 ^ 31 else 0) + bits)

/-- The canonical quiet NaN (R16). -/
def canonicalNaN : Word := 0x7FC00000#32

/-- ±infinity. -/
def infinity (neg : Bool) : Word := packBits neg 0x7F800000

/-- ±0. -/
def zero (neg : Bool) : Word := packBits neg 0

/-- 1.0. -/
def f32One : Word := 0x3F800000#32

/-- 0.5. -/
def f32Half : Word := 0x3F000000#32

/-- 2.0. -/
def f32Two : Word := 0x40000000#32

/-- The exponent step of a magnitude `num/den` units: the quantum of its binade is `2^step` units
(0 for subnormals and the lowest normal binade). -/
def roundStep (num den : Nat) : Nat := (num / den).log2 - 23

/-- `num/den` rounded to a whole number, ties to even (R15). -/
def roundEven (num den : Nat) : Nat :=
  if 2 * (num % den) < den then num / den
  else if 2 * (num % den) = den then num / den + num / den % 2
  else num / den + 1

/-- Bits 30:0 of the binary32 nearest to `num/den` units of 2^-149, ties to even, with overflow to
infinity (R15). The step is added above the fraction field, so a rounding that carries out of the
fraction goes on into the exponent. -/
def roundMag (num den : Nat) : Nat :=
  let step := roundStep num den
  let bits := step * 2 ^ 23 + roundEven num (den * 2 ^ step)
  if bits < 0x7F800000 then bits else 0x7F800000

/-- `RN32` of ±`num/den` units of 2^-149 (R15). DESIGN CHOICE (log 13): a nonzero negative value too
small to round to anything else gives -0, where R15 states only RN32(0) = +0; callers pass an exact 0
as not negative. A denominator 0 gives 0; no rule makes one in a state that a run reaches (log 16). -/
def rn32 (neg : Bool) (num den : Nat) : Word :=
  if den = 0 then zero neg else packBits neg (roundMag num den)

/-- The rounded result of an operation: with FTZ = 1 a subnormal result becomes a zero of its sign
(R14). -/
def roundResult (ftz : Bool) (neg : Bool) (num den : Nat) : Word :=
  if ftz && decide (roundMag num den < 2 ^ 23) then zero neg else rn32 neg num den

/-- An operand of an operation: with FTZ = 1 a subnormal becomes a zero of its sign (R14). -/
def operand (ftz : Bool) (w : Word) : Fl :=
  match unpack w with
  | .fin neg mag => if ftz && decide (mag < 2 ^ 23) then .fin neg 0 else .fin neg mag
  | x => x

/-- The sum of two finite values. An exact 0 is +0 unless both operands are -0. -/
def addFinite (ftz : Bool) (s : Bool) (m : Nat) (t : Bool) (n : Nat) : Word :=
  if s = t then roundResult ftz s (m + n) 1
  else if m = n then zero false
  else if n < m then roundResult ftz s (m - n) 1
  else roundResult ftz t (n - m) 1

/-- `fadd` (R12, R14, R16). -/
def fadd (ftz : Bool) (a b : Word) : Word :=
  match operand ftz a, operand ftz b with
  | .nan, _ => canonicalNaN
  | .inf _, .nan => canonicalNaN
  | .inf s, .inf t => if s = t then infinity s else canonicalNaN
  | .inf s, .fin _ _ => infinity s
  | .fin _ _, .nan => canonicalNaN
  | .fin _ _, .inf t => infinity t
  | .fin s m, .fin t n => addFinite ftz s m t n

/-- The pattern with the sign bit flipped. -/
def fneg (w : Word) : Word := w ^^^ 0x80000000#32

/-- `fsub` (R12, R14, R16). -/
def fsub (ftz : Bool) (a b : Word) : Word := fadd ftz a (fneg b)

/-- `fmul` (R12, R14, R16). -/
def fmul (ftz : Bool) (a b : Word) : Word :=
  match operand ftz a, operand ftz b with
  | .nan, _ => canonicalNaN
  | .inf _, .nan => canonicalNaN
  | .inf s, .inf t => infinity (s != t)
  | .inf s, .fin t n => if n = 0 then canonicalNaN else infinity (s != t)
  | .fin _ _, .nan => canonicalNaN
  | .fin s m, .inf t => if m = 0 then canonicalNaN else infinity (s != t)
  | .fin s m, .fin t n => roundResult ftz (s != t) (m * n) (pow2 149)

/-- `fdiv` (R12, R14, R16). -/
def fdiv (ftz : Bool) (a b : Word) : Word :=
  match operand ftz a, operand ftz b with
  | .nan, _ => canonicalNaN
  | .inf _, .nan => canonicalNaN
  | .inf _, .inf _ => canonicalNaN
  | .inf s, .fin t _ => infinity (s != t)
  | .fin _ _, .nan => canonicalNaN
  | .fin s _, .inf t => zero (s != t)
  | .fin s m, .fin t n =>
    if n = 0 then (if m = 0 then canonicalNaN else infinity (s != t))
    else roundResult ftz (s != t) (m * pow2 149) n

/-- One digit after another of the integer square root: `r` is the root so far, `k` bits remain. -/
def isqrtFrom (n : Nat) : Nat → Nat → Nat
  | 0, r => r
  | k + 1, r => isqrtFrom n k (if (r + 2 ^ k) * (r + 2 ^ k) ≤ n then r + 2 ^ k else r)

/-- The integer square root. -/
def isqrt (n : Nat) : Nat := isqrtFrom n (n.log2 / 2 + 1) 0

/-- `fsqrt` (R12, R14, R16, R17). The root of `m` units of 2^-149 is `√(2·m)·2^-75`. It is taken with
26 further bits and one sticky bit, which rounds as the exact root does. -/
def fsqrt (ftz : Bool) (a : Word) : Word :=
  match operand ftz a with
  | .nan => canonicalNaN
  | .inf s => if s then canonicalNaN else infinity false
  | .fin s m =>
    if m = 0 then zero s
    else if s then canonicalNaN
    else
      let n := 2 * m * 2 ^ 52
      let r := isqrt n
      roundResult ftz false ((2 * r + if r * r = n then 0 else 1) * 2 ^ 47) 1

/-- The place of a value on the line of IEEE comparisons: none for a NaN, -0 and +0 together (R17). -/
def orderKey (w : Word) : Option Int :=
  match unpack w with
  | .nan => none
  | .inf s => some (if s then -(pow2 277 : Nat) else (pow2 277 : Nat))
  | .fin s m => some (if s then -(m : Int) else (m : Int))

/-- `a <= b` (R17). -/
def fle (a b : Word) : Bool :=
  match orderKey a, orderKey b with
  | some x, some y => decide (x ≤ y)
  | _, _ => false

/-- `a < b` (R17). -/
def flt (a b : Word) : Bool :=
  match orderKey a, orderKey b with
  | some x, some y => decide (x < y)
  | _, _ => false

/-- `a == b` (R17). -/
def feq (a b : Word) : Bool :=
  match orderKey a, orderKey b with
  | some x, some y => decide (x = y)
  | _, _ => false

/-- Not ±infinity and not a NaN (10_state.md R63). -/
def isFinite (w : Word) : Bool := !decide (expField w = 255)

/-- `sign1(x)` (R13). -/
def sign1 (x : Word) : Word := if fle 0#32 x then f32One else 0xBF800000#32

/-- `f32(n)` (R20). -/
def f32OfNat (n : Nat) : Word := rn32 false (n * pow2 149) 1

/-- The signed number of units of 2^-149 of a finite value; 0 for the others. -/
def unitsOf (w : Word) : Int :=
  match unpack w with
  | .fin s m => if s then -(m : Int) else (m : Int)
  | _ => 0

/-- `floor(real(v))` of a finite v (R10, R20). -/
def floorOf (v : Word) : Int := unitsOf v / (pow2 149 : Nat)

/-- `RN32(real(v) - floor(real(v)))` of a finite v (46_effects.md R263, R281). -/
def fractionOf (v : Word) : Word := rn32 false (unitsOf v % (pow2 149 : Nat)).toNat 1

end Sys2Proof.Machine
end

