-- ==== Sys2Proof/Machine/Flags.lean ====
section
/-! DEFINITION. The STATUS flags (10_state.md R36, R63): the computed bits, the word a read returns,
the W1C write, and NUMERR. -/

namespace Sys2Proof.Machine

/-- STATUS.BUSY = 1 exactly when ENG_PHASE ≠ IDLE (10_state.md R59). -/
def State.busy (s : State) : Bool := !decide (s.engPhase = .idle)

/-- STATUS.PENDING: OS_REQ.EN ≠ ACTIVE, computed at each read (10_state.md R36, R60). -/
def State.pending (s : State) : Bool := s.osReq != s.active

/-- The field WMODE (10_state.md R36). -/
def WMode.field : WMode → BitVec 2
  | .none => 0#2
  | .pass => 1#2
  | .os4 => 2#2
  | .trans => 3#2

/-- The STATUS word (10_state.md R36): bits 31:12 are 0. -/
def State.statusWord (s : State) : Word :=
  0#20 ++ BitVec.ofBool s.lastTrans ++ s.wmode.field ++ BitVec.ofBool s.prepareReq ++
  BitVec.ofBool s.pending ++ BitVec.ofBool s.active ++ BitVec.ofBool s.prepared ++
  BitVec.ofBool s.latNew ++ BitVec.ofBool s.numerr ++ BitVec.ofBool s.err ++
  BitVec.ofBool s.done ++ BitVec.ofBool s.busy

/-- A write to STATUS clears each W1C bit whose data bit is 1, and nothing else; clearing ERR clears
ERRCODE (10_state.md R36, R37). -/
def State.writeStatus (s : State) (v : Word) : State :=
  let s := if v.getLsbD 1 then { s with done := false } else s
  let s := if v.getLsbD 2 then s.clearErr else s
  let s := if v.getLsbD 3 then { s with numerr := false } else s
  if v.getLsbD 4 then { s with latNew := false } else s

/-- Some sample is ±infinity or a NaN (10_state.md R63). -/
def anyNonFinite (ws : List Word) : Bool := ws.any (fun w => !isFinite w)

/-- `if some value written is non-finite: set_flag(NUMERR)` (10_state.md R63). -/
def State.flagNumerr (s : State) (ws : List Word) : State :=
  { s with numerr := s.numerr || anyNonFinite ws }

end Sys2Proof.Machine
end

