-- ==== Sys2Proof/Machine/Float64.lean ====
section
/-! DEFINITION. The binary64 rates FS and UP_FS (00_scope.md R18, 10_state.md R40, R43). They are used
only as exact reals, so a value is a natural number of units 2^-1074. -/

namespace Sys2Proof.Machine

/-- The 64 bits {hi, lo}. -/
def bits64 (hi lo : Word) : BitVec 64 := hi ++ lo

/-- Biased exponent, bits 62:52 (R18). -/
def expField64 (d : BitVec 64) : Nat := d.toNat / 2 ^ 52 % 2 ^ 11

/-- Fraction, bits 51:0 (R18). -/
def fracField64 (d : BitVec 64) : Nat := d.toNat % 2 ^ 52

/-- The magnitude of a finite value in units of 2^-1074. -/
def magnitude64 (d : BitVec 64) : Nat :=
  if expField64 d = 0 then fracField64 d
  else (2 ^ 52 + fracField64 d) * 2 ^ (expField64 d - 1)

/-- The value as a number of units of 2^-1074 when it is finite and greater than 0, none when it is a
NaN, an infinity, zero or negative (44_orchestrator.md R202). -/
def positiveRate (d : BitVec 64) : Option Nat :=
  if expField64 d = 2047 then none
  else if d.getLsbD 63 then none
  else if magnitude64 d = 0 then none
  else some (magnitude64 d)

/-- The binary64 of `units` units of 2^-1074. It is exact for the values R203 gives it: a binary64
times 1 or 4, below overflow. -/
def pack64 (units : Nat) : BitVec 64 :=
  let step := units.log2 - 52
  BitVec.ofNat 64 (step * 2 ^ 52 + units / 2 ^ step)

/-- Bits 63:32. -/
def hiWord (d : BitVec 64) : Word := d.extractLsb' 32 32

/-- Bits 31:0. -/
def loWord (d : BitVec 64) : Word := d.extractLsb' 0 32

end Sys2Proof.Machine
end

