-- ==== Sys2Proof/Machine/Operands.lean ====
section
/-! DEFINITION. What the operands of an operation name: the stage of STG, the elements of the arrays
(20_memory.md R84), the blocks of CH and CNT, and the effect controls after their clamps. -/

namespace Sys2Proof.Machine

/-! ### STG -/

/-- The FIR stage that STG names, if it names one (00_scope.md R4). -/
def firStage? : Stage → Option FirStage
  | .up4 => some .up4
  | .dn4 => some .dn4
  | .up2 => none
  | .dn2 => none

/-- The recursive stage that STG names, if it names one (00_scope.md R4). -/
def rlpStage? : Stage → Option RlpStage
  | .up2 => some .up2
  | .dn2 => some .dn2
  | .up4 => none
  | .dn4 => none

/-! ### Elements (20_memory.md R84) -/

/-- The bus address of IN[c][i]. -/
def inAddr (c i : Nat) : Nat := 0x100000 + c * 0x10000 + 4 * i

/-- The bus address of OUT[c][i]. -/
def outAddr (c i : Nat) : Nat := 0x200000 + c * 0x10000 + 4 * i

/-- The bus address of SCR[c][i]. -/
def scrAddr (c i : Nat) : Nat := 0x400000 + c * 0x40000 + 4 * i

/-- The bus address of TAP[s][k]. -/
def tapAddr (g : FirStage) (k : Nat) : Nat :=
  (match g with | .up4 => 0x2000 | .dn4 => 0x3000) + 4 * k

/-- The bus address of COEF[s][q][j]. -/
def coefAddr (g : RlpStage) (q j : Nat) : Nat :=
  (match g with | .up2 => 0x1000 | .dn2 => 0x1080) + q * 0x20 + 4 * j

/-- TAP[s][k] (10_state.md R53). -/
def State.tap (s : State) (g : FirStage) (k : Nat) : Word := s.loadWord (tapAddr g k)

/-- The coefficients (B0, B1, B2, A1, A2) of one section (10_state.md R54). -/
structure Coefs where
  b0 : Word
  b1 : Word
  b2 : Word
  a1 : Word
  a2 : Word
deriving DecidableEq, Repr

/-- COEF[s][q] (10_state.md R54). -/
def State.coefs (s : State) (g : RlpStage) (q : Nat) : Coefs :=
  ⟨s.loadWord (coefAddr g q 0), s.loadWord (coefAddr g q 1), s.loadWord (coefAddr g q 2),
   s.loadWord (coefAddr g q 3), s.loadWord (coefAddr g q 4)⟩

/-! ### Blocks -/

/-- IN[c][0 .. n-1]. -/
def State.inBlock (s : State) (c n : Nat) : List Word := s.loadBlock (inAddr c 0) n

/-- SCR[c][0 .. n-1]. -/
def State.scrBlock (s : State) (c n : Nat) : List Word := s.loadBlock (scrAddr c 0) n

/-- `SCR[c][0 .. ] <- ws`. -/
def State.setScrBlock (s : State) (c : Nat) (ws : List Word) : State := s.storeBlock (scrAddr c 0) ws

/-- `OUT[c][0 .. ] <- ws`. -/
def State.setOutBlock (s : State) (c : Nat) (ws : List Word) : State := s.storeBlock (outAddr c 0) ws

/-- Store one block per channel, the first at channel `c`, each at the address `addr` gives its
channel. -/
def State.storeChannels (addr : Nat → Nat) : State → (c : Nat) → List (List Word) → State
  | s, _, [] => s
  | s, c, ws :: rest => State.storeChannels addr (s.storeBlock (addr c) ws) (c + 1) rest

/-- `SCR[c][..] <- ws` for each channel c. -/
def State.setScrChannels (s : State) (chans : List (List Word)) : State :=
  s.storeChannels (fun c => scrAddr c 0) 0 chans

/-- `OUT[c][..] <- ws` for each channel c. -/
def State.setOutChannels (s : State) (chans : List (List Word)) : State :=
  s.storeChannels (fun c => outAddr c 0) 0 chans

/-- The work buffer, SCR[c][0 .. WLEN-1] for c < WCH (10_state.md R52). -/
def State.workBuffer (s : State) : List (List Word) :=
  (List.range s.wch.toNat).map (fun c => s.scrBlock c s.wlen.toNat)

/-- The entries of the first channels replaced, those of the further channels kept. -/
def replaceFirst {α : Type} (new old : List α) : List α := new ++ old.drop new.length

/-! ### CH and CNT -/

/-- The range check of CONV_DIRECT and RLP_RUN: `ch >= NCH_MAX or n > 4*BLK_MAX`
(42_convolution.md R173, 43_recursive.md R193). -/
def primitiveInRange (p : Params) (ch n : Nat) : Bool :=
  decide (ch < p.nchMax) && decide (n ≤ 4 * p.blkMax)

/-- The range check of UPSAMPLE and PROCESS: `N < 1 or N > BLK_MAX` (44_orchestrator.md R210). -/
def blockInRange (p : Params) (n : Nat) : Bool := decide (1 ≤ n) && decide (n ≤ p.blkMax)

/-! ### Effect controls -/

/-- The clamp to [0, 1] of SAT_DRIVE and VIB_DEPTH: NaN, -0 and negative values give +0
(46_effects.md R270, R277). -/
def clampUnit (w : Word) : Word :=
  if flt 0#32 w then (if flt f32One w then f32One else w) else 0#32

/-- `wf_params`: (dh, dinv), with the drive clamped to at least 1 (46_effects.md R262). -/
def wfParams (ftz : Bool) (drive : Word) : Word × Word :=
  let d := if fle f32One drive then drive else f32One
  (fmul ftz d f32Half, fdiv ftz f32One d)

/-- The binary64 processing rate {UP_FS_HI, UP_FS_LO} in units of 2^-1074. -/
def State.upRateUnits (s : State) : Nat := magnitude64 (bits64 s.upFsHi s.upFsLo)

/-- The phase increment `RN32(fc / ufs)` with `fc = min(VIB_FREQ, ufs/2)`, or 0 for a frequency that
is not greater than 0 (46_effects.md R278). `ufs` counts units of 2^-1074, VIB_FREQ units of 2^-149,
so the quotient of the two has the factor 2^925. -/
def vibIncrement (freq : Word) (ufs : Nat) : Word :=
  if flt 0#32 freq then
    match unpack freq with
    | .fin _ f => if ufs ≤ 2 * (f * pow2 925) then f32Half else rn32 false (f * pow2 925 * pow2 149) ufs
    | _ => f32Half
  else 0#32

end Sys2Proof.Machine
end

