-- ==== Sys2Proof/Machine/Convolution.lean ====
section
/-! DEFINITION. The convolution engine (42_convolution.md): direct and polyphase mode, CONV_DIRECT and
CONV_POLY. `taps k` is TAP[s][k] and `nt` is Nt = IR_LEN_s. -/

namespace Sys2Proof.Machine

/-- A sum of products, one at a time from +0, every product and sum rounded (42_convolution.md
R171). -/
def sumProducts (ftz : Bool) (terms : List (Word × Word)) : Word :=
  terms.foldl (fun acc t => fadd ftz acc (fmul ftz t.1 t.2)) 0#32

/-- `conv_direct_sample` (42_convolution.md R171). -/
def convDirectSample (ftz : Bool) (taps : Nat → Word) (nt : Nat) (l : FirLine) (x : Word) :
    FirLine × Word :=
  let w := ringNext l.cur nt
  let l := l.push w x
  (l, sumProducts ftz ((List.range nt).map (fun k => (taps k, l.get (ringBack w k nt)))))

/-- The even half of `poly_pair`: store the sample, sum the even taps (42_convolution.md R174). -/
def polyEven (ftz : Bool) (taps : Nat → Word) (nt : Nat) (l : FirLine) (x : Word) :
    FirLine × Word :=
  let w := ringNext l.cur nt
  let l := l.push w x
  (l, sumProducts ftz ((List.range ((nt + 1) / 2)).map
    (fun j => (taps (2 * j), l.get (ringBack w (2 * j) nt)))))

/-- The odd half of `poly_pair`: store a zero, sum the odd taps from the previous write position
(42_convolution.md R174). -/
def polyOdd (ftz : Bool) (taps : Nat → Word) (nt : Nat) (l : FirLine) : FirLine × Word :=
  let w2 := ringNext l.cur nt
  let l := l.push w2 0#32
  (l, sumProducts ftz ((List.range (nt / 2)).map
    (fun j => (taps (2 * j + 1), l.get (ringBack w2 (1 + 2 * j) nt)))))

/-- `poly_pair` (42_convolution.md R174). -/
def polyPair (ftz : Bool) (taps : Nat → Word) (nt : Nat) (l : FirLine) (x : Word) :
    FirLine × Word × Word :=
  let (l, y0) := polyEven ftz taps nt l x
  let (l, y1) := polyOdd ftz taps nt l
  (l, y0, y1)

/-- Direct mode over a block, sample after sample. -/
def convDirectBlock (ftz : Bool) (taps : Nat → Word) (nt : Nat) :
    FirLine → List Word → FirLine × List Word
  | l, [] => (l, [])
  | l, x :: xs =>
    let (l, y) := convDirectSample ftz taps nt l x
    let (l, ys) := convDirectBlock ftz taps nt l xs
    (l, y :: ys)

/-- Polyphase mode over the even samples of a block, pair after pair. -/
def convPolyBlock (ftz : Bool) (taps : Nat → Word) (nt : Nat) :
    FirLine → List Word → FirLine × List Word
  | l, [] => (l, [])
  | l, x :: xs =>
    let (l, y0, y1) := polyPair ftz taps nt l x
    let (l, ys) := convPolyBlock ftz taps nt l xs
    (l, y0 :: y1 :: ys)

/-- The even-indexed samples of a block. -/
def evens : List Word → List Word
  | [] => []
  | [x] => [x]
  | x :: _ :: xs => x :: evens xs

/-- The body of CONV_DIRECT (42_convolution.md R173). -/
def convDirectBody (g : FirStage) (ch n : Nat) (s : State) : Except ErrorCode State :=
  if primitiveInRange s.params ch n then
    let r := convDirectBlock s.params.ftz (s.tap g) (s.irLen g) (s.firLine g ch) (s.scrBlock ch n)
    .ok (((s.setFirLine g ch r.1).setScrBlock ch r.2).flagNumerr r.2)
  else .error .range

/-- The body of CONV_POLY (42_convolution.md R175): an odd count is out of range; the odd elements
are overwritten and never read. -/
def convPolyBody (g : FirStage) (ch n : Nat) (s : State) : Except ErrorCode State :=
  if primitiveInRange s.params ch n && decide (n % 2 = 0) then
    let r := convPolyBlock s.params.ftz (s.tap g) (s.irLen g) (s.firLine g ch)
      (evens (s.scrBlock ch n))
    .ok (((s.setFirLine g ch r.1).setScrBlock ch r.2).flagNumerr r.2)
  else .error .range

/-- CONV_DIRECT (42_convolution.md R173). A stage that is no FIR stage is an illegal form
(30_encoding.md R123, R124); no word decodes to it (log 15). -/
def execConvDirect (stg : Stage) (ch : BitVec 4) (n : BitVec 16) (s : State) : Result :=
  finishCommand s
    (match firStage? stg with
     | some g => convDirectBody g ch.toNat n.toNat s
     | none => .error .illegal)

/-- CONV_POLY (42_convolution.md R175); illegal forms as for CONV_DIRECT. -/
def execConvPoly (stg : Stage) (ch : BitVec 4) (n : BitVec 16) (s : State) : Result :=
  finishCommand s
    (match firStage? stg with
     | some g => convPolyBody g ch.toNat n.toNat s
     | none => .error .illegal)

end Sys2Proof.Machine
end

