-- ==== Sys2Proof/Machine/Sine.lean ====
section
/-! DEFINITION. The LFO function SIN2PI (00_scope.md R7, 46_effects.md R279). The default,
RN32(sin(2π·real(p))), is computed in fixed point with 400 fraction bits (log 4). -/

namespace Sys2Proof.Machine

/-- floor(π·2^480). A test computes it again by Machin's formula. -/
def piScaled : Nat :=
  0x3243f6a8885a308d313198a2e03707344a4093822299f31d0082efa98ec4e6c89452821e638d01377be5466cf34e90c6cc0ac29b7c97c50dd3f84d5b5

/-- The series x - x^3/3! + x^5/5! - ... in units of 2^-bits: `term` is the next term's size, `k` its
exponent, `even` says whether it is added. -/
def sineSeries (bits : Nat) :
    (fuel : Nat) → (square term k : Nat) → (even : Bool) → (plus minus : Nat) → Nat
  | 0, _, _, _, _, plus, minus => plus - minus
  | fuel + 1, square, term, k, even, plus, minus =>
    let next := term * square / pow2 bits / ((k + 1) * (k + 2))
    if even then sineSeries bits fuel square next (k + 2) false (plus + term) minus
    else sineSeries bits fuel square next (k + 2) true plus (minus + term)

/-- sin(x) for x in units of 2^-bits, 0 ≤ x ≤ π/2. The terms past the fuel are 0. -/
def sineFixed (bits x : Nat) : Nat :=
  sineSeries bits (bits / 8 + 50) (x * x / pow2 bits) x 1 true 0 0

/-- sin(2π·t/2^149) in units of 2^-400, for 0 ≤ t ≤ 2^147 (a quarter turn). -/
def sineQuarter (t : Nat) : Nat := sineFixed 400 (piScaled * t / pow2 228)

/-- sin of a phase of `t` units of 2^-149 of a turn, 0 ≤ t < 2^149, by the symmetries of the turn.
0 and ±1 are exact (R279). -/
def sineOfTurn (neg : Bool) (t : Nat) : Word :=
  let half := decide (pow2 148 ≤ t)
  let u := if half then t - pow2 148 else t
  let q := if pow2 147 < u then pow2 148 - u else u
  if q = 0 then zero false
  else if q = pow2 147 then packBits (neg != half) 0x3F800000
  else rn32 (neg != half) (sineQuarter q) (pow2 251)

/-- The default SIN2PI (R279). Of a NaN or an infinity, for which R279 states nothing, it gives a free
value (log 5). -/
def sin2piDefault (p : Word) : Word :=
  match unpack p with
  | .fin neg mag => sineOfTurn neg (mag % pow2 149)
  | _ => Config.sin2piNonFinite p

/-- SIN2PI under the parameter in force (00_scope.md R7). -/
def sin2pi (c : SinChoice) (p : Word) : Word :=
  match c with
  | .default => sin2piDefault p
  | .other => Config.sin2piOther p

end Sys2Proof.Machine
end

