-- ==== Sys2Proof/Machine/Effects.lean ====
section
/-! DEFINITION. The nonlinear effects (46_effects.md): WAVEFOLD, SATURATE and VIBRATO. A body without
checks is what PROCESS runs; the command adds the checks of R261. -/

namespace Sys2Proof.Machine

/-- The checks of an effect command, in priority order (46_effects.md R261). -/
def effectChecks (s : State) (body : State → State) : Except ErrorCode State :=
  if s.prepared then
    if s.wmode = .none then .error .seq else .ok (body s)
  else .error .notPrep

/-! ### Wavefolder -/

/-- `wf_sample` (46_effects.md R263). -/
def wfSample (ftz : Bool) (dh dinv x : Word) : Word :=
  let v := fadd ftz (fmul ftz x dh) f32Half
  if isFinite v then
    let f := fractionOf v
    let f := if feq f f32One then 0#32 else f
    fmul ftz (fsub ftz (fmul ftz f32Two f) f32One) dinv
  else canonicalNaN

/-- The wavefolder over the work buffer (46_effects.md R260). -/
def wavefoldBody (s : State) : State :=
  let p := wfParams s.params.ftz s.wfDrive
  let ys := s.workBuffer.map (List.map (wfSample s.params.ftz p.1 p.2))
  (s.setScrChannels ys).flagNumerr ys.flatten

/-- WAVEFOLD (46_effects.md R260). -/
def execWavefold (s : State) : Result := finishCommand s (effectChecks s wavefoldBody)

/-! ### Saturator -/

/-- `sat_sample` (46_effects.md R271). -/
def satSample (ftz : Bool) (d x : Word) : Word :=
  let p := sign1 x
  let b := fmul ftz p (fsqrt ftz (fmul ftz p x))
  let c := fmul ftz p (fsqrt ftz (fmul ftz p b))
  let t := fsub ftz c x
  let u := fmul ftz d t
  fadd ftz x u

/-- The saturator over the work buffer (46_effects.md R268, R270). -/
def saturateBody (s : State) : State :=
  let ys := s.workBuffer.map (List.map (satSample s.params.ftz (clampUnit s.satDrive)))
  (s.setScrChannels ys).flagNumerr ys.flatten

/-- SATURATE (46_effects.md R268). -/
def execSaturate (s : State) : Result := finishCommand s (effectChecks s saturateBody)

/-! ### Vibrato -/

/-- C09 = RN32(0.9) (46_effects.md R280). -/
def c09 : Word := 0x3F666666#32

/-- The phase after one frame (46_effects.md R279). -/
def vibAdvance (ftz : Bool) (inc vph : Word) : Word :=
  let v := fadd ftz vph inc
  if fle f32One v then fsub ftz v f32One else v

/-- The modulated offset of a frame, from the LFO output (46_effects.md R280). -/
def vibOffset (ftz : Bool) (depth lfo : Word) (len : Nat) : Word :=
  let m := fadd ftz (fmul ftz (fmul ftz (fmul ftz c09 depth) lfo) f32Half) f32Half
  fmul ftz m (f32OfNat len)

/-- The offsets of `n` frames and the phase after them: per frame the LFO output, then the phase
advance, then the offset (46_effects.md R279, R280). -/
def vibFrames (ftz : Bool) (sine : Word → Word) (depth inc : Word) (len : Nat) :
    (n : Nat) → (vph : Word) → List Word × Word
  | 0, vph => ([], vph)
  | n + 1, vph =>
    let r := vibFrames ftz sine depth inc len n (vibAdvance ftz inc vph)
    (vibOffset ftz depth (sine vph) len :: r.1, r.2)

/-- The read position `r`: the write position less the offset, wrapped on underflow
(46_effects.md R281). -/
def vibReadPos (ftz : Bool) (w : Nat) (off : Word) (len : Nat) : Word :=
  let r := fsub ftz (f32OfNat w) off
  if flt r 0#32 then fadd ftz r (f32OfNat len) else r

/-- `floor(r) mod L` (46_effects.md R281); a free position for a non-finite r (log 6). -/
def vibReadIndex (r : Word) (len : Nat) : Nat :=
  if isFinite r then (floorOf r % (len : Int)).toNat else Config.freeVibIndex r len % len

/-- `RN32(real(r) - floor(real(r)))` (46_effects.md R281); a free value for a non-finite r (log 6). -/
def vibReadFraction (r : Word) : Word :=
  if isFinite r then fractionOf r else Config.freeVibFraction r

/-- `vib_sample` on the line of one channel; `get` reads VB after the write (46_effects.md R281). -/
def vibSample (ftz prepared : Bool) (free : Nat → Word) (len : Nat) (l : VibLine) (x off : Word) :
    VibLine × Word :=
  let w := ringNext l.vw len
  let r := vibReadPos ftz w off len
  let l := l.push prepared w x
  let i0 := vibReadIndex r len
  let a := l.get prepared free i0
  let b := l.get prepared free (ringNext i0 len)
  (l, fadd ftz a (fmul ftz (vibReadFraction r) (fsub ftz b a)))

/-- The vibrato line of one channel over a block of (sample, offset) pairs. -/
def vibBlock (ftz prepared : Bool) (free : Nat → Word) (len : Nat) :
    VibLine → List (Word × Word) → VibLine × List Word
  | l, [] => (l, [])
  | l, (x, off) :: xs =>
    let (l, y) := vibSample ftz prepared free len l x off
    let (l, ys) := vibBlock ftz prepared free len l xs
    (l, y :: ys)

/-- VIB_INC of this block (46_effects.md R278). -/
def State.vibIncNow (s : State) : Word := vibIncrement s.vibFreq s.upRateUnits

/-- The offsets of the frames of the work buffer, and the phase after them. -/
def State.vibFramesNow (s : State) : List Word × Word :=
  vibFrames s.params.ftz (sin2pi s.params.sin2pi) (clampUnit s.vibDepth) s.vibIncNow
    s.vibLen.toNat s.wlen.toNat s.vph

/-- The vibrato over the work buffer (46_effects.md R275). The offsets do not depend on the samples
and a channel's line only on its own samples, so the frames of one channel may be run together
(log 17). -/
def vibratoBody (s : State) : State :=
  let f := s.vibFramesNow
  let rs := s.workBuffer.zipIdx.map (fun p =>
    vibBlock s.params.ftz s.prepared (Config.freeVibElement s.resets p.2) s.vibLen.toNat
      (s.vibLine p.2) (p.1.zip f.1))
  let ys := rs.map Prod.snd
  ({ s with vibInc := s.vibIncNow, vph := f.2, vib := replaceFirst (rs.map Prod.fst) s.vib }.setScrChannels
    ys).flagNumerr ys.flatten

/-- VIBRATO (46_effects.md R275). -/
def execVibrato (s : State) : Result := finishCommand s (effectChecks s vibratoBody)

end Sys2Proof.Machine
end

