-- ==== Sys2Proof/Machine/Recursive.lean ====
section
/-! DEFINITION. The recursive stage (43_recursive.md): the biquad cascade and RLP_RUN. -/

namespace Sys2Proof.Machine

/-- One section, direct form I: b0, b1, b2 terms added, then a1, a2 terms subtracted, every product
and sum rounded (43_recursive.md R191). DEDUCED (log 22): an infinity in y1 or y2 goes on as this
computes, where 70_reset_and_hazards.md R357 says that every later output is a NaN. -/
def biquadSample (ftz : Bool) (k : Coefs) (b : Biquad) (v : Word) : Biquad × Word :=
  let acc := fmul ftz k.b0 v
  let acc := fadd ftz acc (fmul ftz k.b1 b.x1)
  let acc := fadd ftz acc (fmul ftz k.b2 b.x2)
  let acc := fsub ftz acc (fmul ftz k.a1 b.y1)
  let acc := fsub ftz acc (fmul ftz k.a2 b.y2)
  (⟨v, b.x1, acc, b.y1⟩, acc)

/-- The cascade of the first `nsec` sections, the first of them section `q`; later sections keep
their state (43_recursive.md R191). -/
def cascadeSample (ftz : Bool) (coef : Nat → Coefs) :
    (nsec q : Nat) → List Biquad → Word → List Biquad × Word
  | 0, _, bs, v => (bs, v)
  | _ + 1, _, [], v => ([], v)
  | nsec + 1, q, b :: bs, v =>
    let (b, v) := biquadSample ftz (coef q) b v
    let (bs, v) := cascadeSample ftz coef nsec (q + 1) bs v
    (b :: bs, v)

/-- `rlp_sample` (43_recursive.md R191). -/
def rlpSample (ftz : Bool) (coef : Nat → Coefs) (nsec : Nat) (bs : List Biquad) (x : Word) :
    List Biquad × Word :=
  cascadeSample ftz coef nsec 0 bs x

/-- The recursive stage over a block, sample after sample. -/
def rlpBlock (ftz : Bool) (coef : Nat → Coefs) (nsec : Nat) :
    List Biquad → List Word → List Biquad × List Word
  | bs, [] => (bs, [])
  | bs, x :: xs =>
    let (bs, y) := rlpSample ftz coef nsec bs x
    let (bs, ys) := rlpBlock ftz coef nsec bs xs
    (bs, y :: ys)

/-- The body of RLP_RUN (43_recursive.md R193). -/
def rlpRunBody (g : RlpStage) (ch n : Nat) (s : State) : Except ErrorCode State :=
  if primitiveInRange s.params ch n then
    let r := rlpBlock s.params.ftz (s.coefs g) (s.rlpNsec g) (s.rlpLine g ch) (s.scrBlock ch n)
    .ok (((s.setRlpLine g ch r.1).setScrBlock ch r.2).flagNumerr r.2)
  else .error .range

/-- RLP_RUN (43_recursive.md R193). A stage that is no recursive stage is an illegal form
(30_encoding.md R123, R124); no word decodes to it (log 15). -/
def execRlpRun (stg : Stage) (ch : BitVec 4) (n : BitVec 16) (s : State) : Result :=
  finishCommand s
    (match rlpStage? stg with
     | some g => rlpRunBody g ch.toNat n.toNat s
     | none => .error .illegal)

end Sys2Proof.Machine
end

