-- ==== Sys2Proof/Machine/Orchestrator.lean ====
section
/-! DEFINITION. The oversampling orchestrator (44_orchestrator.md): NOP, PREPARE, UPSAMPLE,
DOWNSAMPLE, PROCESS and SET_ENABLED. -/

namespace Sys2Proof.Machine

/-! ### NOP -/

/-- NOP (44_orchestrator.md R200): the bookkeeping of a command and nothing else. -/
def execNop (s : State) : Result := finishCommand s (.ok s)

/-! ### PREPARE -/

/-- What PREPARE computes (44_orchestrator.md R202, R203): the rate in units of 2^-1074, the block
size and the vibrato length. -/
structure Rates where
  ufs : Nat
  upBlock : Nat
  vibLen : Nat
deriving DecidableEq, Repr

/-- L = max(2, ceil(7 * ufs / 1000)) for a rate of `ufs` units of 2^-1074 (44_orchestrator.md R202). -/
def vibLength (ufs : Nat) : Nat :=
  max 2 ((7 * ufs + (1000 * pow2 1074 - 1)) / (1000 * pow2 1074))

/-- k: 4 while oversampling is active, else 1 (44_orchestrator.md R202). -/
def State.rateFactor (s : State) : Nat := if s.active then 4 else 1

/-- The checks of PREPARE and the values they compute (44_orchestrator.md R202, R203). Every check
raises ERR_RANGE. -/
def prepareRates (s : State) : Except ErrorCode Rates :=
  match positiveRate (bits64 s.fsHi s.fsLo) with
  | none => .error .range
  | some fs =>
    if blockInRange s.params s.blockSize.toNat then
      if s.rateFactor * fs < pow2 1024 * pow2 1074 then
        if vibLength (s.rateFactor * fs) ≤ s.params.vibMax then
          .ok ⟨s.rateFactor * fs, s.rateFactor * s.blockSize.toNat, vibLength (s.rateFactor * fs)⟩
        else .error .range
      else .error .range
    else .error .range

/-- Every filter state and the vibrato line zeroed (44_orchestrator.md R204). -/
def State.zeroFilters (s : State) : State :=
  { s with
    firUp4 := zeroFir s.params
    firDn4 := zeroFir s.params
    rlpUp2 := zeroRlp s.params
    rlpDn2 := zeroRlp s.params
    vib := emptyVib s.params
    vph := 0#32 }

/-- The rates, and the mode and latency updates (44_orchestrator.md R203, R205). -/
def State.applyPrepare (s : State) (r : Rates) : State :=
  { s.zeroFilters with
    upFsHi := hiWord (pack64 r.ufs)
    upFsLo := loWord (pack64 r.ufs)
    upBlock := BitVec.ofNat 16 r.upBlock
    vibLen := BitVec.ofNat 16 r.vibLen
    wmode := .none
    wlen := 0#32
    wch := 0#32
    wn := 0#32
    lastTrans := false
    prepareReq := false
    prepared := true
    osDirty := true
    vibDirty := true }

/-- The body of PREPARE (44_orchestrator.md R202 to R205). -/
def prepareBody (s : State) : Except ErrorCode State :=
  match prepareRates s with
  | .ok r => .ok (s.applyPrepare r)
  | .error e => .error e

/-- PREPARE (44_orchestrator.md R201). -/
def execPrepare (s : State) : Result := finishCommand s (prepareBody s)

/-! ### UPSAMPLE -/

/-- This block is transitional: a re-prepare is owed, or the sampled request differs from ACTIVE
(44_orchestrator.md R212). -/
def State.transitional (s : State) : Bool := s.prepareReq || (s.reqSnap != s.active)

/-- The toggle (44_orchestrator.md R212): applied when no re-prepare is owed and the sampled request
differs from ACTIVE; LAST_TRANS records whether the block is transitional. -/
def State.applyToggle (s : State) : State :=
  if s.prepareReq then { s with lastTrans := true }
  else if s.reqSnap != s.active then
    { s with active := s.reqSnap, prepareReq := true, osDirty := true, lastTrans := true }
  else { s with lastTrans := false }

/-- The input channel that scratch channel c copies at base rate (44_orchestrator.md R213). -/
def inputOf (nchIn c : Nat) : Nat := if c < nchIn then c else 0

/-- The base-rate copy (44_orchestrator.md R211, R213): bit patterns, no arithmetic, and "the copy does
not set NUMERR". -/
def State.copyUp (s : State) (n : Nat) (mode : WMode) : State :=
  let chans := (List.range s.nchOut.toNat).map (fun c => s.inBlock (inputOf s.nchIn.toNat c) n)
  { s.setScrChannels chans with
    wn := BitVec.ofNat 32 n
    wch := s.nchOut
    wlen := BitVec.ofNat 32 n
    wmode := mode }

/-- Zeros inserted after every sample: originals at the even positions (44_orchestrator.md R214). -/
def zeroStuff : List Word → List Word
  | [] => []
  | x :: xs => x :: 0#32 :: zeroStuff xs

/-- The x4 up path of one channel (44_orchestrator.md R214): zero-stuff, recursive stage, gain 2,
polyphase stage (which stuffs the second time). It gives the stages' new states and the samples. -/
def State.upChannel (s : State) (c : Nat) (xs : List Word) : List Biquad × FirLine × List Word :=
  let u := rlpBlock s.params.ftz (s.coefs .up2) (s.rlpNsec .up2) (s.rlpLine .up2 c) (zeroStuff xs)
  let y := convPolyBlock s.params.ftz (s.tap .up4) (s.irLen .up4) (s.firLine .up4 c)
    (u.2.map (fmul s.params.ftz f32Two))
  (u.1, y.1, y.2)

/-- The oversampled path (44_orchestrator.md R211, R214): the first min(NCH_IN, NCH_OUT) channels
carry their own input, the others copy scratch channel 0 and advance no filter state. -/
def State.oversample (s : State) (n : Nat) : State :=
  let rs : List (List Biquad × FirLine × List Word) :=
    (List.range (min s.nchIn.toNat s.nchOut.toNat)).map (fun c => s.upChannel c (s.inBlock c n))
  let ys := rs.map (Prod.snd ∘ Prod.snd)
  let chans := ys ++ List.replicate (s.nchOut.toNat - ys.length) (ys.headD [])
  ({ s.setScrChannels chans with
      rlpUp2 := replaceFirst (rs.map Prod.fst) s.rlpUp2
      firUp4 := replaceFirst (rs.map (Prod.fst ∘ Prod.snd)) s.firUp4
      wn := BitVec.ofNat 32 n
      wch := s.nchOut
      wlen := BitVec.ofNat 32 (4 * n)
      wmode := .os4 }).flagNumerr chans.flatten

/-- What UPSAMPLE does once its checks have passed (44_orchestrator.md R211 to R214). -/
def upsampleRun (n : Nat) (s : State) : State :=
  if s.transitional then s.applyToggle.copyUp n .trans
  else if s.active then s.applyToggle.oversample n
  else s.applyToggle.copyUp n .pass

/-- The body of UPSAMPLE with its checks, in priority order (44_orchestrator.md R210). -/
def upsampleBody (n : Nat) (s : State) : Except ErrorCode State :=
  if s.prepared then
    if blockInRange s.params n then .ok (upsampleRun n s) else .error .range
  else .error .notPrep

/-- UPSAMPLE (44_orchestrator.md R210). -/
def execUpsample (n : BitVec 16) (s : State) : Result := finishCommand s (upsampleBody n.toNat s)

/-! ### DOWNSAMPLE -/

/-- One block per output channel, channel 0's for an output channel that the work buffer lacks
(44_orchestrator.md R216, R217). -/
def outputChannels (nchOut : Nat) (chans : List (List Word)) : List (List Word) :=
  (List.range nchOut).map (fun o => chans.getD (if o < chans.length then o else 0) [])

/-- DOWNSAMPLE of a base-rate work buffer (44_orchestrator.md R216). -/
def State.copyDown (s : State) : State :=
  let chans := (List.range s.wch.toNat).map (fun c => s.scrBlock c s.wn.toNat)
  let outs := outputChannels s.nchOut.toNat chans
  ({ s.setOutChannels outs with wmode := .none }).flagNumerr outs.flatten

/-- The x4 down path of one channel (44_orchestrator.md R217): direct convolution, every second
output kept, recursive stage, every second output kept. -/
def State.downChannel (s : State) (c : Nat) (xs : List Word) : FirLine × List Biquad × List Word :=
  let d := convDirectBlock s.params.ftz (s.tap .dn4) (s.irLen .dn4) (s.firLine .dn4 c) xs
  let e := rlpBlock s.params.ftz (s.coefs .dn2) (s.rlpNsec .dn2) (s.rlpLine .dn2 c) (evens d.2)
  (d.1, e.1, evens e.2)

/-- DOWNSAMPLE of an oversampled work buffer (44_orchestrator.md R217). -/
def State.decimate (s : State) : State :=
  let rs : List (FirLine × List Biquad × List Word) :=
    (List.range s.wch.toNat).map (fun c => s.downChannel c (s.scrBlock c (4 * s.wn.toNat)))
  let outs := outputChannels s.nchOut.toNat (rs.map (Prod.snd ∘ Prod.snd))
  ({ s.setOutChannels outs with
      firDn4 := replaceFirst (rs.map Prod.fst) s.firDn4
      rlpDn2 := replaceFirst (rs.map (Prod.fst ∘ Prod.snd)) s.rlpDn2
      wmode := .none }).flagNumerr outs.flatten

/-- What DOWNSAMPLE does once its checks have passed (44_orchestrator.md R216, R217). -/
def downsampleRun (s : State) : State := if s.wmode = .os4 then s.decimate else s.copyDown

/-- The body of DOWNSAMPLE with its checks, in priority order (44_orchestrator.md R215). -/
def downsampleBody (s : State) : Except ErrorCode State :=
  if s.prepared then
    if s.wmode = .none then .error .seq else .ok (downsampleRun s)
  else .error .notPrep

/-- DOWNSAMPLE (44_orchestrator.md R215). -/
def execDownsample (s : State) : Result := finishCommand s (downsampleBody s)

/-! ### PROCESS -/

/-- The effects that FX_CTRL selects, in the order wavefolder, saturator, vibrato
(44_orchestrator.md R220, R222). -/
def runEffects (s : State) : State :=
  let s := if s.fxCtrl.getLsbD 0 then wavefoldBody s else s
  let s := if s.fxCtrl.getLsbD 1 then saturateBody s else s
  if s.fxCtrl.getLsbD 2 then vibratoBody s else s

/-- What PROCESS does once the checks have passed: UPSAMPLE, the effects unless the block is
transitional, DOWNSAMPLE (44_orchestrator.md R220). NUMERR counts every sample that UPSAMPLE's part
wrote to SCR, the base-rate copy's too: "any value written to SCR or OUT by any part" (R220,
10_state.md R63). DEDUCED (log 7): R213's exemption of the copy is the UPSAMPLE command's. -/
def processRun (n : Nat) (s : State) : State :=
  let u := upsampleRun n s
  let e := if u.wmode = .trans then u else runEffects u
  (downsampleRun e).flagNumerr u.workBuffer.flatten

/-- The body of PROCESS: its checks are UPSAMPLE's (44_orchestrator.md R220, R221). -/
def processBody (n : Nat) (s : State) : Except ErrorCode State :=
  if s.prepared then
    if blockInRange s.params n then .ok (processRun n s) else .error .range
  else .error .notPrep

/-- PROCESS (44_orchestrator.md R220). -/
def execProcess (n : BitVec 16) (s : State) : Result := finishCommand s (processBody n.toNat s)

/-! ### SET_ENABLED -/

/-- SET_ENABLED: `OS_REQ.EN <- v[0]` and nothing else (44_orchestrator.md R230). -/
def execSetEnabled (data : Word) (s : State) : Result :=
  .next { s with osReq := data.getLsbD 0 }

end Sys2Proof.Machine
end

