-- ==== Sys2Proof/Machine/Dispatch.lean ====
section
/-! DEFINITION. One arm per operation of the opcode table. For a command it is the whole FINISH step
of a legal word (60_exceptions.md R322); for SET_ENABLED and LAT_TICK it is the effect of the bus
write. -/

namespace Sys2Proof.Machine

def exec (i : Instr) (s : State) : Host.Outcome State Fault Refusal :=
  match i with
  | .nop => Sys2Proof.Machine.execNop s
  | .prepare => Sys2Proof.Machine.execPrepare s
  | .upsample n => Sys2Proof.Machine.execUpsample n s
  | .downsample => Sys2Proof.Machine.execDownsample s
  | .process n => Sys2Proof.Machine.execProcess n s
  | .wavefold => Sys2Proof.Machine.execWavefold s
  | .saturate => Sys2Proof.Machine.execSaturate s
  | .vibrato => Sys2Proof.Machine.execVibrato s
  | .convDirect stg ch n => Sys2Proof.Machine.execConvDirect stg ch n s
  | .convPoly stg ch n => Sys2Proof.Machine.execConvPoly stg ch n s
  | .rlpRun stg ch n => Sys2Proof.Machine.execRlpRun stg ch n s
  | .setEnabled data => Sys2Proof.Machine.execSetEnabled data s
  | .latTick data => Sys2Proof.Machine.execLatTick data s

end Sys2Proof.Machine
end

