-- ==== Sys2Proof/WellFormed.lean ====
section
/-! DEFINITION. Which terms of `Instr` stand for a legal operation: the STG constraint of
30_encoding.md R123 and R128 (the widths of CH and CNT are in the types). -/

namespace Sys2Proof

/-- FIR stages: UP4 and DN4 (00_scope.md R4). -/
def Stage.isFir : Stage → Bool
  | .up2 => false
  | .dn2 => false
  | .up4 => true
  | .dn4 => true

/-- The STG column of 30_encoding.md R123. -/
def Instr.WellFormed : Instr → Bool
  | .nop => true
  | .prepare => true
  | .upsample _ => true
  | .downsample => true
  | .process _ => true
  | .wavefold => true
  | .saturate => true
  | .vibrato => true
  | .convDirect stg _ _ => stg.isFir
  | .convPoly stg _ _ => stg.isFir
  | .rlpRun stg _ _ => !stg.isFir
  | .setEnabled _ => true
  | .latTick _ => true

end Sys2Proof
end

