-- ==== Sys2Proof/Decode.lean ====
section
/-! DEFINITION. Decoding and encoding (30_encoding.md R120 to R127). An operation is a write of a
data word to one of three registers: CMD (the eleven commands), OS_REQ (SET_ENABLED) and LAT_TICK
(LAT_TICK). "A decoder tells the format by the register written" (R120). -/

namespace Sys2Proof

/-- A write of a data word to a bus address, the form in which every operation reaches the block. -/
structure RegWrite where
  addr : Word
  data : Word
deriving DecidableEq, Repr

/-- Why a write is no operation. The first four are the illegal words of 30_encoding.md R125. -/
inductive DecodeReject where
  /-- RSV is not 0. -/
  | rsvNonzero
  /-- STG, CH or CNT must be 0 for this OP and is not. -/
  | fieldNonzero
  /-- STG names a stage the OP does not run on. -/
  | badStage
  /-- OP is none of the eleven of R123. -/
  | unknownOp
  /-- The register written is none of CMD, OS_REQ and LAT_TICK. -/
  | notOperation
deriving DecidableEq, Repr

/-- The bus addresses of the three registers (20_memory.md R83). -/
def cmdAddr : Word := 0x010#32
/-- See `cmdAddr`. -/
def osReqAddr : Word := 0x01C#32
/-- See `cmdAddr`. -/
def latTickAddr : Word := 0x020#32

/-- The fields of a CMD word (30_encoding.md R121). -/
def cmdOp (w : Word) : BitVec 8 := w.extractLsb' 0 8
/-- Bits 9:8. -/
def cmdStg (w : Word) : BitVec 2 := w.extractLsb' 8 2
/-- Bits 11:10. -/
def cmdRsv (w : Word) : BitVec 2 := w.extractLsb' 10 2
/-- Bits 15:12. -/
def cmdCh (w : Word) : BitVec 4 := w.extractLsb' 12 4
/-- Bits 31:16. -/
def cmdCnt (w : Word) : BitVec 16 := w.extractLsb' 16 16

/-- The stage of an STG field (00_scope.md R4). -/
def stageOf (b : BitVec 2) : Stage :=
  if b = 0#2 then .up2 else if b = 1#2 then .dn2 else if b = 2#2 then .up4 else .dn4

/-- The STG field of a stage (00_scope.md R4). -/
def Stage.index : Stage → BitVec 2
  | .up2 => 0#2
  | .dn2 => 1#2
  | .up4 => 2#2
  | .dn4 => 3#2

/-- The six commands with every operand field 0 (30_encoding.md R123). -/
def decodeBare (i : Instr) (stg : BitVec 2) (ch : BitVec 4) (cnt : BitVec 16) :
    Except DecodeReject Instr :=
  if stg = 0#2 ∧ ch = 0#4 ∧ cnt = 0#16 then .ok i else .error .fieldNonzero

/-- The two commands whose one operand is CNT (30_encoding.md R123). -/
def decodeCount (i : BitVec 16 → Instr) (stg : BitVec 2) (ch : BitVec 4) (cnt : BitVec 16) :
    Except DecodeReject Instr :=
  if stg = 0#2 ∧ ch = 0#4 then .ok (i cnt) else .error .fieldNonzero

/-- The three primitives, legal on the stages of one kind (30_encoding.md R123). -/
def decodeStaged (i : Stage → BitVec 4 → BitVec 16 → Instr) (fir : Bool) (stg : BitVec 2)
    (ch : BitVec 4) (cnt : BitVec 16) : Except DecodeReject Instr :=
  if (stageOf stg).isFir = fir then .ok (i (stageOf stg) ch cnt) else .error .badStage

/-- Decoding of a CMD word, 30_encoding.md R124. -/
def decodeCmd (w : Word) : Except DecodeReject Instr :=
  if cmdRsv w ≠ 0#2 then .error .rsvNonzero
  else
    if cmdOp w = 0x00#8 then decodeBare .nop (cmdStg w) (cmdCh w) (cmdCnt w)
    else if cmdOp w = 0x01#8 then decodeBare .prepare (cmdStg w) (cmdCh w) (cmdCnt w)
    else if cmdOp w = 0x10#8 then decodeCount .upsample (cmdStg w) (cmdCh w) (cmdCnt w)
    else if cmdOp w = 0x11#8 then decodeBare .downsample (cmdStg w) (cmdCh w) (cmdCnt w)
    else if cmdOp w = 0x12#8 then decodeCount .process (cmdStg w) (cmdCh w) (cmdCnt w)
    else if cmdOp w = 0x20#8 then decodeBare .wavefold (cmdStg w) (cmdCh w) (cmdCnt w)
    else if cmdOp w = 0x21#8 then decodeBare .saturate (cmdStg w) (cmdCh w) (cmdCnt w)
    else if cmdOp w = 0x22#8 then decodeBare .vibrato (cmdStg w) (cmdCh w) (cmdCnt w)
    else if cmdOp w = 0x30#8 then decodeStaged .convDirect true (cmdStg w) (cmdCh w) (cmdCnt w)
    else if cmdOp w = 0x31#8 then decodeStaged .convPoly true (cmdStg w) (cmdCh w) (cmdCnt w)
    else if cmdOp w = 0x32#8 then decodeStaged .rlpRun false (cmdStg w) (cmdCh w) (cmdCnt w)
    else .error .unknownOp

/-- Decoding of a register write: the format is told by the register (30_encoding.md R120). -/
def decode (r : RegWrite) : Except DecodeReject Instr :=
  if r.addr = cmdAddr then decodeCmd r.data
  else if r.addr = osReqAddr then .ok (.setEnabled r.data)
  else if r.addr = latTickAddr then .ok (.latTick r.data)
  else .error .notOperation

/-- `encode(OP, STG, CH, CNT) = CNT·2^16 + CH·2^12 + STG·2^8 + OP` with RSV 0
(30_encoding.md R121). -/
def cmdWord (op : BitVec 8) (stg : BitVec 2) (ch : BitVec 4) (cnt : BitVec 16) : Word :=
  cnt ++ ch ++ 0#2 ++ stg ++ op

/-- The write that an operation is (30_encoding.md R121, R123, R128). -/
def encode : Instr → RegWrite
  | .nop => ⟨cmdAddr, cmdWord 0x00#8 0#2 0#4 0#16⟩
  | .prepare => ⟨cmdAddr, cmdWord 0x01#8 0#2 0#4 0#16⟩
  | .upsample n => ⟨cmdAddr, cmdWord 0x10#8 0#2 0#4 n⟩
  | .downsample => ⟨cmdAddr, cmdWord 0x11#8 0#2 0#4 0#16⟩
  | .process n => ⟨cmdAddr, cmdWord 0x12#8 0#2 0#4 n⟩
  | .wavefold => ⟨cmdAddr, cmdWord 0x20#8 0#2 0#4 0#16⟩
  | .saturate => ⟨cmdAddr, cmdWord 0x21#8 0#2 0#4 0#16⟩
  | .vibrato => ⟨cmdAddr, cmdWord 0x22#8 0#2 0#4 0#16⟩
  | .convDirect stg ch n => ⟨cmdAddr, cmdWord 0x30#8 stg.index ch n⟩
  | .convPoly stg ch n => ⟨cmdAddr, cmdWord 0x31#8 stg.index ch n⟩
  | .rlpRun stg ch n => ⟨cmdAddr, cmdWord 0x32#8 stg.index ch n⟩
  | .setEnabled data => ⟨osReqAddr, data⟩
  | .latTick data => ⟨latTickAddr, data⟩

/-- What the decoder reads from an opcode-table row's bits. A row's word is a CMD word; it has 32
bits and no operand word. A word cannot say that it is meant for OS_REQ or LAT_TICK, whose table
rows fix no bit, so those two rows have no word of their own here (log 9). -/
def decodeTableWord (nbits w : Nat) : Option Instr :=
  if nbits ≤ 32 ∧ w < 2 ^ 32 then (decode ⟨cmdAddr, BitVec.ofNat 32 w⟩).toOption else none

end Sys2Proof
end

