-- ==== Sys2Proof/Machine/Registers.lean ====
section
/-! DEFINITION. The register file (10_state.md; offsets 20_memory.md R83): which register an offset
names, its access kind, its legal values, what a read returns and what a write does. -/

namespace Sys2Proof.Machine

/-- The registers, in the order of 20_memory.md R83. -/
inductive Reg where
  | id
  | version
  | param0
  | param1
  | cmd
  | status
  | errcode
  | osReq
  | latTick
  | latPub
  | latDirty
  | osLat
  | vibLat
  | osTotal
  | vibTotal
  | fsLo
  | fsHi
  | blockSize
  | nchIn
  | nchOut
  | upFsLo
  | upFsHi
  | upBlock
  | fxCtrl
  | wfDrive
  | satDrive
  | vibFreq
  | vibDepth
  | vibLen
  | vibPhase
  | vibInc
  | irLenUp4
  | irLenDn4
  | rlpNsecUp2
  | rlpNsecDn2
  | rlpLatUp2
  | rlpLatDn2
  | wlen
  | wch
  | wn
deriving DecidableEq, Repr

/-- The byte offset of a register (20_memory.md R83). -/
def Reg.offset : Reg → Nat
  | .id => 0x000
  | .version => 0x004
  | .param0 => 0x008
  | .param1 => 0x00C
  | .cmd => 0x010
  | .status => 0x014
  | .errcode => 0x018
  | .osReq => 0x01C
  | .latTick => 0x020
  | .latPub => 0x024
  | .latDirty => 0x028
  | .osLat => 0x02C
  | .vibLat => 0x030
  | .osTotal => 0x034
  | .vibTotal => 0x038
  | .fsLo => 0x040
  | .fsHi => 0x044
  | .blockSize => 0x048
  | .nchIn => 0x04C
  | .nchOut => 0x050
  | .upFsLo => 0x054
  | .upFsHi => 0x058
  | .upBlock => 0x05C
  | .fxCtrl => 0x060
  | .wfDrive => 0x064
  | .satDrive => 0x068
  | .vibFreq => 0x06C
  | .vibDepth => 0x070
  | .vibLen => 0x074
  | .vibPhase => 0x078
  | .vibInc => 0x07C
  | .irLenUp4 => 0x080
  | .irLenDn4 => 0x084
  | .rlpNsecUp2 => 0x088
  | .rlpNsecDn2 => 0x08C
  | .rlpLatUp2 => 0x090
  | .rlpLatDn2 => 0x094
  | .wlen => 0x098
  | .wch => 0x09C
  | .wn => 0x0A0

/-- Every register, in address order. -/
def Reg.all : List Reg :=
  [.id, .version, .param0, .param1, .cmd, .status, .errcode, .osReq, .latTick, .latPub, .latDirty,
   .osLat, .vibLat, .osTotal, .vibTotal] ++
  [.fsLo, .fsHi, .blockSize, .nchIn, .nchOut, .upFsLo, .upFsHi, .upBlock, .fxCtrl, .wfDrive,
   .satDrive, .vibFreq, .vibDepth, .vibLen, .vibPhase, .vibInc] ++
  [.irLenUp4, .irLenDn4, .rlpNsecUp2, .rlpNsecDn2, .rlpLatUp2, .rlpLatDn2, .wlen, .wch, .wn]

/-- The register at a byte offset (20_memory.md R83); 0x03C is unmapped. -/
def Reg.at? (a : Nat) : Option Reg := Reg.all.find? (fun r => r.offset = a)

/-- The access kinds of 10_state.md R31. STATUS mixes RO and W1C fields. -/
inductive RegAccess where
  | ro
  | wo
  | rw
  | rwc
  | w1c
deriving DecidableEq, Repr

/-- The access kind of a register (10_state.md R32 to R50). -/
def Reg.access : Reg → RegAccess
  | .cmd => .wo
  | .latTick => .wo
  | .status => .w1c
  | .osReq => .rw
  | .fsLo => .rw
  | .fsHi => .rw
  | .blockSize => .rw
  | .nchIn => .rwc
  | .nchOut => .rwc
  | .fxCtrl => .rw
  | .wfDrive => .rw
  | .satDrive => .rw
  | .vibFreq => .rw
  | .vibDepth => .rw
  | .irLenUp4 => .rwc
  | .irLenDn4 => .rwc
  | .rlpNsecUp2 => .rwc
  | .rlpNsecDn2 => .rwc
  | .rlpLatUp2 => .rw
  | .rlpLatDn2 => .rw
  | .id => .ro
  | .version => .ro
  | .param0 => .ro
  | .param1 => .ro
  | .errcode => .ro
  | .latPub => .ro
  | .latDirty => .ro
  | .osLat => .ro
  | .vibLat => .ro
  | .osTotal => .ro
  | .vibTotal => .ro
  | .upFsLo => .ro
  | .upFsHi => .ro
  | .upBlock => .ro
  | .vibLen => .ro
  | .vibPhase => .ro
  | .vibInc => .ro
  | .wlen => .ro
  | .wch => .ro
  | .wn => .ro

/-- PARAM0 (10_state.md R33): TAP_MAX 31:16, RLP_SEC_MAX 15:8, NCH_MAX 7:0. -/
def Params.param0 (p : Params) : Word :=
  BitVec.ofNat 16 p.tapMax ++ BitVec.ofNat 8 p.rlpSecMax ++ BitVec.ofNat 8 p.nchMax

/-- PARAM1 (10_state.md R33): VIB_MAX 31:16, BLK_MAX 15:0. -/
def Params.param1 (p : Params) : Word := BitVec.ofNat 16 p.vibMax ++ BitVec.ofNat 16 p.blkMax

/-- What a read of a register returns (10_state.md R31 to R50). -/
def State.readReg (s : State) : Reg → Word
  | .id => 0x4F535431#32
  | .version => 0x00010000#32
  | .param0 => Params.param0 s.params
  | .param1 => Params.param1 s.params
  | .cmd => 0#32
  | .status => s.statusWord
  | .errcode => s.errcode.setWidth 32
  | .osReq => (BitVec.ofBool s.osReq).setWidth 32
  | .latTick => 0#32
  | .latPub => s.latPub
  | .latDirty => (BitVec.ofBool s.vibDirty ++ BitVec.ofBool s.osDirty).setWidth 32
  | .osLat => s.osLat
  | .vibLat => s.vibLat
  | .osTotal => s.osTotal
  | .vibTotal => s.vibTotal
  | .fsLo => s.fsLo
  | .fsHi => s.fsHi
  | .blockSize => s.blockSize.setWidth 32
  | .nchIn => s.nchIn
  | .nchOut => s.nchOut
  | .upFsLo => s.upFsLo
  | .upFsHi => s.upFsHi
  | .upBlock => s.upBlock.setWidth 32
  | .fxCtrl => s.fxCtrl.setWidth 32
  | .wfDrive => s.wfDrive
  | .satDrive => s.satDrive
  | .vibFreq => s.vibFreq
  | .vibDepth => s.vibDepth
  | .vibLen => s.vibLen.setWidth 32
  | .vibPhase => s.vph
  | .vibInc => s.vibInc
  | .irLenUp4 => s.irLenUp4
  | .irLenDn4 => s.irLenDn4
  | .rlpNsecUp2 => s.rlpNsecUp2
  | .rlpNsecDn2 => s.rlpNsecDn2
  | .rlpLatUp2 => s.rlpLatUp2.setWidth 32
  | .rlpLatDn2 => s.rlpLatDn2.setWidth 32
  | .wlen => s.wlen
  | .wch => s.wch
  | .wn => s.wn

/-- The legal values of NCH_IN and NCH_OUT (10_state.md R42). -/
def legalChannels (p : Params) (v : Word) : Bool :=
  decide (1 ≤ v.toNat) && decide (v.toNat ≤ p.nchMax)

/-- The legal values of IR_LEN_s: odd, 1 .. TAP_MAX (10_state.md R47). -/
def legalIrLen (p : Params) (v : Word) : Bool :=
  decide (v.toNat % 2 = 1) && decide (v.toNat ≤ p.tapMax)

/-- The legal values of RLP_NSEC_s (10_state.md R48). -/
def legalNsec (p : Params) (v : Word) : Bool :=
  decide (1 ≤ v.toNat) && decide (v.toNat ≤ p.rlpSecMax)

/-- Whether `v` may be written to the register: only the RWC registers check (10_state.md R31). -/
def Reg.legal (p : Params) (v : Word) : Reg → Bool
  | .nchIn => legalChannels p v
  | .nchOut => legalChannels p v
  | .irLenUp4 => legalIrLen p v
  | .irLenDn4 => legalIrLen p v
  | .rlpNsecUp2 => legalNsec p v
  | .rlpNsecDn2 => legalNsec p v
  | _ => true

/-- Queue a command (10_state.md R35). -/
def State.queueCommand (s : State) (w : Word) : State :=
  { s with pendCmd := w, engPhase := .queued }

/-- The IR commit of a stage (42_convolution.md R172). -/
def State.commitIr (s : State) (g : FirStage) (v : Word) : State :=
  match g with
  | .up4 => { s with irLenUp4 := v, firUp4 := zeroFir s.params, osDirty := true }
  | .dn4 => { s with irLenDn4 := v, firDn4 := zeroFir s.params, osDirty := true }

/-- The section-count commit of a stage (43_recursive.md R192). -/
def State.commitNsec (s : State) (g : RlpStage) (v : Word) : State :=
  match g with
  | .up2 => { s with rlpNsecUp2 := v, rlpUp2 := zeroRlp s.params }
  | .dn2 => { s with rlpNsecDn2 := v, rlpDn2 := zeroRlp s.params }

/-- What a permitted write of a legal value does (10_state.md R31 to R50). A write to an RO register
changes nothing. OS_REQ and LAT_TICK are the operations SET_ENABLED and LAT_TICK, which the step
runs by `exec` before it would come here. -/
def State.writeReg (s : State) (v : Word) : Reg → State
  | .cmd => s.queueCommand v
  | .status => s.writeStatus v
  | .osReq => { s with osReq := v.getLsbD 0 }
  | .latTick => s.latTick
  | .fsLo => { s with fsLo := v }
  | .fsHi => { s with fsHi := v }
  | .blockSize => { s with blockSize := v.setWidth 16 }
  | .nchIn => { s with nchIn := v }
  | .nchOut => { s with nchOut := v }
  | .fxCtrl => { s with fxCtrl := v.setWidth 3 }
  | .wfDrive => { s with wfDrive := v }
  | .satDrive => { s with satDrive := v }
  | .vibFreq => { s with vibFreq := v }
  | .vibDepth => { s with vibDepth := v }
  | .irLenUp4 => s.commitIr .up4 v
  | .irLenDn4 => s.commitIr .dn4 v
  | .rlpNsecUp2 => s.commitNsec .up2 v
  | .rlpNsecDn2 => s.commitNsec .dn2 v
  | .rlpLatUp2 => { s with rlpLatUp2 := v.setWidth 16, osDirty := true }
  | .rlpLatDn2 => { s with rlpLatDn2 := v.setWidth 16, osDirty := true }
  | .id => s
  | .version => s
  | .param0 => s
  | .param1 => s
  | .errcode => s
  | .latPub => s
  | .latDirty => s
  | .osLat => s
  | .vibLat => s
  | .osTotal => s
  | .vibTotal => s
  | .upFsLo => s
  | .upFsHi => s
  | .upBlock => s
  | .vibLen => s
  | .vibPhase => s
  | .vibInc => s
  | .wlen => s
  | .wch => s
  | .wn => s

end Sys2Proof.Machine
end

