-- ==== Sys2Proof/Machine/Bus.lean ====
section
/-! DEFINITION. The bus port (20_memory.md): the address map, the checks of an access in priority
order, and what a permitted access does. -/

namespace Sys2Proof.Machine

/-- What a mapped address names: a register or an element of a window. -/
inductive Target where
  | reg (r : Reg)
  | element
deriving DecidableEq, Repr

/-- The element exists in a window of channels with stride `stride` bytes and `len` words each
(20_memory.md R84). -/
def channelElement (p : Params) (base stride len a : Nat) : Bool :=
  decide ((a - base) / stride < p.nchMax) && decide ((a - base) % stride / 4 < len)

/-- The element that an aligned window address names exists (20_memory.md R83, R84). -/
def elementExists (p : Params) (a : Nat) : Bool :=
  if 0x1000 ≤ a ∧ a ≤ 0x10FF then
    decide ((a - 0x1000) % 0x80 / 0x20 < p.rlpSecMax) && decide ((a - 0x1000) % 0x20 / 4 ≤ 4)
  else if 0x2000 ≤ a ∧ a ≤ 0x2FFF then decide ((a - 0x2000) / 4 < p.tapMax)
  else if 0x3000 ≤ a ∧ a ≤ 0x3FFF then decide ((a - 0x3000) / 4 < p.tapMax)
  else if 0x100000 ≤ a ∧ a ≤ 0x13FFFF then channelElement p 0x100000 0x10000 p.blkMax a
  else if 0x200000 ≤ a ∧ a ≤ 0x23FFFF then channelElement p 0x200000 0x10000 p.blkMax a
  else if 0x400000 ≤ a ∧ a ≤ 0x4FFFFF then channelElement p 0x400000 0x40000 (4 * p.blkMax) a
  else false

/-- What an address names; none when it is unmapped (20_memory.md R83, R84, R86). -/
def targetAt (p : Params) (a : Nat) : Option Target :=
  match Reg.at? a with
  | some r => some (.reg r)
  | none => if elementExists p a then some .element else none

/-- The registers that may be written while BUSY = 1 (20_memory.md R94). -/
def Reg.writableWhileBusy (r : Reg) : Bool :=
  decide (r = .status) || decide (r = .osReq) || decide (r = .latTick)

/-- What an access of the right form to a mapped address does: the target, or the error it raises
(20_memory.md R90, R91, R94). -/
def checkTarget (s : State) (a : BusAccess) : Target → Except ErrorCode Target
  | .element => if s.busy then .error .busy else .ok .element
  | .reg r =>
    match a.kind with
    | .read => .ok (.reg r)
    | .write =>
      if s.busy && !r.writableWhileBusy then .error .busy
      else if Reg.legal s.params a.wdata r then .ok (.reg r)
      else .error .range

/-- The checks of an access in priority order: ERR_BUS, ERR_BUSY, ERR_RANGE (20_memory.md R82, R86,
R90, R91; 60_exceptions.md R305). -/
def checkAccess (s : State) (a : BusAccess) : Except ErrorCode Target :=
  if a.size = 4 ∧ a.addr.toNat % 4 = 0 then
    match targetAt s.params a.addr.toNat with
    | some t => checkTarget s a t
    | none => .error .bus
  else .error .bus

/-- The state with the port's answer. -/
def State.answer (s : State) (resp : Response) (rdata : Word) : State :=
  { s with reply := some ⟨resp, rdata⟩ }

/-- An access that raises: the error bookkeeping, and the answer ERROR with read data 0
(20_memory.md R90, R91; 60_exceptions.md R303). -/
def State.refuseAccess (s : State) (e : ErrorCode) : State := (s.raise e).answer .error 0#32

/-- The data that a read of a target returns (20_memory.md R85, R90). -/
def State.readTarget (s : State) (addr : Nat) : Target → Word
  | .reg r => s.readReg r
  | .element => s.loadWord addr

/-- What a write to a target does (20_memory.md R85, R91). -/
def State.writeTarget (s : State) (addr : Nat) (v : Word) : Target → State
  | .reg r => s.writeReg v r
  | .element => s.storeWord addr v

/-- What a permitted access does, with its answer OKAY (20_memory.md R90, R91). -/
def State.performAccess (s : State) (a : BusAccess) (t : Target) : State :=
  match a.kind with
  | .read => s.answer .okay (s.readTarget a.addr.toNat t)
  | .write => (s.writeTarget a.addr.toNat a.wdata t).answer .okay 0#32

/-- The operation that a permitted access is, if it is one of the two REGW operations
(30_encoding.md R120): a write to OS_REQ or LAT_TICK. -/
def regwOperation (a : BusAccess) : Option Instr :=
  match a.kind with
  | .read => none
  | .write =>
    if a.addr = cmdAddr then none else (decode ⟨a.addr, a.wdata⟩).toOption

end Sys2Proof.Machine
end

