-- ==== Sys2Proof/Machine/Engine.lean ====
section
/-! DEFINITION. The ENGINE's START step, what its FINISH step decodes, and the reset input
(60_exceptions.md R322; 70_reset_and_hazards.md R340). -/

namespace Sys2Proof.Machine

/-- START: sample the request (60_exceptions.md R322). -/
def State.start (s : State) : State := { s with reqSnap := s.osReq, engPhase := .started }

/-- The pending command word, decoded (30_encoding.md R124). -/
def State.pending? (s : State) : Option Instr := (decode ⟨cmdAddr, s.pendCmd⟩).toOption

/-- FINISH of an illegal word: ERR_ILLEGAL and nothing else (30_encoding.md R125). -/
def State.finishIllegal (s : State) : Result := finishCommand s (.error .illegal)

/-- Reset between two steps: every item of R341, on the same machine; the outside world's further
steps stay to come (log 10). -/
def State.resetInput (s : State) : State :=
  { State.afterReset s.params (s.resets + 1) with inputs := s.inputs }

/-- The queued word is in the phase in which the next ENGINE turn finishes it: what a CMD write and a
START step would have done (10_state.md R35; 60_exceptions.md R322), with that turn next (log 8). -/
def State.withCommand (s : State) (w : Word) : State :=
  { s with
    pendCmd := w
    engPhase := .started
    reqSnap := s.osReq
    inputs := .engine :: s.inputs }

end Sys2Proof.Machine
end

