-- ==== Sys2Proof/Machine/Step.lean ====
section
/-! DEFINITION. One step of the interleaving (20_memory.md R92; 60_exceptions.md R320 to R322). -/

namespace Sys2Proof.Machine

/-- The ENGINE's turn: START when QUEUED, FINISH when STARTED; with no step enabled nothing happens
(60_exceptions.md R321, R322). -/
def engineTurn (s : State) : Result :=
  match s.engPhase with
  | .idle => .next s
  | .queued => .next s.start
  | .started =>
    match s.pending? with
    | some i => exec i s
    | none => s.finishIllegal

/-- A bus access: refused with its error, or run. A write to OS_REQ or LAT_TICK is an operation
(20_memory.md R90, R91; 30_encoding.md R120). -/
def busTurn (a : BusAccess) (s : State) : Result :=
  match checkAccess s a with
  | .error e => .next (s.refuseAccess e)
  | .ok t =>
    match regwOperation a with
    | some i => exec i (s.answer .okay 0#32)
    | none => .next (s.performAccess a t)

/-- One step: the next event of the interleaving; with none to come, the ENGINE's turn (log 1). -/
def step (s : State) : Host.Outcome State Fault Refusal :=
  match s.inputs with
  | [] => engineTurn s
  | .engine :: rest => engineTurn { s with inputs := rest }
  | .bus a :: rest => busTurn a { s with inputs := rest }
  | .reset :: rest => .next { s with inputs := rest }.resetInput

/-- The state whose very next step is the FINISH step of the command word `w` (log 8). -/
def State.withFetchWord (s : State) (_nbits w : Nat) : State := s.withCommand (BitVec.ofNat 32 w)

end Sys2Proof.Machine
end

