-- ==== Sys2Proof/Safety.lean ====
section
/-! DEFINITION. The terms in which claims about the machine are stated: the invariants of 10_state.md
R64 and their companions, and what it means to leave the rest of memory alone. -/

namespace Sys2Proof.Machine

/-! ### Invariants -/

/-- Every per-channel and per-section list has its length (10_state.md R55 to R57). -/
def State.Shape (s : State) : Prop :=
  s.firUp4.length = s.params.nchMax ∧ s.firDn4.length = s.params.nchMax ∧
  s.rlpUp2.length = s.params.nchMax ∧ s.rlpDn2.length = s.params.nchMax ∧
  s.vib.length = s.params.nchMax ∧
  (∀ l ∈ s.rlpUp2, l.length = s.params.rlpSecMax) ∧ (∀ l ∈ s.rlpDn2, l.length = s.params.rlpSecMax)

/-- The checked registers hold legal values (10_state.md R64, first and third items). -/
def State.RegistersLegal (s : State) : Prop :=
  legalChannels s.params s.nchIn = true ∧ legalChannels s.params s.nchOut = true ∧
  legalIrLen s.params s.irLenUp4 = true ∧ legalIrLen s.params s.irLenDn4 = true ∧
  legalNsec s.params s.rlpNsecUp2 = true ∧ legalNsec s.params s.rlpNsecDn2 = true

/-- `CUR[s][c] < IR_LEN_s` (10_state.md R64, second item). -/
def State.CursorsInRange (s : State) : Prop :=
  (∀ l ∈ s.firUp4, l.cur < s.irLenUp4.toNat) ∧ (∀ l ∈ s.firDn4, l.cur < s.irLenDn4.toNat)

/-- VIB_LEN and VW (10_state.md R64, fourth item). -/
def State.VibratoInRange (s : State) : Prop :=
  if s.prepared then
    2 ≤ s.vibLen.toNat ∧ s.vibLen.toNat ≤ s.params.vibMax ∧ ∀ l ∈ s.vib, l.vw < s.vibLen.toNat
  else s.vibLen = 0#16

/-- WLEN, WCH and WN describe a work buffer (10_state.md R64, fifth item). -/
def State.WorkBufferLegal (s : State) : Prop :=
  1 ≤ s.wn.toNat ∧ s.wn.toNat ≤ s.params.blkMax ∧ 1 ≤ s.wch.toNat ∧ s.wch.toNat ≤ s.params.nchMax ∧
  (s.wlen.toNat = s.wn.toNat ∨ s.wlen.toNat = 4 * s.wn.toNat)

/-- The work-buffer registers in each mode (10_state.md R64, fifth item). -/
def State.WorkGeometry (s : State) : Prop :=
  match s.wmode with
  | .none => (s.wn = 0#32 ∧ s.wch = 0#32 ∧ s.wlen = 0#32) ∨ s.WorkBufferLegal
  | .pass => s.WorkBufferLegal ∧ s.wlen = s.wn
  | .trans => s.WorkBufferLegal ∧ s.wlen = s.wn
  | .os4 => s.WorkBufferLegal ∧ s.wlen.toNat = 4 * s.wn.toNat

/-- The invariants of 10_state.md R64 but for the phase, with the legal parameters (00_scope.md R7)
and the list lengths they rest on. -/
def State.Inv (s : State) : Prop :=
  s.params.legal = true ∧ s.Shape ∧ s.RegistersLegal ∧ s.CursorsInRange ∧ s.VibratoInRange ∧
  s.WorkGeometry

/-- `0 <= VPH < 1, and VPH is not a NaN` (10_state.md R64, sixth item). -/
def State.PhaseInRange (s : State) : Prop := fle 0#32 s.vph = true ∧ flt s.vph f32One = true

/-- Every store is in its canonical form. -/
def State.StoresCanonical (s : State) : Prop :=
  Memory.wf s.mem = true ∧
  (∀ l ∈ s.firUp4, Store.wf FirLine.unlisted l.hist = true) ∧
  (∀ l ∈ s.firDn4, Store.wf FirLine.unlisted l.hist = true) ∧
  (∀ l ∈ s.vib, Store.wf (VibLine.unlisted s.prepared) l.vb = true)

/-- ERRCODE records an error exactly while ERR = 1, and only codes of 60_exceptions.md R301
(10_state.md R37). -/
def State.ErrorRecord (s : State) : Prop :=
  (s.err = false ↔ s.errcode = 0#8) ∧ s.errcode.toNat ≤ 6

/-- How the mode bits go together (44_orchestrator.md R205, R212 to R214, R234). -/
def State.ModesAgree (s : State) : Prop :=
  ((s.wmode ≠ .none ∨ s.active = true ∨ s.prepareReq = true) → s.prepared = true) ∧
  (s.wmode = .os4 → s.active = true ∧ s.prepareReq = false) ∧
  (s.wmode = .pass → s.active = false ∧ s.prepareReq = false) ∧
  (s.wmode = .trans → s.prepareReq = true)

/-- The totals written back onto the inducers are the published one (45_latency.md R245). -/
def State.TotalsAgree (s : State) : Prop := s.osTotal = s.latPub ∧ s.vibTotal = s.latPub

/-! ### Frames of memory -/

/-- The byte address lies in the block of `n` words from `base` on. -/
def inWords (base n a : Nat) : Prop := base ≤ a ∧ a < base + 4 * n

/-- The byte address lies in one of the first `chans` channel blocks of `n` words; `elem c i` is the
address of the element i of channel c. -/
def inChannels (elem : Nat → Nat → Nat) (chans n a : Nat) : Prop := ∃ c < chans, inWords (elem c 0) n a

/-- Every byte outside the given addresses reads as before. -/
def sameBytesOutside (s t : State) (inside : Nat → Prop) : Prop :=
  ∀ a, ¬ inside a → t.readByte a = s.readByte a

/-! ### The address map -/

/-- The mapped words of REGS: 0x000 to 0x038 and 0x040 to 0x0A0 in steps of 4 (20_memory.md R83). -/
def mappedRegister (a : Nat) : Prop := a % 4 = 0 ∧ a ≤ 0x0A0 ∧ a ≠ 0x03C

/-- The addresses of the elements that exist (20_memory.md R84). -/
def elementAddress (p : Params) (a : Nat) : Prop :=
  (∃ g q j, q < p.rlpSecMax ∧ j ≤ 4 ∧ a = coefAddr g q j) ∨
  (∃ g k, k < p.tapMax ∧ a = tapAddr g k) ∨
  (∃ c i, c < p.nchMax ∧ i < p.blkMax ∧ a = inAddr c i) ∨
  (∃ c i, c < p.nchMax ∧ i < p.blkMax ∧ a = outAddr c i) ∨
  (∃ c i, c < p.nchMax ∧ i < 4 * p.blkMax ∧ a = scrAddr c i)

/-! ### The opcode table -/

/-- Match and mask of the eleven CMD rows of spec/opcode_table.json. -/
def cmdRows : List (Word × Word) :=
  [(0x00000000#32, 0xFFFFFFFF#32), (0x00000001#32, 0xFFFFFFFF#32), (0x00000010#32, 0x0000FFFF#32),
   (0x00000011#32, 0xFFFFFFFF#32), (0x00000012#32, 0x0000FFFF#32), (0x00000020#32, 0xFFFFFFFF#32),
   (0x00000021#32, 0xFFFFFFFF#32), (0x00000022#32, 0xFFFFFFFF#32), (0x00000230#32, 0x00000EFF#32),
   (0x00000231#32, 0x00000EFF#32), (0x00000032#32, 0x00000EFF#32)]

/-! ### Steps -/

/-- The ENGINE takes the next turn, and `rest` is what comes after it: its turn is the next event, or
no event is to come. -/
def State.EngineNext (s : State) (rest : List Event) : Prop :=
  s.inputs = .engine :: rest ∨ (s.inputs = [] ∧ rest = [])

/-- The next event is the write of `v` to the address `a` by some agent. -/
def State.WriteNext (s : State) (a v : Word) (rest : List Event) : Prop :=
  ∃ g, s.inputs = .bus ⟨g, .write, a, 4, v⟩ :: rest

/-- The next event is a read of the address `a` by some agent. -/
def State.ReadNext (s : State) (a : Word) (rest : List Event) : Prop :=
  ∃ g v, s.inputs = .bus ⟨g, .read, a, 4, v⟩ :: rest

/-- The state after an operation, when it answers one. -/
def after (i : Instr) (s : State) : State :=
  match exec i s with
  | .next t => t
  | .fault _ => s
  | .refused _ => s

/-- The state after the effect commands that FX_CTRL selects, run one by one (44_orchestrator.md
R222). -/
def afterSelectedEffects (s : State) : State :=
  let s := if s.fxCtrl.getLsbD 0 then after .wavefold s else s
  let s := if s.fxCtrl.getLsbD 1 then after .saturate s else s
  if s.fxCtrl.getLsbD 2 then after .vibrato s else s

/-- A completed command: DONE set, the ENGINE idle (60_exceptions.md R322). -/
def State.completed (s : State) : State := { s with done := true, engPhase := .idle }

/-- A command that raised `code`: only the error bookkeeping, the ENGINE idle (60_exceptions.md R303,
R322). -/
def State.raised (s : State) (code : BitVec 8) : State :=
  { s with errcode := if s.err then s.errcode else code, err := true, engPhase := .idle }

/-- NUMERR after a command that wrote these channels (10_state.md R63). -/
def State.NumerrAfter (s t : State) (elem : Nat → Nat → Nat) (chans n : Nat) : Prop :=
  t.numerr = true ↔
    s.numerr = true ∨ ∃ c < chans, ∃ i < n, isFinite (t.loadWord (elem c i)) = false

/-! ### The vibrato, frame by frame -/

/-- One frame: every channel's sample through its line with the frame's one offset
(46_effects.md R275, R282). -/
def vibFrame (ftz prepared : Bool) (free : Nat → Nat → Word) (len : Nat) (off : Word) :
    Nat → List VibLine → List Word → List VibLine × List Word
  | _, [], _ => ([], [])
  | _, l :: ls, [] => (l :: ls, [])
  | c, l :: ls, x :: xs =>
    let r := vibSample ftz prepared (free c) len l x off
    let rs := vibFrame ftz prepared free len off (c + 1) ls xs
    (r.1 :: rs.1, r.2 :: rs.2)

/-- VIBRATO in the order of 46_effects.md R275: frame after frame, the LFO once per frame. It gives
the output frames, the phase and the lines. -/
def vibFramesInOrder (ftz prepared : Bool) (free : Nat → Nat → Word) (sine : Word → Word)
    (depth inc : Word) (len : Nat) :
    List (List Word) → Word → List VibLine → List (List Word) × Word × List VibLine
  | [], vph, ls => ([], vph, ls)
  | f :: fs, vph, ls =>
    let r := vibFrame ftz prepared free len (vibOffset ftz depth (sine vph) len) 0 ls f
    let rest := vibFramesInOrder ftz prepared free sine depth inc len fs (vibAdvance ftz inc vph) r.1
    (r.2 :: rest.1, rest.2)

/-- The frames of the work buffer: frame i is the samples SCR[c][i] for c < WCH (46_effects.md
R275). -/
def State.workFrames (s : State) : List (List Word) :=
  (List.range s.wlen.toNat).map (fun i =>
    (List.range s.wch.toNat).map (fun c => s.loadWord (scrAddr c i)))

/-! ### Arithmetic -/

/-- The flush of an operand or a result: with FTZ = 1 a subnormal becomes a zero of its sign
(00_scope.md R14). -/
def flush (ftz : Bool) (w : Word) : Word :=
  if ftz = true ∧ expField w = 0 then zero (signBit w) else w

/-- A NaN of any payload (00_scope.md R16). -/
def isNaN (w : Word) : Prop := expField w = 255 ∧ fracField w ≠ 0

/-- The samples of a block with the two before it, which the state holds: number 0 is the older of them,
number 1 the later, number i + 2 the sample i of the block (43_recursive.md R191). -/
def sampleAt (one two : Word) (xs : List Word) (i : Nat) : Word :=
  if i = 0 then two else if i = 1 then one else xs.getD (i - 2) 0#32

/-! ### Blocks -/

/-- The UPSAMPLE block is transitional (44_orchestrator.md R212). -/
def State.TransitionalNow (s : State) : Prop := s.prepareReq = true ∨ s.reqSnap ≠ s.active

/-- The defined bits of a register that can be written and read back (10_state.md R38 to R49). -/
def Reg.writtenBits : Reg → Word
  | .osReq => 0x1#32
  | .blockSize => 0xFFFF#32
  | .fxCtrl => 0x7#32
  | .rlpLatUp2 => 0xFFFF#32
  | .rlpLatDn2 => 0xFFFF#32
  | _ => 0xFFFFFFFF#32

end Sys2Proof.Machine
end

