-- ==== Sys2Proof/Certificates/Slice0/Obligations.lean ====
section
/-! DEFINITION. The statements for the provers. A docstring names the rules of spec/ that a statement
formalises; where a clause is the model's own choice it names the log entry. -/

open Sys2Proof Sys2Proof.Machine

/-! ### Encoding -/

/-- 30_encoding.md R130: the seven example words stand for their operations, and the two illegal ones
raise ERR_ILLEGAL (code 0x01) at the finish step. -/
def Obligations.DecodesSpecExampleWords : Prop :=
  decode ⟨cmdAddr, 0x00040010#32⟩ = .ok (.upsample 4#16) ∧
  decode ⟨cmdAddr, 0x00400012#32⟩ = .ok (.process 64#16) ∧
  decode ⟨cmdAddr, 0x00050330#32⟩ = .ok (.convDirect .dn4 0#4 5#16) ∧
  decode ⟨cmdAddr, 0x00040231#32⟩ = .ok (.convPoly .up4 0#4 4#16) ∧
  decode ⟨cmdAddr, 0x00081231#32⟩ = .ok (.convPoly .up4 1#4 8#16) ∧
  decode ⟨cmdAddr, 0x00050032#32⟩ = .ok (.rlpRun .up2 0#4 5#16) ∧
  decode ⟨cmdAddr, 0x00031132#32⟩ = .ok (.rlpRun .dn2 1#4 3#16) ∧
  ∀ s : State, s.engPhase = .started → (s.pendCmd = 0x00000401#32 ∨ s.pendCmd = 0x00000130#32) →
    engineTurn s = .next (s.raised 0x01#8)

/-- 30_encoding.md R121, R123: decoding the encoding of a legal operation gives it back. -/
def Obligations.DecodeOfEncodeIsIdentity : Prop :=
  ∀ i : Instr, i.WellFormed = true → decode (encode i) = .ok i

/-- 30_encoding.md R123, R124: a write that decodes to an operation is exactly that operation's
encoding, and the operation is well formed; so no bit of a legal word is ignored. -/
def Obligations.DecodedWriteIsItsEncoding : Prop :=
  ∀ (r : RegWrite) (i : Instr), decode r = .ok i → i.WellFormed = true ∧ encode i = r

/-- 30_encoding.md R123 to R125: a CMD word is legal exactly when a row of the opcode table matches
it, and no two rows match one word. -/
def Obligations.LegalWordsMatchOpcodeTable : Prop :=
  ∀ w : Word,
    ((∃ i, decodeCmd w = .ok i) ↔ ∃ row ∈ cmdRows, w &&& row.2 = row.1) ∧
    ∀ row₁ ∈ cmdRows, ∀ row₂ ∈ cmdRows, w &&& row₁.2 = row₁.1 → w &&& row₂.2 = row₂.1 → row₁ = row₂

/-! ### Steps -/

/-- 60_exceptions.md R322 FINISH, 30_encoding.md R124: when it is the ENGINE's turn in phase STARTED
and the pending word decodes to an operation, the step is that operation. (That the ENGINE takes its
turn when no event is to come is the model's choice, log 1.) A word placed by `withFetchWord` (log 8)
is run by the next step. -/
def Obligations.StepRunsDecodedCommand : Prop :=
  (∀ (s : State) (rest : List Event) (i : Instr), s.EngineNext rest → s.engPhase = .started →
    decode ⟨cmdAddr, s.pendCmd⟩ = .ok i → step s = exec i { s with inputs := rest }) ∧
  ∀ (s : State) (nbits w : Nat) (i : Instr), decode ⟨cmdAddr, BitVec.ofNat 32 w⟩ = .ok i →
    step (s.withFetchWord nbits w) =
      exec i { s with pendCmd := BitVec.ofNat 32 w, engPhase := .started, reqSnap := s.osReq }

/-- 30_encoding.md R120, 20_memory.md R94: a write to OS_REQ or LAT_TICK is executed by the bus write
itself, in every phase of the ENGINE. (That the answer OKAY to a write carries read data 0 is the
model's choice, log 11.) -/
def Obligations.StepRunsRegisterOperation : Prop :=
  ∀ (s : State) (rest : List Event) (g : Agent) (addr data : Word) (i : Instr),
    s.inputs = .bus ⟨g, .write, addr, 4, data⟩ :: rest → addr ≠ cmdAddr →
    decode ⟨addr, data⟩ = .ok i →
    step s = exec i { s with inputs := rest, reply := some ⟨.okay, 0#32⟩ }

/-- 60_exceptions.md R321, R322 START: in phase QUEUED the ENGINE's turn samples OS_REQ.EN. In phase
IDLE it has no enabled step and its turn does nothing (log 1). -/
def Obligations.EngineStartSamplesRequest : Prop :=
  ∀ (s : State) (rest : List Event), s.EngineNext rest →
    (s.engPhase = .queued →
      step s = .next { s with inputs := rest, reqSnap := s.osReq, engPhase := .started }) ∧
    (s.engPhase = .idle → step s = .next { s with inputs := rest })

/-- 30_encoding.md R125, 60_exceptions.md R303: finishing an illegal word raises ERR_ILLEGAL and
changes nothing else. (That the ENGINE takes its turn when no event is to come is the model's choice,
log 1.) -/
def Obligations.IllegalWordRaisesOnlyIllegal : Prop :=
  ∀ (s : State) (rest : List Event), s.EngineNext rest → s.engPhase = .started →
    (∀ i, decode ⟨cmdAddr, s.pendCmd⟩ ≠ .ok i) →
    step s = .next (State.raised { s with inputs := rest } 0x01#8)

/-- 60_exceptions.md R300, R310: nothing stops the machine; every step of every state answers a next
state. -/
def Obligations.EveryStepAnswersNext : Prop := ∀ s : State, ∃ t, step s = .next t

/-- 60_exceptions.md R321, R322: whatever the word and the state, two turns of the ENGINE leave it
IDLE, so that BUSY reads 0. -/
def Obligations.CommandFinishesWithinTwoTurns : Prop :=
  ∀ (s : State) (rest : List Event), s.inputs = .engine :: .engine :: rest →
    ∃ t u, step s = .next t ∧ step t = .next u ∧ u.busy = false ∧ u.statusWord.getLsbD 0 = false ∧
      u.inputs = rest

/-- 20_memory.md R94: while BUSY = 1 a bus access, whatever it is, changes nothing but its reply and
these, listed in full: the flags DONE, NUMERR and LAT_NEW, the error record (ERR and ERRCODE), OS_REQ,
LAT_PUB, the dirty flags and the totals written back. Commands write some of these too (DONE, NUMERR,
the error record, the dirty flags); every other part of the state stays. -/
def Obligations.BusyPortKeepsCommandInputs : Prop :=
  ∀ (s t : State) (a : BusAccess) (rest : List Event), s.busy = true →
    s.inputs = .bus a :: rest → step s = .next t →
    t = { s with
      inputs := rest, reply := t.reply, done := t.done, err := t.err, errcode := t.errcode,
      numerr := t.numerr, latNew := t.latNew, osReq := t.osReq, latPub := t.latPub,
      osDirty := t.osDirty, vibDirty := t.vibDirty, osTotal := t.osTotal, vibTotal := t.vibTotal }

/-! ### Reset -/

/-- 70_reset_and_hazards.md R340, R341: what reset leaves, for every legal size: every register
(PARAM0 and PARAM1 by 10_state.md R33), the unity taps, the reset coefficients, the zeroed filter
states, the empty vibrato lines, the idle ENGINE, and no byte of IN, OUT and SCR holding a value. The
reset input gives it from every state. (The model's choices: the parameters in force are kept and the
events to come stay, log 10; the counter of resets goes up by one, log 2.) -/
def Obligations.ResetTable : Prop :=
  (∀ (s : State) (rest : List Event), s.inputs = .reset :: rest →
    step s = .next { State.afterReset s.params (s.resets + 1) with inputs := rest }) ∧
  ∀ (p : Params) (n : Nat), p.legal = true →
    let s := State.afterReset p n
    s.params = p ∧ s.pendCmd = 0#32 ∧ s.engPhase = .idle ∧ s.reqSnap = false ∧
    (∀ r v, (r, v) ∈ [(Reg.id, 0x4F535431#32), (.version, 0x00010000#32),
      (.param0, BitVec.ofNat 32 (p.tapMax * 65536 + p.rlpSecMax * 256 + p.nchMax)),
      (.param1, BitVec.ofNat 32 (p.vibMax * 65536 + p.blkMax)), (.cmd, 0#32), (.status, 0#32), (.errcode, 0#32), (.osReq, 0#32), (.latTick, 0#32), (.latPub, 0#32),
      (.latDirty, 0#32), (.osLat, 0#32), (.vibLat, 0#32), (.osTotal, 0#32), (.vibTotal, 0#32),
      (.fsLo, 0#32), (.fsHi, 0#32), (.blockSize, 0#32), (.nchIn, 1#32), (.nchOut, 1#32),
      (.upFsLo, 0#32), (.upFsHi, 0#32), (.upBlock, 0#32), (.fxCtrl, 0#32),
      (.wfDrive, 0x3F800000#32), (.satDrive, 0#32), (.vibFreq, 0#32), (.vibDepth, 0#32),
      (.vibLen, 0#32), (.vibPhase, 0#32), (.vibInc, 0#32), (.irLenUp4, 1#32), (.irLenDn4, 1#32),
      (.rlpNsecUp2, 1#32), (.rlpNsecDn2, 1#32), (.rlpLatUp2, 1#32), (.rlpLatDn2, 1#32),
      (.wlen, 0#32), (.wch, 0#32), (.wn, 0#32)] → s.readReg r = v) ∧
    (∀ g, s.tap g 0 = 0x3F800000#32 ∧ ∀ k, 1 ≤ k → k < p.tapMax → s.tap g k = 0#32) ∧
    (∀ g, s.coefs g 0 = ⟨0x3E95F61A#32, 0x3F15F61A#32, 0x3E95F61A#32, 0#32, 0x3E2FB0CD#32⟩ ∧
      ∀ q, 1 ≤ q → q < p.rlpSecMax → s.coefs g q = ⟨0x3F800000#32, 0#32, 0#32, 0#32, 0#32⟩) ∧
    (∀ g, s.firLines g = List.replicate p.nchMax ⟨0, []⟩) ∧
    (∀ g, s.rlpLines g =
      List.replicate p.nchMax (List.replicate p.rlpSecMax ⟨0#32, 0#32, 0#32, 0#32⟩)) ∧
    s.vib = List.replicate p.nchMax ⟨0, []⟩ ∧
    ∀ a, 0x100000 ≤ a → Store.read Memory.unlisted s.mem a = none

/-! ### The bus -/

/-- 20_memory.md R83, R84, R86: an address is mapped exactly when it is the offset of a register or
the address of an element that exists; the target is that register or the element. -/
def Obligations.MappedAddressesAreRegistersAndElements : Prop :=
  ∀ (p : Params) (a : Nat), p.legal = true → a % 4 = 0 →
    ((∃ r : Reg, r.offset = a) ↔ mappedRegister a) ∧
    (∀ r, targetAt p a = some (.reg r) ↔ r.offset = a) ∧
    (targetAt p a = some .element ↔ elementAddress p a)

/-- 20_memory.md R86 (and R82): an access to an unmapped address, of another size or misaligned has no
effect, answers ERROR with read data 0, and raises ERR_BUS (code 0x06), BUSY or not. -/
def Obligations.BadAccessRaisesBusError : Prop :=
  ∀ (s : State) (a : BusAccess) (rest : List Event), s.params.legal = true →
    s.inputs = .bus a :: rest →
    (a.size ≠ 4 ∨ a.addr.toNat % 4 ≠ 0 ∨
      (¬ mappedRegister a.addr.toNat ∧ ¬ elementAddress s.params a.addr.toNat)) →
    step s = .next { s with
      inputs := rest, errcode := if s.err then s.errcode else 0x06#8, err := true,
      reply := some ⟨.error, 0#32⟩ }

/-- 20_memory.md R94, 60_exceptions.md R301, R305: while BUSY = 1 every access to an element, and
every write to a register other than STATUS, OS_REQ and LAT_TICK, has no effect, answers ERROR with
read data 0 and raises ERR_BUSY (code 0x02). -/
def Obligations.BusyRefusesAccess : Prop :=
  ∀ (s : State) (a : BusAccess) (rest : List Event), s.params.legal = true →
    s.inputs = .bus a :: rest → s.busy = true → a.size = 4 → a.addr.toNat % 4 = 0 →
    (elementAddress s.params a.addr.toNat ∨
      (a.kind = .write ∧ mappedRegister a.addr.toNat ∧ a.addr.toNat ≠ 0x014 ∧
        a.addr.toNat ≠ 0x01C ∧ a.addr.toNat ≠ 0x020)) →
    step s = .next { s with
      inputs := rest, errcode := if s.err then s.errcode else 0x02#8, err := true,
      reply := some ⟨.error, 0#32⟩ }

/-- 20_memory.md R89, R90, R94: a register can be read in every phase of the ENGINE; the read answers
OKAY with the register's word and has no side effect. The words of the write-only and read-only
registers, with their reserved bits 0, are those of 10_state.md R32, R33, R35, R37, R39, R43, R46 and
R50 (STATUS has a statement of its own). -/
def Obligations.RegisterReadHasNoSideEffect : Prop :=
  (∀ (s : State) (r : Reg) (rest : List Event), s.ReadNext (BitVec.ofNat 32 r.offset) rest →
    step s = .next { s with inputs := rest, reply := some ⟨.okay, s.readReg r⟩ }) ∧
  ∀ s : State, s.params.legal = true →
    s.readReg .id = 0x4F535431#32 ∧ s.readReg .version = 0x00010000#32 ∧
    (s.readReg .param0).extractLsb' 0 8 = BitVec.ofNat 8 s.params.nchMax ∧
    (s.readReg .param0).extractLsb' 8 8 = BitVec.ofNat 8 s.params.rlpSecMax ∧
    (s.readReg .param0).extractLsb' 16 16 = BitVec.ofNat 16 s.params.tapMax ∧
    (s.readReg .param0).toNat =
      s.params.tapMax * 65536 + s.params.rlpSecMax * 256 + s.params.nchMax ∧
    (s.readReg .param1).toNat = s.params.vibMax * 65536 + s.params.blkMax ∧
    s.readReg .cmd = 0#32 ∧ s.readReg .latTick = 0#32 ∧
    (s.readReg .errcode).toNat = s.errcode.toNat ∧ s.readReg .latPub = s.latPub ∧
    (s.readReg .latDirty).getLsbD 0 = s.osDirty ∧ (s.readReg .latDirty).getLsbD 1 = s.vibDirty ∧
    (s.readReg .latDirty).extractLsb' 2 30 = 0#30 ∧
    (s.readReg .osLat).toNat = (if s.active then
        (s.rlpLatUp2.toNat + s.rlpLatDn2.toNat + s.irLenUp4.toNat / 2 + s.irLenDn4.toNat / 2) % 2 ^ 32
      else 0) ∧
    (s.readReg .vibLat).toNat = s.vibLen.toNat / 2 ∧
    s.readReg .osTotal = s.osTotal ∧ s.readReg .vibTotal = s.vibTotal ∧
    s.readReg .upFsLo = s.upFsLo ∧ s.readReg .upFsHi = s.upFsHi ∧
    (s.readReg .upBlock).toNat = s.upBlock.toNat ∧ (s.readReg .vibLen).toNat = s.vibLen.toNat ∧
    s.readReg .vibPhase = s.vph ∧ s.readReg .vibInc = s.vibInc ∧
    s.readReg .wlen = s.wlen ∧ s.readReg .wch = s.wch ∧ s.readReg .wn = s.wn

/-- 20_memory.md R85, R90, R91: with BUSY = 0 a read of an existing element returns it, and a write
replaces it and no other byte, with no other effect. (That the answer OKAY to a write carries read
data 0 is the model's choice, log 11.) -/
def Obligations.ElementAccess : Prop :=
  ∀ (s : State) (a v : Word) (rest : List Event), s.params.legal = true → s.busy = false →
    elementAddress s.params a.toNat →
    (s.ReadNext a rest →
      step s = .next { s with inputs := rest, reply := some ⟨.okay, s.loadWord a.toNat⟩ }) ∧
    (s.WriteNext a v rest → ∃ t, step s = .next t ∧
      t = { s with inputs := rest, reply := some ⟨.okay, 0#32⟩, mem := t.mem } ∧
      t.loadWord a.toNat = v ∧ sameBytesOutside s t (inWords a.toNat 1))

/-- 10_state.md R31, 20_memory.md R91: with BUSY = 0 a write to an RO register answers OKAY and
changes nothing. (That the answer OKAY to a write carries read data 0 is the model's choice, log 11.) -/
def Obligations.ReadOnlyWriteIgnored : Prop :=
  ∀ (s : State) (r : Reg) (v : Word) (rest : List Event), s.busy = false → r.access = .ro →
    s.WriteNext (BitVec.ofNat 32 r.offset) v rest →
    step s = .next { s with inputs := rest, reply := some ⟨.okay, 0#32⟩ }

/-- 10_state.md R42, R47, R48: with BUSY = 0 a write of an illegal value to a checked register leaves
the register and everything else unchanged, answers ERROR and raises ERR_RANGE (code 0x03). -/
def Obligations.CheckedRegisterRefusesIllegal : Prop :=
  ∀ (s : State) (r : Reg) (v : Word) (rest : List Event), s.busy = false →
    s.WriteNext (BitVec.ofNat 32 r.offset) v rest →
    (((r = .nchIn ∨ r = .nchOut) ∧ (v.toNat < 1 ∨ s.params.nchMax < v.toNat)) ∨
      ((r = .irLenUp4 ∨ r = .irLenDn4) ∧ (v.toNat % 2 = 0 ∨ s.params.tapMax < v.toNat)) ∨
      ((r = .rlpNsecUp2 ∨ r = .rlpNsecDn2) ∧ (v.toNat < 1 ∨ s.params.rlpSecMax < v.toNat))) →
    step s = .next { s with
      inputs := rest, errcode := if s.err then s.errcode else 0x03#8, err := true,
      reply := some ⟨.error, 0#32⟩ }

/-- 42_convolution.md R172, 43_recursive.md R192: with BUSY = 0 a legal write of IR_LEN_s, even of the
value already held, zeroes the histories and cursors of that stage and sets OS_DIRTY; a legal write of
RLP_NSEC_s zeroes the section states of that stage; a legal write of NCH_IN or NCH_OUT (10_state.md
R42) only stores the value. (That the answer OKAY to a write carries read data 0 is the model's
choice, log 11.) -/
def Obligations.CheckedRegisterCommits : Prop :=
  ∀ (s : State) (v : Word) (rest : List Event), s.busy = false →
    let u := { s with inputs := rest, reply := some ⟨.okay, 0#32⟩ }
    (1 ≤ v.toNat → v.toNat ≤ s.params.nchMax →
      (s.WriteNext 0x04C#32 v rest → step s = .next { u with nchIn := v }) ∧
      (s.WriteNext 0x050#32 v rest → step s = .next { u with nchOut := v })) ∧
    (v.toNat % 2 = 1 → v.toNat ≤ s.params.tapMax →
      (s.WriteNext 0x080#32 v rest → step s = .next { u with
        irLenUp4 := v, firUp4 := List.replicate s.params.nchMax ⟨0, []⟩, osDirty := true }) ∧
      (s.WriteNext 0x084#32 v rest → step s = .next { u with
        irLenDn4 := v, firDn4 := List.replicate s.params.nchMax ⟨0, []⟩, osDirty := true })) ∧
    (1 ≤ v.toNat → v.toNat ≤ s.params.rlpSecMax →
      (s.WriteNext 0x088#32 v rest → step s = .next { u with
        rlpNsecUp2 := v
        rlpUp2 := List.replicate s.params.nchMax
          (List.replicate s.params.rlpSecMax ⟨0#32, 0#32, 0#32, 0#32⟩) }) ∧
      (s.WriteNext 0x08C#32 v rest → step s = .next { u with
        rlpNsecDn2 := v
        rlpDn2 := List.replicate s.params.nchMax
          (List.replicate s.params.rlpSecMax ⟨0#32, 0#32, 0#32, 0#32⟩) }))

/-- 10_state.md R31, R38, R40 to R42, R44, R45, R47 to R49: with BUSY = 0 a permitted write to an RW or
RWC register is read back with the reserved bits 0. No other register changes but STATUS.PENDING for
OS_REQ, and LAT_DIRTY and OS_LAT for the latency registers and the IR lengths: a write of one of these
four sets OS_DIRTY (45_latency.md R242), and no other write changes it. No other state changes
(memory, the ENGINE, the vibrato lines and the flags stay) but the filter state that the commit of a
length zeroes. (That the answer OKAY to a write carries read data 0 is the model's choice, log 11.) -/
def Obligations.RegisterReadsBack : Prop :=
  ∀ (s : State) (r : Reg) (v : Word) (rest : List Event), s.busy = false →
    (r.access = .rw ∨ r.access = .rwc) → Reg.legal s.params v r = true →
    s.WriteNext (BitVec.ofNat 32 r.offset) v rest →
    ∃ t, step s = .next t ∧ t.readReg r = v &&& r.writtenBits ∧
      (∀ r', r' ≠ r → (r' = .status → r ≠ .osReq) →
        (r' = .latDirty ∨ r' = .osLat →
          r ≠ .irLenUp4 ∧ r ≠ .irLenDn4 ∧ r ≠ .rlpLatUp2 ∧ r ≠ .rlpLatDn2) →
        t.readReg r' = s.readReg r') ∧
      t.osDirty = (if r = .irLenUp4 ∨ r = .irLenDn4 ∨ r = .rlpLatUp2 ∨ r = .rlpLatDn2 then true
        else s.osDirty) ∧
      t.firUp4 = (if r = .irLenUp4 then List.replicate s.params.nchMax ⟨0, []⟩ else s.firUp4) ∧
      t.firDn4 = (if r = .irLenDn4 then List.replicate s.params.nchMax ⟨0, []⟩ else s.firDn4) ∧
      t.rlpUp2 = (if r = .rlpNsecUp2 then List.replicate s.params.nchMax
        (List.replicate s.params.rlpSecMax ⟨0#32, 0#32, 0#32, 0#32⟩) else s.rlpUp2) ∧
      t.rlpDn2 = (if r = .rlpNsecDn2 then List.replicate s.params.nchMax
        (List.replicate s.params.rlpSecMax ⟨0#32, 0#32, 0#32, 0#32⟩) else s.rlpDn2) ∧
      t = { s with
        inputs := rest
        reply := some ⟨.okay, 0#32⟩
        osReq := t.osReq
        fsLo := t.fsLo
        fsHi := t.fsHi
        blockSize := t.blockSize
        nchIn := t.nchIn
        nchOut := t.nchOut
        fxCtrl := t.fxCtrl
        wfDrive := t.wfDrive
        satDrive := t.satDrive
        vibFreq := t.vibFreq
        vibDepth := t.vibDepth
        irLenUp4 := t.irLenUp4
        irLenDn4 := t.irLenDn4
        rlpNsecUp2 := t.rlpNsecUp2
        rlpNsecDn2 := t.rlpNsecDn2
        rlpLatUp2 := t.rlpLatUp2
        rlpLatDn2 := t.rlpLatDn2
        osDirty := t.osDirty
        firUp4 := t.firUp4
        firDn4 := t.firDn4
        rlpUp2 := t.rlpUp2
        rlpDn2 := t.rlpDn2 }

/-- 10_state.md R35: a CMD write with BUSY = 0 queues the word and sets BUSY; with BUSY = 1 it raises
ERR_BUSY and is dropped; CMD reads 0; at reset PEND_CMD = 0 and ENG_PHASE = IDLE. (That the answer
OKAY to a write carries read data 0 is the model's choice, log 11.) -/
def Obligations.CmdWriteQueues : Prop :=
  (∀ (s : State) (w : Word) (rest : List Event), s.WriteNext 0x010#32 w rest →
    (s.busy = false → ∃ t, step s = .next t ∧ t.busy = true ∧
      t = { s with
        inputs := rest, reply := some ⟨.okay, 0#32⟩, pendCmd := w, engPhase := .queued }) ∧
    (s.busy = true → step s = .next { s with
      inputs := rest, errcode := if s.err then s.errcode else 0x02#8, err := true,
      reply := some ⟨.error, 0#32⟩ })) ∧
  (∀ s : State, s.readReg .cmd = 0#32) ∧
  State.reset.pendCmd = 0#32 ∧ State.reset.engPhase = .idle

/-- 10_state.md R36, R37, 60_exceptions.md R304: a write to STATUS, in every phase of the ENGINE,
clears each W1C bit whose data bit is 1 and nothing else; clearing ERR sets ERRCODE to 0. (That the
answer OKAY to a write carries read data 0 is the model's choice, log 11.) -/
def Obligations.StatusWriteClears : Prop :=
  ∀ (s : State) (v : Word) (rest : List Event), s.WriteNext 0x014#32 v rest →
    step s = .next { s with
      inputs := rest
      reply := some ⟨.okay, 0#32⟩
      done := s.done && !v.getLsbD 1
      err := s.err && !v.getLsbD 2
      errcode := if v.getLsbD 2 then 0#8 else s.errcode
      numerr := s.numerr && !v.getLsbD 3
      latNew := s.latNew && !v.getLsbD 4 }

/-- 10_state.md R36, R59, R60: the STATUS word bit by bit; BUSY is ENG_PHASE ≠ IDLE, PENDING is
OS_REQ.EN ≠ ACTIVE, bits 31:12 are 0. -/
def Obligations.StatusWordBits : Prop :=
  ∀ s : State,
    let w := s.readReg .status
    (w.getLsbD 0 = true ↔ s.engPhase ≠ .idle) ∧ w.getLsbD 1 = s.done ∧ w.getLsbD 2 = s.err ∧
    w.getLsbD 3 = s.numerr ∧ w.getLsbD 4 = s.latNew ∧ w.getLsbD 5 = s.prepared ∧
    w.getLsbD 6 = s.active ∧ (w.getLsbD 7 = true ↔ s.osReq ≠ s.active) ∧
    w.getLsbD 8 = s.prepareReq ∧
    (w.extractLsb' 9 2 = match s.wmode with
      | .none => 0#2 | .pass => 1#2 | .os4 => 2#2 | .trans => 3#2) ∧
    w.getLsbD 11 = s.lastTrans ∧ w.extractLsb' 12 20 = 0#20

/-! ### Errors of the commands -/

/-- 60_exceptions.md R303, R306, R307, R322: a command either completes, with DONE set and the error
record untouched, or raises an error and changes nothing else; in both cases the ENGINE is idle. -/
def Obligations.CommandErrorsArePrecise : Prop :=
  ∀ (i : Instr) (s t : State), (encode i).addr = cmdAddr → exec i s = .next t →
    t.engPhase = .idle ∧
    ((t.done = true ∧ t.err = s.err ∧ t.errcode = s.errcode) ∨
      ∃ code, 1 ≤ code.toNat ∧ code.toNat ≤ 5 ∧ t = s.raised code)

/-- 60_exceptions.md R302, R305: the errors of the commands and when they are raised, in priority
order; an odd count is out of range for CONV_POLY (42_convolution.md R175). (The last clause is of stage
terms that no word encodes; log 15.) -/
def Obligations.CommandErrorTable : Prop :=
  ∀ (s : State) (ch : BitVec 4) (n : BitVec 16),
    (s.prepared = false → ∀ i ∈ [Instr.upsample n, .process n, .downsample, .wavefold, .saturate,
      .vibrato], exec i s = .next (s.raised 0x04#8)) ∧
    (s.prepared = true → (n.toNat < 1 ∨ s.params.blkMax < n.toNat) →
      ∀ i ∈ [Instr.upsample n, .process n], exec i s = .next (s.raised 0x03#8)) ∧
    (s.prepared = true → s.wmode = .none →
      ∀ i ∈ [Instr.downsample, .wavefold, .saturate, .vibrato],
        exec i s = .next (s.raised 0x05#8)) ∧
    ((s.params.nchMax ≤ ch.toNat ∨ 4 * s.params.blkMax < n.toNat) →
      ∀ i ∈ [Instr.convDirect .up4 ch n, .convDirect .dn4 ch n, .convPoly .up4 ch n,
        .convPoly .dn4 ch n, .rlpRun .up2 ch n, .rlpRun .dn2 ch n],
        exec i s = .next (s.raised 0x03#8)) ∧
    (n.toNat % 2 = 1 → ∀ i ∈ [Instr.convPoly .up4 ch n, .convPoly .dn4 ch n],
      exec i s = .next (s.raised 0x03#8)) ∧
    (∀ i, i.WellFormed = false → exec i s = .next (s.raised 0x01#8))

/-! ### NOP, SET_ENABLED, LAT_TICK -/

/-- 44_orchestrator.md R200: NOP sets DONE and clears BUSY and does nothing else; it is the word 0
only, and its START step samples the request. -/
def Obligations.NopCompletes : Prop :=
  (∀ s : State, exec .nop s = .next s.completed) ∧
  (∀ w : Word, decodeCmd w = .ok .nop ↔ w = 0#32) ∧
  ∀ (s : State) (rest : List Event), s.inputs = .engine :: .engine :: rest →
    s.engPhase = .queued → s.pendCmd = 0#32 →
    ∃ t, step s = .next t ∧ t.reqSnap = s.osReq ∧
      step t = .next { s with
        inputs := rest, reqSnap := s.osReq, done := true, engPhase := .idle }

/-- 44_orchestrator.md R230: SET_ENABLED sets OS_REQ.EN to v[0] and nothing else, BUSY or not; it is
pending exactly while EN ≠ ACTIVE; the value ACTIVE already holds cancels a pending request; the only
errors of an access to OS_REQ are those of a bad size. (That the answer OKAY to a write carries read
data 0 is the model's choice, log 11.) -/
def Obligations.SetEnabledCompletes : Prop :=
  ∀ (s : State) (v : Word),
    exec (.setEnabled v) s = .next { s with osReq := v.getLsbD 0 } ∧
    (∀ rest, s.WriteNext 0x01C#32 v rest →
      step s = .next { s with
        inputs := rest, reply := some ⟨.okay, 0#32⟩, osReq := v.getLsbD 0 }) ∧
    (s.pending = true ↔ s.osReq ≠ s.active) ∧
    (v.getLsbD 0 = s.active → State.pending { s with osReq := v.getLsbD 0 } = false) ∧
    (∀ (g : Agent) (size : Nat) (e : ErrorCode),
      checkAccess s ⟨g, .write, 0x01C#32, size, v⟩ = .error e → size ≠ 4 ∧ e = .bus)

/-- 45_latency.md R243, R240, R241: LAT_TICK publishes the total of the two inducers' delays when one
is dirty and does nothing otherwise, BUSY or not, whatever the data. (That the answer OKAY to a write
carries read data 0 is the model's choice, log 11.) -/
def Obligations.LatTickPublishes : Prop :=
  ∀ (s : State) (v : Word),
    let total := (if s.active then
        BitVec.ofNat 32 (s.rlpLatUp2.toNat + s.rlpLatDn2.toNat + s.irLenUp4.toNat / 2 +
          s.irLenDn4.toNat / 2)
      else 0#32) + BitVec.ofNat 32 (s.vibLen.toNat / 2)
    let t := if s.osDirty = true ∨ s.vibDirty = true then
        { s with
          latPub := total, osTotal := total, vibTotal := total, osDirty := false,
          vibDirty := false, latNew := true }
      else s
    exec (.latTick v) s = .next t ∧
    ∀ rest, s.WriteNext 0x020#32 v rest →
      step s = .next { t with inputs := rest, reply := some ⟨.okay, 0#32⟩ }

/-- 00_scope.md R19, 45_latency.md R240, R241: the latency sums never wrap. -/
def Obligations.LatencySumsDoNotWrap : Prop :=
  ∀ s : State, s.params.legal = true → s.RegistersLegal →
    (s.readReg .osLat + s.readReg .vibLat).toNat =
      (if s.active then s.rlpLatUp2.toNat + s.rlpLatDn2.toNat + s.irLenUp4.toNat / 2 +
        s.irLenDn4.toNat / 2 else 0) + s.vibLen.toNat / 2

/-! ### PREPARE -/

/-- 44_orchestrator.md R202 to R205: PREPARE completes exactly on these conditions and then changes
the rates, the filter states, the mode and the dirty flags as listed, and nothing else; when any of
them fails it raises ERR_RANGE (code 0x03) and changes nothing else. The rate counts units of
2^-1074. -/
def Obligations.PrepareCompletes : Prop :=
  ∀ s : State,
    let d := bits64 s.fsHi s.fsLo
    let k := if s.active then 4 else 1
    let ufs := k * magnitude64 d
    (expField64 d ≠ 2047 → d.getLsbD 63 = false → magnitude64 d ≠ 0 →
      1 ≤ s.blockSize.toNat → s.blockSize.toNat ≤ s.params.blkMax →
      ufs < pow2 1024 * pow2 1074 → vibLength ufs ≤ s.params.vibMax →
      exec .prepare s = .next { s with
        upFsHi := hiWord (pack64 ufs)
        upFsLo := loWord (pack64 ufs)
        upBlock := BitVec.ofNat 16 (k * s.blockSize.toNat)
        firUp4 := List.replicate s.params.nchMax ⟨0, []⟩
        firDn4 := List.replicate s.params.nchMax ⟨0, []⟩
        rlpUp2 := List.replicate s.params.nchMax
          (List.replicate s.params.rlpSecMax ⟨0#32, 0#32, 0#32, 0#32⟩)
        rlpDn2 := List.replicate s.params.nchMax
          (List.replicate s.params.rlpSecMax ⟨0#32, 0#32, 0#32, 0#32⟩)
        vib := List.replicate s.params.nchMax ⟨0, []⟩
        vph := 0#32
        vibLen := BitVec.ofNat 16 (vibLength ufs)
        wmode := .none
        wlen := 0#32
        wch := 0#32
        wn := 0#32
        lastTrans := false
        prepareReq := false
        prepared := true
        osDirty := true
        vibDirty := true
        done := true
        engPhase := .idle }) ∧
    ((expField64 d = 2047 ∨ d.getLsbD 63 = true ∨ magnitude64 d = 0 ∨
        s.blockSize.toNat < 1 ∨ s.params.blkMax < s.blockSize.toNat ∨
        pow2 1024 * pow2 1074 ≤ ufs ∨ s.params.vibMax < vibLength ufs) →
      exec .prepare s = .next (s.raised 0x03#8))

/-- 44_orchestrator.md R202, R203: after a PREPARE that completes, UP_FS is exactly k·FS as a positive
finite binary64, UP_BLOCK is k·BLOCK_SIZE, and VIB_LEN is the least L of at least 2 with
7·UP_FS/1000 ≤ L, in exact arithmetic. -/
def Obligations.PrepareRatesExact : Prop :=
  ∀ s t : State, s.params.legal = true → prepareBody s = .ok t →
    let d := bits64 s.fsHi s.fsLo
    let u := bits64 t.upFsHi t.upFsLo
    let k := if s.active then 4 else 1
    exec .prepare s = .next t.completed ∧
    expField64 u ≠ 2047 ∧ u.getLsbD 63 = false ∧ magnitude64 u = k * magnitude64 d ∧
    t.upBlock.toNat = k * s.blockSize.toNat ∧
    2 ≤ t.vibLen.toNat ∧ t.vibLen.toNat ≤ s.params.vibMax ∧
    7 * magnitude64 u ≤ 1000 * (t.vibLen.toNat * pow2 1074) ∧
    ∀ l : Nat, 2 ≤ l → 7 * magnitude64 u ≤ 1000 * (l * pow2 1074) → t.vibLen.toNat ≤ l

/-! ### UPSAMPLE -/

/-- 44_orchestrator.md R210 to R213: a block that is transitional, or at base rate, copies the inputs
bit for bit into SCR (channel 0 for the channels that have no input), applies an owed toggle, sets the
geometry and the mode, and changes nothing else: NUMERR and every filter state stay. -/
def Obligations.UpsampleCopies : Prop :=
  ∀ (s : State) (n : BitVec 16), s.params.legal = true → s.RegistersLegal → s.prepared = true →
    1 ≤ n.toNat → n.toNat ≤ s.params.blkMax → (s.TransitionalNow ∨ s.active = false) →
    ∃ t, exec (.upsample n) s = .next t ∧
      t = { s with
        mem := t.mem
        active := if s.prepareReq then s.active else s.reqSnap
        prepareReq := s.prepareReq || (s.reqSnap != s.active)
        osDirty := s.osDirty || (!s.prepareReq && (s.reqSnap != s.active))
        lastTrans := s.prepareReq || (s.reqSnap != s.active)
        wn := n.setWidth 32
        wch := s.nchOut
        wlen := n.setWidth 32
        wmode := if s.prepareReq || (s.reqSnap != s.active) then .trans else .pass
        done := true
        engPhase := .idle } ∧
      (∀ c < s.nchOut.toNat, ∀ i < n.toNat,
        t.loadWord (scrAddr c i) =
          s.loadWord (inAddr (if c < s.nchIn.toNat then c else 0) i)) ∧
      sameBytesOutside s t (inChannels scrAddr s.nchOut.toNat n.toNat)

/-- 44_orchestrator.md R211, R214: a block that is oversampled goes, channel by channel for the first
min(NCH_IN, NCH_OUT) channels, through zero-stuffing, the recursive stage UP2, the gain 2 and the
polyphase stage UP4, each channel with its own state; the other scratch channels copy channel 0 and
advance no state; nothing else changes. -/
def Obligations.UpsampleOversamples : Prop :=
  ∀ (s : State) (n : BitVec 16), s.Inv → s.prepared = true →
    1 ≤ n.toNat → n.toNat ≤ s.params.blkMax → ¬ s.TransitionalNow → s.active = true →
    ∃ t, exec (.upsample n) s = .next t ∧
      t = { s with
        mem := t.mem
        numerr := t.numerr
        rlpUp2 := t.rlpUp2
        firUp4 := t.firUp4
        lastTrans := false
        wn := n.setWidth 32
        wch := s.nchOut
        wlen := BitVec.ofNat 32 (4 * n.toNat)
        wmode := .os4
        done := true
        engPhase := .idle } ∧
      (∀ c < min s.nchIn.toNat s.nchOut.toNat,
        let x := (List.range n.toNat).map (fun i => s.loadWord (inAddr c i))
        let u := rlpBlock s.params.ftz (s.coefs .up2) s.rlpNsecUp2.toNat (s.rlpLine .up2 c)
          (zeroStuff x)
        let y := convPolyBlock s.params.ftz (s.tap .up4) s.irLenUp4.toNat (s.firLine .up4 c)
          (u.2.map (fmul s.params.ftz 0x40000000#32))
        t.rlpLine .up2 c = u.1 ∧ t.firLine .up4 c = y.1 ∧ t.scrBlock c (4 * n.toNat) = y.2) ∧
      (∀ c, min s.nchIn.toNat s.nchOut.toNat ≤ c →
        t.rlpLine .up2 c = s.rlpLine .up2 c ∧ t.firLine .up4 c = s.firLine .up4 c ∧
        (c < s.nchOut.toNat → t.scrBlock c (4 * n.toNat) = t.scrBlock 0 (4 * n.toNat))) ∧
      s.NumerrAfter t scrAddr s.nchOut.toNat (4 * n.toNat) ∧
      sameBytesOutside s t (inChannels scrAddr s.nchOut.toNat (4 * n.toNat))

/-! ### DOWNSAMPLE -/

/-- 44_orchestrator.md R215, R216, R218: a base-rate work buffer is copied bit for bit to OUT (channel
0 for an output channel that the buffer lacks), WMODE becomes NONE, NUMERR is set for a non-finite
sample written, and nothing else changes: SCR and the geometry stay. -/
def Obligations.DownsampleCopies : Prop :=
  ∀ s : State, s.Inv → s.prepared = true → (s.wmode = .pass ∨ s.wmode = .trans) →
    ∃ t, exec .downsample s = .next t ∧
      t = { s with
        mem := t.mem, numerr := t.numerr, wmode := .none, done := true, engPhase := .idle } ∧
      (∀ o < s.nchOut.toNat, ∀ i < s.wn.toNat,
        t.loadWord (outAddr o i) =
          s.loadWord (scrAddr (if o < s.wch.toNat then o else 0) i)) ∧
      s.NumerrAfter t outAddr s.nchOut.toNat s.wn.toNat ∧
      sameBytesOutside s t (inChannels outAddr s.nchOut.toNat s.wn.toNat)

/-- 44_orchestrator.md R215, R217, R218: an oversampled work buffer goes, every channel of it with its
own state, through direct convolution DN4, decimation, the recursive stage DN2 and decimation; the
results go to OUT (channel 0's for an output channel that the buffer lacks); nothing else changes. -/
def Obligations.DownsampleDecimates : Prop :=
  ∀ s : State, s.Inv → s.prepared = true → s.wmode = .os4 →
    let stages := fun c : Nat =>
      let d := convDirectBlock s.params.ftz (s.tap .dn4) s.irLenDn4.toNat (s.firLine .dn4 c)
        (s.scrBlock c (4 * s.wn.toNat))
      let e := rlpBlock s.params.ftz (s.coefs .dn2) s.rlpNsecDn2.toNat (s.rlpLine .dn2 c)
        (evens d.2)
      (d.1, e.1, evens e.2)
    ∃ t, exec .downsample s = .next t ∧
      t = { s with
        mem := t.mem
        numerr := t.numerr
        firDn4 := t.firDn4
        rlpDn2 := t.rlpDn2
        wmode := .none
        done := true
        engPhase := .idle } ∧
      (∀ c < s.wch.toNat,
        t.firLine .dn4 c = (stages c).1 ∧ t.rlpLine .dn2 c = (stages c).2.1) ∧
      (∀ c, s.wch.toNat ≤ c →
        t.firLine .dn4 c = s.firLine .dn4 c ∧ t.rlpLine .dn2 c = s.rlpLine .dn2 c) ∧
      (∀ o < s.nchOut.toNat,
        t.loadBlock (outAddr o 0) s.wn.toNat =
          (stages (if o < s.wch.toNat then o else 0)).2.2) ∧
      s.NumerrAfter t outAddr s.nchOut.toNat s.wn.toNat ∧
      sameBytesOutside s t (inChannels outAddr s.nchOut.toNat s.wn.toNat)

/-! ### PROCESS -/

/-- 44_orchestrator.md R220 to R222: PROCESS gives the state that UPSAMPLE, the selected effect
commands in the order wavefolder, saturator, vibrato (none for a transitional block) and DOWNSAMPLE
give one after the other, but that NUMERR counts every sample that UPSAMPLE's part wrote to SCR too,
by copy or by the x4 path (R220, 10_state.md R63; that R213's exemption of the copy is the UPSAMPLE
command's alone is the model's reading, log 7). -/
def Obligations.ProcessEqualsSplitPath : Prop :=
  ∀ (s : State) (n : BitVec 16), s.prepared = true →
    1 ≤ n.toNat → n.toNat ≤ s.params.blkMax →
    let u := after (.upsample n) s
    let e := if u.wmode = .trans then u else afterSelectedEffects u
    let d := after .downsample e
    exec (.process n) s = .next { d with
      numerr := d.numerr || (List.range u.wch.toNat).any (fun c =>
        (List.range u.wlen.toNat).any (fun i => !isFinite (u.loadWord (scrAddr c i)))) }

/-- 44_orchestrator.md R225: with oversampling off and not requested and no effect selected, and in
every transitional block, PROCESS copies IN to OUT bit for bit, IN[0] to the further channels; no byte
outside the blocks of SCR and OUT that it writes changes. -/
def Obligations.ProcessIdentity : Prop :=
  ∀ (s : State) (n : BitVec 16), s.params.legal = true → s.RegistersLegal → s.prepared = true →
    1 ≤ n.toNat → n.toNat ≤ s.params.blkMax →
    ((s.active = false ∧ s.prepareReq = false ∧ s.reqSnap = false ∧ s.fxCtrl = 0#3) ∨
      s.TransitionalNow) →
    ∃ t, exec (.process n) s = .next t ∧
      (∀ o < s.nchOut.toNat, ∀ i < n.toNat,
        t.loadWord (outAddr o i) =
          s.loadWord (inAddr (if o < min s.nchIn.toNat s.nchOut.toNat then o else 0) i)) ∧
      sameBytesOutside s t (fun a =>
        inChannels scrAddr s.nchOut.toNat n.toNat a ∨ inChannels outAddr s.nchOut.toNat n.toNat a)

/-- 44_orchestrator.md R223: from zeroed filter states, with finite taps, coefficients and wavefolder
drive, PROCESS of an all-zero block writes +0 to every output sample, in every mode and with every
selection of effects. The model's premises beside the rule's: B0 of every section that runs has a
clear sign bit (with a negative B0 the algorithm of 43_recursive.md R191 gives -0, log 19); and when
the vibrato is selected its lines hold only +0 (filter state as PREPARE leaves it), the phase is in
range (10_state.md R64, every reachable state), and SIN2PI is the default (another may be any
function, log 4). -/
def Obligations.SilenceRoundTrip : Prop :=
  ∀ (s : State) (n : BitVec 16), s.Inv → s.prepared = true →
    1 ≤ n.toNat → n.toNat ≤ s.params.blkMax →
    (∀ l ∈ s.firUp4, l.hist = []) → (∀ l ∈ s.firDn4, l.hist = []) →
    (∀ bs ∈ s.rlpUp2, ∀ b ∈ bs, b = Biquad.zero) → (∀ bs ∈ s.rlpDn2, ∀ b ∈ bs, b = Biquad.zero) →
    (∀ g k, k < s.irLen g → isFinite (s.tap g k) = true) →
    (∀ g q, q < s.rlpNsec g → let k := s.coefs g q
      isFinite k.b0 = true ∧ isFinite k.b1 = true ∧ isFinite k.b2 = true ∧
      isFinite k.a1 = true ∧ isFinite k.a2 = true ∧ signBit k.b0 = false) →
    isFinite s.wfDrive = true →
    (s.fxCtrl.getLsbD 2 = true →
      s.params.sin2pi = .default ∧ s.PhaseInRange ∧ ∀ l ∈ s.vib, l.vb = []) →
    (∀ c < s.nchIn.toNat, ∀ i < n.toNat, s.loadWord (inAddr c i) = 0#32) →
    ∃ t, exec (.process n) s = .next t ∧
      ∀ o < s.nchOut.toNat, ∀ i < n.toNat, t.loadWord (outAddr o i) = 0#32

/-! ### The effects -/

/-- 46_effects.md R260 to R263: with a work buffer in any mode, WAVEFOLD replaces every sample of it by
its wavefolded value, with the drive clamped to at least 1, sets NUMERR for a non-finite one, and
changes nothing else. The wavefolder written out: v is x·dh + 0.5, f the fraction of v rounded to
binary32 (1.0 becomes +0), and the result (2·f - 1)·dinv, every operation rounded; a non-finite v gives
the canonical NaN. (`unitsOf` counts units of 2^-149.) -/
def Obligations.WavefoldCompletes : Prop :=
  (∀ (ftz : Bool) (dh dinv x : Word),
    let v := fadd ftz (fmul ftz x dh) 0x3F000000#32
    let r := rn32 false (unitsOf v % (pow2 149 : Nat)).toNat 1
    let f := if r = 0x3F800000#32 then 0x00000000#32 else r
    wfSample ftz dh dinv x =
      if isFinite v = true then
        fmul ftz (fsub ftz (fmul ftz 0x40000000#32 f) 0x3F800000#32) dinv
      else 0x7FC00000#32) ∧
  ∀ s : State, s.Inv → s.prepared = true → s.wmode ≠ .none →
    let d := if fle 0x3F800000#32 s.wfDrive then s.wfDrive else 0x3F800000#32
    let dh := fmul s.params.ftz d 0x3F000000#32
    let dinv := fdiv s.params.ftz 0x3F800000#32 d
    ∃ t, exec .wavefold s = .next t ∧
      t = { s with mem := t.mem, numerr := t.numerr, done := true, engPhase := .idle } ∧
      (∀ c < s.wch.toNat, ∀ i < s.wlen.toNat,
        t.loadWord (scrAddr c i) = wfSample s.params.ftz dh dinv (s.loadWord (scrAddr c i))) ∧
      s.NumerrAfter t scrAddr s.wch.toNat s.wlen.toNat ∧
      sameBytesOutside s t (inChannels scrAddr s.wch.toNat s.wlen.toNat)

/-- 46_effects.md R268, R270, R271: with a work buffer in any mode, SATURATE replaces every sample of
it by its saturated value, with the drive clamped to [0, 1], sets NUMERR for a non-finite one, and
changes nothing else. The saturator written out: with p the sign of x (00_scope.md R13: 1.0 for x ≥ 0,
else -1.0), b is p·√(p·x), c is p·√(p·b), and the result x + d·(c - x), every operation rounded. -/
def Obligations.SaturateCompletes : Prop :=
  (∀ (ftz : Bool) (d x : Word),
    let p := if fle 0x00000000#32 x = true then 0x3F800000#32 else 0xBF800000#32
    let b := fmul ftz p (fsqrt ftz (fmul ftz p x))
    let c := fmul ftz p (fsqrt ftz (fmul ftz p b))
    satSample ftz d x = fadd ftz x (fmul ftz d (fsub ftz c x))) ∧
  ∀ s : State, s.Inv → s.prepared = true → s.wmode ≠ .none →
    let d := if flt 0#32 s.satDrive then
        (if flt 0x3F800000#32 s.satDrive then 0x3F800000#32 else s.satDrive)
      else 0#32
    ∃ t, exec .saturate s = .next t ∧
      t = { s with mem := t.mem, numerr := t.numerr, done := true, engPhase := .idle } ∧
      (∀ c < s.wch.toNat, ∀ i < s.wlen.toNat,
        t.loadWord (scrAddr c i) = satSample s.params.ftz d (s.loadWord (scrAddr c i))) ∧
      s.NumerrAfter t scrAddr s.wch.toNat s.wlen.toNat ∧
      sameBytesOutside s t (inChannels scrAddr s.wch.toNat s.wlen.toNat)

/-- 46_effects.md R275, R277 to R282: VIBRATO, which the model runs channel by channel (log 17), gives
what the spec's order gives: frame after frame, one offset and one advance of the LFO for each frame,
every channel of the frame through its own line. It writes VIB_INC, the phase, the lines of the first
WCH channels and the work buffer, sets NUMERR for a non-finite sample, and changes nothing else.
Its parts written out: the increment is RN32(fc/ufs) with fc the lesser of the frequency and ufs/2
(`f` counts units of 2^-149, `ufs` units of 2^-1074), which is 0.5 from the Nyquist rate on and for
+infinity, and +0 for a NaN and a frequency that is not positive (R278); the phase advance (R279); the
offset (R280); and the sample through the line (R281; of a non-finite read position, log 6, nothing is
said). -/
def Obligations.VibratoRunsFrameByFrame : Prop :=
  (∀ (freq : Word) (ufs : Nat), 1 ≤ ufs →
    (flt 0x00000000#32 freq = false → vibIncrement freq ufs = 0x00000000#32) ∧
    vibIncrement 0x7F800000#32 ufs = 0x3F000000#32 ∧
    ∀ f : Nat, 1 ≤ f → unpack freq = .fin false f →
      vibIncrement freq ufs =
        rn32 false (min (2 * (f * pow2 925)) ufs * pow2 149) (2 * ufs) ∧
      (ufs ≤ 2 * (f * pow2 925) → vibIncrement freq ufs = 0x3F000000#32)) ∧
  (∀ (ftz : Bool) (inc vph depth lfo : Word) (len : Nat),
    (let v := fadd ftz vph inc
     vibAdvance ftz inc vph =
       if fle 0x3F800000#32 v = true then fsub ftz v 0x3F800000#32 else v) ∧
    vibOffset ftz depth lfo len =
      fmul ftz (fadd ftz (fmul ftz (fmul ftz (fmul ftz 0x3F666666#32 depth) lfo) 0x3F000000#32)
        0x3F000000#32) (rn32 false (len * pow2 149) 1)) ∧
  (∀ (ftz : Bool) (free : Nat → Word) (len : Nat) (l : VibLine) (x off : Word),
    let w := (l.vw + 1) % len
    let d := fsub ftz (rn32 false (w * pow2 149) 1) off
    let r := if flt d 0x00000000#32 = true then fadd ftz d (rn32 false (len * pow2 149) 1) else d
    let i := (unitsOf r / (pow2 149 : Nat) % (len : Int)).toNat
    let m := l.push true w x
    let a := m.get true free i
    let b := m.get true free ((i + 1) % len)
    isFinite r = true →
      vibSample ftz true free len l x off =
        (m, fadd ftz a (fmul ftz (rn32 false (unitsOf r % (pow2 149 : Nat)).toNat 1)
          (fsub ftz b a)))) ∧
  ∀ s : State, s.Inv → s.prepared = true → s.wmode ≠ .none →
    let depth := if flt 0#32 s.vibDepth then
        (if flt 0x3F800000#32 s.vibDepth then 0x3F800000#32 else s.vibDepth)
      else 0#32
    let inc := vibIncrement s.vibFreq (magnitude64 (bits64 s.upFsHi s.upFsLo))
    let f := vibFramesInOrder s.params.ftz true (Config.freeVibElement s.resets)
      (sin2pi s.params.sin2pi) depth inc s.vibLen.toNat s.workFrames s.vph s.vib
    ∃ t, exec .vibrato s = .next t ∧
      t = { s with
        mem := t.mem
        numerr := t.numerr
        vibInc := inc
        vph := f.2.1
        vib := f.2.2
        done := true
        engPhase := .idle } ∧
      (∀ c < s.wch.toNat, ∀ i < s.wlen.toNat,
        t.loadWord (scrAddr c i) = (f.1.getD i []).getD c 0#32) ∧
      s.NumerrAfter t scrAddr s.wch.toNat s.wlen.toNat ∧
      sameBytesOutside s t (inChannels scrAddr s.wch.toNat s.wlen.toNat)

/-- 46_effects.md R272: with drive +0 the saturator returns every finite sample bit for bit, but -0,
which becomes +0 (with FTZ = 0; with FTZ = 1 a subnormal sample is flushed, 00_scope.md R14). -/
def Obligations.SaturatorZeroDriveIdentity : Prop :=
  (∀ x : Word, isFinite x = true → x ≠ 0x80000000#32 → satSample false 0#32 x = x) ∧
  satSample false 0#32 0x80000000#32 = 0#32

/-- 46_effects.md R265: at drive 1 the wavefolder returns every multiple of 2^-23 in [-1, 1) exactly,
with FTZ = 0 and with FTZ = 1 (`k` counts 2^-23, which is 2^126 units of 2^-149; no value on the way is
subnormal). -/
def Obligations.WavefolderGridIdentity : Prop :=
  ∀ (ftz : Bool) (k : Int), -(2 ^ 23 : Nat) ≤ k → k < (2 ^ 23 : Nat) →
    let x := rn32 (decide (k < 0)) (k.natAbs * pow2 126) 1
    wfSample ftz (wfParams ftz 0x3F800000#32).1 (wfParams ftz 0x3F800000#32).2 x = x

/-- 46_effects.md R283: at depth 0 and a finite LFO output every offset is L/2 exactly (L·2^148 units
of 2^-149). For even L and a zeroed line the vibrato is a pure delay of L/2 samples, for samples below
2^127 in magnitude and not -0 (46_effects.md R281, R282 say why those), and, with FTZ = 1, for samples
that are not subnormal (00_scope.md R14 flushes those). For odd L = 2k + 1 each output is the mean
a + 0.5·(b - a) of the samples written k + 1 and k frames earlier, whatever they are. -/
def Obligations.ZeroDepthVibratoIsPureDelay : Prop :=
  (∀ (ftz : Bool) (lfo : Word) (len : Nat), isFinite lfo = true → 1 ≤ len → len ≤ 65535 →
    vibOffset ftz 0#32 lfo len = rn32 false (len * pow2 148) 1) ∧
  (∀ (ftz : Bool) (free : Nat → Word) (h : Nat) (xs : List Word), 1 ≤ h → 2 * h ≤ 65535 →
    (∀ x ∈ xs, expField x < 254 ∧ x ≠ 0x80000000#32 ∧
      (ftz = true → expField x = 0 → x = 0x00000000#32)) →
    ∀ i < xs.length,
      (vibBlock ftz true free (2 * h) ⟨0, []⟩
        (xs.map (fun x => (x, rn32 false (h * pow2 149) 1)))).2.getD i 0#32 =
        if i < h then 0#32 else xs.getD (i - h) 0#32) ∧
  ∀ (ftz : Bool) (free : Nat → Word) (h : Nat) (xs : List Word), 1 ≤ h → 2 * h + 1 ≤ 65535 →
    ∀ i < xs.length,
      (vibBlock ftz true free (2 * h + 1) ⟨0, []⟩
        (xs.map (fun x => (x, rn32 false ((2 * h + 1) * pow2 148) 1)))).2.getD i 0#32 =
        let a := if i < h + 1 then 0#32 else xs.getD (i - (h + 1)) 0#32
        let b := if i < h then 0#32 else xs.getD (i - h) 0#32
        fadd ftz a (fmul ftz 0x3F000000#32 (fsub ftz b a))

/-- 46_effects.md R279: at the quarter turns the default LFO sine is +0, 1, +0, -1. -/
def Obligations.SineAtQuarterTurns : Prop :=
  sin2pi .default 0x00000000#32 = 0x00000000#32 ∧ sin2pi .default 0x3E800000#32 = 0x3F800000#32 ∧
  sin2pi .default 0x3F000000#32 = 0x00000000#32 ∧ sin2pi .default 0x3F400000#32 = 0xBF800000#32

/-! ### The filter primitives -/

/-- 42_convolution.md R173: CONV_DIRECT on an existing channel and a count in range runs direct mode
over SCR[ch][0 .. n-1] in place with the stage's own taps, history and cursor, sets NUMERR for a
non-finite sample written, and changes nothing else; it needs no PREPARE and no work buffer, and n = 0
changes nothing but the bookkeeping. -/
def Obligations.ConvDirectCompletes : Prop :=
  ∀ (s : State) (stg : Stage) (g : FirStage) (ch : BitVec 4) (n : BitVec 16),
    s.params.legal = true → s.Shape → firStage? stg = some g →
    ch.toNat < s.params.nchMax → n.toNat ≤ 4 * s.params.blkMax →
    ∃ t, exec (.convDirect stg ch n) s = .next t ∧
      t = { s with
        mem := t.mem
        numerr := t.numerr
        firUp4 := t.firUp4
        firDn4 := t.firDn4
        done := true
        engPhase := .idle } ∧
      (t.firLine g ch.toNat, t.scrBlock ch.toNat n.toNat) =
        convDirectBlock s.params.ftz (s.tap g) (s.irLen g) (s.firLine g ch.toNat)
          (s.scrBlock ch.toNat n.toNat) ∧
      (∀ g' c', (g', c') ≠ (g, ch.toNat) → t.firLine g' c' = s.firLine g' c') ∧
      s.NumerrAfter t (fun _ i => scrAddr ch.toNat i) 1 n.toNat ∧
      sameBytesOutside s t (inWords (scrAddr ch.toNat 0) n.toNat) ∧
      (n = 0#16 → t = s.completed)

/-- 42_convolution.md R174, R175: CONV_POLY with an even count runs polyphase mode over the even samples
of SCR[ch][0 .. n-1] in place; the odd elements are never read; otherwise as CONV_DIRECT. Polyphase
mode written out, for every FTZ, taps, Nt and line: the cursor moves on by one to w, the even sample is
stored there and no other entry changes, and y0 is the sum, from +0 and in ascending j, of
TAP[2j]·HIST[(w - 2j) mod Nt] over j < ceil(Nt/2); the cursor moves on to w2, +0 is stored there and no
other entry changes, and y1 is the sum of TAP[2j+1]·HIST[(w2 - 1 - 2j) mod Nt] over j < floor(Nt/2);
no other product is formed. The next pair goes on from that line. -/
def Obligations.ConvPolyCompletes : Prop :=
  (∀ (ftz : Bool) (taps : Nat → Word) (nt : Nat) (l : FirLine), 1 ≤ nt →
    convPolyBlock ftz taps nt l [] = (l, []) ∧
    ∀ (x : Word) (xs : List Word), ∃ l1 l2 : FirLine,
      let w := (l.cur + 1) % nt
      let w2 := (w + 1) % nt
      l1.cur = w ∧ (∀ k, l1.get k = if k = w then x else l.get k) ∧
      l2.cur = w2 ∧ (∀ k, l2.get k = if k = w2 then 0#32 else l1.get k) ∧
      let y0 := (List.range ((nt + 1) / 2)).foldl (fun acc j =>
        fadd ftz acc (fmul ftz (taps (2 * j)) (l1.get (((w - 2 * j : Int) % nt).toNat)))) 0#32
      let y1 := (List.range (nt / 2)).foldl (fun acc j =>
        fadd ftz acc (fmul ftz (taps (2 * j + 1))
          (l2.get (((w2 - 1 - 2 * j : Int) % nt).toNat)))) 0#32
      let r := convPolyBlock ftz taps nt l2 xs
      convPolyBlock ftz taps nt l (x :: xs) = (r.1, y0 :: y1 :: r.2)) ∧
  ∀ (s : State) (stg : Stage) (g : FirStage) (ch : BitVec 4) (n : BitVec 16),
    s.params.legal = true → s.Shape → firStage? stg = some g →
    ch.toNat < s.params.nchMax → n.toNat ≤ 4 * s.params.blkMax → n.toNat % 2 = 0 →
    ∃ t, exec (.convPoly stg ch n) s = .next t ∧
      t = { s with
        mem := t.mem
        numerr := t.numerr
        firUp4 := t.firUp4
        firDn4 := t.firDn4
        done := true
        engPhase := .idle } ∧
      (t.firLine g ch.toNat, t.scrBlock ch.toNat n.toNat) =
        convPolyBlock s.params.ftz (s.tap g) (s.irLen g) (s.firLine g ch.toNat)
          ((List.range (n.toNat / 2)).map (fun p => s.loadWord (scrAddr ch.toNat (2 * p)))) ∧
      (∀ g' c', (g', c') ≠ (g, ch.toNat) → t.firLine g' c' = s.firLine g' c') ∧
      s.NumerrAfter t (fun _ i => scrAddr ch.toNat i) 1 n.toNat ∧
      sameBytesOutside s t (inWords (scrAddr ch.toNat 0) n.toNat) ∧
      (n = 0#16 → t = s.completed)

/-- 43_recursive.md R191, R193: RLP_RUN on an existing channel and a count in range runs the cascade
of the stage's first RLP_NSEC_s sections over SCR[ch][0 .. n-1] in place, sets NUMERR for a non-finite
sample written, and changes nothing else; the further sections and the other channels and stages keep
their states. The cascade written out: from any state (x1, x2, y1, y2) of a section its output i is
b0·x[i] + b1·x[i-1] + b2·x[i-2] - a1·y[i-1] - a2·y[i-2], every product and every sum rounded in this
order, and the last two inputs and outputs are its new state; each section's outputs are the next
one's inputs. (`sampleAt` numbers the two samples before the block 0 and 1. That this holds of a state
with an infinity too, where 70_reset_and_hazards.md R357 says that every later output is a NaN, is the
model's reading, log 22: it follows R191.) -/
def Obligations.RlpRunCompletes : Prop :=
  (∀ (s : State) (stg : Stage) (g : RlpStage) (ch : BitVec 4) (n : BitVec 16),
    s.params.legal = true → s.Shape → rlpStage? stg = some g →
    ch.toNat < s.params.nchMax → n.toNat ≤ 4 * s.params.blkMax →
    ∃ t, exec (.rlpRun stg ch n) s = .next t ∧
      t = { s with
        mem := t.mem
        numerr := t.numerr
        rlpUp2 := t.rlpUp2
        rlpDn2 := t.rlpDn2
        done := true
        engPhase := .idle } ∧
      (t.rlpLine g ch.toNat, t.scrBlock ch.toNat n.toNat) =
        rlpBlock s.params.ftz (s.coefs g) (s.rlpNsec g) (s.rlpLine g ch.toNat)
          (s.scrBlock ch.toNat n.toNat) ∧
      (∀ q, s.rlpNsec g ≤ q →
        (t.rlpLine g ch.toNat)[q]? = (s.rlpLine g ch.toNat)[q]?) ∧
      (∀ g' c', (g', c') ≠ (g, ch.toNat) → t.rlpLine g' c' = s.rlpLine g' c') ∧
      s.NumerrAfter t (fun _ i => scrAddr ch.toNat i) 1 n.toNat ∧
      sameBytesOutside s t (inWords (scrAddr ch.toNat 0) n.toNat) ∧
      (n = 0#16 → t = s.completed)) ∧
  (∀ (ftz : Bool) (coef : Nat → Coefs) (b : Biquad) (xs : List Word),
    let r := rlpBlock ftz coef 1 [b] xs
    let x := sampleAt b.x1 b.x2 xs
    let y := sampleAt b.y1 b.y2 r.2
    let k := coef 0
    r.2.length = xs.length ∧
    (∀ i < xs.length, y (i + 2) =
      fsub ftz (fsub ftz (fadd ftz (fadd ftz (fmul ftz k.b0 (x (i + 2))) (fmul ftz k.b1 (x (i + 1))))
        (fmul ftz k.b2 (x i))) (fmul ftz k.a1 (y (i + 1)))) (fmul ftz k.a2 (y i))) ∧
    r.1 = [⟨x (xs.length + 1), x xs.length, y (xs.length + 1), y xs.length⟩]) ∧
  ∀ (ftz : Bool) (coef : Nat → Coefs) (nsec : Nat) (b : Biquad) (bs : List Biquad) (xs : List Word),
    rlpBlock ftz coef 0 bs xs = (bs, xs) ∧
    let r := rlpBlock ftz coef 1 [b] xs
    let rs := rlpBlock ftz (fun q => coef (q + 1)) nsec bs r.2
    rlpBlock ftz coef (nsec + 1) (b :: bs) xs = (r.1 ++ rs.1, rs.2)

/-- 42_convolution.md R171, R177: direct mode written out, for every FTZ, taps, Nt and line: the cursor
moves on by one to w, the sample is stored there and no other entry changes, so that a sample stays
until the one Nt later replaces it, and the output is the sum, from +0 and in ascending k < Nt, of
TAP[k]·HIST[(w - k) mod Nt]; the next sample goes on from that line; and from a cursor c0 < Nt a block
of n samples ends at (c0 + n) mod Nt. From a zeroed state that is the convolution: output i is the sum
of TAP[k] times the sample k steps before, which is +0 before the first. -/
def Obligations.DirectModeIsConvolution : Prop :=
  (∀ (ftz : Bool) (taps : Nat → Word) (nt : Nat) (l : FirLine), 1 ≤ nt →
    convDirectBlock ftz taps nt l [] = (l, []) ∧
    (∀ (x : Word) (xs : List Word), ∃ l1 : FirLine,
      let w := (l.cur + 1) % nt
      l1.cur = w ∧ (∀ k, l1.get k = if k = w then x else l.get k) ∧
      let y := (List.range nt).foldl (fun acc k =>
        fadd ftz acc (fmul ftz (taps k) (l1.get (((w - k : Int) % nt).toNat)))) 0#32
      let r := convDirectBlock ftz taps nt l1 xs
      convDirectBlock ftz taps nt l (x :: xs) = (r.1, y :: r.2)) ∧
    (l.cur < nt → ∀ xs, (convDirectBlock ftz taps nt l xs).1.cur = (l.cur + xs.length) % nt)) ∧
  ∀ (ftz : Bool) (taps : Nat → Word) (nt : Nat) (xs : List Word), 1 ≤ nt →
    let r := convDirectBlock ftz taps nt ⟨0, []⟩ xs
    r.1.cur = xs.length % nt ∧ r.2.length = xs.length ∧
    ∀ i < xs.length,
      r.2.getD i 0#32 =
        (List.range nt).foldl (fun acc k =>
          fadd ftz acc (fmul ftz (taps k) (if k ≤ i then xs.getD (i - k) 0#32 else 0#32))) 0#32

/-- 42_convolution.md R176: from a zeroed state and with finite taps, polyphase mode gives bit for bit
the outputs, the history and the cursor that direct mode gives on the zero-stuffed sequence (with
FTZ = 0; with FTZ = 1 the sign of a zero can differ, log 19). -/
def Obligations.PolyphaseEqualsDirect : Prop :=
  ∀ (taps : Nat → Word) (nt : Nat) (xs : List Word), 1 ≤ nt →
    (∀ k < nt, isFinite (taps k) = true) →
    convPolyBlock false taps nt ⟨0, []⟩ xs = convDirectBlock false taps nt ⟨0, []⟩ (zeroStuff xs)

/-! ### Arithmetic -/

/-- 00_scope.md R15: RN32 of ±num/den units of 2^-149 is ±infinity when the magnitude is at least
2^128·(1 - 2^-25), and otherwise the binary32 nearest to it, the one with an even fraction field when
two are nearest; RN32 of 0 is +0. (The model's choices: the sign of a negative value that rounds to
zero, and `rn32`'s sign argument at 0, log 13; a denominator of 0, log 16.) -/
def Obligations.RoundingNearestEven : Prop :=
  (∀ den : Nat, rn32 false 0 den = 0#32) ∧
  ∀ (neg : Bool) (num den : Nat), 1 ≤ den →
    (den * (pow2 277 - pow2 252) ≤ num → rn32 neg num den = infinity neg) ∧
    (num < den * (pow2 277 - pow2 252) →
      ∃ m : Nat, unpack (rn32 neg num den) = .fin neg m ∧
        ∀ (v : Word) (sgn : Bool) (k : Nat), unpack v = .fin sgn k →
          ((m : Int) * den - num).natAbs ≤ ((k : Int) * den - num).natAbs ∧
          (((m : Int) * den - num).natAbs = ((k : Int) * den - num).natAbs → k ≠ m →
            (rn32 neg num den).getLsbD 0 = false))

/-- 00_scope.md R14, R16, R17: each of fadd, fsub, fmul, fdiv and fsqrt, of operands flushed by FTZ, is
the exact result rounded once and flushed again. `unitsOf` counts units of 2^-149. The root, which is
no fraction, is the nearest binary32 by squares: no midpoint to another value lies on the wrong side
of it. Every NaN result is the canonical one, and a NaN operand gives it. A comparison with a NaN is
false; the others are those of the real numbers and the infinities. (The sign of a zero result is the
model's reading, log 13; the results on infinities and of a division by zero are IEEE 754's, presumed,
log 14.) -/
def Obligations.OperationsRoundOnce : Prop :=
  (∀ (ftz : Bool) (a b : Word), isFinite a = true → isFinite b = true →
    let p := flush ftz a
    let q := flush ftz b
    let u := unitsOf p
    let v := unitsOf q
    fadd ftz a b = (if u + v = 0 then zero (signBit p && signBit q)
      else flush ftz (rn32 (decide (u + v < 0)) (u + v).natAbs 1)) ∧
    fsub ftz a b = (if u - v = 0 then zero (signBit p && !signBit q)
      else flush ftz (rn32 (decide (u - v < 0)) (u - v).natAbs 1)) ∧
    fmul ftz a b = flush ftz (rn32 (signBit p != signBit q) (u * v).natAbs (pow2 149)) ∧
    (v ≠ 0 → fdiv ftz a b =
      flush ftz (rn32 (signBit p != signBit q) (u.natAbs * pow2 149) v.natAbs)) ∧
    (v = 0 → fdiv ftz a b = if u = 0 then 0x7FC00000#32 else infinity (signBit p != signBit q)) ∧
    (u = 0 → fsqrt ftz a = zero (signBit p)) ∧ (u < 0 → fsqrt ftz a = 0x7FC00000#32) ∧
    (0 < u → ∃ k : Nat, unpack (fsqrt ftz a) = .fin false k ∧
      ∀ (w : Word) (sgn : Bool) (j : Nat), unpack w = .fin sgn j →
        (j < k → (j + k) * (j + k) ≤ 4 * (u.natAbs * pow2 149)) ∧
        (k < j → 4 * (u.natAbs * pow2 149) ≤ (j + k) * (j + k)) ∧
        (j ≠ k → (j + k) * (j + k) = 4 * (u.natAbs * pow2 149) →
          (fsqrt ftz a).getLsbD 0 = false)) ∧
    fle a b = decide (unitsOf a ≤ unitsOf b) ∧ flt a b = decide (unitsOf a < unitsOf b) ∧
    feq a b = decide (unitsOf a = unitsOf b)) ∧
  (∀ (ftz : Bool) (a b : Word), isNaN a ∨ isNaN b →
    fadd ftz a b = 0x7FC00000#32 ∧ fsub ftz a b = 0x7FC00000#32 ∧ fmul ftz a b = 0x7FC00000#32 ∧
    fdiv ftz a b = 0x7FC00000#32 ∧ (isNaN a → fsqrt ftz a = 0x7FC00000#32) ∧
    fle a b = false ∧ flt a b = false ∧ feq a b = false) ∧
  (∀ (ftz : Bool) (a b : Word),
    (∀ r ∈ [fadd ftz a b, fsub ftz a b, fmul ftz a b, fdiv ftz a b, fsqrt ftz a],
      isNaN r → r = 0x7FC00000#32)) ∧
  ∀ (ftz s t : Bool) (a : Word), isFinite a = true →
    let z := signBit (flush ftz a)
    fadd ftz (infinity s) (infinity t) = (if s = t then infinity s else 0x7FC00000#32) ∧
    fsub ftz (infinity s) (infinity t) = (if s = t then 0x7FC00000#32 else infinity s) ∧
    fmul ftz (infinity s) (infinity t) = infinity (s != t) ∧
    fdiv ftz (infinity s) (infinity t) = 0x7FC00000#32 ∧
    fadd ftz (infinity s) a = infinity s ∧ fadd ftz a (infinity s) = infinity s ∧
    fsub ftz (infinity s) a = infinity s ∧ fsub ftz a (infinity s) = infinity (!s) ∧
    fmul ftz (infinity s) a =
      (if unitsOf (flush ftz a) = 0 then 0x7FC00000#32 else infinity (s != z)) ∧
    fmul ftz a (infinity s) =
      (if unitsOf (flush ftz a) = 0 then 0x7FC00000#32 else infinity (z != s)) ∧
    fdiv ftz (infinity s) a = infinity (s != z) ∧ fdiv ftz a (infinity s) = zero (z != s) ∧
    fsqrt ftz (infinity s) = (if s then 0x7FC00000#32 else infinity false) ∧
    fle (infinity true) a = true ∧ fle a (infinity false) = true ∧
    flt (infinity true) a = true ∧ flt a (infinity false) = true ∧
    flt a (infinity true) = false ∧ flt (infinity false) a = false ∧
    fle a (infinity true) = false ∧ fle (infinity false) a = false ∧
    feq (infinity s) a = false ∧ feq a (infinity s) = false ∧
    fle (infinity s) (infinity t) = (s || !t) ∧ flt (infinity s) (infinity t) = (s && !t) ∧
    feq (infinity s) (infinity t) = decide (s = t)

/-! ### Rules of the whole machine -/

/-- 44_orchestrator.md R231: ACTIVE changes only at the toggle of R212, in an UPSAMPLE or PROCESS that
completes with REQ_SNAP ≠ ACTIVE and no re-prepare owed; it then takes REQ_SNAP and owes one. (Reset
puts it back to 0 too, 70_reset_and_hazards.md R341. That the ENGINE takes its turn when no event is to
come is the model's choice, log 1.) -/
def Obligations.ActiveChangesOnlyByToggle : Prop :=
  ∀ s t : State, step s = .next t → t.active ≠ s.active →
    (∃ rest, s.inputs = .reset :: rest) ∨
    (s.engPhase = .started ∧ (∃ rest, s.EngineNext rest) ∧
      (∃ n, (decode ⟨cmdAddr, s.pendCmd⟩ = .ok (.upsample n) ∨
        decode ⟨cmdAddr, s.pendCmd⟩ = .ok (.process n)) ∧
        1 ≤ n.toNat ∧ n.toNat ≤ s.params.blkMax) ∧
      s.prepared = true ∧ s.prepareReq = false ∧ s.reqSnap ≠ s.active ∧
      t.active = s.reqSnap ∧ t.prepareReq = true ∧ t.osDirty = true ∧ t.lastTrans = true)

/-- 45_latency.md R242: OS_DIRTY is set only by a toggle (ACTIVE changes), a completed PREPARE, or a
bus write to an IR length or a recursive latency; VIB_DIRTY only by a completed PREPARE; and only
LAT_TICK (or reset) clears either. (That the ENGINE takes its turn when no event is to come is the
model's choice, log 1.) -/
def Obligations.DirtyFlagsSetOnlyByTheirEvents : Prop :=
  ∀ s t : State, step s = .next t →
    let prepares := s.engPhase = .started ∧ decode ⟨cmdAddr, s.pendCmd⟩ = .ok .prepare ∧
      ∃ rest u, s.EngineNext rest ∧ prepareBody { s with inputs := rest } = .ok u ∧ t = u.completed
    (s.osDirty = false → t.osDirty = true →
      t.active ≠ s.active ∨ prepares ∨
      ∃ a v rest, s.WriteNext a v rest ∧
        (a = 0x080#32 ∨ a = 0x084#32 ∨ a = 0x090#32 ∨ a = 0x094#32)) ∧
    (s.vibDirty = false → t.vibDirty = true → prepares) ∧
    ((s.osDirty = true ∧ t.osDirty = false) ∨ (s.vibDirty = true ∧ t.vibDirty = false) →
      (∃ rest, s.inputs = .reset :: rest) ∨ ∃ v rest, s.WriteNext 0x020#32 v rest)

/-! ### Invariants -/

/-- 10_state.md R64 and the model's own canonical forms: what the invariants below speak of holds after
every reset of every legal machine. -/
def Obligations.InvariantsAtReset : Prop :=
  ∀ (p : Params) (n : Nat), p.legal = true →
    (State.afterReset p n).Inv ∧ (State.afterReset p n).PhaseInRange ∧
    (State.afterReset p n).StoresCanonical ∧ (State.afterReset p n).ErrorRecord ∧
    (State.afterReset p n).ModesAgree ∧ (State.afterReset p n).TotalsAgree ∧
    State.reset = State.afterReset Params.default 0 ∧ Params.default.legal = true

/-- 10_state.md R64, items 1 to 5: every step keeps the ranges of the checked registers, the cursors,
the vibrato length and the work-buffer geometry, from every state that has them. -/
def Obligations.StepKeepsInv : Prop := ∀ s t : State, s.Inv → step s = .next t → t.Inv

/-- 10_state.md R64, item 6: every step keeps 0 ≤ VPH < 1, from every state that has it, whatever the
frequency, the rate and SIN2PI. -/
def Obligations.StepKeepsPhase : Prop :=
  ∀ s t : State, s.PhaseInRange → step s = .next t → t.PhaseInRange

/-- Every step keeps every store in its canonical form (log 12). -/
def Obligations.StepKeepsCanonicalStores : Prop :=
  ∀ s t : State, s.StoresCanonical → step s = .next t → t.StoresCanonical

/-- 10_state.md R37, 60_exceptions.md R301: every step keeps the error record consistent (ERRCODE is 0
exactly while ERR = 0, and no code above 6 is recorded). 44_orchestrator.md R205, R212 to R214: every
step keeps the mode bits together. 45_latency.md R245: the totals written back always equal LAT_PUB. -/
def Obligations.StepKeepsErrorsModesAndTotals : Prop :=
  ∀ s t : State, step s = .next t →
    (s.ErrorRecord → t.ErrorRecord) ∧ (s.ModesAgree → t.ModesAgree) ∧
    (s.TotalsAgree → t.TotalsAgree)
end

