-- ==== Sys2Proof/Laws/Store.lean ====
section
/-! SUPPORT. The laws of the sparse store: read after write, and the canonical form. -/

namespace Sys2Proof.Machine.Store

variable {α : Type}

@[simp] theorem lookup_nil (k : Nat) : lookup ([] : List (Nat × α)) k = none := rfl

@[simp] theorem lookup_cons (c : Nat × α) (m : List (Nat × α)) (k : Nat) :
    lookup (c :: m) k = if k = c.1 then some c.2 else lookup m k := rfl

@[simp] theorem lookup_put_same (m : List (Nat × α)) (k : Nat) (v : α) :
    lookup (put m k v) k = some v := by
  induction m with
  | nil => simp [put]
  | cons c m ih =>
    simp only [put]
    split
    · simp
    · split
      · simp
      · next hne => simp [hne, ih]

@[simp] theorem lookup_put_ne (m : List (Nat × α)) {k j : Nat} (v : α) (h : j ≠ k) :
    lookup (put m k v) j = lookup m j := by
  induction m with
  | nil => simp [put, h]
  | cons c m ih =>
    simp only [put]
    split
    · simp [h]
    · split
      · next hk => subst hk; simp [h]
      · simp [ih]

@[simp] theorem lookup_drop_same (m : List (Nat × α)) (k : Nat) : lookup (drop m k) k = none := by
  induction m with
  | nil => rfl
  | cons c m ih =>
    simp only [drop]
    split
    · exact ih
    · next hne => simp [hne, ih]

@[simp] theorem lookup_drop_ne (m : List (Nat × α)) {k j : Nat} (h : j ≠ k) :
    lookup (drop m k) j = lookup m j := by
  induction m with
  | nil => rfl
  | cons c m ih =>
    simp only [drop]
    split
    · next hk => subst hk; simp [h, ih]
    · simp [ih]

section Read
variable [DecidableEq α] {dflt : Nat → Option α}

/-- A read after a write to the same key gives the value written. -/
@[simp] theorem read_write_same (m : List (Nat × α)) (k : Nat) (v : α) :
    read dflt (write dflt m k v) k = some v := by
  by_cases h : dflt k = some v <;> simp [read, write, h]

/-- A write leaves every other key alone. -/
@[simp] theorem read_write_ne (m : List (Nat × α)) {k j : Nat} (v : α) (h : j ≠ k) :
    read dflt (write dflt m k v) j = read dflt m j := by
  by_cases h' : dflt k = some v <;> simp [read, write, h, h']

/-- Reading any key after a write. -/
theorem read_write (m : List (Nat × α)) (k j : Nat) (v : α) :
    read dflt (write dflt m k v) j = if j = k then some v else read dflt m j := by
  by_cases h : j = k
  · subst h; simp
  · simp [h]

end Read

theorem mem_put (m : List (Nat × α)) (k : Nat) (v : α) (c : Nat × α) (h : c ∈ put m k v) :
    c = (k, v) ∨ c ∈ m := by
  induction m with
  | nil => simpa [put] using h
  | cons d m ih =>
    simp only [put] at h
    split at h
    · simpa using h
    · split at h
      · rcases List.mem_cons.mp h with h | h
        · exact .inl h
        · exact .inr (List.mem_cons_of_mem _ h)
      · rcases List.mem_cons.mp h with h | h
        · exact .inr (by simp [h])
        · rcases ih h with h | h
          · exact .inl h
          · exact .inr (List.mem_cons_of_mem _ h)

theorem mem_drop (m : List (Nat × α)) (k : Nat) (c : Nat × α) (h : c ∈ drop m k) : c ∈ m := by
  induction m with
  | nil => exact h
  | cons d m ih =>
    simp only [drop] at h
    split at h
    · exact List.mem_cons_of_mem _ (ih h)
    · rcases List.mem_cons.mp h with h | h
      · simp [h]
      · exact List.mem_cons_of_mem _ (ih h)

theorem sorted_cons_iff (a : Nat) (v : α) (m : List (Nat × α)) :
    sorted ((a, v) :: m) = true ↔ (∀ c ∈ m, a < c.1) ∧ sorted m = true := by
  simp [sorted]

theorem sorted_put (m : List (Nat × α)) (k : Nat) (v : α) (h : sorted m = true) :
    sorted (put m k v) = true := by
  induction m with
  | nil => simp [put, sorted]
  | cons d m ih =>
    obtain ⟨a, w⟩ := d
    obtain ⟨h1, h2⟩ := (sorted_cons_iff a w m).mp h
    simp only [put]
    split
    · next hk =>
      refine (sorted_cons_iff _ _ _).mpr ⟨fun c hc => ?_, h⟩
      rcases List.mem_cons.mp hc with rfl | hc
      · exact hk
      · exact lt_trans hk (h1 c hc)
    · split
      · next hk => subst hk; exact (sorted_cons_iff _ _ _).mpr ⟨h1, h2⟩
      · refine (sorted_cons_iff _ _ _).mpr ⟨fun c hc => ?_, ih h2⟩
        rcases mem_put m k v c hc with rfl | hc
        · simp only; omega
        · exact h1 c hc

theorem sorted_drop (m : List (Nat × α)) (k : Nat) (h : sorted m = true) :
    sorted (drop m k) = true := by
  induction m with
  | nil => exact h
  | cons d m ih =>
    obtain ⟨a, w⟩ := d
    obtain ⟨h1, h2⟩ := (sorted_cons_iff a w m).mp h
    simp only [drop]
    split
    · exact ih h2
    · exact (sorted_cons_iff _ _ _).mpr ⟨fun c hc => h1 c (mem_drop m k c hc), ih h2⟩

variable [DecidableEq α] {dflt : Nat → Option α}

theorem wf_iff (m : List (Nat × α)) :
    wf dflt m = true ↔ sorted m = true ∧ ∀ c ∈ m, dflt c.1 ≠ some c.2 := by
  simp [wf]

/-- The empty store is canonical. -/
@[simp] theorem wf_nil : wf dflt [] = true := by simp [wf, sorted]

/-- A write keeps the canonical form. -/
theorem wf_write (m : List (Nat × α)) (k : Nat) (v : α) (h : wf dflt m = true) :
    wf dflt (write dflt m k v) = true := by
  obtain ⟨h1, h2⟩ := (wf_iff m).mp h
  refine (wf_iff _).mpr ?_
  unfold write
  split
  · exact ⟨sorted_drop m k h1, fun c hc => h2 c (mem_drop m k c hc)⟩
  · next hne =>
    refine ⟨sorted_put m k v h1, fun c hc => ?_⟩
    rcases mem_put m k v c hc with rfl | hc
    · exact hne
    · exact h2 c hc

end Sys2Proof.Machine.Store
end

