-- ==== Sys2Proof/Laws/Blocks.lean ====
section
/-! SUPPORT. Ring positions stay in range and every block operation keeps or scales the length of its
block. -/

namespace Sys2Proof.Machine

/-! ### Rings (00_scope.md R19) -/

theorem ringNext_lt (cur : Nat) {len : Nat} (h : 0 < len) : ringNext cur len < len :=
  Nat.mod_lt _ h

theorem ringBack_lt (cur n : Nat) {len : Nat} (h : 0 < len) : ringBack cur n len < len :=
  Nat.mod_lt _ h

/-- A read zero steps behind is at the cursor. -/
theorem ringBack_zero {cur len : Nat} (h : cur < len) : ringBack cur 0 len = cur := by
  simp [ringBack, Nat.mod_eq_of_lt h]

/-- A ring position is the cursor less the steps back, modulo the length, in the integers. -/
theorem ringBack_eq_emod (cur n : Nat) {len : Nat} (h : 0 < len) :
    ringBack cur n len = (((cur : Int) - n) % len).toNat := by
  have hn : n % len ≤ len := (Nat.mod_lt n h).le
  have : ((ringBack cur n len : Nat) : Int) = ((cur : Int) - n) % len := by
    have e : (cur : Int) % len + (len - (n : Int) % len) =
        cur - n + len * (1 - (cur : Int) / len + (n : Int) / len) := by
      linear_combination Int.mul_ediv_add_emod cur len - Int.mul_ediv_add_emod n len
    rw [ringBack]; push_cast [Nat.cast_sub hn]; rw [e, Int.add_mul_emod_self_left]
  omega

/-! ### Convolution -/

@[simp] theorem FirLine.cur_push (l : FirLine) (w : Nat) (x : Word) : (l.push w x).cur = w := rfl

/-- A push stores the sample at the new cursor and leaves every other entry. -/
theorem FirLine.get_push (l : FirLine) (w k : Nat) (x : Word) :
    (l.push w x).get k = if k = w then x else l.get k := by
  unfold FirLine.push FirLine.get
  rw [Store.read_write]
  split <;> rfl

@[simp] theorem convDirectSample_cur (ftz : Bool) (taps : Nat → Word) (nt : Nat) (l : FirLine)
    (x : Word) : (convDirectSample ftz taps nt l x).1.cur = ringNext l.cur nt := rfl

@[simp] theorem polyEven_cur (ftz : Bool) (taps : Nat → Word) (nt : Nat) (l : FirLine) (x : Word) :
    (polyEven ftz taps nt l x).1.cur = ringNext l.cur nt := rfl

@[simp] theorem polyOdd_cur (ftz : Bool) (taps : Nat → Word) (nt : Nat) (l : FirLine) :
    (polyOdd ftz taps nt l).1.cur = ringNext l.cur nt := rfl

theorem convDirectBlock_cons (ftz : Bool) (taps : Nat → Word) (nt : Nat) (l : FirLine) (x : Word)
    (xs : List Word) :
    convDirectBlock ftz taps nt l (x :: xs) =
      ((convDirectBlock ftz taps nt (convDirectSample ftz taps nt l x).1 xs).1,
        (convDirectSample ftz taps nt l x).2 ::
          (convDirectBlock ftz taps nt (convDirectSample ftz taps nt l x).1 xs).2) := rfl

theorem convPolyBlock_cons (ftz : Bool) (taps : Nat → Word) (nt : Nat) (l : FirLine) (x : Word)
    (xs : List Word) :
    convPolyBlock ftz taps nt l (x :: xs) =
      ((convPolyBlock ftz taps nt (polyPair ftz taps nt l x).1 xs).1,
        (polyPair ftz taps nt l x).2.1 :: (polyPair ftz taps nt l x).2.2 ::
          (convPolyBlock ftz taps nt (polyPair ftz taps nt l x).1 xs).2) := rfl

@[simp] theorem length_convDirectBlock (ftz : Bool) (taps : Nat → Word) (nt : Nat)
    (xs : List Word) : ∀ l, (convDirectBlock ftz taps nt l xs).2.length = xs.length := by
  induction xs with
  | nil => intro l; rfl
  | cons x xs ih => intro l; rw [convDirectBlock_cons]; simp [ih]

@[simp] theorem length_convPolyBlock (ftz : Bool) (taps : Nat → Word) (nt : Nat)
    (xs : List Word) : ∀ l, (convPolyBlock ftz taps nt l xs).2.length = 2 * xs.length := by
  induction xs with
  | nil => intro l; rfl
  | cons x xs ih => intro l; rw [convPolyBlock_cons]; simp [ih]; omega

/-! ### The recursive stage -/

theorem rlpBlock_cons (ftz : Bool) (coef : Nat → Coefs) (nsec : Nat) (bs : List Biquad) (x : Word)
    (xs : List Word) :
    rlpBlock ftz coef nsec bs (x :: xs) =
      ((rlpBlock ftz coef nsec (rlpSample ftz coef nsec bs x).1 xs).1,
        (rlpSample ftz coef nsec bs x).2 ::
          (rlpBlock ftz coef nsec (rlpSample ftz coef nsec bs x).1 xs).2) := rfl

@[simp] theorem length_rlpBlock (ftz : Bool) (coef : Nat → Coefs) (nsec : Nat) (xs : List Word) :
    ∀ bs, (rlpBlock ftz coef nsec bs xs).2.length = xs.length := by
  induction xs with
  | nil => intro bs; rfl
  | cons x xs ih => intro bs; rw [rlpBlock_cons]; simp [ih]

/-- A cascade keeps the number of section states. -/
@[simp] theorem length_cascadeSample (ftz : Bool) (coef : Nat → Coefs) (bs : List Biquad) :
    ∀ nsec q v, (cascadeSample ftz coef nsec q bs v).1.length = bs.length := by
  induction bs with
  | nil => intro nsec q v; cases nsec <;> rfl
  | cons b bs ih =>
    intro nsec q v
    cases nsec with
    | zero => rfl
    | succ nsec => simpa [cascadeSample] using ih nsec (q + 1) _

@[simp] theorem length_rlpBlock_state (ftz : Bool) (coef : Nat → Coefs) (nsec : Nat)
    (xs : List Word) : ∀ bs, (rlpBlock ftz coef nsec bs xs).1.length = bs.length := by
  induction xs with
  | nil => intro bs; rfl
  | cons x xs ih => intro bs; rw [rlpBlock_cons]; simp [ih, rlpSample]

/-! ### Rate changes -/

@[simp] theorem length_zeroStuff (xs : List Word) : (zeroStuff xs).length = 2 * xs.length := by
  induction xs with
  | nil => rfl
  | cons x xs ih => simp [zeroStuff, ih]; omega

/-- Decimation keeps the upper half of an odd length. -/
@[simp] theorem length_evens (xs : List Word) : (evens xs).length = (xs.length + 1) / 2 := by
  induction xs using evens.induct with
  | case1 => rfl
  | case2 x => simp [evens]
  | case3 x y xs ih => simp [evens, ih]; omega

@[simp] theorem length_outputChannels (n : Nat) (chans : List (List Word)) :
    (outputChannels n chans).length = n := by simp [outputChannels]

/-! ### The vibrato -/

@[simp] theorem length_vibFrames (ftz : Bool) (sine : Word → Word) (depth inc : Word) (len n : Nat) :
    ∀ vph, (vibFrames ftz sine depth inc len n vph).1.length = n := by
  induction n with
  | zero => intro vph; rfl
  | succ n ih => intro vph; simp [vibFrames, ih]

theorem vibBlock_cons (ftz prepared : Bool) (free : Nat → Word) (len : Nat) (l : VibLine)
    (x off : Word) (xs : List (Word × Word)) :
    vibBlock ftz prepared free len l ((x, off) :: xs) =
      ((vibBlock ftz prepared free len (vibSample ftz prepared free len l x off).1 xs).1,
        (vibSample ftz prepared free len l x off).2 ::
          (vibBlock ftz prepared free len (vibSample ftz prepared free len l x off).1 xs).2) := rfl

@[simp] theorem length_vibBlock (ftz prepared : Bool) (free : Nat → Word) (len : Nat)
    (xs : List (Word × Word)) :
    ∀ l, (vibBlock ftz prepared free len l xs).2.length = xs.length := by
  induction xs with
  | nil => intro l; rfl
  | cons x xs ih => intro l; obtain ⟨x, off⟩ := x; rw [vibBlock_cons]; simp [ih]

/-! ### Channels -/

/-- Replacing the first entries of a list keeps its length when they fit. -/
theorem length_replaceFirst {α : Type} (new old : List α) (h : new.length ≤ old.length) :
    (replaceFirst new old).length = old.length := by
  simp [replaceFirst]; omega

/-- An entry of a list whose first entries were replaced is a new one or an old one. -/
theorem mem_replaceFirst {α : Type} {new old : List α} {x : α} (h : x ∈ replaceFirst new old) :
    x ∈ new ∨ x ∈ old := by
  rcases List.mem_append.mp h with h | h
  · exact .inl h
  · exact .inr (List.mem_of_mem_drop h)

/-! ### Terms of claims -/

@[simp] theorem sampleAt_zero (one two : Word) (xs : List Word) : sampleAt one two xs 0 = two := rfl

@[simp] theorem sampleAt_one (one two : Word) (xs : List Word) : sampleAt one two xs 1 = one := rfl

@[simp] theorem sampleAt_add_two (one two : Word) (xs : List Word) (i : Nat) :
    sampleAt one two xs (i + 2) = xs.getD i 0#32 := by simp [sampleAt]

@[simp] theorem flush_false (w : Word) : flush false w = w := rfl

end Sys2Proof.Machine
end

