-- ==== Sys2Proof/Laws/Bus.lean ====
section
/-! SUPPORT. What the checks of a bus access can answer: one inversion lemma, to be cited in place of
unfolding. -/

namespace Sys2Proof.Machine

/-- Everything the checks of an access can answer (20_memory.md R82, R86, R90, R91, R94;
60_exceptions.md R305). -/
theorem checkAccess_cases (s : State) (a : BusAccess) :
    (¬ (a.size = 4 ∧ a.addr.toNat % 4 = 0) ∧ checkAccess s a = .error .bus) ∨
    (a.size = 4 ∧ a.addr.toNat % 4 = 0 ∧ targetAt s.params a.addr.toNat = none ∧
      checkAccess s a = .error .bus) ∨
    (∃ t, a.size = 4 ∧ a.addr.toNat % 4 = 0 ∧ targetAt s.params a.addr.toNat = some t ∧
      checkAccess s a = checkTarget s a t) := by
  unfold checkAccess
  by_cases h : a.size = 4 ∧ a.addr.toNat % 4 = 0
  · cases ht : targetAt s.params a.addr.toNat with
    | none => exact .inr (.inl ⟨h.1, h.2, rfl, by simp [h]⟩)
    | some t => exact .inr (.inr ⟨t, h.1, h.2, rfl, by simp [h]⟩)
  · exact .inl ⟨h, by simp [h]⟩

/-- A checked target is the one asked for. -/
theorem checkTarget_ok {s : State} {a : BusAccess} {t u : Target}
    (h : checkTarget s a t = .ok u) : u = t := by
  unfold checkTarget at h
  repeat' split at h
  all_goals first | (cases h; rfl) | cases h

/-- An element is reached exactly while the block is idle (20_memory.md R94). -/
theorem checkTarget_element (s : State) (a : BusAccess) :
    checkTarget s a .element = if s.busy then .error .busy else .ok .element := rfl

/-- Every mapped register can be read at any time (20_memory.md R94). -/
theorem checkTarget_read (s : State) (a : BusAccess) (r : Reg) (h : a.kind = .read) :
    checkTarget s a (.reg r) = .ok (.reg r) := by
  simp [checkTarget, h]

/-- When a register write is permitted (20_memory.md R91, R94). -/
theorem checkTarget_write_ok_iff (s : State) (a : BusAccess) (r : Reg) (h : a.kind = .write) :
    checkTarget s a (.reg r) = .ok (.reg r) ↔
      (s.busy = false ∨ r.writableWhileBusy = true) ∧ Reg.legal s.params a.wdata r = true := by
  unfold checkTarget
  simp only [h]
  cases s.busy <;> cases r.writableWhileBusy <;> cases Reg.legal s.params a.wdata r <;> simp

/-- An offset names at most one register, the one at that offset (20_memory.md R83). -/
theorem offset_of_at? {a : Nat} {r : Reg} (h : Reg.at? a = some r) : r.offset = a := by
  simpa using List.find?_some h

/-- Every register is found at its offset (20_memory.md R83). -/
@[simp] theorem at?_offset (r : Reg) : Reg.at? r.offset = some r := by
  cases r <;> decide

end Sys2Proof.Machine
end

