-- ==== Sys2Proof/Laws/State.lean ====
section
/-! SUPPORT. One lemma per field per update of State: what the update leaves and what it sets. No
later proof unfolds a record update. -/

namespace Sys2Proof.Machine

/-- Storing channels changes only the memory. -/
theorem storeChannels_eq (addr : Nat → Nat) (chans : List (List Word)) :
    ∀ (s : State) (c : Nat),
      s.storeChannels addr c chans = { s with mem := (s.storeChannels addr c chans).mem } := by
  induction chans with
  | nil => intro s c; rfl
  | cons ws rest ih => intro s c; rw [State.storeChannels, ih]; rfl

/-- Storing SCR channels changes only the memory. -/
theorem setScrChannels_eq (s : State) (chans : List (List Word)) :
    s.setScrChannels chans = { s with mem := (s.setScrChannels chans).mem } :=
  storeChannels_eq _ chans s 0

/-- Storing OUT channels changes only the memory. -/
theorem setOutChannels_eq (s : State) (chans : List (List Word)) :
    s.setOutChannels chans = { s with mem := (s.setOutChannels chans).mem } :=
  storeChannels_eq _ chans s 0

/-! ### raise -/

@[simp] theorem raise_params (s : State) (e : ErrorCode) : (s.raise e).params = s.params := rfl
@[simp] theorem raise_pendCmd (s : State) (e : ErrorCode) : (s.raise e).pendCmd = s.pendCmd := rfl
@[simp] theorem raise_engPhase (s : State) (e : ErrorCode) : (s.raise e).engPhase = s.engPhase := rfl
@[simp] theorem raise_reqSnap (s : State) (e : ErrorCode) : (s.raise e).reqSnap = s.reqSnap := rfl
@[simp] theorem raise_done (s : State) (e : ErrorCode) : (s.raise e).done = s.done := rfl
@[simp] theorem raise_err (s : State) (e : ErrorCode) : (s.raise e).err = true := rfl
@[simp] theorem raise_numerr (s : State) (e : ErrorCode) : (s.raise e).numerr = s.numerr := rfl
@[simp] theorem raise_latNew (s : State) (e : ErrorCode) : (s.raise e).latNew = s.latNew := rfl
@[simp] theorem raise_prepared (s : State) (e : ErrorCode) : (s.raise e).prepared = s.prepared := rfl
@[simp] theorem raise_active (s : State) (e : ErrorCode) : (s.raise e).active = s.active := rfl
@[simp] theorem raise_prepareReq (s : State) (e : ErrorCode) : (s.raise e).prepareReq = s.prepareReq := rfl
@[simp] theorem raise_wmode (s : State) (e : ErrorCode) : (s.raise e).wmode = s.wmode := rfl
@[simp] theorem raise_lastTrans (s : State) (e : ErrorCode) : (s.raise e).lastTrans = s.lastTrans := rfl
@[simp] theorem raise_errcode (s : State) (e : ErrorCode) : (s.raise e).errcode = if s.err then s.errcode else e.code := rfl
@[simp] theorem raise_osReq (s : State) (e : ErrorCode) : (s.raise e).osReq = s.osReq := rfl
@[simp] theorem raise_latPub (s : State) (e : ErrorCode) : (s.raise e).latPub = s.latPub := rfl
@[simp] theorem raise_osDirty (s : State) (e : ErrorCode) : (s.raise e).osDirty = s.osDirty := rfl
@[simp] theorem raise_vibDirty (s : State) (e : ErrorCode) : (s.raise e).vibDirty = s.vibDirty := rfl
@[simp] theorem raise_osTotal (s : State) (e : ErrorCode) : (s.raise e).osTotal = s.osTotal := rfl
@[simp] theorem raise_vibTotal (s : State) (e : ErrorCode) : (s.raise e).vibTotal = s.vibTotal := rfl
@[simp] theorem raise_fsLo (s : State) (e : ErrorCode) : (s.raise e).fsLo = s.fsLo := rfl
@[simp] theorem raise_fsHi (s : State) (e : ErrorCode) : (s.raise e).fsHi = s.fsHi := rfl
@[simp] theorem raise_blockSize (s : State) (e : ErrorCode) : (s.raise e).blockSize = s.blockSize := rfl
@[simp] theorem raise_nchIn (s : State) (e : ErrorCode) : (s.raise e).nchIn = s.nchIn := rfl
@[simp] theorem raise_nchOut (s : State) (e : ErrorCode) : (s.raise e).nchOut = s.nchOut := rfl
@[simp] theorem raise_upFsLo (s : State) (e : ErrorCode) : (s.raise e).upFsLo = s.upFsLo := rfl
@[simp] theorem raise_upFsHi (s : State) (e : ErrorCode) : (s.raise e).upFsHi = s.upFsHi := rfl
@[simp] theorem raise_upBlock (s : State) (e : ErrorCode) : (s.raise e).upBlock = s.upBlock := rfl
@[simp] theorem raise_fxCtrl (s : State) (e : ErrorCode) : (s.raise e).fxCtrl = s.fxCtrl := rfl
@[simp] theorem raise_wfDrive (s : State) (e : ErrorCode) : (s.raise e).wfDrive = s.wfDrive := rfl
@[simp] theorem raise_satDrive (s : State) (e : ErrorCode) : (s.raise e).satDrive = s.satDrive := rfl
@[simp] theorem raise_vibFreq (s : State) (e : ErrorCode) : (s.raise e).vibFreq = s.vibFreq := rfl
@[simp] theorem raise_vibDepth (s : State) (e : ErrorCode) : (s.raise e).vibDepth = s.vibDepth := rfl
@[simp] theorem raise_vibLen (s : State) (e : ErrorCode) : (s.raise e).vibLen = s.vibLen := rfl
@[simp] theorem raise_vph (s : State) (e : ErrorCode) : (s.raise e).vph = s.vph := rfl
@[simp] theorem raise_vibInc (s : State) (e : ErrorCode) : (s.raise e).vibInc = s.vibInc := rfl
@[simp] theorem raise_irLenUp4 (s : State) (e : ErrorCode) : (s.raise e).irLenUp4 = s.irLenUp4 := rfl
@[simp] theorem raise_irLenDn4 (s : State) (e : ErrorCode) : (s.raise e).irLenDn4 = s.irLenDn4 := rfl
@[simp] theorem raise_rlpNsecUp2 (s : State) (e : ErrorCode) : (s.raise e).rlpNsecUp2 = s.rlpNsecUp2 := rfl
@[simp] theorem raise_rlpNsecDn2 (s : State) (e : ErrorCode) : (s.raise e).rlpNsecDn2 = s.rlpNsecDn2 := rfl
@[simp] theorem raise_rlpLatUp2 (s : State) (e : ErrorCode) : (s.raise e).rlpLatUp2 = s.rlpLatUp2 := rfl
@[simp] theorem raise_rlpLatDn2 (s : State) (e : ErrorCode) : (s.raise e).rlpLatDn2 = s.rlpLatDn2 := rfl
@[simp] theorem raise_wlen (s : State) (e : ErrorCode) : (s.raise e).wlen = s.wlen := rfl
@[simp] theorem raise_wch (s : State) (e : ErrorCode) : (s.raise e).wch = s.wch := rfl
@[simp] theorem raise_wn (s : State) (e : ErrorCode) : (s.raise e).wn = s.wn := rfl
@[simp] theorem raise_mem (s : State) (e : ErrorCode) : (s.raise e).mem = s.mem := rfl
@[simp] theorem raise_firUp4 (s : State) (e : ErrorCode) : (s.raise e).firUp4 = s.firUp4 := rfl
@[simp] theorem raise_firDn4 (s : State) (e : ErrorCode) : (s.raise e).firDn4 = s.firDn4 := rfl
@[simp] theorem raise_rlpUp2 (s : State) (e : ErrorCode) : (s.raise e).rlpUp2 = s.rlpUp2 := rfl
@[simp] theorem raise_rlpDn2 (s : State) (e : ErrorCode) : (s.raise e).rlpDn2 = s.rlpDn2 := rfl
@[simp] theorem raise_vib (s : State) (e : ErrorCode) : (s.raise e).vib = s.vib := rfl
@[simp] theorem raise_inputs (s : State) (e : ErrorCode) : (s.raise e).inputs = s.inputs := rfl
@[simp] theorem raise_reply (s : State) (e : ErrorCode) : (s.raise e).reply = s.reply := rfl
@[simp] theorem raise_resets (s : State) (e : ErrorCode) : (s.raise e).resets = s.resets := rfl

/-! ### clearErr -/

@[simp] theorem clearErr_params (s : State) : s.clearErr.params = s.params := rfl
@[simp] theorem clearErr_pendCmd (s : State) : s.clearErr.pendCmd = s.pendCmd := rfl
@[simp] theorem clearErr_engPhase (s : State) : s.clearErr.engPhase = s.engPhase := rfl
@[simp] theorem clearErr_reqSnap (s : State) : s.clearErr.reqSnap = s.reqSnap := rfl
@[simp] theorem clearErr_done (s : State) : s.clearErr.done = s.done := rfl
@[simp] theorem clearErr_err (s : State) : s.clearErr.err = false := rfl
@[simp] theorem clearErr_numerr (s : State) : s.clearErr.numerr = s.numerr := rfl
@[simp] theorem clearErr_latNew (s : State) : s.clearErr.latNew = s.latNew := rfl
@[simp] theorem clearErr_prepared (s : State) : s.clearErr.prepared = s.prepared := rfl
@[simp] theorem clearErr_active (s : State) : s.clearErr.active = s.active := rfl
@[simp] theorem clearErr_prepareReq (s : State) : s.clearErr.prepareReq = s.prepareReq := rfl
@[simp] theorem clearErr_wmode (s : State) : s.clearErr.wmode = s.wmode := rfl
@[simp] theorem clearErr_lastTrans (s : State) : s.clearErr.lastTrans = s.lastTrans := rfl
@[simp] theorem clearErr_errcode (s : State) : s.clearErr.errcode = 0#8 := rfl
@[simp] theorem clearErr_osReq (s : State) : s.clearErr.osReq = s.osReq := rfl
@[simp] theorem clearErr_latPub (s : State) : s.clearErr.latPub = s.latPub := rfl
@[simp] theorem clearErr_osDirty (s : State) : s.clearErr.osDirty = s.osDirty := rfl
@[simp] theorem clearErr_vibDirty (s : State) : s.clearErr.vibDirty = s.vibDirty := rfl
@[simp] theorem clearErr_osTotal (s : State) : s.clearErr.osTotal = s.osTotal := rfl
@[simp] theorem clearErr_vibTotal (s : State) : s.clearErr.vibTotal = s.vibTotal := rfl
@[simp] theorem clearErr_fsLo (s : State) : s.clearErr.fsLo = s.fsLo := rfl
@[simp] theorem clearErr_fsHi (s : State) : s.clearErr.fsHi = s.fsHi := rfl
@[simp] theorem clearErr_blockSize (s : State) : s.clearErr.blockSize = s.blockSize := rfl
@[simp] theorem clearErr_nchIn (s : State) : s.clearErr.nchIn = s.nchIn := rfl
@[simp] theorem clearErr_nchOut (s : State) : s.clearErr.nchOut = s.nchOut := rfl
@[simp] theorem clearErr_upFsLo (s : State) : s.clearErr.upFsLo = s.upFsLo := rfl
@[simp] theorem clearErr_upFsHi (s : State) : s.clearErr.upFsHi = s.upFsHi := rfl
@[simp] theorem clearErr_upBlock (s : State) : s.clearErr.upBlock = s.upBlock := rfl
@[simp] theorem clearErr_fxCtrl (s : State) : s.clearErr.fxCtrl = s.fxCtrl := rfl
@[simp] theorem clearErr_wfDrive (s : State) : s.clearErr.wfDrive = s.wfDrive := rfl
@[simp] theorem clearErr_satDrive (s : State) : s.clearErr.satDrive = s.satDrive := rfl
@[simp] theorem clearErr_vibFreq (s : State) : s.clearErr.vibFreq = s.vibFreq := rfl
@[simp] theorem clearErr_vibDepth (s : State) : s.clearErr.vibDepth = s.vibDepth := rfl
@[simp] theorem clearErr_vibLen (s : State) : s.clearErr.vibLen = s.vibLen := rfl
@[simp] theorem clearErr_vph (s : State) : s.clearErr.vph = s.vph := rfl
@[simp] theorem clearErr_vibInc (s : State) : s.clearErr.vibInc = s.vibInc := rfl
@[simp] theorem clearErr_irLenUp4 (s : State) : s.clearErr.irLenUp4 = s.irLenUp4 := rfl
@[simp] theorem clearErr_irLenDn4 (s : State) : s.clearErr.irLenDn4 = s.irLenDn4 := rfl
@[simp] theorem clearErr_rlpNsecUp2 (s : State) : s.clearErr.rlpNsecUp2 = s.rlpNsecUp2 := rfl
@[simp] theorem clearErr_rlpNsecDn2 (s : State) : s.clearErr.rlpNsecDn2 = s.rlpNsecDn2 := rfl
@[simp] theorem clearErr_rlpLatUp2 (s : State) : s.clearErr.rlpLatUp2 = s.rlpLatUp2 := rfl
@[simp] theorem clearErr_rlpLatDn2 (s : State) : s.clearErr.rlpLatDn2 = s.rlpLatDn2 := rfl
@[simp] theorem clearErr_wlen (s : State) : s.clearErr.wlen = s.wlen := rfl
@[simp] theorem clearErr_wch (s : State) : s.clearErr.wch = s.wch := rfl
@[simp] theorem clearErr_wn (s : State) : s.clearErr.wn = s.wn := rfl
@[simp] theorem clearErr_mem (s : State) : s.clearErr.mem = s.mem := rfl
@[simp] theorem clearErr_firUp4 (s : State) : s.clearErr.firUp4 = s.firUp4 := rfl
@[simp] theorem clearErr_firDn4 (s : State) : s.clearErr.firDn4 = s.firDn4 := rfl
@[simp] theorem clearErr_rlpUp2 (s : State) : s.clearErr.rlpUp2 = s.rlpUp2 := rfl
@[simp] theorem clearErr_rlpDn2 (s : State) : s.clearErr.rlpDn2 = s.rlpDn2 := rfl
@[simp] theorem clearErr_vib (s : State) : s.clearErr.vib = s.vib := rfl
@[simp] theorem clearErr_inputs (s : State) : s.clearErr.inputs = s.inputs := rfl
@[simp] theorem clearErr_reply (s : State) : s.clearErr.reply = s.reply := rfl
@[simp] theorem clearErr_resets (s : State) : s.clearErr.resets = s.resets := rfl

/-! ### answer -/

@[simp] theorem answer_params (s : State) (r : Response) (d : Word) : (s.answer r d).params = s.params := rfl
@[simp] theorem answer_pendCmd (s : State) (r : Response) (d : Word) : (s.answer r d).pendCmd = s.pendCmd := rfl
@[simp] theorem answer_engPhase (s : State) (r : Response) (d : Word) : (s.answer r d).engPhase = s.engPhase := rfl
@[simp] theorem answer_reqSnap (s : State) (r : Response) (d : Word) : (s.answer r d).reqSnap = s.reqSnap := rfl
@[simp] theorem answer_done (s : State) (r : Response) (d : Word) : (s.answer r d).done = s.done := rfl
@[simp] theorem answer_err (s : State) (r : Response) (d : Word) : (s.answer r d).err = s.err := rfl
@[simp] theorem answer_numerr (s : State) (r : Response) (d : Word) : (s.answer r d).numerr = s.numerr := rfl
@[simp] theorem answer_latNew (s : State) (r : Response) (d : Word) : (s.answer r d).latNew = s.latNew := rfl
@[simp] theorem answer_prepared (s : State) (r : Response) (d : Word) : (s.answer r d).prepared = s.prepared := rfl
@[simp] theorem answer_active (s : State) (r : Response) (d : Word) : (s.answer r d).active = s.active := rfl
@[simp] theorem answer_prepareReq (s : State) (r : Response) (d : Word) : (s.answer r d).prepareReq = s.prepareReq := rfl
@[simp] theorem answer_wmode (s : State) (r : Response) (d : Word) : (s.answer r d).wmode = s.wmode := rfl
@[simp] theorem answer_lastTrans (s : State) (r : Response) (d : Word) : (s.answer r d).lastTrans = s.lastTrans := rfl
@[simp] theorem answer_errcode (s : State) (r : Response) (d : Word) : (s.answer r d).errcode = s.errcode := rfl
@[simp] theorem answer_osReq (s : State) (r : Response) (d : Word) : (s.answer r d).osReq = s.osReq := rfl
@[simp] theorem answer_latPub (s : State) (r : Response) (d : Word) : (s.answer r d).latPub = s.latPub := rfl
@[simp] theorem answer_osDirty (s : State) (r : Response) (d : Word) : (s.answer r d).osDirty = s.osDirty := rfl
@[simp] theorem answer_vibDirty (s : State) (r : Response) (d : Word) : (s.answer r d).vibDirty = s.vibDirty := rfl
@[simp] theorem answer_osTotal (s : State) (r : Response) (d : Word) : (s.answer r d).osTotal = s.osTotal := rfl
@[simp] theorem answer_vibTotal (s : State) (r : Response) (d : Word) : (s.answer r d).vibTotal = s.vibTotal := rfl
@[simp] theorem answer_fsLo (s : State) (r : Response) (d : Word) : (s.answer r d).fsLo = s.fsLo := rfl
@[simp] theorem answer_fsHi (s : State) (r : Response) (d : Word) : (s.answer r d).fsHi = s.fsHi := rfl
@[simp] theorem answer_blockSize (s : State) (r : Response) (d : Word) : (s.answer r d).blockSize = s.blockSize := rfl
@[simp] theorem answer_nchIn (s : State) (r : Response) (d : Word) : (s.answer r d).nchIn = s.nchIn := rfl
@[simp] theorem answer_nchOut (s : State) (r : Response) (d : Word) : (s.answer r d).nchOut = s.nchOut := rfl
@[simp] theorem answer_upFsLo (s : State) (r : Response) (d : Word) : (s.answer r d).upFsLo = s.upFsLo := rfl
@[simp] theorem answer_upFsHi (s : State) (r : Response) (d : Word) : (s.answer r d).upFsHi = s.upFsHi := rfl
@[simp] theorem answer_upBlock (s : State) (r : Response) (d : Word) : (s.answer r d).upBlock = s.upBlock := rfl
@[simp] theorem answer_fxCtrl (s : State) (r : Response) (d : Word) : (s.answer r d).fxCtrl = s.fxCtrl := rfl
@[simp] theorem answer_wfDrive (s : State) (r : Response) (d : Word) : (s.answer r d).wfDrive = s.wfDrive := rfl
@[simp] theorem answer_satDrive (s : State) (r : Response) (d : Word) : (s.answer r d).satDrive = s.satDrive := rfl
@[simp] theorem answer_vibFreq (s : State) (r : Response) (d : Word) : (s.answer r d).vibFreq = s.vibFreq := rfl
@[simp] theorem answer_vibDepth (s : State) (r : Response) (d : Word) : (s.answer r d).vibDepth = s.vibDepth := rfl
@[simp] theorem answer_vibLen (s : State) (r : Response) (d : Word) : (s.answer r d).vibLen = s.vibLen := rfl
@[simp] theorem answer_vph (s : State) (r : Response) (d : Word) : (s.answer r d).vph = s.vph := rfl
@[simp] theorem answer_vibInc (s : State) (r : Response) (d : Word) : (s.answer r d).vibInc = s.vibInc := rfl
@[simp] theorem answer_irLenUp4 (s : State) (r : Response) (d : Word) : (s.answer r d).irLenUp4 = s.irLenUp4 := rfl
@[simp] theorem answer_irLenDn4 (s : State) (r : Response) (d : Word) : (s.answer r d).irLenDn4 = s.irLenDn4 := rfl
@[simp] theorem answer_rlpNsecUp2 (s : State) (r : Response) (d : Word) : (s.answer r d).rlpNsecUp2 = s.rlpNsecUp2 := rfl
@[simp] theorem answer_rlpNsecDn2 (s : State) (r : Response) (d : Word) : (s.answer r d).rlpNsecDn2 = s.rlpNsecDn2 := rfl
@[simp] theorem answer_rlpLatUp2 (s : State) (r : Response) (d : Word) : (s.answer r d).rlpLatUp2 = s.rlpLatUp2 := rfl
@[simp] theorem answer_rlpLatDn2 (s : State) (r : Response) (d : Word) : (s.answer r d).rlpLatDn2 = s.rlpLatDn2 := rfl
@[simp] theorem answer_wlen (s : State) (r : Response) (d : Word) : (s.answer r d).wlen = s.wlen := rfl
@[simp] theorem answer_wch (s : State) (r : Response) (d : Word) : (s.answer r d).wch = s.wch := rfl
@[simp] theorem answer_wn (s : State) (r : Response) (d : Word) : (s.answer r d).wn = s.wn := rfl
@[simp] theorem answer_mem (s : State) (r : Response) (d : Word) : (s.answer r d).mem = s.mem := rfl
@[simp] theorem answer_firUp4 (s : State) (r : Response) (d : Word) : (s.answer r d).firUp4 = s.firUp4 := rfl
@[simp] theorem answer_firDn4 (s : State) (r : Response) (d : Word) : (s.answer r d).firDn4 = s.firDn4 := rfl
@[simp] theorem answer_rlpUp2 (s : State) (r : Response) (d : Word) : (s.answer r d).rlpUp2 = s.rlpUp2 := rfl
@[simp] theorem answer_rlpDn2 (s : State) (r : Response) (d : Word) : (s.answer r d).rlpDn2 = s.rlpDn2 := rfl
@[simp] theorem answer_vib (s : State) (r : Response) (d : Word) : (s.answer r d).vib = s.vib := rfl
@[simp] theorem answer_inputs (s : State) (r : Response) (d : Word) : (s.answer r d).inputs = s.inputs := rfl
@[simp] theorem answer_reply (s : State) (r : Response) (d : Word) : (s.answer r d).reply = some ⟨r, d⟩ := rfl
@[simp] theorem answer_resets (s : State) (r : Response) (d : Word) : (s.answer r d).resets = s.resets := rfl

/-! ### queueCommand -/

@[simp] theorem queueCommand_params (s : State) (w : Word) : (s.queueCommand w).params = s.params := rfl
@[simp] theorem queueCommand_pendCmd (s : State) (w : Word) : (s.queueCommand w).pendCmd = w := rfl
@[simp] theorem queueCommand_engPhase (s : State) (w : Word) : (s.queueCommand w).engPhase = .queued := rfl
@[simp] theorem queueCommand_reqSnap (s : State) (w : Word) : (s.queueCommand w).reqSnap = s.reqSnap := rfl
@[simp] theorem queueCommand_done (s : State) (w : Word) : (s.queueCommand w).done = s.done := rfl
@[simp] theorem queueCommand_err (s : State) (w : Word) : (s.queueCommand w).err = s.err := rfl
@[simp] theorem queueCommand_numerr (s : State) (w : Word) : (s.queueCommand w).numerr = s.numerr := rfl
@[simp] theorem queueCommand_latNew (s : State) (w : Word) : (s.queueCommand w).latNew = s.latNew := rfl
@[simp] theorem queueCommand_prepared (s : State) (w : Word) : (s.queueCommand w).prepared = s.prepared := rfl
@[simp] theorem queueCommand_active (s : State) (w : Word) : (s.queueCommand w).active = s.active := rfl
@[simp] theorem queueCommand_prepareReq (s : State) (w : Word) : (s.queueCommand w).prepareReq = s.prepareReq := rfl
@[simp] theorem queueCommand_wmode (s : State) (w : Word) : (s.queueCommand w).wmode = s.wmode := rfl
@[simp] theorem queueCommand_lastTrans (s : State) (w : Word) : (s.queueCommand w).lastTrans = s.lastTrans := rfl
@[simp] theorem queueCommand_errcode (s : State) (w : Word) : (s.queueCommand w).errcode = s.errcode := rfl
@[simp] theorem queueCommand_osReq (s : State) (w : Word) : (s.queueCommand w).osReq = s.osReq := rfl
@[simp] theorem queueCommand_latPub (s : State) (w : Word) : (s.queueCommand w).latPub = s.latPub := rfl
@[simp] theorem queueCommand_osDirty (s : State) (w : Word) : (s.queueCommand w).osDirty = s.osDirty := rfl
@[simp] theorem queueCommand_vibDirty (s : State) (w : Word) : (s.queueCommand w).vibDirty = s.vibDirty := rfl
@[simp] theorem queueCommand_osTotal (s : State) (w : Word) : (s.queueCommand w).osTotal = s.osTotal := rfl
@[simp] theorem queueCommand_vibTotal (s : State) (w : Word) : (s.queueCommand w).vibTotal = s.vibTotal := rfl
@[simp] theorem queueCommand_fsLo (s : State) (w : Word) : (s.queueCommand w).fsLo = s.fsLo := rfl
@[simp] theorem queueCommand_fsHi (s : State) (w : Word) : (s.queueCommand w).fsHi = s.fsHi := rfl
@[simp] theorem queueCommand_blockSize (s : State) (w : Word) : (s.queueCommand w).blockSize = s.blockSize := rfl
@[simp] theorem queueCommand_nchIn (s : State) (w : Word) : (s.queueCommand w).nchIn = s.nchIn := rfl
@[simp] theorem queueCommand_nchOut (s : State) (w : Word) : (s.queueCommand w).nchOut = s.nchOut := rfl
@[simp] theorem queueCommand_upFsLo (s : State) (w : Word) : (s.queueCommand w).upFsLo = s.upFsLo := rfl
@[simp] theorem queueCommand_upFsHi (s : State) (w : Word) : (s.queueCommand w).upFsHi = s.upFsHi := rfl
@[simp] theorem queueCommand_upBlock (s : State) (w : Word) : (s.queueCommand w).upBlock = s.upBlock := rfl
@[simp] theorem queueCommand_fxCtrl (s : State) (w : Word) : (s.queueCommand w).fxCtrl = s.fxCtrl := rfl
@[simp] theorem queueCommand_wfDrive (s : State) (w : Word) : (s.queueCommand w).wfDrive = s.wfDrive := rfl
@[simp] theorem queueCommand_satDrive (s : State) (w : Word) : (s.queueCommand w).satDrive = s.satDrive := rfl
@[simp] theorem queueCommand_vibFreq (s : State) (w : Word) : (s.queueCommand w).vibFreq = s.vibFreq := rfl
@[simp] theorem queueCommand_vibDepth (s : State) (w : Word) : (s.queueCommand w).vibDepth = s.vibDepth := rfl
@[simp] theorem queueCommand_vibLen (s : State) (w : Word) : (s.queueCommand w).vibLen = s.vibLen := rfl
@[simp] theorem queueCommand_vph (s : State) (w : Word) : (s.queueCommand w).vph = s.vph := rfl
@[simp] theorem queueCommand_vibInc (s : State) (w : Word) : (s.queueCommand w).vibInc = s.vibInc := rfl
@[simp] theorem queueCommand_irLenUp4 (s : State) (w : Word) : (s.queueCommand w).irLenUp4 = s.irLenUp4 := rfl
@[simp] theorem queueCommand_irLenDn4 (s : State) (w : Word) : (s.queueCommand w).irLenDn4 = s.irLenDn4 := rfl
@[simp] theorem queueCommand_rlpNsecUp2 (s : State) (w : Word) : (s.queueCommand w).rlpNsecUp2 = s.rlpNsecUp2 := rfl
@[simp] theorem queueCommand_rlpNsecDn2 (s : State) (w : Word) : (s.queueCommand w).rlpNsecDn2 = s.rlpNsecDn2 := rfl
@[simp] theorem queueCommand_rlpLatUp2 (s : State) (w : Word) : (s.queueCommand w).rlpLatUp2 = s.rlpLatUp2 := rfl
@[simp] theorem queueCommand_rlpLatDn2 (s : State) (w : Word) : (s.queueCommand w).rlpLatDn2 = s.rlpLatDn2 := rfl
@[simp] theorem queueCommand_wlen (s : State) (w : Word) : (s.queueCommand w).wlen = s.wlen := rfl
@[simp] theorem queueCommand_wch (s : State) (w : Word) : (s.queueCommand w).wch = s.wch := rfl
@[simp] theorem queueCommand_wn (s : State) (w : Word) : (s.queueCommand w).wn = s.wn := rfl
@[simp] theorem queueCommand_mem (s : State) (w : Word) : (s.queueCommand w).mem = s.mem := rfl
@[simp] theorem queueCommand_firUp4 (s : State) (w : Word) : (s.queueCommand w).firUp4 = s.firUp4 := rfl
@[simp] theorem queueCommand_firDn4 (s : State) (w : Word) : (s.queueCommand w).firDn4 = s.firDn4 := rfl
@[simp] theorem queueCommand_rlpUp2 (s : State) (w : Word) : (s.queueCommand w).rlpUp2 = s.rlpUp2 := rfl
@[simp] theorem queueCommand_rlpDn2 (s : State) (w : Word) : (s.queueCommand w).rlpDn2 = s.rlpDn2 := rfl
@[simp] theorem queueCommand_vib (s : State) (w : Word) : (s.queueCommand w).vib = s.vib := rfl
@[simp] theorem queueCommand_inputs (s : State) (w : Word) : (s.queueCommand w).inputs = s.inputs := rfl
@[simp] theorem queueCommand_reply (s : State) (w : Word) : (s.queueCommand w).reply = s.reply := rfl
@[simp] theorem queueCommand_resets (s : State) (w : Word) : (s.queueCommand w).resets = s.resets := rfl

/-! ### start -/

@[simp] theorem start_params (s : State) : s.start.params = s.params := rfl
@[simp] theorem start_pendCmd (s : State) : s.start.pendCmd = s.pendCmd := rfl
@[simp] theorem start_engPhase (s : State) : s.start.engPhase = .started := rfl
@[simp] theorem start_reqSnap (s : State) : s.start.reqSnap = s.osReq := rfl
@[simp] theorem start_done (s : State) : s.start.done = s.done := rfl
@[simp] theorem start_err (s : State) : s.start.err = s.err := rfl
@[simp] theorem start_numerr (s : State) : s.start.numerr = s.numerr := rfl
@[simp] theorem start_latNew (s : State) : s.start.latNew = s.latNew := rfl
@[simp] theorem start_prepared (s : State) : s.start.prepared = s.prepared := rfl
@[simp] theorem start_active (s : State) : s.start.active = s.active := rfl
@[simp] theorem start_prepareReq (s : State) : s.start.prepareReq = s.prepareReq := rfl
@[simp] theorem start_wmode (s : State) : s.start.wmode = s.wmode := rfl
@[simp] theorem start_lastTrans (s : State) : s.start.lastTrans = s.lastTrans := rfl
@[simp] theorem start_errcode (s : State) : s.start.errcode = s.errcode := rfl
@[simp] theorem start_osReq (s : State) : s.start.osReq = s.osReq := rfl
@[simp] theorem start_latPub (s : State) : s.start.latPub = s.latPub := rfl
@[simp] theorem start_osDirty (s : State) : s.start.osDirty = s.osDirty := rfl
@[simp] theorem start_vibDirty (s : State) : s.start.vibDirty = s.vibDirty := rfl
@[simp] theorem start_osTotal (s : State) : s.start.osTotal = s.osTotal := rfl
@[simp] theorem start_vibTotal (s : State) : s.start.vibTotal = s.vibTotal := rfl
@[simp] theorem start_fsLo (s : State) : s.start.fsLo = s.fsLo := rfl
@[simp] theorem start_fsHi (s : State) : s.start.fsHi = s.fsHi := rfl
@[simp] theorem start_blockSize (s : State) : s.start.blockSize = s.blockSize := rfl
@[simp] theorem start_nchIn (s : State) : s.start.nchIn = s.nchIn := rfl
@[simp] theorem start_nchOut (s : State) : s.start.nchOut = s.nchOut := rfl
@[simp] theorem start_upFsLo (s : State) : s.start.upFsLo = s.upFsLo := rfl
@[simp] theorem start_upFsHi (s : State) : s.start.upFsHi = s.upFsHi := rfl
@[simp] theorem start_upBlock (s : State) : s.start.upBlock = s.upBlock := rfl
@[simp] theorem start_fxCtrl (s : State) : s.start.fxCtrl = s.fxCtrl := rfl
@[simp] theorem start_wfDrive (s : State) : s.start.wfDrive = s.wfDrive := rfl
@[simp] theorem start_satDrive (s : State) : s.start.satDrive = s.satDrive := rfl
@[simp] theorem start_vibFreq (s : State) : s.start.vibFreq = s.vibFreq := rfl
@[simp] theorem start_vibDepth (s : State) : s.start.vibDepth = s.vibDepth := rfl
@[simp] theorem start_vibLen (s : State) : s.start.vibLen = s.vibLen := rfl
@[simp] theorem start_vph (s : State) : s.start.vph = s.vph := rfl
@[simp] theorem start_vibInc (s : State) : s.start.vibInc = s.vibInc := rfl
@[simp] theorem start_irLenUp4 (s : State) : s.start.irLenUp4 = s.irLenUp4 := rfl
@[simp] theorem start_irLenDn4 (s : State) : s.start.irLenDn4 = s.irLenDn4 := rfl
@[simp] theorem start_rlpNsecUp2 (s : State) : s.start.rlpNsecUp2 = s.rlpNsecUp2 := rfl
@[simp] theorem start_rlpNsecDn2 (s : State) : s.start.rlpNsecDn2 = s.rlpNsecDn2 := rfl
@[simp] theorem start_rlpLatUp2 (s : State) : s.start.rlpLatUp2 = s.rlpLatUp2 := rfl
@[simp] theorem start_rlpLatDn2 (s : State) : s.start.rlpLatDn2 = s.rlpLatDn2 := rfl
@[simp] theorem start_wlen (s : State) : s.start.wlen = s.wlen := rfl
@[simp] theorem start_wch (s : State) : s.start.wch = s.wch := rfl
@[simp] theorem start_wn (s : State) : s.start.wn = s.wn := rfl
@[simp] theorem start_mem (s : State) : s.start.mem = s.mem := rfl
@[simp] theorem start_firUp4 (s : State) : s.start.firUp4 = s.firUp4 := rfl
@[simp] theorem start_firDn4 (s : State) : s.start.firDn4 = s.firDn4 := rfl
@[simp] theorem start_rlpUp2 (s : State) : s.start.rlpUp2 = s.rlpUp2 := rfl
@[simp] theorem start_rlpDn2 (s : State) : s.start.rlpDn2 = s.rlpDn2 := rfl
@[simp] theorem start_vib (s : State) : s.start.vib = s.vib := rfl
@[simp] theorem start_inputs (s : State) : s.start.inputs = s.inputs := rfl
@[simp] theorem start_reply (s : State) : s.start.reply = s.reply := rfl
@[simp] theorem start_resets (s : State) : s.start.resets = s.resets := rfl

/-! ### storeWord -/

@[simp] theorem storeWord_params (s : State) (a : Nat) (w : Word) : (s.storeWord a w).params = s.params := rfl
@[simp] theorem storeWord_pendCmd (s : State) (a : Nat) (w : Word) : (s.storeWord a w).pendCmd = s.pendCmd := rfl
@[simp] theorem storeWord_engPhase (s : State) (a : Nat) (w : Word) : (s.storeWord a w).engPhase = s.engPhase := rfl
@[simp] theorem storeWord_reqSnap (s : State) (a : Nat) (w : Word) : (s.storeWord a w).reqSnap = s.reqSnap := rfl
@[simp] theorem storeWord_done (s : State) (a : Nat) (w : Word) : (s.storeWord a w).done = s.done := rfl
@[simp] theorem storeWord_err (s : State) (a : Nat) (w : Word) : (s.storeWord a w).err = s.err := rfl
@[simp] theorem storeWord_numerr (s : State) (a : Nat) (w : Word) : (s.storeWord a w).numerr = s.numerr := rfl
@[simp] theorem storeWord_latNew (s : State) (a : Nat) (w : Word) : (s.storeWord a w).latNew = s.latNew := rfl
@[simp] theorem storeWord_prepared (s : State) (a : Nat) (w : Word) : (s.storeWord a w).prepared = s.prepared := rfl
@[simp] theorem storeWord_active (s : State) (a : Nat) (w : Word) : (s.storeWord a w).active = s.active := rfl
@[simp] theorem storeWord_prepareReq (s : State) (a : Nat) (w : Word) : (s.storeWord a w).prepareReq = s.prepareReq := rfl
@[simp] theorem storeWord_wmode (s : State) (a : Nat) (w : Word) : (s.storeWord a w).wmode = s.wmode := rfl
@[simp] theorem storeWord_lastTrans (s : State) (a : Nat) (w : Word) : (s.storeWord a w).lastTrans = s.lastTrans := rfl
@[simp] theorem storeWord_errcode (s : State) (a : Nat) (w : Word) : (s.storeWord a w).errcode = s.errcode := rfl
@[simp] theorem storeWord_osReq (s : State) (a : Nat) (w : Word) : (s.storeWord a w).osReq = s.osReq := rfl
@[simp] theorem storeWord_latPub (s : State) (a : Nat) (w : Word) : (s.storeWord a w).latPub = s.latPub := rfl
@[simp] theorem storeWord_osDirty (s : State) (a : Nat) (w : Word) : (s.storeWord a w).osDirty = s.osDirty := rfl
@[simp] theorem storeWord_vibDirty (s : State) (a : Nat) (w : Word) : (s.storeWord a w).vibDirty = s.vibDirty := rfl
@[simp] theorem storeWord_osTotal (s : State) (a : Nat) (w : Word) : (s.storeWord a w).osTotal = s.osTotal := rfl
@[simp] theorem storeWord_vibTotal (s : State) (a : Nat) (w : Word) : (s.storeWord a w).vibTotal = s.vibTotal := rfl
@[simp] theorem storeWord_fsLo (s : State) (a : Nat) (w : Word) : (s.storeWord a w).fsLo = s.fsLo := rfl
@[simp] theorem storeWord_fsHi (s : State) (a : Nat) (w : Word) : (s.storeWord a w).fsHi = s.fsHi := rfl
@[simp] theorem storeWord_blockSize (s : State) (a : Nat) (w : Word) : (s.storeWord a w).blockSize = s.blockSize := rfl
@[simp] theorem storeWord_nchIn (s : State) (a : Nat) (w : Word) : (s.storeWord a w).nchIn = s.nchIn := rfl
@[simp] theorem storeWord_nchOut (s : State) (a : Nat) (w : Word) : (s.storeWord a w).nchOut = s.nchOut := rfl
@[simp] theorem storeWord_upFsLo (s : State) (a : Nat) (w : Word) : (s.storeWord a w).upFsLo = s.upFsLo := rfl
@[simp] theorem storeWord_upFsHi (s : State) (a : Nat) (w : Word) : (s.storeWord a w).upFsHi = s.upFsHi := rfl
@[simp] theorem storeWord_upBlock (s : State) (a : Nat) (w : Word) : (s.storeWord a w).upBlock = s.upBlock := rfl
@[simp] theorem storeWord_fxCtrl (s : State) (a : Nat) (w : Word) : (s.storeWord a w).fxCtrl = s.fxCtrl := rfl
@[simp] theorem storeWord_wfDrive (s : State) (a : Nat) (w : Word) : (s.storeWord a w).wfDrive = s.wfDrive := rfl
@[simp] theorem storeWord_satDrive (s : State) (a : Nat) (w : Word) : (s.storeWord a w).satDrive = s.satDrive := rfl
@[simp] theorem storeWord_vibFreq (s : State) (a : Nat) (w : Word) : (s.storeWord a w).vibFreq = s.vibFreq := rfl
@[simp] theorem storeWord_vibDepth (s : State) (a : Nat) (w : Word) : (s.storeWord a w).vibDepth = s.vibDepth := rfl
@[simp] theorem storeWord_vibLen (s : State) (a : Nat) (w : Word) : (s.storeWord a w).vibLen = s.vibLen := rfl
@[simp] theorem storeWord_vph (s : State) (a : Nat) (w : Word) : (s.storeWord a w).vph = s.vph := rfl
@[simp] theorem storeWord_vibInc (s : State) (a : Nat) (w : Word) : (s.storeWord a w).vibInc = s.vibInc := rfl
@[simp] theorem storeWord_irLenUp4 (s : State) (a : Nat) (w : Word) : (s.storeWord a w).irLenUp4 = s.irLenUp4 := rfl
@[simp] theorem storeWord_irLenDn4 (s : State) (a : Nat) (w : Word) : (s.storeWord a w).irLenDn4 = s.irLenDn4 := rfl
@[simp] theorem storeWord_rlpNsecUp2 (s : State) (a : Nat) (w : Word) : (s.storeWord a w).rlpNsecUp2 = s.rlpNsecUp2 := rfl
@[simp] theorem storeWord_rlpNsecDn2 (s : State) (a : Nat) (w : Word) : (s.storeWord a w).rlpNsecDn2 = s.rlpNsecDn2 := rfl
@[simp] theorem storeWord_rlpLatUp2 (s : State) (a : Nat) (w : Word) : (s.storeWord a w).rlpLatUp2 = s.rlpLatUp2 := rfl
@[simp] theorem storeWord_rlpLatDn2 (s : State) (a : Nat) (w : Word) : (s.storeWord a w).rlpLatDn2 = s.rlpLatDn2 := rfl
@[simp] theorem storeWord_wlen (s : State) (a : Nat) (w : Word) : (s.storeWord a w).wlen = s.wlen := rfl
@[simp] theorem storeWord_wch (s : State) (a : Nat) (w : Word) : (s.storeWord a w).wch = s.wch := rfl
@[simp] theorem storeWord_wn (s : State) (a : Nat) (w : Word) : (s.storeWord a w).wn = s.wn := rfl
@[simp] theorem storeWord_mem (s : State) (a : Nat) (w : Word) : (s.storeWord a w).mem = Memory.putWord s.mem a w := rfl
@[simp] theorem storeWord_firUp4 (s : State) (a : Nat) (w : Word) : (s.storeWord a w).firUp4 = s.firUp4 := rfl
@[simp] theorem storeWord_firDn4 (s : State) (a : Nat) (w : Word) : (s.storeWord a w).firDn4 = s.firDn4 := rfl
@[simp] theorem storeWord_rlpUp2 (s : State) (a : Nat) (w : Word) : (s.storeWord a w).rlpUp2 = s.rlpUp2 := rfl
@[simp] theorem storeWord_rlpDn2 (s : State) (a : Nat) (w : Word) : (s.storeWord a w).rlpDn2 = s.rlpDn2 := rfl
@[simp] theorem storeWord_vib (s : State) (a : Nat) (w : Word) : (s.storeWord a w).vib = s.vib := rfl
@[simp] theorem storeWord_inputs (s : State) (a : Nat) (w : Word) : (s.storeWord a w).inputs = s.inputs := rfl
@[simp] theorem storeWord_reply (s : State) (a : Nat) (w : Word) : (s.storeWord a w).reply = s.reply := rfl
@[simp] theorem storeWord_resets (s : State) (a : Nat) (w : Word) : (s.storeWord a w).resets = s.resets := rfl

/-! ### storeBlock -/

@[simp] theorem storeBlock_params (s : State) (a : Nat) (ws : List Word) : (s.storeBlock a ws).params = s.params := rfl
@[simp] theorem storeBlock_pendCmd (s : State) (a : Nat) (ws : List Word) : (s.storeBlock a ws).pendCmd = s.pendCmd := rfl
@[simp] theorem storeBlock_engPhase (s : State) (a : Nat) (ws : List Word) : (s.storeBlock a ws).engPhase = s.engPhase := rfl
@[simp] theorem storeBlock_reqSnap (s : State) (a : Nat) (ws : List Word) : (s.storeBlock a ws).reqSnap = s.reqSnap := rfl
@[simp] theorem storeBlock_done (s : State) (a : Nat) (ws : List Word) : (s.storeBlock a ws).done = s.done := rfl
@[simp] theorem storeBlock_err (s : State) (a : Nat) (ws : List Word) : (s.storeBlock a ws).err = s.err := rfl
@[simp] theorem storeBlock_numerr (s : State) (a : Nat) (ws : List Word) : (s.storeBlock a ws).numerr = s.numerr := rfl
@[simp] theorem storeBlock_latNew (s : State) (a : Nat) (ws : List Word) : (s.storeBlock a ws).latNew = s.latNew := rfl
@[simp] theorem storeBlock_prepared (s : State) (a : Nat) (ws : List Word) : (s.storeBlock a ws).prepared = s.prepared := rfl
@[simp] theorem storeBlock_active (s : State) (a : Nat) (ws : List Word) : (s.storeBlock a ws).active = s.active := rfl
@[simp] theorem storeBlock_prepareReq (s : State) (a : Nat) (ws : List Word) : (s.storeBlock a ws).prepareReq = s.prepareReq := rfl
@[simp] theorem storeBlock_wmode (s : State) (a : Nat) (ws : List Word) : (s.storeBlock a ws).wmode = s.wmode := rfl
@[simp] theorem storeBlock_lastTrans (s : State) (a : Nat) (ws : List Word) : (s.storeBlock a ws).lastTrans = s.lastTrans := rfl
@[simp] theorem storeBlock_errcode (s : State) (a : Nat) (ws : List Word) : (s.storeBlock a ws).errcode = s.errcode := rfl
@[simp] theorem storeBlock_osReq (s : State) (a : Nat) (ws : List Word) : (s.storeBlock a ws).osReq = s.osReq := rfl
@[simp] theorem storeBlock_latPub (s : State) (a : Nat) (ws : List Word) : (s.storeBlock a ws).latPub = s.latPub := rfl
@[simp] theorem storeBlock_osDirty (s : State) (a : Nat) (ws : List Word) : (s.storeBlock a ws).osDirty = s.osDirty := rfl
@[simp] theorem storeBlock_vibDirty (s : State) (a : Nat) (ws : List Word) : (s.storeBlock a ws).vibDirty = s.vibDirty := rfl
@[simp] theorem storeBlock_osTotal (s : State) (a : Nat) (ws : List Word) : (s.storeBlock a ws).osTotal = s.osTotal := rfl
@[simp] theorem storeBlock_vibTotal (s : State) (a : Nat) (ws : List Word) : (s.storeBlock a ws).vibTotal = s.vibTotal := rfl
@[simp] theorem storeBlock_fsLo (s : State) (a : Nat) (ws : List Word) : (s.storeBlock a ws).fsLo = s.fsLo := rfl
@[simp] theorem storeBlock_fsHi (s : State) (a : Nat) (ws : List Word) : (s.storeBlock a ws).fsHi = s.fsHi := rfl
@[simp] theorem storeBlock_blockSize (s : State) (a : Nat) (ws : List Word) : (s.storeBlock a ws).blockSize = s.blockSize := rfl
@[simp] theorem storeBlock_nchIn (s : State) (a : Nat) (ws : List Word) : (s.storeBlock a ws).nchIn = s.nchIn := rfl
@[simp] theorem storeBlock_nchOut (s : State) (a : Nat) (ws : List Word) : (s.storeBlock a ws).nchOut = s.nchOut := rfl
@[simp] theorem storeBlock_upFsLo (s : State) (a : Nat) (ws : List Word) : (s.storeBlock a ws).upFsLo = s.upFsLo := rfl
@[simp] theorem storeBlock_upFsHi (s : State) (a : Nat) (ws : List Word) : (s.storeBlock a ws).upFsHi = s.upFsHi := rfl
@[simp] theorem storeBlock_upBlock (s : State) (a : Nat) (ws : List Word) : (s.storeBlock a ws).upBlock = s.upBlock := rfl
@[simp] theorem storeBlock_fxCtrl (s : State) (a : Nat) (ws : List Word) : (s.storeBlock a ws).fxCtrl = s.fxCtrl := rfl
@[simp] theorem storeBlock_wfDrive (s : State) (a : Nat) (ws : List Word) : (s.storeBlock a ws).wfDrive = s.wfDrive := rfl
@[simp] theorem storeBlock_satDrive (s : State) (a : Nat) (ws : List Word) : (s.storeBlock a ws).satDrive = s.satDrive := rfl
@[simp] theorem storeBlock_vibFreq (s : State) (a : Nat) (ws : List Word) : (s.storeBlock a ws).vibFreq = s.vibFreq := rfl
@[simp] theorem storeBlock_vibDepth (s : State) (a : Nat) (ws : List Word) : (s.storeBlock a ws).vibDepth = s.vibDepth := rfl
@[simp] theorem storeBlock_vibLen (s : State) (a : Nat) (ws : List Word) : (s.storeBlock a ws).vibLen = s.vibLen := rfl
@[simp] theorem storeBlock_vph (s : State) (a : Nat) (ws : List Word) : (s.storeBlock a ws).vph = s.vph := rfl
@[simp] theorem storeBlock_vibInc (s : State) (a : Nat) (ws : List Word) : (s.storeBlock a ws).vibInc = s.vibInc := rfl
@[simp] theorem storeBlock_irLenUp4 (s : State) (a : Nat) (ws : List Word) : (s.storeBlock a ws).irLenUp4 = s.irLenUp4 := rfl
@[simp] theorem storeBlock_irLenDn4 (s : State) (a : Nat) (ws : List Word) : (s.storeBlock a ws).irLenDn4 = s.irLenDn4 := rfl
@[simp] theorem storeBlock_rlpNsecUp2 (s : State) (a : Nat) (ws : List Word) : (s.storeBlock a ws).rlpNsecUp2 = s.rlpNsecUp2 := rfl
@[simp] theorem storeBlock_rlpNsecDn2 (s : State) (a : Nat) (ws : List Word) : (s.storeBlock a ws).rlpNsecDn2 = s.rlpNsecDn2 := rfl
@[simp] theorem storeBlock_rlpLatUp2 (s : State) (a : Nat) (ws : List Word) : (s.storeBlock a ws).rlpLatUp2 = s.rlpLatUp2 := rfl
@[simp] theorem storeBlock_rlpLatDn2 (s : State) (a : Nat) (ws : List Word) : (s.storeBlock a ws).rlpLatDn2 = s.rlpLatDn2 := rfl
@[simp] theorem storeBlock_wlen (s : State) (a : Nat) (ws : List Word) : (s.storeBlock a ws).wlen = s.wlen := rfl
@[simp] theorem storeBlock_wch (s : State) (a : Nat) (ws : List Word) : (s.storeBlock a ws).wch = s.wch := rfl
@[simp] theorem storeBlock_wn (s : State) (a : Nat) (ws : List Word) : (s.storeBlock a ws).wn = s.wn := rfl
@[simp] theorem storeBlock_mem (s : State) (a : Nat) (ws : List Word) : (s.storeBlock a ws).mem = Memory.putBlock s.mem a ws := rfl
@[simp] theorem storeBlock_firUp4 (s : State) (a : Nat) (ws : List Word) : (s.storeBlock a ws).firUp4 = s.firUp4 := rfl
@[simp] theorem storeBlock_firDn4 (s : State) (a : Nat) (ws : List Word) : (s.storeBlock a ws).firDn4 = s.firDn4 := rfl
@[simp] theorem storeBlock_rlpUp2 (s : State) (a : Nat) (ws : List Word) : (s.storeBlock a ws).rlpUp2 = s.rlpUp2 := rfl
@[simp] theorem storeBlock_rlpDn2 (s : State) (a : Nat) (ws : List Word) : (s.storeBlock a ws).rlpDn2 = s.rlpDn2 := rfl
@[simp] theorem storeBlock_vib (s : State) (a : Nat) (ws : List Word) : (s.storeBlock a ws).vib = s.vib := rfl
@[simp] theorem storeBlock_inputs (s : State) (a : Nat) (ws : List Word) : (s.storeBlock a ws).inputs = s.inputs := rfl
@[simp] theorem storeBlock_reply (s : State) (a : Nat) (ws : List Word) : (s.storeBlock a ws).reply = s.reply := rfl
@[simp] theorem storeBlock_resets (s : State) (a : Nat) (ws : List Word) : (s.storeBlock a ws).resets = s.resets := rfl

/-! ### setScrBlock -/

@[simp] theorem setScrBlock_params (s : State) (c : Nat) (ws : List Word) : (s.setScrBlock c ws).params = s.params := rfl
@[simp] theorem setScrBlock_pendCmd (s : State) (c : Nat) (ws : List Word) : (s.setScrBlock c ws).pendCmd = s.pendCmd := rfl
@[simp] theorem setScrBlock_engPhase (s : State) (c : Nat) (ws : List Word) : (s.setScrBlock c ws).engPhase = s.engPhase := rfl
@[simp] theorem setScrBlock_reqSnap (s : State) (c : Nat) (ws : List Word) : (s.setScrBlock c ws).reqSnap = s.reqSnap := rfl
@[simp] theorem setScrBlock_done (s : State) (c : Nat) (ws : List Word) : (s.setScrBlock c ws).done = s.done := rfl
@[simp] theorem setScrBlock_err (s : State) (c : Nat) (ws : List Word) : (s.setScrBlock c ws).err = s.err := rfl
@[simp] theorem setScrBlock_numerr (s : State) (c : Nat) (ws : List Word) : (s.setScrBlock c ws).numerr = s.numerr := rfl
@[simp] theorem setScrBlock_latNew (s : State) (c : Nat) (ws : List Word) : (s.setScrBlock c ws).latNew = s.latNew := rfl
@[simp] theorem setScrBlock_prepared (s : State) (c : Nat) (ws : List Word) : (s.setScrBlock c ws).prepared = s.prepared := rfl
@[simp] theorem setScrBlock_active (s : State) (c : Nat) (ws : List Word) : (s.setScrBlock c ws).active = s.active := rfl
@[simp] theorem setScrBlock_prepareReq (s : State) (c : Nat) (ws : List Word) : (s.setScrBlock c ws).prepareReq = s.prepareReq := rfl
@[simp] theorem setScrBlock_wmode (s : State) (c : Nat) (ws : List Word) : (s.setScrBlock c ws).wmode = s.wmode := rfl
@[simp] theorem setScrBlock_lastTrans (s : State) (c : Nat) (ws : List Word) : (s.setScrBlock c ws).lastTrans = s.lastTrans := rfl
@[simp] theorem setScrBlock_errcode (s : State) (c : Nat) (ws : List Word) : (s.setScrBlock c ws).errcode = s.errcode := rfl
@[simp] theorem setScrBlock_osReq (s : State) (c : Nat) (ws : List Word) : (s.setScrBlock c ws).osReq = s.osReq := rfl
@[simp] theorem setScrBlock_latPub (s : State) (c : Nat) (ws : List Word) : (s.setScrBlock c ws).latPub = s.latPub := rfl
@[simp] theorem setScrBlock_osDirty (s : State) (c : Nat) (ws : List Word) : (s.setScrBlock c ws).osDirty = s.osDirty := rfl
@[simp] theorem setScrBlock_vibDirty (s : State) (c : Nat) (ws : List Word) : (s.setScrBlock c ws).vibDirty = s.vibDirty := rfl
@[simp] theorem setScrBlock_osTotal (s : State) (c : Nat) (ws : List Word) : (s.setScrBlock c ws).osTotal = s.osTotal := rfl
@[simp] theorem setScrBlock_vibTotal (s : State) (c : Nat) (ws : List Word) : (s.setScrBlock c ws).vibTotal = s.vibTotal := rfl
@[simp] theorem setScrBlock_fsLo (s : State) (c : Nat) (ws : List Word) : (s.setScrBlock c ws).fsLo = s.fsLo := rfl
@[simp] theorem setScrBlock_fsHi (s : State) (c : Nat) (ws : List Word) : (s.setScrBlock c ws).fsHi = s.fsHi := rfl
@[simp] theorem setScrBlock_blockSize (s : State) (c : Nat) (ws : List Word) : (s.setScrBlock c ws).blockSize = s.blockSize := rfl
@[simp] theorem setScrBlock_nchIn (s : State) (c : Nat) (ws : List Word) : (s.setScrBlock c ws).nchIn = s.nchIn := rfl
@[simp] theorem setScrBlock_nchOut (s : State) (c : Nat) (ws : List Word) : (s.setScrBlock c ws).nchOut = s.nchOut := rfl
@[simp] theorem setScrBlock_upFsLo (s : State) (c : Nat) (ws : List Word) : (s.setScrBlock c ws).upFsLo = s.upFsLo := rfl
@[simp] theorem setScrBlock_upFsHi (s : State) (c : Nat) (ws : List Word) : (s.setScrBlock c ws).upFsHi = s.upFsHi := rfl
@[simp] theorem setScrBlock_upBlock (s : State) (c : Nat) (ws : List Word) : (s.setScrBlock c ws).upBlock = s.upBlock := rfl
@[simp] theorem setScrBlock_fxCtrl (s : State) (c : Nat) (ws : List Word) : (s.setScrBlock c ws).fxCtrl = s.fxCtrl := rfl
@[simp] theorem setScrBlock_wfDrive (s : State) (c : Nat) (ws : List Word) : (s.setScrBlock c ws).wfDrive = s.wfDrive := rfl
@[simp] theorem setScrBlock_satDrive (s : State) (c : Nat) (ws : List Word) : (s.setScrBlock c ws).satDrive = s.satDrive := rfl
@[simp] theorem setScrBlock_vibFreq (s : State) (c : Nat) (ws : List Word) : (s.setScrBlock c ws).vibFreq = s.vibFreq := rfl
@[simp] theorem setScrBlock_vibDepth (s : State) (c : Nat) (ws : List Word) : (s.setScrBlock c ws).vibDepth = s.vibDepth := rfl
@[simp] theorem setScrBlock_vibLen (s : State) (c : Nat) (ws : List Word) : (s.setScrBlock c ws).vibLen = s.vibLen := rfl
@[simp] theorem setScrBlock_vph (s : State) (c : Nat) (ws : List Word) : (s.setScrBlock c ws).vph = s.vph := rfl
@[simp] theorem setScrBlock_vibInc (s : State) (c : Nat) (ws : List Word) : (s.setScrBlock c ws).vibInc = s.vibInc := rfl
@[simp] theorem setScrBlock_irLenUp4 (s : State) (c : Nat) (ws : List Word) : (s.setScrBlock c ws).irLenUp4 = s.irLenUp4 := rfl
@[simp] theorem setScrBlock_irLenDn4 (s : State) (c : Nat) (ws : List Word) : (s.setScrBlock c ws).irLenDn4 = s.irLenDn4 := rfl
@[simp] theorem setScrBlock_rlpNsecUp2 (s : State) (c : Nat) (ws : List Word) : (s.setScrBlock c ws).rlpNsecUp2 = s.rlpNsecUp2 := rfl
@[simp] theorem setScrBlock_rlpNsecDn2 (s : State) (c : Nat) (ws : List Word) : (s.setScrBlock c ws).rlpNsecDn2 = s.rlpNsecDn2 := rfl
@[simp] theorem setScrBlock_rlpLatUp2 (s : State) (c : Nat) (ws : List Word) : (s.setScrBlock c ws).rlpLatUp2 = s.rlpLatUp2 := rfl
@[simp] theorem setScrBlock_rlpLatDn2 (s : State) (c : Nat) (ws : List Word) : (s.setScrBlock c ws).rlpLatDn2 = s.rlpLatDn2 := rfl
@[simp] theorem setScrBlock_wlen (s : State) (c : Nat) (ws : List Word) : (s.setScrBlock c ws).wlen = s.wlen := rfl
@[simp] theorem setScrBlock_wch (s : State) (c : Nat) (ws : List Word) : (s.setScrBlock c ws).wch = s.wch := rfl
@[simp] theorem setScrBlock_wn (s : State) (c : Nat) (ws : List Word) : (s.setScrBlock c ws).wn = s.wn := rfl
@[simp] theorem setScrBlock_mem (s : State) (c : Nat) (ws : List Word) : (s.setScrBlock c ws).mem = Memory.putBlock s.mem (scrAddr c 0) ws := rfl
@[simp] theorem setScrBlock_firUp4 (s : State) (c : Nat) (ws : List Word) : (s.setScrBlock c ws).firUp4 = s.firUp4 := rfl
@[simp] theorem setScrBlock_firDn4 (s : State) (c : Nat) (ws : List Word) : (s.setScrBlock c ws).firDn4 = s.firDn4 := rfl
@[simp] theorem setScrBlock_rlpUp2 (s : State) (c : Nat) (ws : List Word) : (s.setScrBlock c ws).rlpUp2 = s.rlpUp2 := rfl
@[simp] theorem setScrBlock_rlpDn2 (s : State) (c : Nat) (ws : List Word) : (s.setScrBlock c ws).rlpDn2 = s.rlpDn2 := rfl
@[simp] theorem setScrBlock_vib (s : State) (c : Nat) (ws : List Word) : (s.setScrBlock c ws).vib = s.vib := rfl
@[simp] theorem setScrBlock_inputs (s : State) (c : Nat) (ws : List Word) : (s.setScrBlock c ws).inputs = s.inputs := rfl
@[simp] theorem setScrBlock_reply (s : State) (c : Nat) (ws : List Word) : (s.setScrBlock c ws).reply = s.reply := rfl
@[simp] theorem setScrBlock_resets (s : State) (c : Nat) (ws : List Word) : (s.setScrBlock c ws).resets = s.resets := rfl

/-! ### setOutBlock -/

@[simp] theorem setOutBlock_params (s : State) (c : Nat) (ws : List Word) : (s.setOutBlock c ws).params = s.params := rfl
@[simp] theorem setOutBlock_pendCmd (s : State) (c : Nat) (ws : List Word) : (s.setOutBlock c ws).pendCmd = s.pendCmd := rfl
@[simp] theorem setOutBlock_engPhase (s : State) (c : Nat) (ws : List Word) : (s.setOutBlock c ws).engPhase = s.engPhase := rfl
@[simp] theorem setOutBlock_reqSnap (s : State) (c : Nat) (ws : List Word) : (s.setOutBlock c ws).reqSnap = s.reqSnap := rfl
@[simp] theorem setOutBlock_done (s : State) (c : Nat) (ws : List Word) : (s.setOutBlock c ws).done = s.done := rfl
@[simp] theorem setOutBlock_err (s : State) (c : Nat) (ws : List Word) : (s.setOutBlock c ws).err = s.err := rfl
@[simp] theorem setOutBlock_numerr (s : State) (c : Nat) (ws : List Word) : (s.setOutBlock c ws).numerr = s.numerr := rfl
@[simp] theorem setOutBlock_latNew (s : State) (c : Nat) (ws : List Word) : (s.setOutBlock c ws).latNew = s.latNew := rfl
@[simp] theorem setOutBlock_prepared (s : State) (c : Nat) (ws : List Word) : (s.setOutBlock c ws).prepared = s.prepared := rfl
@[simp] theorem setOutBlock_active (s : State) (c : Nat) (ws : List Word) : (s.setOutBlock c ws).active = s.active := rfl
@[simp] theorem setOutBlock_prepareReq (s : State) (c : Nat) (ws : List Word) : (s.setOutBlock c ws).prepareReq = s.prepareReq := rfl
@[simp] theorem setOutBlock_wmode (s : State) (c : Nat) (ws : List Word) : (s.setOutBlock c ws).wmode = s.wmode := rfl
@[simp] theorem setOutBlock_lastTrans (s : State) (c : Nat) (ws : List Word) : (s.setOutBlock c ws).lastTrans = s.lastTrans := rfl
@[simp] theorem setOutBlock_errcode (s : State) (c : Nat) (ws : List Word) : (s.setOutBlock c ws).errcode = s.errcode := rfl
@[simp] theorem setOutBlock_osReq (s : State) (c : Nat) (ws : List Word) : (s.setOutBlock c ws).osReq = s.osReq := rfl
@[simp] theorem setOutBlock_latPub (s : State) (c : Nat) (ws : List Word) : (s.setOutBlock c ws).latPub = s.latPub := rfl
@[simp] theorem setOutBlock_osDirty (s : State) (c : Nat) (ws : List Word) : (s.setOutBlock c ws).osDirty = s.osDirty := rfl
@[simp] theorem setOutBlock_vibDirty (s : State) (c : Nat) (ws : List Word) : (s.setOutBlock c ws).vibDirty = s.vibDirty := rfl
@[simp] theorem setOutBlock_osTotal (s : State) (c : Nat) (ws : List Word) : (s.setOutBlock c ws).osTotal = s.osTotal := rfl
@[simp] theorem setOutBlock_vibTotal (s : State) (c : Nat) (ws : List Word) : (s.setOutBlock c ws).vibTotal = s.vibTotal := rfl
@[simp] theorem setOutBlock_fsLo (s : State) (c : Nat) (ws : List Word) : (s.setOutBlock c ws).fsLo = s.fsLo := rfl
@[simp] theorem setOutBlock_fsHi (s : State) (c : Nat) (ws : List Word) : (s.setOutBlock c ws).fsHi = s.fsHi := rfl
@[simp] theorem setOutBlock_blockSize (s : State) (c : Nat) (ws : List Word) : (s.setOutBlock c ws).blockSize = s.blockSize := rfl
@[simp] theorem setOutBlock_nchIn (s : State) (c : Nat) (ws : List Word) : (s.setOutBlock c ws).nchIn = s.nchIn := rfl
@[simp] theorem setOutBlock_nchOut (s : State) (c : Nat) (ws : List Word) : (s.setOutBlock c ws).nchOut = s.nchOut := rfl
@[simp] theorem setOutBlock_upFsLo (s : State) (c : Nat) (ws : List Word) : (s.setOutBlock c ws).upFsLo = s.upFsLo := rfl
@[simp] theorem setOutBlock_upFsHi (s : State) (c : Nat) (ws : List Word) : (s.setOutBlock c ws).upFsHi = s.upFsHi := rfl
@[simp] theorem setOutBlock_upBlock (s : State) (c : Nat) (ws : List Word) : (s.setOutBlock c ws).upBlock = s.upBlock := rfl
@[simp] theorem setOutBlock_fxCtrl (s : State) (c : Nat) (ws : List Word) : (s.setOutBlock c ws).fxCtrl = s.fxCtrl := rfl
@[simp] theorem setOutBlock_wfDrive (s : State) (c : Nat) (ws : List Word) : (s.setOutBlock c ws).wfDrive = s.wfDrive := rfl
@[simp] theorem setOutBlock_satDrive (s : State) (c : Nat) (ws : List Word) : (s.setOutBlock c ws).satDrive = s.satDrive := rfl
@[simp] theorem setOutBlock_vibFreq (s : State) (c : Nat) (ws : List Word) : (s.setOutBlock c ws).vibFreq = s.vibFreq := rfl
@[simp] theorem setOutBlock_vibDepth (s : State) (c : Nat) (ws : List Word) : (s.setOutBlock c ws).vibDepth = s.vibDepth := rfl
@[simp] theorem setOutBlock_vibLen (s : State) (c : Nat) (ws : List Word) : (s.setOutBlock c ws).vibLen = s.vibLen := rfl
@[simp] theorem setOutBlock_vph (s : State) (c : Nat) (ws : List Word) : (s.setOutBlock c ws).vph = s.vph := rfl
@[simp] theorem setOutBlock_vibInc (s : State) (c : Nat) (ws : List Word) : (s.setOutBlock c ws).vibInc = s.vibInc := rfl
@[simp] theorem setOutBlock_irLenUp4 (s : State) (c : Nat) (ws : List Word) : (s.setOutBlock c ws).irLenUp4 = s.irLenUp4 := rfl
@[simp] theorem setOutBlock_irLenDn4 (s : State) (c : Nat) (ws : List Word) : (s.setOutBlock c ws).irLenDn4 = s.irLenDn4 := rfl
@[simp] theorem setOutBlock_rlpNsecUp2 (s : State) (c : Nat) (ws : List Word) : (s.setOutBlock c ws).rlpNsecUp2 = s.rlpNsecUp2 := rfl
@[simp] theorem setOutBlock_rlpNsecDn2 (s : State) (c : Nat) (ws : List Word) : (s.setOutBlock c ws).rlpNsecDn2 = s.rlpNsecDn2 := rfl
@[simp] theorem setOutBlock_rlpLatUp2 (s : State) (c : Nat) (ws : List Word) : (s.setOutBlock c ws).rlpLatUp2 = s.rlpLatUp2 := rfl
@[simp] theorem setOutBlock_rlpLatDn2 (s : State) (c : Nat) (ws : List Word) : (s.setOutBlock c ws).rlpLatDn2 = s.rlpLatDn2 := rfl
@[simp] theorem setOutBlock_wlen (s : State) (c : Nat) (ws : List Word) : (s.setOutBlock c ws).wlen = s.wlen := rfl
@[simp] theorem setOutBlock_wch (s : State) (c : Nat) (ws : List Word) : (s.setOutBlock c ws).wch = s.wch := rfl
@[simp] theorem setOutBlock_wn (s : State) (c : Nat) (ws : List Word) : (s.setOutBlock c ws).wn = s.wn := rfl
@[simp] theorem setOutBlock_mem (s : State) (c : Nat) (ws : List Word) : (s.setOutBlock c ws).mem = Memory.putBlock s.mem (outAddr c 0) ws := rfl
@[simp] theorem setOutBlock_firUp4 (s : State) (c : Nat) (ws : List Word) : (s.setOutBlock c ws).firUp4 = s.firUp4 := rfl
@[simp] theorem setOutBlock_firDn4 (s : State) (c : Nat) (ws : List Word) : (s.setOutBlock c ws).firDn4 = s.firDn4 := rfl
@[simp] theorem setOutBlock_rlpUp2 (s : State) (c : Nat) (ws : List Word) : (s.setOutBlock c ws).rlpUp2 = s.rlpUp2 := rfl
@[simp] theorem setOutBlock_rlpDn2 (s : State) (c : Nat) (ws : List Word) : (s.setOutBlock c ws).rlpDn2 = s.rlpDn2 := rfl
@[simp] theorem setOutBlock_vib (s : State) (c : Nat) (ws : List Word) : (s.setOutBlock c ws).vib = s.vib := rfl
@[simp] theorem setOutBlock_inputs (s : State) (c : Nat) (ws : List Word) : (s.setOutBlock c ws).inputs = s.inputs := rfl
@[simp] theorem setOutBlock_reply (s : State) (c : Nat) (ws : List Word) : (s.setOutBlock c ws).reply = s.reply := rfl
@[simp] theorem setOutBlock_resets (s : State) (c : Nat) (ws : List Word) : (s.setOutBlock c ws).resets = s.resets := rfl

/-! ### flagNumerr -/

@[simp] theorem flagNumerr_params (s : State) (ws : List Word) : (s.flagNumerr ws).params = s.params := rfl
@[simp] theorem flagNumerr_pendCmd (s : State) (ws : List Word) : (s.flagNumerr ws).pendCmd = s.pendCmd := rfl
@[simp] theorem flagNumerr_engPhase (s : State) (ws : List Word) : (s.flagNumerr ws).engPhase = s.engPhase := rfl
@[simp] theorem flagNumerr_reqSnap (s : State) (ws : List Word) : (s.flagNumerr ws).reqSnap = s.reqSnap := rfl
@[simp] theorem flagNumerr_done (s : State) (ws : List Word) : (s.flagNumerr ws).done = s.done := rfl
@[simp] theorem flagNumerr_err (s : State) (ws : List Word) : (s.flagNumerr ws).err = s.err := rfl
@[simp] theorem flagNumerr_numerr (s : State) (ws : List Word) : (s.flagNumerr ws).numerr = (s.numerr || anyNonFinite ws) := rfl
@[simp] theorem flagNumerr_latNew (s : State) (ws : List Word) : (s.flagNumerr ws).latNew = s.latNew := rfl
@[simp] theorem flagNumerr_prepared (s : State) (ws : List Word) : (s.flagNumerr ws).prepared = s.prepared := rfl
@[simp] theorem flagNumerr_active (s : State) (ws : List Word) : (s.flagNumerr ws).active = s.active := rfl
@[simp] theorem flagNumerr_prepareReq (s : State) (ws : List Word) : (s.flagNumerr ws).prepareReq = s.prepareReq := rfl
@[simp] theorem flagNumerr_wmode (s : State) (ws : List Word) : (s.flagNumerr ws).wmode = s.wmode := rfl
@[simp] theorem flagNumerr_lastTrans (s : State) (ws : List Word) : (s.flagNumerr ws).lastTrans = s.lastTrans := rfl
@[simp] theorem flagNumerr_errcode (s : State) (ws : List Word) : (s.flagNumerr ws).errcode = s.errcode := rfl
@[simp] theorem flagNumerr_osReq (s : State) (ws : List Word) : (s.flagNumerr ws).osReq = s.osReq := rfl
@[simp] theorem flagNumerr_latPub (s : State) (ws : List Word) : (s.flagNumerr ws).latPub = s.latPub := rfl
@[simp] theorem flagNumerr_osDirty (s : State) (ws : List Word) : (s.flagNumerr ws).osDirty = s.osDirty := rfl
@[simp] theorem flagNumerr_vibDirty (s : State) (ws : List Word) : (s.flagNumerr ws).vibDirty = s.vibDirty := rfl
@[simp] theorem flagNumerr_osTotal (s : State) (ws : List Word) : (s.flagNumerr ws).osTotal = s.osTotal := rfl
@[simp] theorem flagNumerr_vibTotal (s : State) (ws : List Word) : (s.flagNumerr ws).vibTotal = s.vibTotal := rfl
@[simp] theorem flagNumerr_fsLo (s : State) (ws : List Word) : (s.flagNumerr ws).fsLo = s.fsLo := rfl
@[simp] theorem flagNumerr_fsHi (s : State) (ws : List Word) : (s.flagNumerr ws).fsHi = s.fsHi := rfl
@[simp] theorem flagNumerr_blockSize (s : State) (ws : List Word) : (s.flagNumerr ws).blockSize = s.blockSize := rfl
@[simp] theorem flagNumerr_nchIn (s : State) (ws : List Word) : (s.flagNumerr ws).nchIn = s.nchIn := rfl
@[simp] theorem flagNumerr_nchOut (s : State) (ws : List Word) : (s.flagNumerr ws).nchOut = s.nchOut := rfl
@[simp] theorem flagNumerr_upFsLo (s : State) (ws : List Word) : (s.flagNumerr ws).upFsLo = s.upFsLo := rfl
@[simp] theorem flagNumerr_upFsHi (s : State) (ws : List Word) : (s.flagNumerr ws).upFsHi = s.upFsHi := rfl
@[simp] theorem flagNumerr_upBlock (s : State) (ws : List Word) : (s.flagNumerr ws).upBlock = s.upBlock := rfl
@[simp] theorem flagNumerr_fxCtrl (s : State) (ws : List Word) : (s.flagNumerr ws).fxCtrl = s.fxCtrl := rfl
@[simp] theorem flagNumerr_wfDrive (s : State) (ws : List Word) : (s.flagNumerr ws).wfDrive = s.wfDrive := rfl
@[simp] theorem flagNumerr_satDrive (s : State) (ws : List Word) : (s.flagNumerr ws).satDrive = s.satDrive := rfl
@[simp] theorem flagNumerr_vibFreq (s : State) (ws : List Word) : (s.flagNumerr ws).vibFreq = s.vibFreq := rfl
@[simp] theorem flagNumerr_vibDepth (s : State) (ws : List Word) : (s.flagNumerr ws).vibDepth = s.vibDepth := rfl
@[simp] theorem flagNumerr_vibLen (s : State) (ws : List Word) : (s.flagNumerr ws).vibLen = s.vibLen := rfl
@[simp] theorem flagNumerr_vph (s : State) (ws : List Word) : (s.flagNumerr ws).vph = s.vph := rfl
@[simp] theorem flagNumerr_vibInc (s : State) (ws : List Word) : (s.flagNumerr ws).vibInc = s.vibInc := rfl
@[simp] theorem flagNumerr_irLenUp4 (s : State) (ws : List Word) : (s.flagNumerr ws).irLenUp4 = s.irLenUp4 := rfl
@[simp] theorem flagNumerr_irLenDn4 (s : State) (ws : List Word) : (s.flagNumerr ws).irLenDn4 = s.irLenDn4 := rfl
@[simp] theorem flagNumerr_rlpNsecUp2 (s : State) (ws : List Word) : (s.flagNumerr ws).rlpNsecUp2 = s.rlpNsecUp2 := rfl
@[simp] theorem flagNumerr_rlpNsecDn2 (s : State) (ws : List Word) : (s.flagNumerr ws).rlpNsecDn2 = s.rlpNsecDn2 := rfl
@[simp] theorem flagNumerr_rlpLatUp2 (s : State) (ws : List Word) : (s.flagNumerr ws).rlpLatUp2 = s.rlpLatUp2 := rfl
@[simp] theorem flagNumerr_rlpLatDn2 (s : State) (ws : List Word) : (s.flagNumerr ws).rlpLatDn2 = s.rlpLatDn2 := rfl
@[simp] theorem flagNumerr_wlen (s : State) (ws : List Word) : (s.flagNumerr ws).wlen = s.wlen := rfl
@[simp] theorem flagNumerr_wch (s : State) (ws : List Word) : (s.flagNumerr ws).wch = s.wch := rfl
@[simp] theorem flagNumerr_wn (s : State) (ws : List Word) : (s.flagNumerr ws).wn = s.wn := rfl
@[simp] theorem flagNumerr_mem (s : State) (ws : List Word) : (s.flagNumerr ws).mem = s.mem := rfl
@[simp] theorem flagNumerr_firUp4 (s : State) (ws : List Word) : (s.flagNumerr ws).firUp4 = s.firUp4 := rfl
@[simp] theorem flagNumerr_firDn4 (s : State) (ws : List Word) : (s.flagNumerr ws).firDn4 = s.firDn4 := rfl
@[simp] theorem flagNumerr_rlpUp2 (s : State) (ws : List Word) : (s.flagNumerr ws).rlpUp2 = s.rlpUp2 := rfl
@[simp] theorem flagNumerr_rlpDn2 (s : State) (ws : List Word) : (s.flagNumerr ws).rlpDn2 = s.rlpDn2 := rfl
@[simp] theorem flagNumerr_vib (s : State) (ws : List Word) : (s.flagNumerr ws).vib = s.vib := rfl
@[simp] theorem flagNumerr_inputs (s : State) (ws : List Word) : (s.flagNumerr ws).inputs = s.inputs := rfl
@[simp] theorem flagNumerr_reply (s : State) (ws : List Word) : (s.flagNumerr ws).reply = s.reply := rfl
@[simp] theorem flagNumerr_resets (s : State) (ws : List Word) : (s.flagNumerr ws).resets = s.resets := rfl

/-! ### setFirLines -/

@[simp] theorem setFirLines_params (s : State) (g : FirStage) (l : List FirLine) : (s.setFirLines g l).params = s.params := by cases g <;> rfl
@[simp] theorem setFirLines_pendCmd (s : State) (g : FirStage) (l : List FirLine) : (s.setFirLines g l).pendCmd = s.pendCmd := by cases g <;> rfl
@[simp] theorem setFirLines_engPhase (s : State) (g : FirStage) (l : List FirLine) : (s.setFirLines g l).engPhase = s.engPhase := by cases g <;> rfl
@[simp] theorem setFirLines_reqSnap (s : State) (g : FirStage) (l : List FirLine) : (s.setFirLines g l).reqSnap = s.reqSnap := by cases g <;> rfl
@[simp] theorem setFirLines_done (s : State) (g : FirStage) (l : List FirLine) : (s.setFirLines g l).done = s.done := by cases g <;> rfl
@[simp] theorem setFirLines_err (s : State) (g : FirStage) (l : List FirLine) : (s.setFirLines g l).err = s.err := by cases g <;> rfl
@[simp] theorem setFirLines_numerr (s : State) (g : FirStage) (l : List FirLine) : (s.setFirLines g l).numerr = s.numerr := by cases g <;> rfl
@[simp] theorem setFirLines_latNew (s : State) (g : FirStage) (l : List FirLine) : (s.setFirLines g l).latNew = s.latNew := by cases g <;> rfl
@[simp] theorem setFirLines_prepared (s : State) (g : FirStage) (l : List FirLine) : (s.setFirLines g l).prepared = s.prepared := by cases g <;> rfl
@[simp] theorem setFirLines_active (s : State) (g : FirStage) (l : List FirLine) : (s.setFirLines g l).active = s.active := by cases g <;> rfl
@[simp] theorem setFirLines_prepareReq (s : State) (g : FirStage) (l : List FirLine) : (s.setFirLines g l).prepareReq = s.prepareReq := by cases g <;> rfl
@[simp] theorem setFirLines_wmode (s : State) (g : FirStage) (l : List FirLine) : (s.setFirLines g l).wmode = s.wmode := by cases g <;> rfl
@[simp] theorem setFirLines_lastTrans (s : State) (g : FirStage) (l : List FirLine) : (s.setFirLines g l).lastTrans = s.lastTrans := by cases g <;> rfl
@[simp] theorem setFirLines_errcode (s : State) (g : FirStage) (l : List FirLine) : (s.setFirLines g l).errcode = s.errcode := by cases g <;> rfl
@[simp] theorem setFirLines_osReq (s : State) (g : FirStage) (l : List FirLine) : (s.setFirLines g l).osReq = s.osReq := by cases g <;> rfl
@[simp] theorem setFirLines_latPub (s : State) (g : FirStage) (l : List FirLine) : (s.setFirLines g l).latPub = s.latPub := by cases g <;> rfl
@[simp] theorem setFirLines_osDirty (s : State) (g : FirStage) (l : List FirLine) : (s.setFirLines g l).osDirty = s.osDirty := by cases g <;> rfl
@[simp] theorem setFirLines_vibDirty (s : State) (g : FirStage) (l : List FirLine) : (s.setFirLines g l).vibDirty = s.vibDirty := by cases g <;> rfl
@[simp] theorem setFirLines_osTotal (s : State) (g : FirStage) (l : List FirLine) : (s.setFirLines g l).osTotal = s.osTotal := by cases g <;> rfl
@[simp] theorem setFirLines_vibTotal (s : State) (g : FirStage) (l : List FirLine) : (s.setFirLines g l).vibTotal = s.vibTotal := by cases g <;> rfl
@[simp] theorem setFirLines_fsLo (s : State) (g : FirStage) (l : List FirLine) : (s.setFirLines g l).fsLo = s.fsLo := by cases g <;> rfl
@[simp] theorem setFirLines_fsHi (s : State) (g : FirStage) (l : List FirLine) : (s.setFirLines g l).fsHi = s.fsHi := by cases g <;> rfl
@[simp] theorem setFirLines_blockSize (s : State) (g : FirStage) (l : List FirLine) : (s.setFirLines g l).blockSize = s.blockSize := by cases g <;> rfl
@[simp] theorem setFirLines_nchIn (s : State) (g : FirStage) (l : List FirLine) : (s.setFirLines g l).nchIn = s.nchIn := by cases g <;> rfl
@[simp] theorem setFirLines_nchOut (s : State) (g : FirStage) (l : List FirLine) : (s.setFirLines g l).nchOut = s.nchOut := by cases g <;> rfl
@[simp] theorem setFirLines_upFsLo (s : State) (g : FirStage) (l : List FirLine) : (s.setFirLines g l).upFsLo = s.upFsLo := by cases g <;> rfl
@[simp] theorem setFirLines_upFsHi (s : State) (g : FirStage) (l : List FirLine) : (s.setFirLines g l).upFsHi = s.upFsHi := by cases g <;> rfl
@[simp] theorem setFirLines_upBlock (s : State) (g : FirStage) (l : List FirLine) : (s.setFirLines g l).upBlock = s.upBlock := by cases g <;> rfl
@[simp] theorem setFirLines_fxCtrl (s : State) (g : FirStage) (l : List FirLine) : (s.setFirLines g l).fxCtrl = s.fxCtrl := by cases g <;> rfl
@[simp] theorem setFirLines_wfDrive (s : State) (g : FirStage) (l : List FirLine) : (s.setFirLines g l).wfDrive = s.wfDrive := by cases g <;> rfl
@[simp] theorem setFirLines_satDrive (s : State) (g : FirStage) (l : List FirLine) : (s.setFirLines g l).satDrive = s.satDrive := by cases g <;> rfl
@[simp] theorem setFirLines_vibFreq (s : State) (g : FirStage) (l : List FirLine) : (s.setFirLines g l).vibFreq = s.vibFreq := by cases g <;> rfl
@[simp] theorem setFirLines_vibDepth (s : State) (g : FirStage) (l : List FirLine) : (s.setFirLines g l).vibDepth = s.vibDepth := by cases g <;> rfl
@[simp] theorem setFirLines_vibLen (s : State) (g : FirStage) (l : List FirLine) : (s.setFirLines g l).vibLen = s.vibLen := by cases g <;> rfl
@[simp] theorem setFirLines_vph (s : State) (g : FirStage) (l : List FirLine) : (s.setFirLines g l).vph = s.vph := by cases g <;> rfl
@[simp] theorem setFirLines_vibInc (s : State) (g : FirStage) (l : List FirLine) : (s.setFirLines g l).vibInc = s.vibInc := by cases g <;> rfl
@[simp] theorem setFirLines_irLenUp4 (s : State) (g : FirStage) (l : List FirLine) : (s.setFirLines g l).irLenUp4 = s.irLenUp4 := by cases g <;> rfl
@[simp] theorem setFirLines_irLenDn4 (s : State) (g : FirStage) (l : List FirLine) : (s.setFirLines g l).irLenDn4 = s.irLenDn4 := by cases g <;> rfl
@[simp] theorem setFirLines_rlpNsecUp2 (s : State) (g : FirStage) (l : List FirLine) : (s.setFirLines g l).rlpNsecUp2 = s.rlpNsecUp2 := by cases g <;> rfl
@[simp] theorem setFirLines_rlpNsecDn2 (s : State) (g : FirStage) (l : List FirLine) : (s.setFirLines g l).rlpNsecDn2 = s.rlpNsecDn2 := by cases g <;> rfl
@[simp] theorem setFirLines_rlpLatUp2 (s : State) (g : FirStage) (l : List FirLine) : (s.setFirLines g l).rlpLatUp2 = s.rlpLatUp2 := by cases g <;> rfl
@[simp] theorem setFirLines_rlpLatDn2 (s : State) (g : FirStage) (l : List FirLine) : (s.setFirLines g l).rlpLatDn2 = s.rlpLatDn2 := by cases g <;> rfl
@[simp] theorem setFirLines_wlen (s : State) (g : FirStage) (l : List FirLine) : (s.setFirLines g l).wlen = s.wlen := by cases g <;> rfl
@[simp] theorem setFirLines_wch (s : State) (g : FirStage) (l : List FirLine) : (s.setFirLines g l).wch = s.wch := by cases g <;> rfl
@[simp] theorem setFirLines_wn (s : State) (g : FirStage) (l : List FirLine) : (s.setFirLines g l).wn = s.wn := by cases g <;> rfl
@[simp] theorem setFirLines_mem (s : State) (g : FirStage) (l : List FirLine) : (s.setFirLines g l).mem = s.mem := by cases g <;> rfl
@[simp] theorem setFirLines_rlpUp2 (s : State) (g : FirStage) (l : List FirLine) : (s.setFirLines g l).rlpUp2 = s.rlpUp2 := by cases g <;> rfl
@[simp] theorem setFirLines_rlpDn2 (s : State) (g : FirStage) (l : List FirLine) : (s.setFirLines g l).rlpDn2 = s.rlpDn2 := by cases g <;> rfl
@[simp] theorem setFirLines_vib (s : State) (g : FirStage) (l : List FirLine) : (s.setFirLines g l).vib = s.vib := by cases g <;> rfl
@[simp] theorem setFirLines_inputs (s : State) (g : FirStage) (l : List FirLine) : (s.setFirLines g l).inputs = s.inputs := by cases g <;> rfl
@[simp] theorem setFirLines_reply (s : State) (g : FirStage) (l : List FirLine) : (s.setFirLines g l).reply = s.reply := by cases g <;> rfl
@[simp] theorem setFirLines_resets (s : State) (g : FirStage) (l : List FirLine) : (s.setFirLines g l).resets = s.resets := by cases g <;> rfl

/-! ### setFirLine -/

@[simp] theorem setFirLine_params (s : State) (g : FirStage) (c : Nat) (l : FirLine) : (s.setFirLine g c l).params = s.params := by cases g <;> rfl
@[simp] theorem setFirLine_pendCmd (s : State) (g : FirStage) (c : Nat) (l : FirLine) : (s.setFirLine g c l).pendCmd = s.pendCmd := by cases g <;> rfl
@[simp] theorem setFirLine_engPhase (s : State) (g : FirStage) (c : Nat) (l : FirLine) : (s.setFirLine g c l).engPhase = s.engPhase := by cases g <;> rfl
@[simp] theorem setFirLine_reqSnap (s : State) (g : FirStage) (c : Nat) (l : FirLine) : (s.setFirLine g c l).reqSnap = s.reqSnap := by cases g <;> rfl
@[simp] theorem setFirLine_done (s : State) (g : FirStage) (c : Nat) (l : FirLine) : (s.setFirLine g c l).done = s.done := by cases g <;> rfl
@[simp] theorem setFirLine_err (s : State) (g : FirStage) (c : Nat) (l : FirLine) : (s.setFirLine g c l).err = s.err := by cases g <;> rfl
@[simp] theorem setFirLine_numerr (s : State) (g : FirStage) (c : Nat) (l : FirLine) : (s.setFirLine g c l).numerr = s.numerr := by cases g <;> rfl
@[simp] theorem setFirLine_latNew (s : State) (g : FirStage) (c : Nat) (l : FirLine) : (s.setFirLine g c l).latNew = s.latNew := by cases g <;> rfl
@[simp] theorem setFirLine_prepared (s : State) (g : FirStage) (c : Nat) (l : FirLine) : (s.setFirLine g c l).prepared = s.prepared := by cases g <;> rfl
@[simp] theorem setFirLine_active (s : State) (g : FirStage) (c : Nat) (l : FirLine) : (s.setFirLine g c l).active = s.active := by cases g <;> rfl
@[simp] theorem setFirLine_prepareReq (s : State) (g : FirStage) (c : Nat) (l : FirLine) : (s.setFirLine g c l).prepareReq = s.prepareReq := by cases g <;> rfl
@[simp] theorem setFirLine_wmode (s : State) (g : FirStage) (c : Nat) (l : FirLine) : (s.setFirLine g c l).wmode = s.wmode := by cases g <;> rfl
@[simp] theorem setFirLine_lastTrans (s : State) (g : FirStage) (c : Nat) (l : FirLine) : (s.setFirLine g c l).lastTrans = s.lastTrans := by cases g <;> rfl
@[simp] theorem setFirLine_errcode (s : State) (g : FirStage) (c : Nat) (l : FirLine) : (s.setFirLine g c l).errcode = s.errcode := by cases g <;> rfl
@[simp] theorem setFirLine_osReq (s : State) (g : FirStage) (c : Nat) (l : FirLine) : (s.setFirLine g c l).osReq = s.osReq := by cases g <;> rfl
@[simp] theorem setFirLine_latPub (s : State) (g : FirStage) (c : Nat) (l : FirLine) : (s.setFirLine g c l).latPub = s.latPub := by cases g <;> rfl
@[simp] theorem setFirLine_osDirty (s : State) (g : FirStage) (c : Nat) (l : FirLine) : (s.setFirLine g c l).osDirty = s.osDirty := by cases g <;> rfl
@[simp] theorem setFirLine_vibDirty (s : State) (g : FirStage) (c : Nat) (l : FirLine) : (s.setFirLine g c l).vibDirty = s.vibDirty := by cases g <;> rfl
@[simp] theorem setFirLine_osTotal (s : State) (g : FirStage) (c : Nat) (l : FirLine) : (s.setFirLine g c l).osTotal = s.osTotal := by cases g <;> rfl
@[simp] theorem setFirLine_vibTotal (s : State) (g : FirStage) (c : Nat) (l : FirLine) : (s.setFirLine g c l).vibTotal = s.vibTotal := by cases g <;> rfl
@[simp] theorem setFirLine_fsLo (s : State) (g : FirStage) (c : Nat) (l : FirLine) : (s.setFirLine g c l).fsLo = s.fsLo := by cases g <;> rfl
@[simp] theorem setFirLine_fsHi (s : State) (g : FirStage) (c : Nat) (l : FirLine) : (s.setFirLine g c l).fsHi = s.fsHi := by cases g <;> rfl
@[simp] theorem setFirLine_blockSize (s : State) (g : FirStage) (c : Nat) (l : FirLine) : (s.setFirLine g c l).blockSize = s.blockSize := by cases g <;> rfl
@[simp] theorem setFirLine_nchIn (s : State) (g : FirStage) (c : Nat) (l : FirLine) : (s.setFirLine g c l).nchIn = s.nchIn := by cases g <;> rfl
@[simp] theorem setFirLine_nchOut (s : State) (g : FirStage) (c : Nat) (l : FirLine) : (s.setFirLine g c l).nchOut = s.nchOut := by cases g <;> rfl
@[simp] theorem setFirLine_upFsLo (s : State) (g : FirStage) (c : Nat) (l : FirLine) : (s.setFirLine g c l).upFsLo = s.upFsLo := by cases g <;> rfl
@[simp] theorem setFirLine_upFsHi (s : State) (g : FirStage) (c : Nat) (l : FirLine) : (s.setFirLine g c l).upFsHi = s.upFsHi := by cases g <;> rfl
@[simp] theorem setFirLine_upBlock (s : State) (g : FirStage) (c : Nat) (l : FirLine) : (s.setFirLine g c l).upBlock = s.upBlock := by cases g <;> rfl
@[simp] theorem setFirLine_fxCtrl (s : State) (g : FirStage) (c : Nat) (l : FirLine) : (s.setFirLine g c l).fxCtrl = s.fxCtrl := by cases g <;> rfl
@[simp] theorem setFirLine_wfDrive (s : State) (g : FirStage) (c : Nat) (l : FirLine) : (s.setFirLine g c l).wfDrive = s.wfDrive := by cases g <;> rfl
@[simp] theorem setFirLine_satDrive (s : State) (g : FirStage) (c : Nat) (l : FirLine) : (s.setFirLine g c l).satDrive = s.satDrive := by cases g <;> rfl
@[simp] theorem setFirLine_vibFreq (s : State) (g : FirStage) (c : Nat) (l : FirLine) : (s.setFirLine g c l).vibFreq = s.vibFreq := by cases g <;> rfl
@[simp] theorem setFirLine_vibDepth (s : State) (g : FirStage) (c : Nat) (l : FirLine) : (s.setFirLine g c l).vibDepth = s.vibDepth := by cases g <;> rfl
@[simp] theorem setFirLine_vibLen (s : State) (g : FirStage) (c : Nat) (l : FirLine) : (s.setFirLine g c l).vibLen = s.vibLen := by cases g <;> rfl
@[simp] theorem setFirLine_vph (s : State) (g : FirStage) (c : Nat) (l : FirLine) : (s.setFirLine g c l).vph = s.vph := by cases g <;> rfl
@[simp] theorem setFirLine_vibInc (s : State) (g : FirStage) (c : Nat) (l : FirLine) : (s.setFirLine g c l).vibInc = s.vibInc := by cases g <;> rfl
@[simp] theorem setFirLine_irLenUp4 (s : State) (g : FirStage) (c : Nat) (l : FirLine) : (s.setFirLine g c l).irLenUp4 = s.irLenUp4 := by cases g <;> rfl
@[simp] theorem setFirLine_irLenDn4 (s : State) (g : FirStage) (c : Nat) (l : FirLine) : (s.setFirLine g c l).irLenDn4 = s.irLenDn4 := by cases g <;> rfl
@[simp] theorem setFirLine_rlpNsecUp2 (s : State) (g : FirStage) (c : Nat) (l : FirLine) : (s.setFirLine g c l).rlpNsecUp2 = s.rlpNsecUp2 := by cases g <;> rfl
@[simp] theorem setFirLine_rlpNsecDn2 (s : State) (g : FirStage) (c : Nat) (l : FirLine) : (s.setFirLine g c l).rlpNsecDn2 = s.rlpNsecDn2 := by cases g <;> rfl
@[simp] theorem setFirLine_rlpLatUp2 (s : State) (g : FirStage) (c : Nat) (l : FirLine) : (s.setFirLine g c l).rlpLatUp2 = s.rlpLatUp2 := by cases g <;> rfl
@[simp] theorem setFirLine_rlpLatDn2 (s : State) (g : FirStage) (c : Nat) (l : FirLine) : (s.setFirLine g c l).rlpLatDn2 = s.rlpLatDn2 := by cases g <;> rfl
@[simp] theorem setFirLine_wlen (s : State) (g : FirStage) (c : Nat) (l : FirLine) : (s.setFirLine g c l).wlen = s.wlen := by cases g <;> rfl
@[simp] theorem setFirLine_wch (s : State) (g : FirStage) (c : Nat) (l : FirLine) : (s.setFirLine g c l).wch = s.wch := by cases g <;> rfl
@[simp] theorem setFirLine_wn (s : State) (g : FirStage) (c : Nat) (l : FirLine) : (s.setFirLine g c l).wn = s.wn := by cases g <;> rfl
@[simp] theorem setFirLine_mem (s : State) (g : FirStage) (c : Nat) (l : FirLine) : (s.setFirLine g c l).mem = s.mem := by cases g <;> rfl
@[simp] theorem setFirLine_rlpUp2 (s : State) (g : FirStage) (c : Nat) (l : FirLine) : (s.setFirLine g c l).rlpUp2 = s.rlpUp2 := by cases g <;> rfl
@[simp] theorem setFirLine_rlpDn2 (s : State) (g : FirStage) (c : Nat) (l : FirLine) : (s.setFirLine g c l).rlpDn2 = s.rlpDn2 := by cases g <;> rfl
@[simp] theorem setFirLine_vib (s : State) (g : FirStage) (c : Nat) (l : FirLine) : (s.setFirLine g c l).vib = s.vib := by cases g <;> rfl
@[simp] theorem setFirLine_inputs (s : State) (g : FirStage) (c : Nat) (l : FirLine) : (s.setFirLine g c l).inputs = s.inputs := by cases g <;> rfl
@[simp] theorem setFirLine_reply (s : State) (g : FirStage) (c : Nat) (l : FirLine) : (s.setFirLine g c l).reply = s.reply := by cases g <;> rfl
@[simp] theorem setFirLine_resets (s : State) (g : FirStage) (c : Nat) (l : FirLine) : (s.setFirLine g c l).resets = s.resets := by cases g <;> rfl

/-! ### setRlpLines -/

@[simp] theorem setRlpLines_params (s : State) (g : RlpStage) (l : List (List Biquad)) : (s.setRlpLines g l).params = s.params := by cases g <;> rfl
@[simp] theorem setRlpLines_pendCmd (s : State) (g : RlpStage) (l : List (List Biquad)) : (s.setRlpLines g l).pendCmd = s.pendCmd := by cases g <;> rfl
@[simp] theorem setRlpLines_engPhase (s : State) (g : RlpStage) (l : List (List Biquad)) : (s.setRlpLines g l).engPhase = s.engPhase := by cases g <;> rfl
@[simp] theorem setRlpLines_reqSnap (s : State) (g : RlpStage) (l : List (List Biquad)) : (s.setRlpLines g l).reqSnap = s.reqSnap := by cases g <;> rfl
@[simp] theorem setRlpLines_done (s : State) (g : RlpStage) (l : List (List Biquad)) : (s.setRlpLines g l).done = s.done := by cases g <;> rfl
@[simp] theorem setRlpLines_err (s : State) (g : RlpStage) (l : List (List Biquad)) : (s.setRlpLines g l).err = s.err := by cases g <;> rfl
@[simp] theorem setRlpLines_numerr (s : State) (g : RlpStage) (l : List (List Biquad)) : (s.setRlpLines g l).numerr = s.numerr := by cases g <;> rfl
@[simp] theorem setRlpLines_latNew (s : State) (g : RlpStage) (l : List (List Biquad)) : (s.setRlpLines g l).latNew = s.latNew := by cases g <;> rfl
@[simp] theorem setRlpLines_prepared (s : State) (g : RlpStage) (l : List (List Biquad)) : (s.setRlpLines g l).prepared = s.prepared := by cases g <;> rfl
@[simp] theorem setRlpLines_active (s : State) (g : RlpStage) (l : List (List Biquad)) : (s.setRlpLines g l).active = s.active := by cases g <;> rfl
@[simp] theorem setRlpLines_prepareReq (s : State) (g : RlpStage) (l : List (List Biquad)) : (s.setRlpLines g l).prepareReq = s.prepareReq := by cases g <;> rfl
@[simp] theorem setRlpLines_wmode (s : State) (g : RlpStage) (l : List (List Biquad)) : (s.setRlpLines g l).wmode = s.wmode := by cases g <;> rfl
@[simp] theorem setRlpLines_lastTrans (s : State) (g : RlpStage) (l : List (List Biquad)) : (s.setRlpLines g l).lastTrans = s.lastTrans := by cases g <;> rfl
@[simp] theorem setRlpLines_errcode (s : State) (g : RlpStage) (l : List (List Biquad)) : (s.setRlpLines g l).errcode = s.errcode := by cases g <;> rfl
@[simp] theorem setRlpLines_osReq (s : State) (g : RlpStage) (l : List (List Biquad)) : (s.setRlpLines g l).osReq = s.osReq := by cases g <;> rfl
@[simp] theorem setRlpLines_latPub (s : State) (g : RlpStage) (l : List (List Biquad)) : (s.setRlpLines g l).latPub = s.latPub := by cases g <;> rfl
@[simp] theorem setRlpLines_osDirty (s : State) (g : RlpStage) (l : List (List Biquad)) : (s.setRlpLines g l).osDirty = s.osDirty := by cases g <;> rfl
@[simp] theorem setRlpLines_vibDirty (s : State) (g : RlpStage) (l : List (List Biquad)) : (s.setRlpLines g l).vibDirty = s.vibDirty := by cases g <;> rfl
@[simp] theorem setRlpLines_osTotal (s : State) (g : RlpStage) (l : List (List Biquad)) : (s.setRlpLines g l).osTotal = s.osTotal := by cases g <;> rfl
@[simp] theorem setRlpLines_vibTotal (s : State) (g : RlpStage) (l : List (List Biquad)) : (s.setRlpLines g l).vibTotal = s.vibTotal := by cases g <;> rfl
@[simp] theorem setRlpLines_fsLo (s : State) (g : RlpStage) (l : List (List Biquad)) : (s.setRlpLines g l).fsLo = s.fsLo := by cases g <;> rfl
@[simp] theorem setRlpLines_fsHi (s : State) (g : RlpStage) (l : List (List Biquad)) : (s.setRlpLines g l).fsHi = s.fsHi := by cases g <;> rfl
@[simp] theorem setRlpLines_blockSize (s : State) (g : RlpStage) (l : List (List Biquad)) : (s.setRlpLines g l).blockSize = s.blockSize := by cases g <;> rfl
@[simp] theorem setRlpLines_nchIn (s : State) (g : RlpStage) (l : List (List Biquad)) : (s.setRlpLines g l).nchIn = s.nchIn := by cases g <;> rfl
@[simp] theorem setRlpLines_nchOut (s : State) (g : RlpStage) (l : List (List Biquad)) : (s.setRlpLines g l).nchOut = s.nchOut := by cases g <;> rfl
@[simp] theorem setRlpLines_upFsLo (s : State) (g : RlpStage) (l : List (List Biquad)) : (s.setRlpLines g l).upFsLo = s.upFsLo := by cases g <;> rfl
@[simp] theorem setRlpLines_upFsHi (s : State) (g : RlpStage) (l : List (List Biquad)) : (s.setRlpLines g l).upFsHi = s.upFsHi := by cases g <;> rfl
@[simp] theorem setRlpLines_upBlock (s : State) (g : RlpStage) (l : List (List Biquad)) : (s.setRlpLines g l).upBlock = s.upBlock := by cases g <;> rfl
@[simp] theorem setRlpLines_fxCtrl (s : State) (g : RlpStage) (l : List (List Biquad)) : (s.setRlpLines g l).fxCtrl = s.fxCtrl := by cases g <;> rfl
@[simp] theorem setRlpLines_wfDrive (s : State) (g : RlpStage) (l : List (List Biquad)) : (s.setRlpLines g l).wfDrive = s.wfDrive := by cases g <;> rfl
@[simp] theorem setRlpLines_satDrive (s : State) (g : RlpStage) (l : List (List Biquad)) : (s.setRlpLines g l).satDrive = s.satDrive := by cases g <;> rfl
@[simp] theorem setRlpLines_vibFreq (s : State) (g : RlpStage) (l : List (List Biquad)) : (s.setRlpLines g l).vibFreq = s.vibFreq := by cases g <;> rfl
@[simp] theorem setRlpLines_vibDepth (s : State) (g : RlpStage) (l : List (List Biquad)) : (s.setRlpLines g l).vibDepth = s.vibDepth := by cases g <;> rfl
@[simp] theorem setRlpLines_vibLen (s : State) (g : RlpStage) (l : List (List Biquad)) : (s.setRlpLines g l).vibLen = s.vibLen := by cases g <;> rfl
@[simp] theorem setRlpLines_vph (s : State) (g : RlpStage) (l : List (List Biquad)) : (s.setRlpLines g l).vph = s.vph := by cases g <;> rfl
@[simp] theorem setRlpLines_vibInc (s : State) (g : RlpStage) (l : List (List Biquad)) : (s.setRlpLines g l).vibInc = s.vibInc := by cases g <;> rfl
@[simp] theorem setRlpLines_irLenUp4 (s : State) (g : RlpStage) (l : List (List Biquad)) : (s.setRlpLines g l).irLenUp4 = s.irLenUp4 := by cases g <;> rfl
@[simp] theorem setRlpLines_irLenDn4 (s : State) (g : RlpStage) (l : List (List Biquad)) : (s.setRlpLines g l).irLenDn4 = s.irLenDn4 := by cases g <;> rfl
@[simp] theorem setRlpLines_rlpNsecUp2 (s : State) (g : RlpStage) (l : List (List Biquad)) : (s.setRlpLines g l).rlpNsecUp2 = s.rlpNsecUp2 := by cases g <;> rfl
@[simp] theorem setRlpLines_rlpNsecDn2 (s : State) (g : RlpStage) (l : List (List Biquad)) : (s.setRlpLines g l).rlpNsecDn2 = s.rlpNsecDn2 := by cases g <;> rfl
@[simp] theorem setRlpLines_rlpLatUp2 (s : State) (g : RlpStage) (l : List (List Biquad)) : (s.setRlpLines g l).rlpLatUp2 = s.rlpLatUp2 := by cases g <;> rfl
@[simp] theorem setRlpLines_rlpLatDn2 (s : State) (g : RlpStage) (l : List (List Biquad)) : (s.setRlpLines g l).rlpLatDn2 = s.rlpLatDn2 := by cases g <;> rfl
@[simp] theorem setRlpLines_wlen (s : State) (g : RlpStage) (l : List (List Biquad)) : (s.setRlpLines g l).wlen = s.wlen := by cases g <;> rfl
@[simp] theorem setRlpLines_wch (s : State) (g : RlpStage) (l : List (List Biquad)) : (s.setRlpLines g l).wch = s.wch := by cases g <;> rfl
@[simp] theorem setRlpLines_wn (s : State) (g : RlpStage) (l : List (List Biquad)) : (s.setRlpLines g l).wn = s.wn := by cases g <;> rfl
@[simp] theorem setRlpLines_mem (s : State) (g : RlpStage) (l : List (List Biquad)) : (s.setRlpLines g l).mem = s.mem := by cases g <;> rfl
@[simp] theorem setRlpLines_firUp4 (s : State) (g : RlpStage) (l : List (List Biquad)) : (s.setRlpLines g l).firUp4 = s.firUp4 := by cases g <;> rfl
@[simp] theorem setRlpLines_firDn4 (s : State) (g : RlpStage) (l : List (List Biquad)) : (s.setRlpLines g l).firDn4 = s.firDn4 := by cases g <;> rfl
@[simp] theorem setRlpLines_vib (s : State) (g : RlpStage) (l : List (List Biquad)) : (s.setRlpLines g l).vib = s.vib := by cases g <;> rfl
@[simp] theorem setRlpLines_inputs (s : State) (g : RlpStage) (l : List (List Biquad)) : (s.setRlpLines g l).inputs = s.inputs := by cases g <;> rfl
@[simp] theorem setRlpLines_reply (s : State) (g : RlpStage) (l : List (List Biquad)) : (s.setRlpLines g l).reply = s.reply := by cases g <;> rfl
@[simp] theorem setRlpLines_resets (s : State) (g : RlpStage) (l : List (List Biquad)) : (s.setRlpLines g l).resets = s.resets := by cases g <;> rfl

/-! ### setRlpLine -/

@[simp] theorem setRlpLine_params (s : State) (g : RlpStage) (c : Nat) (l : List Biquad) : (s.setRlpLine g c l).params = s.params := by cases g <;> rfl
@[simp] theorem setRlpLine_pendCmd (s : State) (g : RlpStage) (c : Nat) (l : List Biquad) : (s.setRlpLine g c l).pendCmd = s.pendCmd := by cases g <;> rfl
@[simp] theorem setRlpLine_engPhase (s : State) (g : RlpStage) (c : Nat) (l : List Biquad) : (s.setRlpLine g c l).engPhase = s.engPhase := by cases g <;> rfl
@[simp] theorem setRlpLine_reqSnap (s : State) (g : RlpStage) (c : Nat) (l : List Biquad) : (s.setRlpLine g c l).reqSnap = s.reqSnap := by cases g <;> rfl
@[simp] theorem setRlpLine_done (s : State) (g : RlpStage) (c : Nat) (l : List Biquad) : (s.setRlpLine g c l).done = s.done := by cases g <;> rfl
@[simp] theorem setRlpLine_err (s : State) (g : RlpStage) (c : Nat) (l : List Biquad) : (s.setRlpLine g c l).err = s.err := by cases g <;> rfl
@[simp] theorem setRlpLine_numerr (s : State) (g : RlpStage) (c : Nat) (l : List Biquad) : (s.setRlpLine g c l).numerr = s.numerr := by cases g <;> rfl
@[simp] theorem setRlpLine_latNew (s : State) (g : RlpStage) (c : Nat) (l : List Biquad) : (s.setRlpLine g c l).latNew = s.latNew := by cases g <;> rfl
@[simp] theorem setRlpLine_prepared (s : State) (g : RlpStage) (c : Nat) (l : List Biquad) : (s.setRlpLine g c l).prepared = s.prepared := by cases g <;> rfl
@[simp] theorem setRlpLine_active (s : State) (g : RlpStage) (c : Nat) (l : List Biquad) : (s.setRlpLine g c l).active = s.active := by cases g <;> rfl
@[simp] theorem setRlpLine_prepareReq (s : State) (g : RlpStage) (c : Nat) (l : List Biquad) : (s.setRlpLine g c l).prepareReq = s.prepareReq := by cases g <;> rfl
@[simp] theorem setRlpLine_wmode (s : State) (g : RlpStage) (c : Nat) (l : List Biquad) : (s.setRlpLine g c l).wmode = s.wmode := by cases g <;> rfl
@[simp] theorem setRlpLine_lastTrans (s : State) (g : RlpStage) (c : Nat) (l : List Biquad) : (s.setRlpLine g c l).lastTrans = s.lastTrans := by cases g <;> rfl
@[simp] theorem setRlpLine_errcode (s : State) (g : RlpStage) (c : Nat) (l : List Biquad) : (s.setRlpLine g c l).errcode = s.errcode := by cases g <;> rfl
@[simp] theorem setRlpLine_osReq (s : State) (g : RlpStage) (c : Nat) (l : List Biquad) : (s.setRlpLine g c l).osReq = s.osReq := by cases g <;> rfl
@[simp] theorem setRlpLine_latPub (s : State) (g : RlpStage) (c : Nat) (l : List Biquad) : (s.setRlpLine g c l).latPub = s.latPub := by cases g <;> rfl
@[simp] theorem setRlpLine_osDirty (s : State) (g : RlpStage) (c : Nat) (l : List Biquad) : (s.setRlpLine g c l).osDirty = s.osDirty := by cases g <;> rfl
@[simp] theorem setRlpLine_vibDirty (s : State) (g : RlpStage) (c : Nat) (l : List Biquad) : (s.setRlpLine g c l).vibDirty = s.vibDirty := by cases g <;> rfl
@[simp] theorem setRlpLine_osTotal (s : State) (g : RlpStage) (c : Nat) (l : List Biquad) : (s.setRlpLine g c l).osTotal = s.osTotal := by cases g <;> rfl
@[simp] theorem setRlpLine_vibTotal (s : State) (g : RlpStage) (c : Nat) (l : List Biquad) : (s.setRlpLine g c l).vibTotal = s.vibTotal := by cases g <;> rfl
@[simp] theorem setRlpLine_fsLo (s : State) (g : RlpStage) (c : Nat) (l : List Biquad) : (s.setRlpLine g c l).fsLo = s.fsLo := by cases g <;> rfl
@[simp] theorem setRlpLine_fsHi (s : State) (g : RlpStage) (c : Nat) (l : List Biquad) : (s.setRlpLine g c l).fsHi = s.fsHi := by cases g <;> rfl
@[simp] theorem setRlpLine_blockSize (s : State) (g : RlpStage) (c : Nat) (l : List Biquad) : (s.setRlpLine g c l).blockSize = s.blockSize := by cases g <;> rfl
@[simp] theorem setRlpLine_nchIn (s : State) (g : RlpStage) (c : Nat) (l : List Biquad) : (s.setRlpLine g c l).nchIn = s.nchIn := by cases g <;> rfl
@[simp] theorem setRlpLine_nchOut (s : State) (g : RlpStage) (c : Nat) (l : List Biquad) : (s.setRlpLine g c l).nchOut = s.nchOut := by cases g <;> rfl
@[simp] theorem setRlpLine_upFsLo (s : State) (g : RlpStage) (c : Nat) (l : List Biquad) : (s.setRlpLine g c l).upFsLo = s.upFsLo := by cases g <;> rfl
@[simp] theorem setRlpLine_upFsHi (s : State) (g : RlpStage) (c : Nat) (l : List Biquad) : (s.setRlpLine g c l).upFsHi = s.upFsHi := by cases g <;> rfl
@[simp] theorem setRlpLine_upBlock (s : State) (g : RlpStage) (c : Nat) (l : List Biquad) : (s.setRlpLine g c l).upBlock = s.upBlock := by cases g <;> rfl
@[simp] theorem setRlpLine_fxCtrl (s : State) (g : RlpStage) (c : Nat) (l : List Biquad) : (s.setRlpLine g c l).fxCtrl = s.fxCtrl := by cases g <;> rfl
@[simp] theorem setRlpLine_wfDrive (s : State) (g : RlpStage) (c : Nat) (l : List Biquad) : (s.setRlpLine g c l).wfDrive = s.wfDrive := by cases g <;> rfl
@[simp] theorem setRlpLine_satDrive (s : State) (g : RlpStage) (c : Nat) (l : List Biquad) : (s.setRlpLine g c l).satDrive = s.satDrive := by cases g <;> rfl
@[simp] theorem setRlpLine_vibFreq (s : State) (g : RlpStage) (c : Nat) (l : List Biquad) : (s.setRlpLine g c l).vibFreq = s.vibFreq := by cases g <;> rfl
@[simp] theorem setRlpLine_vibDepth (s : State) (g : RlpStage) (c : Nat) (l : List Biquad) : (s.setRlpLine g c l).vibDepth = s.vibDepth := by cases g <;> rfl
@[simp] theorem setRlpLine_vibLen (s : State) (g : RlpStage) (c : Nat) (l : List Biquad) : (s.setRlpLine g c l).vibLen = s.vibLen := by cases g <;> rfl
@[simp] theorem setRlpLine_vph (s : State) (g : RlpStage) (c : Nat) (l : List Biquad) : (s.setRlpLine g c l).vph = s.vph := by cases g <;> rfl
@[simp] theorem setRlpLine_vibInc (s : State) (g : RlpStage) (c : Nat) (l : List Biquad) : (s.setRlpLine g c l).vibInc = s.vibInc := by cases g <;> rfl
@[simp] theorem setRlpLine_irLenUp4 (s : State) (g : RlpStage) (c : Nat) (l : List Biquad) : (s.setRlpLine g c l).irLenUp4 = s.irLenUp4 := by cases g <;> rfl
@[simp] theorem setRlpLine_irLenDn4 (s : State) (g : RlpStage) (c : Nat) (l : List Biquad) : (s.setRlpLine g c l).irLenDn4 = s.irLenDn4 := by cases g <;> rfl
@[simp] theorem setRlpLine_rlpNsecUp2 (s : State) (g : RlpStage) (c : Nat) (l : List Biquad) : (s.setRlpLine g c l).rlpNsecUp2 = s.rlpNsecUp2 := by cases g <;> rfl
@[simp] theorem setRlpLine_rlpNsecDn2 (s : State) (g : RlpStage) (c : Nat) (l : List Biquad) : (s.setRlpLine g c l).rlpNsecDn2 = s.rlpNsecDn2 := by cases g <;> rfl
@[simp] theorem setRlpLine_rlpLatUp2 (s : State) (g : RlpStage) (c : Nat) (l : List Biquad) : (s.setRlpLine g c l).rlpLatUp2 = s.rlpLatUp2 := by cases g <;> rfl
@[simp] theorem setRlpLine_rlpLatDn2 (s : State) (g : RlpStage) (c : Nat) (l : List Biquad) : (s.setRlpLine g c l).rlpLatDn2 = s.rlpLatDn2 := by cases g <;> rfl
@[simp] theorem setRlpLine_wlen (s : State) (g : RlpStage) (c : Nat) (l : List Biquad) : (s.setRlpLine g c l).wlen = s.wlen := by cases g <;> rfl
@[simp] theorem setRlpLine_wch (s : State) (g : RlpStage) (c : Nat) (l : List Biquad) : (s.setRlpLine g c l).wch = s.wch := by cases g <;> rfl
@[simp] theorem setRlpLine_wn (s : State) (g : RlpStage) (c : Nat) (l : List Biquad) : (s.setRlpLine g c l).wn = s.wn := by cases g <;> rfl
@[simp] theorem setRlpLine_mem (s : State) (g : RlpStage) (c : Nat) (l : List Biquad) : (s.setRlpLine g c l).mem = s.mem := by cases g <;> rfl
@[simp] theorem setRlpLine_firUp4 (s : State) (g : RlpStage) (c : Nat) (l : List Biquad) : (s.setRlpLine g c l).firUp4 = s.firUp4 := by cases g <;> rfl
@[simp] theorem setRlpLine_firDn4 (s : State) (g : RlpStage) (c : Nat) (l : List Biquad) : (s.setRlpLine g c l).firDn4 = s.firDn4 := by cases g <;> rfl
@[simp] theorem setRlpLine_vib (s : State) (g : RlpStage) (c : Nat) (l : List Biquad) : (s.setRlpLine g c l).vib = s.vib := by cases g <;> rfl
@[simp] theorem setRlpLine_inputs (s : State) (g : RlpStage) (c : Nat) (l : List Biquad) : (s.setRlpLine g c l).inputs = s.inputs := by cases g <;> rfl
@[simp] theorem setRlpLine_reply (s : State) (g : RlpStage) (c : Nat) (l : List Biquad) : (s.setRlpLine g c l).reply = s.reply := by cases g <;> rfl
@[simp] theorem setRlpLine_resets (s : State) (g : RlpStage) (c : Nat) (l : List Biquad) : (s.setRlpLine g c l).resets = s.resets := by cases g <;> rfl

/-! ### commitIr -/

@[simp] theorem commitIr_params (s : State) (g : FirStage) (v : Word) : (s.commitIr g v).params = s.params := by cases g <;> rfl
@[simp] theorem commitIr_pendCmd (s : State) (g : FirStage) (v : Word) : (s.commitIr g v).pendCmd = s.pendCmd := by cases g <;> rfl
@[simp] theorem commitIr_engPhase (s : State) (g : FirStage) (v : Word) : (s.commitIr g v).engPhase = s.engPhase := by cases g <;> rfl
@[simp] theorem commitIr_reqSnap (s : State) (g : FirStage) (v : Word) : (s.commitIr g v).reqSnap = s.reqSnap := by cases g <;> rfl
@[simp] theorem commitIr_done (s : State) (g : FirStage) (v : Word) : (s.commitIr g v).done = s.done := by cases g <;> rfl
@[simp] theorem commitIr_err (s : State) (g : FirStage) (v : Word) : (s.commitIr g v).err = s.err := by cases g <;> rfl
@[simp] theorem commitIr_numerr (s : State) (g : FirStage) (v : Word) : (s.commitIr g v).numerr = s.numerr := by cases g <;> rfl
@[simp] theorem commitIr_latNew (s : State) (g : FirStage) (v : Word) : (s.commitIr g v).latNew = s.latNew := by cases g <;> rfl
@[simp] theorem commitIr_prepared (s : State) (g : FirStage) (v : Word) : (s.commitIr g v).prepared = s.prepared := by cases g <;> rfl
@[simp] theorem commitIr_active (s : State) (g : FirStage) (v : Word) : (s.commitIr g v).active = s.active := by cases g <;> rfl
@[simp] theorem commitIr_prepareReq (s : State) (g : FirStage) (v : Word) : (s.commitIr g v).prepareReq = s.prepareReq := by cases g <;> rfl
@[simp] theorem commitIr_wmode (s : State) (g : FirStage) (v : Word) : (s.commitIr g v).wmode = s.wmode := by cases g <;> rfl
@[simp] theorem commitIr_lastTrans (s : State) (g : FirStage) (v : Word) : (s.commitIr g v).lastTrans = s.lastTrans := by cases g <;> rfl
@[simp] theorem commitIr_errcode (s : State) (g : FirStage) (v : Word) : (s.commitIr g v).errcode = s.errcode := by cases g <;> rfl
@[simp] theorem commitIr_osReq (s : State) (g : FirStage) (v : Word) : (s.commitIr g v).osReq = s.osReq := by cases g <;> rfl
@[simp] theorem commitIr_latPub (s : State) (g : FirStage) (v : Word) : (s.commitIr g v).latPub = s.latPub := by cases g <;> rfl
@[simp] theorem commitIr_osDirty (s : State) (g : FirStage) (v : Word) : (s.commitIr g v).osDirty = true := by cases g <;> rfl
@[simp] theorem commitIr_vibDirty (s : State) (g : FirStage) (v : Word) : (s.commitIr g v).vibDirty = s.vibDirty := by cases g <;> rfl
@[simp] theorem commitIr_osTotal (s : State) (g : FirStage) (v : Word) : (s.commitIr g v).osTotal = s.osTotal := by cases g <;> rfl
@[simp] theorem commitIr_vibTotal (s : State) (g : FirStage) (v : Word) : (s.commitIr g v).vibTotal = s.vibTotal := by cases g <;> rfl
@[simp] theorem commitIr_fsLo (s : State) (g : FirStage) (v : Word) : (s.commitIr g v).fsLo = s.fsLo := by cases g <;> rfl
@[simp] theorem commitIr_fsHi (s : State) (g : FirStage) (v : Word) : (s.commitIr g v).fsHi = s.fsHi := by cases g <;> rfl
@[simp] theorem commitIr_blockSize (s : State) (g : FirStage) (v : Word) : (s.commitIr g v).blockSize = s.blockSize := by cases g <;> rfl
@[simp] theorem commitIr_nchIn (s : State) (g : FirStage) (v : Word) : (s.commitIr g v).nchIn = s.nchIn := by cases g <;> rfl
@[simp] theorem commitIr_nchOut (s : State) (g : FirStage) (v : Word) : (s.commitIr g v).nchOut = s.nchOut := by cases g <;> rfl
@[simp] theorem commitIr_upFsLo (s : State) (g : FirStage) (v : Word) : (s.commitIr g v).upFsLo = s.upFsLo := by cases g <;> rfl
@[simp] theorem commitIr_upFsHi (s : State) (g : FirStage) (v : Word) : (s.commitIr g v).upFsHi = s.upFsHi := by cases g <;> rfl
@[simp] theorem commitIr_upBlock (s : State) (g : FirStage) (v : Word) : (s.commitIr g v).upBlock = s.upBlock := by cases g <;> rfl
@[simp] theorem commitIr_fxCtrl (s : State) (g : FirStage) (v : Word) : (s.commitIr g v).fxCtrl = s.fxCtrl := by cases g <;> rfl
@[simp] theorem commitIr_wfDrive (s : State) (g : FirStage) (v : Word) : (s.commitIr g v).wfDrive = s.wfDrive := by cases g <;> rfl
@[simp] theorem commitIr_satDrive (s : State) (g : FirStage) (v : Word) : (s.commitIr g v).satDrive = s.satDrive := by cases g <;> rfl
@[simp] theorem commitIr_vibFreq (s : State) (g : FirStage) (v : Word) : (s.commitIr g v).vibFreq = s.vibFreq := by cases g <;> rfl
@[simp] theorem commitIr_vibDepth (s : State) (g : FirStage) (v : Word) : (s.commitIr g v).vibDepth = s.vibDepth := by cases g <;> rfl
@[simp] theorem commitIr_vibLen (s : State) (g : FirStage) (v : Word) : (s.commitIr g v).vibLen = s.vibLen := by cases g <;> rfl
@[simp] theorem commitIr_vph (s : State) (g : FirStage) (v : Word) : (s.commitIr g v).vph = s.vph := by cases g <;> rfl
@[simp] theorem commitIr_vibInc (s : State) (g : FirStage) (v : Word) : (s.commitIr g v).vibInc = s.vibInc := by cases g <;> rfl
@[simp] theorem commitIr_rlpNsecUp2 (s : State) (g : FirStage) (v : Word) : (s.commitIr g v).rlpNsecUp2 = s.rlpNsecUp2 := by cases g <;> rfl
@[simp] theorem commitIr_rlpNsecDn2 (s : State) (g : FirStage) (v : Word) : (s.commitIr g v).rlpNsecDn2 = s.rlpNsecDn2 := by cases g <;> rfl
@[simp] theorem commitIr_rlpLatUp2 (s : State) (g : FirStage) (v : Word) : (s.commitIr g v).rlpLatUp2 = s.rlpLatUp2 := by cases g <;> rfl
@[simp] theorem commitIr_rlpLatDn2 (s : State) (g : FirStage) (v : Word) : (s.commitIr g v).rlpLatDn2 = s.rlpLatDn2 := by cases g <;> rfl
@[simp] theorem commitIr_wlen (s : State) (g : FirStage) (v : Word) : (s.commitIr g v).wlen = s.wlen := by cases g <;> rfl
@[simp] theorem commitIr_wch (s : State) (g : FirStage) (v : Word) : (s.commitIr g v).wch = s.wch := by cases g <;> rfl
@[simp] theorem commitIr_wn (s : State) (g : FirStage) (v : Word) : (s.commitIr g v).wn = s.wn := by cases g <;> rfl
@[simp] theorem commitIr_mem (s : State) (g : FirStage) (v : Word) : (s.commitIr g v).mem = s.mem := by cases g <;> rfl
@[simp] theorem commitIr_rlpUp2 (s : State) (g : FirStage) (v : Word) : (s.commitIr g v).rlpUp2 = s.rlpUp2 := by cases g <;> rfl
@[simp] theorem commitIr_rlpDn2 (s : State) (g : FirStage) (v : Word) : (s.commitIr g v).rlpDn2 = s.rlpDn2 := by cases g <;> rfl
@[simp] theorem commitIr_vib (s : State) (g : FirStage) (v : Word) : (s.commitIr g v).vib = s.vib := by cases g <;> rfl
@[simp] theorem commitIr_inputs (s : State) (g : FirStage) (v : Word) : (s.commitIr g v).inputs = s.inputs := by cases g <;> rfl
@[simp] theorem commitIr_reply (s : State) (g : FirStage) (v : Word) : (s.commitIr g v).reply = s.reply := by cases g <;> rfl
@[simp] theorem commitIr_resets (s : State) (g : FirStage) (v : Word) : (s.commitIr g v).resets = s.resets := by cases g <;> rfl

/-! ### commitNsec -/

@[simp] theorem commitNsec_params (s : State) (g : RlpStage) (v : Word) : (s.commitNsec g v).params = s.params := by cases g <;> rfl
@[simp] theorem commitNsec_pendCmd (s : State) (g : RlpStage) (v : Word) : (s.commitNsec g v).pendCmd = s.pendCmd := by cases g <;> rfl
@[simp] theorem commitNsec_engPhase (s : State) (g : RlpStage) (v : Word) : (s.commitNsec g v).engPhase = s.engPhase := by cases g <;> rfl
@[simp] theorem commitNsec_reqSnap (s : State) (g : RlpStage) (v : Word) : (s.commitNsec g v).reqSnap = s.reqSnap := by cases g <;> rfl
@[simp] theorem commitNsec_done (s : State) (g : RlpStage) (v : Word) : (s.commitNsec g v).done = s.done := by cases g <;> rfl
@[simp] theorem commitNsec_err (s : State) (g : RlpStage) (v : Word) : (s.commitNsec g v).err = s.err := by cases g <;> rfl
@[simp] theorem commitNsec_numerr (s : State) (g : RlpStage) (v : Word) : (s.commitNsec g v).numerr = s.numerr := by cases g <;> rfl
@[simp] theorem commitNsec_latNew (s : State) (g : RlpStage) (v : Word) : (s.commitNsec g v).latNew = s.latNew := by cases g <;> rfl
@[simp] theorem commitNsec_prepared (s : State) (g : RlpStage) (v : Word) : (s.commitNsec g v).prepared = s.prepared := by cases g <;> rfl
@[simp] theorem commitNsec_active (s : State) (g : RlpStage) (v : Word) : (s.commitNsec g v).active = s.active := by cases g <;> rfl
@[simp] theorem commitNsec_prepareReq (s : State) (g : RlpStage) (v : Word) : (s.commitNsec g v).prepareReq = s.prepareReq := by cases g <;> rfl
@[simp] theorem commitNsec_wmode (s : State) (g : RlpStage) (v : Word) : (s.commitNsec g v).wmode = s.wmode := by cases g <;> rfl
@[simp] theorem commitNsec_lastTrans (s : State) (g : RlpStage) (v : Word) : (s.commitNsec g v).lastTrans = s.lastTrans := by cases g <;> rfl
@[simp] theorem commitNsec_errcode (s : State) (g : RlpStage) (v : Word) : (s.commitNsec g v).errcode = s.errcode := by cases g <;> rfl
@[simp] theorem commitNsec_osReq (s : State) (g : RlpStage) (v : Word) : (s.commitNsec g v).osReq = s.osReq := by cases g <;> rfl
@[simp] theorem commitNsec_latPub (s : State) (g : RlpStage) (v : Word) : (s.commitNsec g v).latPub = s.latPub := by cases g <;> rfl
@[simp] theorem commitNsec_osDirty (s : State) (g : RlpStage) (v : Word) : (s.commitNsec g v).osDirty = s.osDirty := by cases g <;> rfl
@[simp] theorem commitNsec_vibDirty (s : State) (g : RlpStage) (v : Word) : (s.commitNsec g v).vibDirty = s.vibDirty := by cases g <;> rfl
@[simp] theorem commitNsec_osTotal (s : State) (g : RlpStage) (v : Word) : (s.commitNsec g v).osTotal = s.osTotal := by cases g <;> rfl
@[simp] theorem commitNsec_vibTotal (s : State) (g : RlpStage) (v : Word) : (s.commitNsec g v).vibTotal = s.vibTotal := by cases g <;> rfl
@[simp] theorem commitNsec_fsLo (s : State) (g : RlpStage) (v : Word) : (s.commitNsec g v).fsLo = s.fsLo := by cases g <;> rfl
@[simp] theorem commitNsec_fsHi (s : State) (g : RlpStage) (v : Word) : (s.commitNsec g v).fsHi = s.fsHi := by cases g <;> rfl
@[simp] theorem commitNsec_blockSize (s : State) (g : RlpStage) (v : Word) : (s.commitNsec g v).blockSize = s.blockSize := by cases g <;> rfl
@[simp] theorem commitNsec_nchIn (s : State) (g : RlpStage) (v : Word) : (s.commitNsec g v).nchIn = s.nchIn := by cases g <;> rfl
@[simp] theorem commitNsec_nchOut (s : State) (g : RlpStage) (v : Word) : (s.commitNsec g v).nchOut = s.nchOut := by cases g <;> rfl
@[simp] theorem commitNsec_upFsLo (s : State) (g : RlpStage) (v : Word) : (s.commitNsec g v).upFsLo = s.upFsLo := by cases g <;> rfl
@[simp] theorem commitNsec_upFsHi (s : State) (g : RlpStage) (v : Word) : (s.commitNsec g v).upFsHi = s.upFsHi := by cases g <;> rfl
@[simp] theorem commitNsec_upBlock (s : State) (g : RlpStage) (v : Word) : (s.commitNsec g v).upBlock = s.upBlock := by cases g <;> rfl
@[simp] theorem commitNsec_fxCtrl (s : State) (g : RlpStage) (v : Word) : (s.commitNsec g v).fxCtrl = s.fxCtrl := by cases g <;> rfl
@[simp] theorem commitNsec_wfDrive (s : State) (g : RlpStage) (v : Word) : (s.commitNsec g v).wfDrive = s.wfDrive := by cases g <;> rfl
@[simp] theorem commitNsec_satDrive (s : State) (g : RlpStage) (v : Word) : (s.commitNsec g v).satDrive = s.satDrive := by cases g <;> rfl
@[simp] theorem commitNsec_vibFreq (s : State) (g : RlpStage) (v : Word) : (s.commitNsec g v).vibFreq = s.vibFreq := by cases g <;> rfl
@[simp] theorem commitNsec_vibDepth (s : State) (g : RlpStage) (v : Word) : (s.commitNsec g v).vibDepth = s.vibDepth := by cases g <;> rfl
@[simp] theorem commitNsec_vibLen (s : State) (g : RlpStage) (v : Word) : (s.commitNsec g v).vibLen = s.vibLen := by cases g <;> rfl
@[simp] theorem commitNsec_vph (s : State) (g : RlpStage) (v : Word) : (s.commitNsec g v).vph = s.vph := by cases g <;> rfl
@[simp] theorem commitNsec_vibInc (s : State) (g : RlpStage) (v : Word) : (s.commitNsec g v).vibInc = s.vibInc := by cases g <;> rfl
@[simp] theorem commitNsec_irLenUp4 (s : State) (g : RlpStage) (v : Word) : (s.commitNsec g v).irLenUp4 = s.irLenUp4 := by cases g <;> rfl
@[simp] theorem commitNsec_irLenDn4 (s : State) (g : RlpStage) (v : Word) : (s.commitNsec g v).irLenDn4 = s.irLenDn4 := by cases g <;> rfl
@[simp] theorem commitNsec_rlpLatUp2 (s : State) (g : RlpStage) (v : Word) : (s.commitNsec g v).rlpLatUp2 = s.rlpLatUp2 := by cases g <;> rfl
@[simp] theorem commitNsec_rlpLatDn2 (s : State) (g : RlpStage) (v : Word) : (s.commitNsec g v).rlpLatDn2 = s.rlpLatDn2 := by cases g <;> rfl
@[simp] theorem commitNsec_wlen (s : State) (g : RlpStage) (v : Word) : (s.commitNsec g v).wlen = s.wlen := by cases g <;> rfl
@[simp] theorem commitNsec_wch (s : State) (g : RlpStage) (v : Word) : (s.commitNsec g v).wch = s.wch := by cases g <;> rfl
@[simp] theorem commitNsec_wn (s : State) (g : RlpStage) (v : Word) : (s.commitNsec g v).wn = s.wn := by cases g <;> rfl
@[simp] theorem commitNsec_mem (s : State) (g : RlpStage) (v : Word) : (s.commitNsec g v).mem = s.mem := by cases g <;> rfl
@[simp] theorem commitNsec_firUp4 (s : State) (g : RlpStage) (v : Word) : (s.commitNsec g v).firUp4 = s.firUp4 := by cases g <;> rfl
@[simp] theorem commitNsec_firDn4 (s : State) (g : RlpStage) (v : Word) : (s.commitNsec g v).firDn4 = s.firDn4 := by cases g <;> rfl
@[simp] theorem commitNsec_vib (s : State) (g : RlpStage) (v : Word) : (s.commitNsec g v).vib = s.vib := by cases g <;> rfl
@[simp] theorem commitNsec_inputs (s : State) (g : RlpStage) (v : Word) : (s.commitNsec g v).inputs = s.inputs := by cases g <;> rfl
@[simp] theorem commitNsec_reply (s : State) (g : RlpStage) (v : Word) : (s.commitNsec g v).reply = s.reply := by cases g <;> rfl
@[simp] theorem commitNsec_resets (s : State) (g : RlpStage) (v : Word) : (s.commitNsec g v).resets = s.resets := by cases g <;> rfl

/-! ### zeroFilters -/

@[simp] theorem zeroFilters_params (s : State) : s.zeroFilters.params = s.params := rfl
@[simp] theorem zeroFilters_pendCmd (s : State) : s.zeroFilters.pendCmd = s.pendCmd := rfl
@[simp] theorem zeroFilters_engPhase (s : State) : s.zeroFilters.engPhase = s.engPhase := rfl
@[simp] theorem zeroFilters_reqSnap (s : State) : s.zeroFilters.reqSnap = s.reqSnap := rfl
@[simp] theorem zeroFilters_done (s : State) : s.zeroFilters.done = s.done := rfl
@[simp] theorem zeroFilters_err (s : State) : s.zeroFilters.err = s.err := rfl
@[simp] theorem zeroFilters_numerr (s : State) : s.zeroFilters.numerr = s.numerr := rfl
@[simp] theorem zeroFilters_latNew (s : State) : s.zeroFilters.latNew = s.latNew := rfl
@[simp] theorem zeroFilters_prepared (s : State) : s.zeroFilters.prepared = s.prepared := rfl
@[simp] theorem zeroFilters_active (s : State) : s.zeroFilters.active = s.active := rfl
@[simp] theorem zeroFilters_prepareReq (s : State) : s.zeroFilters.prepareReq = s.prepareReq := rfl
@[simp] theorem zeroFilters_wmode (s : State) : s.zeroFilters.wmode = s.wmode := rfl
@[simp] theorem zeroFilters_lastTrans (s : State) : s.zeroFilters.lastTrans = s.lastTrans := rfl
@[simp] theorem zeroFilters_errcode (s : State) : s.zeroFilters.errcode = s.errcode := rfl
@[simp] theorem zeroFilters_osReq (s : State) : s.zeroFilters.osReq = s.osReq := rfl
@[simp] theorem zeroFilters_latPub (s : State) : s.zeroFilters.latPub = s.latPub := rfl
@[simp] theorem zeroFilters_osDirty (s : State) : s.zeroFilters.osDirty = s.osDirty := rfl
@[simp] theorem zeroFilters_vibDirty (s : State) : s.zeroFilters.vibDirty = s.vibDirty := rfl
@[simp] theorem zeroFilters_osTotal (s : State) : s.zeroFilters.osTotal = s.osTotal := rfl
@[simp] theorem zeroFilters_vibTotal (s : State) : s.zeroFilters.vibTotal = s.vibTotal := rfl
@[simp] theorem zeroFilters_fsLo (s : State) : s.zeroFilters.fsLo = s.fsLo := rfl
@[simp] theorem zeroFilters_fsHi (s : State) : s.zeroFilters.fsHi = s.fsHi := rfl
@[simp] theorem zeroFilters_blockSize (s : State) : s.zeroFilters.blockSize = s.blockSize := rfl
@[simp] theorem zeroFilters_nchIn (s : State) : s.zeroFilters.nchIn = s.nchIn := rfl
@[simp] theorem zeroFilters_nchOut (s : State) : s.zeroFilters.nchOut = s.nchOut := rfl
@[simp] theorem zeroFilters_upFsLo (s : State) : s.zeroFilters.upFsLo = s.upFsLo := rfl
@[simp] theorem zeroFilters_upFsHi (s : State) : s.zeroFilters.upFsHi = s.upFsHi := rfl
@[simp] theorem zeroFilters_upBlock (s : State) : s.zeroFilters.upBlock = s.upBlock := rfl
@[simp] theorem zeroFilters_fxCtrl (s : State) : s.zeroFilters.fxCtrl = s.fxCtrl := rfl
@[simp] theorem zeroFilters_wfDrive (s : State) : s.zeroFilters.wfDrive = s.wfDrive := rfl
@[simp] theorem zeroFilters_satDrive (s : State) : s.zeroFilters.satDrive = s.satDrive := rfl
@[simp] theorem zeroFilters_vibFreq (s : State) : s.zeroFilters.vibFreq = s.vibFreq := rfl
@[simp] theorem zeroFilters_vibDepth (s : State) : s.zeroFilters.vibDepth = s.vibDepth := rfl
@[simp] theorem zeroFilters_vibLen (s : State) : s.zeroFilters.vibLen = s.vibLen := rfl
@[simp] theorem zeroFilters_vph (s : State) : s.zeroFilters.vph = 0#32 := rfl
@[simp] theorem zeroFilters_vibInc (s : State) : s.zeroFilters.vibInc = s.vibInc := rfl
@[simp] theorem zeroFilters_irLenUp4 (s : State) : s.zeroFilters.irLenUp4 = s.irLenUp4 := rfl
@[simp] theorem zeroFilters_irLenDn4 (s : State) : s.zeroFilters.irLenDn4 = s.irLenDn4 := rfl
@[simp] theorem zeroFilters_rlpNsecUp2 (s : State) : s.zeroFilters.rlpNsecUp2 = s.rlpNsecUp2 := rfl
@[simp] theorem zeroFilters_rlpNsecDn2 (s : State) : s.zeroFilters.rlpNsecDn2 = s.rlpNsecDn2 := rfl
@[simp] theorem zeroFilters_rlpLatUp2 (s : State) : s.zeroFilters.rlpLatUp2 = s.rlpLatUp2 := rfl
@[simp] theorem zeroFilters_rlpLatDn2 (s : State) : s.zeroFilters.rlpLatDn2 = s.rlpLatDn2 := rfl
@[simp] theorem zeroFilters_wlen (s : State) : s.zeroFilters.wlen = s.wlen := rfl
@[simp] theorem zeroFilters_wch (s : State) : s.zeroFilters.wch = s.wch := rfl
@[simp] theorem zeroFilters_wn (s : State) : s.zeroFilters.wn = s.wn := rfl
@[simp] theorem zeroFilters_mem (s : State) : s.zeroFilters.mem = s.mem := rfl
@[simp] theorem zeroFilters_firUp4 (s : State) : s.zeroFilters.firUp4 = zeroFir s.params := rfl
@[simp] theorem zeroFilters_firDn4 (s : State) : s.zeroFilters.firDn4 = zeroFir s.params := rfl
@[simp] theorem zeroFilters_rlpUp2 (s : State) : s.zeroFilters.rlpUp2 = zeroRlp s.params := rfl
@[simp] theorem zeroFilters_rlpDn2 (s : State) : s.zeroFilters.rlpDn2 = zeroRlp s.params := rfl
@[simp] theorem zeroFilters_vib (s : State) : s.zeroFilters.vib = emptyVib s.params := rfl
@[simp] theorem zeroFilters_inputs (s : State) : s.zeroFilters.inputs = s.inputs := rfl
@[simp] theorem zeroFilters_reply (s : State) : s.zeroFilters.reply = s.reply := rfl
@[simp] theorem zeroFilters_resets (s : State) : s.zeroFilters.resets = s.resets := rfl

/-! ### applyPrepare -/

@[simp] theorem applyPrepare_params (s : State) (r : Rates) : (s.applyPrepare r).params = s.params := rfl
@[simp] theorem applyPrepare_pendCmd (s : State) (r : Rates) : (s.applyPrepare r).pendCmd = s.pendCmd := rfl
@[simp] theorem applyPrepare_engPhase (s : State) (r : Rates) : (s.applyPrepare r).engPhase = s.engPhase := rfl
@[simp] theorem applyPrepare_reqSnap (s : State) (r : Rates) : (s.applyPrepare r).reqSnap = s.reqSnap := rfl
@[simp] theorem applyPrepare_done (s : State) (r : Rates) : (s.applyPrepare r).done = s.done := rfl
@[simp] theorem applyPrepare_err (s : State) (r : Rates) : (s.applyPrepare r).err = s.err := rfl
@[simp] theorem applyPrepare_numerr (s : State) (r : Rates) : (s.applyPrepare r).numerr = s.numerr := rfl
@[simp] theorem applyPrepare_latNew (s : State) (r : Rates) : (s.applyPrepare r).latNew = s.latNew := rfl
@[simp] theorem applyPrepare_prepared (s : State) (r : Rates) : (s.applyPrepare r).prepared = true := rfl
@[simp] theorem applyPrepare_active (s : State) (r : Rates) : (s.applyPrepare r).active = s.active := rfl
@[simp] theorem applyPrepare_prepareReq (s : State) (r : Rates) : (s.applyPrepare r).prepareReq = false := rfl
@[simp] theorem applyPrepare_wmode (s : State) (r : Rates) : (s.applyPrepare r).wmode = .none := rfl
@[simp] theorem applyPrepare_lastTrans (s : State) (r : Rates) : (s.applyPrepare r).lastTrans = false := rfl
@[simp] theorem applyPrepare_errcode (s : State) (r : Rates) : (s.applyPrepare r).errcode = s.errcode := rfl
@[simp] theorem applyPrepare_osReq (s : State) (r : Rates) : (s.applyPrepare r).osReq = s.osReq := rfl
@[simp] theorem applyPrepare_latPub (s : State) (r : Rates) : (s.applyPrepare r).latPub = s.latPub := rfl
@[simp] theorem applyPrepare_osDirty (s : State) (r : Rates) : (s.applyPrepare r).osDirty = true := rfl
@[simp] theorem applyPrepare_vibDirty (s : State) (r : Rates) : (s.applyPrepare r).vibDirty = true := rfl
@[simp] theorem applyPrepare_osTotal (s : State) (r : Rates) : (s.applyPrepare r).osTotal = s.osTotal := rfl
@[simp] theorem applyPrepare_vibTotal (s : State) (r : Rates) : (s.applyPrepare r).vibTotal = s.vibTotal := rfl
@[simp] theorem applyPrepare_fsLo (s : State) (r : Rates) : (s.applyPrepare r).fsLo = s.fsLo := rfl
@[simp] theorem applyPrepare_fsHi (s : State) (r : Rates) : (s.applyPrepare r).fsHi = s.fsHi := rfl
@[simp] theorem applyPrepare_blockSize (s : State) (r : Rates) : (s.applyPrepare r).blockSize = s.blockSize := rfl
@[simp] theorem applyPrepare_nchIn (s : State) (r : Rates) : (s.applyPrepare r).nchIn = s.nchIn := rfl
@[simp] theorem applyPrepare_nchOut (s : State) (r : Rates) : (s.applyPrepare r).nchOut = s.nchOut := rfl
@[simp] theorem applyPrepare_upFsLo (s : State) (r : Rates) : (s.applyPrepare r).upFsLo = loWord (pack64 r.ufs) := rfl
@[simp] theorem applyPrepare_upFsHi (s : State) (r : Rates) : (s.applyPrepare r).upFsHi = hiWord (pack64 r.ufs) := rfl
@[simp] theorem applyPrepare_upBlock (s : State) (r : Rates) : (s.applyPrepare r).upBlock = BitVec.ofNat 16 r.upBlock := rfl
@[simp] theorem applyPrepare_fxCtrl (s : State) (r : Rates) : (s.applyPrepare r).fxCtrl = s.fxCtrl := rfl
@[simp] theorem applyPrepare_wfDrive (s : State) (r : Rates) : (s.applyPrepare r).wfDrive = s.wfDrive := rfl
@[simp] theorem applyPrepare_satDrive (s : State) (r : Rates) : (s.applyPrepare r).satDrive = s.satDrive := rfl
@[simp] theorem applyPrepare_vibFreq (s : State) (r : Rates) : (s.applyPrepare r).vibFreq = s.vibFreq := rfl
@[simp] theorem applyPrepare_vibDepth (s : State) (r : Rates) : (s.applyPrepare r).vibDepth = s.vibDepth := rfl
@[simp] theorem applyPrepare_vibLen (s : State) (r : Rates) : (s.applyPrepare r).vibLen = BitVec.ofNat 16 r.vibLen := rfl
@[simp] theorem applyPrepare_vph (s : State) (r : Rates) : (s.applyPrepare r).vph = 0#32 := rfl
@[simp] theorem applyPrepare_vibInc (s : State) (r : Rates) : (s.applyPrepare r).vibInc = s.vibInc := rfl
@[simp] theorem applyPrepare_irLenUp4 (s : State) (r : Rates) : (s.applyPrepare r).irLenUp4 = s.irLenUp4 := rfl
@[simp] theorem applyPrepare_irLenDn4 (s : State) (r : Rates) : (s.applyPrepare r).irLenDn4 = s.irLenDn4 := rfl
@[simp] theorem applyPrepare_rlpNsecUp2 (s : State) (r : Rates) : (s.applyPrepare r).rlpNsecUp2 = s.rlpNsecUp2 := rfl
@[simp] theorem applyPrepare_rlpNsecDn2 (s : State) (r : Rates) : (s.applyPrepare r).rlpNsecDn2 = s.rlpNsecDn2 := rfl
@[simp] theorem applyPrepare_rlpLatUp2 (s : State) (r : Rates) : (s.applyPrepare r).rlpLatUp2 = s.rlpLatUp2 := rfl
@[simp] theorem applyPrepare_rlpLatDn2 (s : State) (r : Rates) : (s.applyPrepare r).rlpLatDn2 = s.rlpLatDn2 := rfl
@[simp] theorem applyPrepare_wlen (s : State) (r : Rates) : (s.applyPrepare r).wlen = 0#32 := rfl
@[simp] theorem applyPrepare_wch (s : State) (r : Rates) : (s.applyPrepare r).wch = 0#32 := rfl
@[simp] theorem applyPrepare_wn (s : State) (r : Rates) : (s.applyPrepare r).wn = 0#32 := rfl
@[simp] theorem applyPrepare_mem (s : State) (r : Rates) : (s.applyPrepare r).mem = s.mem := rfl
@[simp] theorem applyPrepare_firUp4 (s : State) (r : Rates) : (s.applyPrepare r).firUp4 = zeroFir s.params := rfl
@[simp] theorem applyPrepare_firDn4 (s : State) (r : Rates) : (s.applyPrepare r).firDn4 = zeroFir s.params := rfl
@[simp] theorem applyPrepare_rlpUp2 (s : State) (r : Rates) : (s.applyPrepare r).rlpUp2 = zeroRlp s.params := rfl
@[simp] theorem applyPrepare_rlpDn2 (s : State) (r : Rates) : (s.applyPrepare r).rlpDn2 = zeroRlp s.params := rfl
@[simp] theorem applyPrepare_vib (s : State) (r : Rates) : (s.applyPrepare r).vib = emptyVib s.params := rfl
@[simp] theorem applyPrepare_inputs (s : State) (r : Rates) : (s.applyPrepare r).inputs = s.inputs := rfl
@[simp] theorem applyPrepare_reply (s : State) (r : Rates) : (s.applyPrepare r).reply = s.reply := rfl
@[simp] theorem applyPrepare_resets (s : State) (r : Rates) : (s.applyPrepare r).resets = s.resets := rfl

/-! ### applyToggle -/

@[simp] theorem applyToggle_params (s : State) : s.applyToggle.params = s.params := by unfold State.applyToggle; split <;> (try split) <;> rfl
@[simp] theorem applyToggle_pendCmd (s : State) : s.applyToggle.pendCmd = s.pendCmd := by unfold State.applyToggle; split <;> (try split) <;> rfl
@[simp] theorem applyToggle_engPhase (s : State) : s.applyToggle.engPhase = s.engPhase := by unfold State.applyToggle; split <;> (try split) <;> rfl
@[simp] theorem applyToggle_reqSnap (s : State) : s.applyToggle.reqSnap = s.reqSnap := by unfold State.applyToggle; split <;> (try split) <;> rfl
@[simp] theorem applyToggle_done (s : State) : s.applyToggle.done = s.done := by unfold State.applyToggle; split <;> (try split) <;> rfl
@[simp] theorem applyToggle_err (s : State) : s.applyToggle.err = s.err := by unfold State.applyToggle; split <;> (try split) <;> rfl
@[simp] theorem applyToggle_numerr (s : State) : s.applyToggle.numerr = s.numerr := by unfold State.applyToggle; split <;> (try split) <;> rfl
@[simp] theorem applyToggle_latNew (s : State) : s.applyToggle.latNew = s.latNew := by unfold State.applyToggle; split <;> (try split) <;> rfl
@[simp] theorem applyToggle_prepared (s : State) : s.applyToggle.prepared = s.prepared := by unfold State.applyToggle; split <;> (try split) <;> rfl
@[simp] theorem applyToggle_wmode (s : State) : s.applyToggle.wmode = s.wmode := by unfold State.applyToggle; split <;> (try split) <;> rfl
@[simp] theorem applyToggle_lastTrans (s : State) : s.applyToggle.lastTrans = s.transitional := by
  unfold State.applyToggle State.transitional; cases s.prepareReq <;> cases s.reqSnap <;> cases s.active <;> rfl
@[simp] theorem applyToggle_errcode (s : State) : s.applyToggle.errcode = s.errcode := by unfold State.applyToggle; split <;> (try split) <;> rfl
@[simp] theorem applyToggle_osReq (s : State) : s.applyToggle.osReq = s.osReq := by unfold State.applyToggle; split <;> (try split) <;> rfl
@[simp] theorem applyToggle_latPub (s : State) : s.applyToggle.latPub = s.latPub := by unfold State.applyToggle; split <;> (try split) <;> rfl
@[simp] theorem applyToggle_vibDirty (s : State) : s.applyToggle.vibDirty = s.vibDirty := by unfold State.applyToggle; split <;> (try split) <;> rfl
@[simp] theorem applyToggle_osTotal (s : State) : s.applyToggle.osTotal = s.osTotal := by unfold State.applyToggle; split <;> (try split) <;> rfl
@[simp] theorem applyToggle_vibTotal (s : State) : s.applyToggle.vibTotal = s.vibTotal := by unfold State.applyToggle; split <;> (try split) <;> rfl
@[simp] theorem applyToggle_fsLo (s : State) : s.applyToggle.fsLo = s.fsLo := by unfold State.applyToggle; split <;> (try split) <;> rfl
@[simp] theorem applyToggle_fsHi (s : State) : s.applyToggle.fsHi = s.fsHi := by unfold State.applyToggle; split <;> (try split) <;> rfl
@[simp] theorem applyToggle_blockSize (s : State) : s.applyToggle.blockSize = s.blockSize := by unfold State.applyToggle; split <;> (try split) <;> rfl
@[simp] theorem applyToggle_nchIn (s : State) : s.applyToggle.nchIn = s.nchIn := by unfold State.applyToggle; split <;> (try split) <;> rfl
@[simp] theorem applyToggle_nchOut (s : State) : s.applyToggle.nchOut = s.nchOut := by unfold State.applyToggle; split <;> (try split) <;> rfl
@[simp] theorem applyToggle_upFsLo (s : State) : s.applyToggle.upFsLo = s.upFsLo := by unfold State.applyToggle; split <;> (try split) <;> rfl
@[simp] theorem applyToggle_upFsHi (s : State) : s.applyToggle.upFsHi = s.upFsHi := by unfold State.applyToggle; split <;> (try split) <;> rfl
@[simp] theorem applyToggle_upBlock (s : State) : s.applyToggle.upBlock = s.upBlock := by unfold State.applyToggle; split <;> (try split) <;> rfl
@[simp] theorem applyToggle_fxCtrl (s : State) : s.applyToggle.fxCtrl = s.fxCtrl := by unfold State.applyToggle; split <;> (try split) <;> rfl
@[simp] theorem applyToggle_wfDrive (s : State) : s.applyToggle.wfDrive = s.wfDrive := by unfold State.applyToggle; split <;> (try split) <;> rfl
@[simp] theorem applyToggle_satDrive (s : State) : s.applyToggle.satDrive = s.satDrive := by unfold State.applyToggle; split <;> (try split) <;> rfl
@[simp] theorem applyToggle_vibFreq (s : State) : s.applyToggle.vibFreq = s.vibFreq := by unfold State.applyToggle; split <;> (try split) <;> rfl
@[simp] theorem applyToggle_vibDepth (s : State) : s.applyToggle.vibDepth = s.vibDepth := by unfold State.applyToggle; split <;> (try split) <;> rfl
@[simp] theorem applyToggle_vibLen (s : State) : s.applyToggle.vibLen = s.vibLen := by unfold State.applyToggle; split <;> (try split) <;> rfl
@[simp] theorem applyToggle_vph (s : State) : s.applyToggle.vph = s.vph := by unfold State.applyToggle; split <;> (try split) <;> rfl
@[simp] theorem applyToggle_vibInc (s : State) : s.applyToggle.vibInc = s.vibInc := by unfold State.applyToggle; split <;> (try split) <;> rfl
@[simp] theorem applyToggle_irLenUp4 (s : State) : s.applyToggle.irLenUp4 = s.irLenUp4 := by unfold State.applyToggle; split <;> (try split) <;> rfl
@[simp] theorem applyToggle_irLenDn4 (s : State) : s.applyToggle.irLenDn4 = s.irLenDn4 := by unfold State.applyToggle; split <;> (try split) <;> rfl
@[simp] theorem applyToggle_rlpNsecUp2 (s : State) : s.applyToggle.rlpNsecUp2 = s.rlpNsecUp2 := by unfold State.applyToggle; split <;> (try split) <;> rfl
@[simp] theorem applyToggle_rlpNsecDn2 (s : State) : s.applyToggle.rlpNsecDn2 = s.rlpNsecDn2 := by unfold State.applyToggle; split <;> (try split) <;> rfl
@[simp] theorem applyToggle_rlpLatUp2 (s : State) : s.applyToggle.rlpLatUp2 = s.rlpLatUp2 := by unfold State.applyToggle; split <;> (try split) <;> rfl
@[simp] theorem applyToggle_rlpLatDn2 (s : State) : s.applyToggle.rlpLatDn2 = s.rlpLatDn2 := by unfold State.applyToggle; split <;> (try split) <;> rfl
@[simp] theorem applyToggle_wlen (s : State) : s.applyToggle.wlen = s.wlen := by unfold State.applyToggle; split <;> (try split) <;> rfl
@[simp] theorem applyToggle_wch (s : State) : s.applyToggle.wch = s.wch := by unfold State.applyToggle; split <;> (try split) <;> rfl
@[simp] theorem applyToggle_wn (s : State) : s.applyToggle.wn = s.wn := by unfold State.applyToggle; split <;> (try split) <;> rfl
@[simp] theorem applyToggle_mem (s : State) : s.applyToggle.mem = s.mem := by unfold State.applyToggle; split <;> (try split) <;> rfl
@[simp] theorem applyToggle_firUp4 (s : State) : s.applyToggle.firUp4 = s.firUp4 := by unfold State.applyToggle; split <;> (try split) <;> rfl
@[simp] theorem applyToggle_firDn4 (s : State) : s.applyToggle.firDn4 = s.firDn4 := by unfold State.applyToggle; split <;> (try split) <;> rfl
@[simp] theorem applyToggle_rlpUp2 (s : State) : s.applyToggle.rlpUp2 = s.rlpUp2 := by unfold State.applyToggle; split <;> (try split) <;> rfl
@[simp] theorem applyToggle_rlpDn2 (s : State) : s.applyToggle.rlpDn2 = s.rlpDn2 := by unfold State.applyToggle; split <;> (try split) <;> rfl
@[simp] theorem applyToggle_vib (s : State) : s.applyToggle.vib = s.vib := by unfold State.applyToggle; split <;> (try split) <;> rfl
@[simp] theorem applyToggle_inputs (s : State) : s.applyToggle.inputs = s.inputs := by unfold State.applyToggle; split <;> (try split) <;> rfl
@[simp] theorem applyToggle_reply (s : State) : s.applyToggle.reply = s.reply := by unfold State.applyToggle; split <;> (try split) <;> rfl
@[simp] theorem applyToggle_resets (s : State) : s.applyToggle.resets = s.resets := by unfold State.applyToggle; split <;> (try split) <;> rfl

/-! ### setScrChannels -/

@[simp] theorem setScrChannels_params (s : State) (chans : List (List Word)) : (s.setScrChannels chans).params = s.params := by rw [setScrChannels_eq]
@[simp] theorem setScrChannels_pendCmd (s : State) (chans : List (List Word)) : (s.setScrChannels chans).pendCmd = s.pendCmd := by rw [setScrChannels_eq]
@[simp] theorem setScrChannels_engPhase (s : State) (chans : List (List Word)) : (s.setScrChannels chans).engPhase = s.engPhase := by rw [setScrChannels_eq]
@[simp] theorem setScrChannels_reqSnap (s : State) (chans : List (List Word)) : (s.setScrChannels chans).reqSnap = s.reqSnap := by rw [setScrChannels_eq]
@[simp] theorem setScrChannels_done (s : State) (chans : List (List Word)) : (s.setScrChannels chans).done = s.done := by rw [setScrChannels_eq]
@[simp] theorem setScrChannels_err (s : State) (chans : List (List Word)) : (s.setScrChannels chans).err = s.err := by rw [setScrChannels_eq]
@[simp] theorem setScrChannels_numerr (s : State) (chans : List (List Word)) : (s.setScrChannels chans).numerr = s.numerr := by rw [setScrChannels_eq]
@[simp] theorem setScrChannels_latNew (s : State) (chans : List (List Word)) : (s.setScrChannels chans).latNew = s.latNew := by rw [setScrChannels_eq]
@[simp] theorem setScrChannels_prepared (s : State) (chans : List (List Word)) : (s.setScrChannels chans).prepared = s.prepared := by rw [setScrChannels_eq]
@[simp] theorem setScrChannels_active (s : State) (chans : List (List Word)) : (s.setScrChannels chans).active = s.active := by rw [setScrChannels_eq]
@[simp] theorem setScrChannels_prepareReq (s : State) (chans : List (List Word)) : (s.setScrChannels chans).prepareReq = s.prepareReq := by rw [setScrChannels_eq]
@[simp] theorem setScrChannels_wmode (s : State) (chans : List (List Word)) : (s.setScrChannels chans).wmode = s.wmode := by rw [setScrChannels_eq]
@[simp] theorem setScrChannels_lastTrans (s : State) (chans : List (List Word)) : (s.setScrChannels chans).lastTrans = s.lastTrans := by rw [setScrChannels_eq]
@[simp] theorem setScrChannels_errcode (s : State) (chans : List (List Word)) : (s.setScrChannels chans).errcode = s.errcode := by rw [setScrChannels_eq]
@[simp] theorem setScrChannels_osReq (s : State) (chans : List (List Word)) : (s.setScrChannels chans).osReq = s.osReq := by rw [setScrChannels_eq]
@[simp] theorem setScrChannels_latPub (s : State) (chans : List (List Word)) : (s.setScrChannels chans).latPub = s.latPub := by rw [setScrChannels_eq]
@[simp] theorem setScrChannels_osDirty (s : State) (chans : List (List Word)) : (s.setScrChannels chans).osDirty = s.osDirty := by rw [setScrChannels_eq]
@[simp] theorem setScrChannels_vibDirty (s : State) (chans : List (List Word)) : (s.setScrChannels chans).vibDirty = s.vibDirty := by rw [setScrChannels_eq]
@[simp] theorem setScrChannels_osTotal (s : State) (chans : List (List Word)) : (s.setScrChannels chans).osTotal = s.osTotal := by rw [setScrChannels_eq]
@[simp] theorem setScrChannels_vibTotal (s : State) (chans : List (List Word)) : (s.setScrChannels chans).vibTotal = s.vibTotal := by rw [setScrChannels_eq]
@[simp] theorem setScrChannels_fsLo (s : State) (chans : List (List Word)) : (s.setScrChannels chans).fsLo = s.fsLo := by rw [setScrChannels_eq]
@[simp] theorem setScrChannels_fsHi (s : State) (chans : List (List Word)) : (s.setScrChannels chans).fsHi = s.fsHi := by rw [setScrChannels_eq]
@[simp] theorem setScrChannels_blockSize (s : State) (chans : List (List Word)) : (s.setScrChannels chans).blockSize = s.blockSize := by rw [setScrChannels_eq]
@[simp] theorem setScrChannels_nchIn (s : State) (chans : List (List Word)) : (s.setScrChannels chans).nchIn = s.nchIn := by rw [setScrChannels_eq]
@[simp] theorem setScrChannels_nchOut (s : State) (chans : List (List Word)) : (s.setScrChannels chans).nchOut = s.nchOut := by rw [setScrChannels_eq]
@[simp] theorem setScrChannels_upFsLo (s : State) (chans : List (List Word)) : (s.setScrChannels chans).upFsLo = s.upFsLo := by rw [setScrChannels_eq]
@[simp] theorem setScrChannels_upFsHi (s : State) (chans : List (List Word)) : (s.setScrChannels chans).upFsHi = s.upFsHi := by rw [setScrChannels_eq]
@[simp] theorem setScrChannels_upBlock (s : State) (chans : List (List Word)) : (s.setScrChannels chans).upBlock = s.upBlock := by rw [setScrChannels_eq]
@[simp] theorem setScrChannels_fxCtrl (s : State) (chans : List (List Word)) : (s.setScrChannels chans).fxCtrl = s.fxCtrl := by rw [setScrChannels_eq]
@[simp] theorem setScrChannels_wfDrive (s : State) (chans : List (List Word)) : (s.setScrChannels chans).wfDrive = s.wfDrive := by rw [setScrChannels_eq]
@[simp] theorem setScrChannels_satDrive (s : State) (chans : List (List Word)) : (s.setScrChannels chans).satDrive = s.satDrive := by rw [setScrChannels_eq]
@[simp] theorem setScrChannels_vibFreq (s : State) (chans : List (List Word)) : (s.setScrChannels chans).vibFreq = s.vibFreq := by rw [setScrChannels_eq]
@[simp] theorem setScrChannels_vibDepth (s : State) (chans : List (List Word)) : (s.setScrChannels chans).vibDepth = s.vibDepth := by rw [setScrChannels_eq]
@[simp] theorem setScrChannels_vibLen (s : State) (chans : List (List Word)) : (s.setScrChannels chans).vibLen = s.vibLen := by rw [setScrChannels_eq]
@[simp] theorem setScrChannels_vph (s : State) (chans : List (List Word)) : (s.setScrChannels chans).vph = s.vph := by rw [setScrChannels_eq]
@[simp] theorem setScrChannels_vibInc (s : State) (chans : List (List Word)) : (s.setScrChannels chans).vibInc = s.vibInc := by rw [setScrChannels_eq]
@[simp] theorem setScrChannels_irLenUp4 (s : State) (chans : List (List Word)) : (s.setScrChannels chans).irLenUp4 = s.irLenUp4 := by rw [setScrChannels_eq]
@[simp] theorem setScrChannels_irLenDn4 (s : State) (chans : List (List Word)) : (s.setScrChannels chans).irLenDn4 = s.irLenDn4 := by rw [setScrChannels_eq]
@[simp] theorem setScrChannels_rlpNsecUp2 (s : State) (chans : List (List Word)) : (s.setScrChannels chans).rlpNsecUp2 = s.rlpNsecUp2 := by rw [setScrChannels_eq]
@[simp] theorem setScrChannels_rlpNsecDn2 (s : State) (chans : List (List Word)) : (s.setScrChannels chans).rlpNsecDn2 = s.rlpNsecDn2 := by rw [setScrChannels_eq]
@[simp] theorem setScrChannels_rlpLatUp2 (s : State) (chans : List (List Word)) : (s.setScrChannels chans).rlpLatUp2 = s.rlpLatUp2 := by rw [setScrChannels_eq]
@[simp] theorem setScrChannels_rlpLatDn2 (s : State) (chans : List (List Word)) : (s.setScrChannels chans).rlpLatDn2 = s.rlpLatDn2 := by rw [setScrChannels_eq]
@[simp] theorem setScrChannels_wlen (s : State) (chans : List (List Word)) : (s.setScrChannels chans).wlen = s.wlen := by rw [setScrChannels_eq]
@[simp] theorem setScrChannels_wch (s : State) (chans : List (List Word)) : (s.setScrChannels chans).wch = s.wch := by rw [setScrChannels_eq]
@[simp] theorem setScrChannels_wn (s : State) (chans : List (List Word)) : (s.setScrChannels chans).wn = s.wn := by rw [setScrChannels_eq]
@[simp] theorem setScrChannels_firUp4 (s : State) (chans : List (List Word)) : (s.setScrChannels chans).firUp4 = s.firUp4 := by rw [setScrChannels_eq]
@[simp] theorem setScrChannels_firDn4 (s : State) (chans : List (List Word)) : (s.setScrChannels chans).firDn4 = s.firDn4 := by rw [setScrChannels_eq]
@[simp] theorem setScrChannels_rlpUp2 (s : State) (chans : List (List Word)) : (s.setScrChannels chans).rlpUp2 = s.rlpUp2 := by rw [setScrChannels_eq]
@[simp] theorem setScrChannels_rlpDn2 (s : State) (chans : List (List Word)) : (s.setScrChannels chans).rlpDn2 = s.rlpDn2 := by rw [setScrChannels_eq]
@[simp] theorem setScrChannels_vib (s : State) (chans : List (List Word)) : (s.setScrChannels chans).vib = s.vib := by rw [setScrChannels_eq]
@[simp] theorem setScrChannels_inputs (s : State) (chans : List (List Word)) : (s.setScrChannels chans).inputs = s.inputs := by rw [setScrChannels_eq]
@[simp] theorem setScrChannels_reply (s : State) (chans : List (List Word)) : (s.setScrChannels chans).reply = s.reply := by rw [setScrChannels_eq]
@[simp] theorem setScrChannels_resets (s : State) (chans : List (List Word)) : (s.setScrChannels chans).resets = s.resets := by rw [setScrChannels_eq]

/-! ### setOutChannels -/

@[simp] theorem setOutChannels_params (s : State) (chans : List (List Word)) : (s.setOutChannels chans).params = s.params := by rw [setOutChannels_eq]
@[simp] theorem setOutChannels_pendCmd (s : State) (chans : List (List Word)) : (s.setOutChannels chans).pendCmd = s.pendCmd := by rw [setOutChannels_eq]
@[simp] theorem setOutChannels_engPhase (s : State) (chans : List (List Word)) : (s.setOutChannels chans).engPhase = s.engPhase := by rw [setOutChannels_eq]
@[simp] theorem setOutChannels_reqSnap (s : State) (chans : List (List Word)) : (s.setOutChannels chans).reqSnap = s.reqSnap := by rw [setOutChannels_eq]
@[simp] theorem setOutChannels_done (s : State) (chans : List (List Word)) : (s.setOutChannels chans).done = s.done := by rw [setOutChannels_eq]
@[simp] theorem setOutChannels_err (s : State) (chans : List (List Word)) : (s.setOutChannels chans).err = s.err := by rw [setOutChannels_eq]
@[simp] theorem setOutChannels_numerr (s : State) (chans : List (List Word)) : (s.setOutChannels chans).numerr = s.numerr := by rw [setOutChannels_eq]
@[simp] theorem setOutChannels_latNew (s : State) (chans : List (List Word)) : (s.setOutChannels chans).latNew = s.latNew := by rw [setOutChannels_eq]
@[simp] theorem setOutChannels_prepared (s : State) (chans : List (List Word)) : (s.setOutChannels chans).prepared = s.prepared := by rw [setOutChannels_eq]
@[simp] theorem setOutChannels_active (s : State) (chans : List (List Word)) : (s.setOutChannels chans).active = s.active := by rw [setOutChannels_eq]
@[simp] theorem setOutChannels_prepareReq (s : State) (chans : List (List Word)) : (s.setOutChannels chans).prepareReq = s.prepareReq := by rw [setOutChannels_eq]
@[simp] theorem setOutChannels_wmode (s : State) (chans : List (List Word)) : (s.setOutChannels chans).wmode = s.wmode := by rw [setOutChannels_eq]
@[simp] theorem setOutChannels_lastTrans (s : State) (chans : List (List Word)) : (s.setOutChannels chans).lastTrans = s.lastTrans := by rw [setOutChannels_eq]
@[simp] theorem setOutChannels_errcode (s : State) (chans : List (List Word)) : (s.setOutChannels chans).errcode = s.errcode := by rw [setOutChannels_eq]
@[simp] theorem setOutChannels_osReq (s : State) (chans : List (List Word)) : (s.setOutChannels chans).osReq = s.osReq := by rw [setOutChannels_eq]
@[simp] theorem setOutChannels_latPub (s : State) (chans : List (List Word)) : (s.setOutChannels chans).latPub = s.latPub := by rw [setOutChannels_eq]
@[simp] theorem setOutChannels_osDirty (s : State) (chans : List (List Word)) : (s.setOutChannels chans).osDirty = s.osDirty := by rw [setOutChannels_eq]
@[simp] theorem setOutChannels_vibDirty (s : State) (chans : List (List Word)) : (s.setOutChannels chans).vibDirty = s.vibDirty := by rw [setOutChannels_eq]
@[simp] theorem setOutChannels_osTotal (s : State) (chans : List (List Word)) : (s.setOutChannels chans).osTotal = s.osTotal := by rw [setOutChannels_eq]
@[simp] theorem setOutChannels_vibTotal (s : State) (chans : List (List Word)) : (s.setOutChannels chans).vibTotal = s.vibTotal := by rw [setOutChannels_eq]
@[simp] theorem setOutChannels_fsLo (s : State) (chans : List (List Word)) : (s.setOutChannels chans).fsLo = s.fsLo := by rw [setOutChannels_eq]
@[simp] theorem setOutChannels_fsHi (s : State) (chans : List (List Word)) : (s.setOutChannels chans).fsHi = s.fsHi := by rw [setOutChannels_eq]
@[simp] theorem setOutChannels_blockSize (s : State) (chans : List (List Word)) : (s.setOutChannels chans).blockSize = s.blockSize := by rw [setOutChannels_eq]
@[simp] theorem setOutChannels_nchIn (s : State) (chans : List (List Word)) : (s.setOutChannels chans).nchIn = s.nchIn := by rw [setOutChannels_eq]
@[simp] theorem setOutChannels_nchOut (s : State) (chans : List (List Word)) : (s.setOutChannels chans).nchOut = s.nchOut := by rw [setOutChannels_eq]
@[simp] theorem setOutChannels_upFsLo (s : State) (chans : List (List Word)) : (s.setOutChannels chans).upFsLo = s.upFsLo := by rw [setOutChannels_eq]
@[simp] theorem setOutChannels_upFsHi (s : State) (chans : List (List Word)) : (s.setOutChannels chans).upFsHi = s.upFsHi := by rw [setOutChannels_eq]
@[simp] theorem setOutChannels_upBlock (s : State) (chans : List (List Word)) : (s.setOutChannels chans).upBlock = s.upBlock := by rw [setOutChannels_eq]
@[simp] theorem setOutChannels_fxCtrl (s : State) (chans : List (List Word)) : (s.setOutChannels chans).fxCtrl = s.fxCtrl := by rw [setOutChannels_eq]
@[simp] theorem setOutChannels_wfDrive (s : State) (chans : List (List Word)) : (s.setOutChannels chans).wfDrive = s.wfDrive := by rw [setOutChannels_eq]
@[simp] theorem setOutChannels_satDrive (s : State) (chans : List (List Word)) : (s.setOutChannels chans).satDrive = s.satDrive := by rw [setOutChannels_eq]
@[simp] theorem setOutChannels_vibFreq (s : State) (chans : List (List Word)) : (s.setOutChannels chans).vibFreq = s.vibFreq := by rw [setOutChannels_eq]
@[simp] theorem setOutChannels_vibDepth (s : State) (chans : List (List Word)) : (s.setOutChannels chans).vibDepth = s.vibDepth := by rw [setOutChannels_eq]
@[simp] theorem setOutChannels_vibLen (s : State) (chans : List (List Word)) : (s.setOutChannels chans).vibLen = s.vibLen := by rw [setOutChannels_eq]
@[simp] theorem setOutChannels_vph (s : State) (chans : List (List Word)) : (s.setOutChannels chans).vph = s.vph := by rw [setOutChannels_eq]
@[simp] theorem setOutChannels_vibInc (s : State) (chans : List (List Word)) : (s.setOutChannels chans).vibInc = s.vibInc := by rw [setOutChannels_eq]
@[simp] theorem setOutChannels_irLenUp4 (s : State) (chans : List (List Word)) : (s.setOutChannels chans).irLenUp4 = s.irLenUp4 := by rw [setOutChannels_eq]
@[simp] theorem setOutChannels_irLenDn4 (s : State) (chans : List (List Word)) : (s.setOutChannels chans).irLenDn4 = s.irLenDn4 := by rw [setOutChannels_eq]
@[simp] theorem setOutChannels_rlpNsecUp2 (s : State) (chans : List (List Word)) : (s.setOutChannels chans).rlpNsecUp2 = s.rlpNsecUp2 := by rw [setOutChannels_eq]
@[simp] theorem setOutChannels_rlpNsecDn2 (s : State) (chans : List (List Word)) : (s.setOutChannels chans).rlpNsecDn2 = s.rlpNsecDn2 := by rw [setOutChannels_eq]
@[simp] theorem setOutChannels_rlpLatUp2 (s : State) (chans : List (List Word)) : (s.setOutChannels chans).rlpLatUp2 = s.rlpLatUp2 := by rw [setOutChannels_eq]
@[simp] theorem setOutChannels_rlpLatDn2 (s : State) (chans : List (List Word)) : (s.setOutChannels chans).rlpLatDn2 = s.rlpLatDn2 := by rw [setOutChannels_eq]
@[simp] theorem setOutChannels_wlen (s : State) (chans : List (List Word)) : (s.setOutChannels chans).wlen = s.wlen := by rw [setOutChannels_eq]
@[simp] theorem setOutChannels_wch (s : State) (chans : List (List Word)) : (s.setOutChannels chans).wch = s.wch := by rw [setOutChannels_eq]
@[simp] theorem setOutChannels_wn (s : State) (chans : List (List Word)) : (s.setOutChannels chans).wn = s.wn := by rw [setOutChannels_eq]
@[simp] theorem setOutChannels_firUp4 (s : State) (chans : List (List Word)) : (s.setOutChannels chans).firUp4 = s.firUp4 := by rw [setOutChannels_eq]
@[simp] theorem setOutChannels_firDn4 (s : State) (chans : List (List Word)) : (s.setOutChannels chans).firDn4 = s.firDn4 := by rw [setOutChannels_eq]
@[simp] theorem setOutChannels_rlpUp2 (s : State) (chans : List (List Word)) : (s.setOutChannels chans).rlpUp2 = s.rlpUp2 := by rw [setOutChannels_eq]
@[simp] theorem setOutChannels_rlpDn2 (s : State) (chans : List (List Word)) : (s.setOutChannels chans).rlpDn2 = s.rlpDn2 := by rw [setOutChannels_eq]
@[simp] theorem setOutChannels_vib (s : State) (chans : List (List Word)) : (s.setOutChannels chans).vib = s.vib := by rw [setOutChannels_eq]
@[simp] theorem setOutChannels_inputs (s : State) (chans : List (List Word)) : (s.setOutChannels chans).inputs = s.inputs := by rw [setOutChannels_eq]
@[simp] theorem setOutChannels_reply (s : State) (chans : List (List Word)) : (s.setOutChannels chans).reply = s.reply := by rw [setOutChannels_eq]
@[simp] theorem setOutChannels_resets (s : State) (chans : List (List Word)) : (s.setOutChannels chans).resets = s.resets := by rw [setOutChannels_eq]

end Sys2Proof.Machine
end

