-- ==== Sys2Proof/Laws/Commands.lean ====
section
/-! SUPPORT. What the end of a command and the checks of the commands can do: one inversion lemma
each, to be cited in place of unfolding. -/

namespace Sys2Proof.Machine

/-! ### The end of a command -/

@[simp] theorem finishCommand_ok (s t : State) :
    finishCommand s (.ok t) = .next { t with done := true, engPhase := .idle } := rfl

@[simp] theorem finishCommand_error (s : State) (e : ErrorCode) :
    finishCommand s (.error e) = .next { s.raise e with engPhase := .idle } := rfl

/-- A command ends in a next state, whatever its body did (60_exceptions.md R322). -/
theorem finishCommand_next (s : State) (b : Except ErrorCode State) :
    ∃ t, finishCommand s b = .next t := by
  cases b <;> exact ⟨_, rfl⟩

/-- Everything the end of a command can do: the completed body with DONE set, or the old state with
the error recorded; BUSY clears in both (60_exceptions.md R303, R322). -/
theorem finishCommand_cases {s t : State} {b : Except ErrorCode State}
    (h : finishCommand s b = .next t) :
    (∃ u, b = .ok u ∧ t = { u with done := true, engPhase := .idle }) ∨
      (∃ e, b = .error e ∧ t = { s.raise e with engPhase := .idle }) := by
  cases b with
  | ok u => exact .inl ⟨u, rfl, by simpa using h.symm⟩
  | error e => exact .inr ⟨e, rfl, by simpa using h.symm⟩

/-! ### The checks -/

/-- When an effect command completes (46_effects.md R261). -/
theorem effectChecks_ok_iff (s u : State) (body : State → State) :
    effectChecks s body = .ok u ↔ s.prepared = true ∧ s.wmode ≠ .none ∧ u = body s := by
  unfold effectChecks
  cases s.prepared <;> by_cases hw : s.wmode = .none <;> simp [hw, eq_comm]

/-- What an effect command raises, in priority order (46_effects.md R261). -/
theorem effectChecks_error_iff (s : State) (body : State → State) (e : ErrorCode) :
    effectChecks s body = .error e ↔
      (s.prepared = false ∧ e = .notPrep) ∨
        (s.prepared = true ∧ s.wmode = .none ∧ e = .seq) := by
  unfold effectChecks
  cases s.prepared <;> by_cases hw : s.wmode = .none <;> simp [hw, eq_comm]

/-- When UPSAMPLE completes (44_orchestrator.md R210). -/
theorem upsampleBody_ok_iff (n : Nat) (s u : State) :
    upsampleBody n s = .ok u ↔
      s.prepared = true ∧ blockInRange s.params n = true ∧ u = upsampleRun n s := by
  unfold upsampleBody
  cases s.prepared <;> cases blockInRange s.params n <;> simp [eq_comm]

/-- When PROCESS completes: on UPSAMPLE's conditions (44_orchestrator.md R220, R221). -/
theorem processBody_ok_iff (n : Nat) (s u : State) :
    processBody n s = .ok u ↔
      s.prepared = true ∧ blockInRange s.params n = true ∧ u = processRun n s := by
  unfold processBody
  cases s.prepared <;> cases blockInRange s.params n <;> simp [eq_comm]

/-- When DOWNSAMPLE completes (44_orchestrator.md R215). -/
theorem downsampleBody_ok_iff (s u : State) :
    downsampleBody s = .ok u ↔ s.prepared = true ∧ s.wmode ≠ .none ∧ u = downsampleRun s := by
  unfold downsampleBody
  cases s.prepared <;> by_cases hw : s.wmode = .none <;> simp [hw, eq_comm]

/-- When PREPARE completes: exactly when its rates exist (44_orchestrator.md R202). -/
theorem prepareBody_ok_iff (s u : State) :
    prepareBody s = .ok u ↔ ∃ r, prepareRates s = .ok r ∧ u = s.applyPrepare r := by
  unfold prepareBody
  cases prepareRates s <;> simp [eq_comm]

/-- Everything that the rates of PREPARE can be (44_orchestrator.md R202, R203). -/
theorem prepareRates_ok {s : State} {r : Rates} (h : prepareRates s = .ok r) :
    ∃ fs, positiveRate (bits64 s.fsHi s.fsLo) = some fs ∧
      blockInRange s.params s.blockSize.toNat = true ∧
      s.rateFactor * fs < pow2 1024 * pow2 1074 ∧
      vibLength (s.rateFactor * fs) ≤ s.params.vibMax ∧
      r = ⟨s.rateFactor * fs, s.rateFactor * s.blockSize.toNat, vibLength (s.rateFactor * fs)⟩ := by
  unfold prepareRates at h
  split at h
  · cases h
  · next fs hfs =>
    split at h
    · next h1 =>
      split at h
      · next h2 =>
        split at h
        · next h3 => exact ⟨fs, hfs, h1, h2, h3, (Except.ok.inj h).symm⟩
        · cases h
      · cases h
    · cases h

/-- PREPARE raises no error but ERR_RANGE (60_exceptions.md R302). -/
theorem prepareRates_error {s : State} {e : ErrorCode} (h : prepareRates s = .error e) :
    e = .range := by
  unfold prepareRates at h
  repeat' split at h
  all_goals first | (cases h; rfl) | cases h

/-- The range check of UPSAMPLE and PROCESS (44_orchestrator.md R210). -/
theorem blockInRange_iff (p : Params) (n : Nat) :
    blockInRange p n = true ↔ 1 ≤ n ∧ n ≤ p.blkMax := by simp [blockInRange]

/-- The range check of the primitives (42_convolution.md R173, 43_recursive.md R193). -/
theorem primitiveInRange_iff (p : Params) (ch n : Nat) :
    primitiveInRange p ch n = true ↔ ch < p.nchMax ∧ n ≤ 4 * p.blkMax := by
  simp [primitiveInRange]

/-! ### The registry -/

/-- LAT_TICK always answers a next state (45_latency.md R243). -/
theorem execLatTick_eq (v : Word) (s : State) : execLatTick v s = .next s.latTick := rfl

/-- SET_ENABLED changes OS_REQ.EN alone (44_orchestrator.md R230). -/
theorem execSetEnabled_eq (v : Word) (s : State) :
    execSetEnabled v s = .next { s with osReq := v.getLsbD 0 } := rfl

end Sys2Proof.Machine
end

