-- ==== Sys2Proof/Machine/Designer.lean ====
section
/-! DEFINITION. The reference filter designer (41_filter_design.md) on rational inputs, by evaluation.
`design` of DesignerReal.lean is the function of R150 to R153 itself, on real numbers; this one computes
its taps: the kernel and window are evaluated in fixed point, with fraction bits that grow with the
cutoff's denominator and the order, and each tap is rounded once (log 18). The HOST runs the designer
(R150, 00_scope.md R6): nothing in `step` calls it. -/

namespace Sys2Proof.Machine

/-- The unity passthrough IR with latency 0 (R152). -/
def unityIr : List Word × Nat := ([f32One], 0)

/-- The Nyquist violations of R152 and the inputs that are not greater than 0. -/
def designDegenerate (fs fc bw : Rat) : Bool :=
  decide (fs ≤ 0) || decide (fc ≤ 0) || decide (bw ≤ 0) ||
  decide (fs < 2 * fc) || decide (fs < 2 * bw) || decide (fs < 2 * (fc + bw))

/-- M = 2 * ceil(2 / bwn) (R153). -/
def designOrder (fs bw : Rat) : Nat := 2 * (2 * fs / bw).ceil.toNat

/-- The alternating series of arctan(1/x), `p` being the scaled power of 1/x. -/
def arctanInverse (x : Nat) : (fuel j p : Nat) → Int
  | 0, _, _ => 0
  | fuel + 1, j, p =>
    (if j % 2 = 0 then ((p / (2 * j + 1) : Nat) : Int) else -((p / (2 * j + 1) : Nat) : Int)) +
      arctanInverse x fuel (j + 1) (p / (x * x))

/-- π in units of 2^-bits, by Machin's formula with 64 guard bits. -/
def piFixed (bits : Nat) : Nat :=
  ((16 * arctanInverse 5 (bits / 4 + 20) 0 (pow2 (bits + 64) / 5) -
    4 * arctanInverse 239 (bits / 15 + 20) 0 (pow2 (bits + 64) / 239)) / (pow2 64 : Nat)).toNat

/-- The fixed point of one design: the number of fraction bits, and π with 80 bits more. -/
structure Precision where
  bits : Nat
  pi : Nat
deriving DecidableEq, Repr

/-- The fixed point for a normalised cutoff of denominator `d` and order `m`. The least nonzero kernel
value is above 1/(d·m), so `2·log2 d + 2·log2 m` bits keep it, and every sum of them, 400 bits above
the grid (log 18). -/
def precisionFor (d m : Nat) : Precision :=
  let bits := 400 + 2 * d.log2 + 2 * m.log2
  ⟨bits, piFixed (bits + 80)⟩

/-- sin(2π·n/d), as a number of units of 2^-bits. Multiples of a quarter turn are exact. -/
def turnSine (f : Precision) (n d : Nat) : Int :=
  let m := n % d
  let half := decide (d ≤ 2 * m)
  let u := if half then 2 * m - d else 2 * m
  let q := if d < 2 * u then d - u else u
  let v := if q = 0 then 0 else if 2 * q = d then pow2 f.bits
    else sineFixed f.bits (f.pi * q / (d * pow2 80))
  if half then -(v : Int) else (v : Int)

/-- cos(2π·n/d) (a quarter turn ahead of the sine). -/
def turnCosine (f : Precision) (n d : Nat) : Int := turnSine f (4 * n + d) (4 * d)

/-- The sinc kernel at distance k from the centre, for a normalised cutoff n/d (R153): 2π·n/d, or
sin(2π·(n/d)·k)/k. -/
def sincKernel (f : Precision) (n d k : Nat) : Int :=
  if k = 0 then ((2 * f.pi * n / (d * pow2 80) : Nat) : Int) else turnSine f (n * k) d / (k : Int)

/-- A hundred times the Blackman window 0.42 - 0.5 cos(2πi/M) + 0.08 cos(4πi/M) (R153). -/
def blackman100 (f : Precision) (i m : Nat) : Int :=
  42 * (pow2 f.bits : Nat) - 50 * turnCosine f i m + 8 * turnCosine f (2 * i) m

/-- The products p[i] of kernel and window (R153), in a common unit. -/
def designProducts (f : Precision) (n d m : Nat) : List Int :=
  (List.range (m + 1)).map (fun i =>
    sincKernel f n d (if i ≤ m / 2 then m / 2 - i else i - m / 2) * blackman100 f i m)

/-- `RN32(G * p / S)` (R153). -/
def designTap (gain : Nat) (sum p : Int) : Word :=
  rn32 (decide (p < 0)) (gain * p.natAbs * pow2 149) sum.natAbs

/-- `design(Fs, fc, bw, upsampling)` evaluated for rational inputs: taps and latency (R150 to R153). -/
def designFinite (fs fc bw : Rat) (up : Bool) : List Word × Nat :=
  if designDegenerate fs fc bw then unityIr
  else
    let m := designOrder fs bw
    let fcn := fc / fs
    let ps := designProducts (precisionFor fcn.den m) fcn.num.natAbs fcn.den m
    (ps.map (designTap (if up then 2 else 1) ps.sum), (m + 1) / 2)

/-- The same for the inputs a host has: `none` is a non-finite one, which gives the unity IR (R152).
Every finite binary32 and binary64 is a rational. -/
def designRat (fs fc bw : Option Rat) (up : Bool) : List Word × Nat :=
  match fs, fc, bw with
  | some fs, some fc, some bw => designFinite fs fc bw up
  | _, _, _ => unityIr

end Sys2Proof.Machine
end

