-- ==== Sys2Proof/Machine/DesignerReal.lean ====
section
/-! DEFINITION. The reference filter designer of 41_filter_design.md as the spec defines it: on real
numbers, in exact real arithmetic, each tap rounded once (R150 to R153). Real numbers do not evaluate, so
these definitions alone of the package are noncomputable; Designer.lean evaluates them on rationals
(log 18). Nothing in `step` calls either. -/

namespace Sys2Proof.Machine

/-- A real rounded to a whole number, ties to even (00_scope.md R15). -/
noncomputable def roundEvenReal (q : ℝ) : Nat :=
  if Int.fract q < 1 / 2 then ⌊q⌋₊
  else if Int.fract q = 1 / 2 then ⌊q⌋₊ + ⌊q⌋₊ % 2
  else ⌊q⌋₊ + 1

/-- Bits 30:0 of the binary32 nearest to `x` units of 2^-149, as `roundMag` (00_scope.md R15). -/
noncomputable def roundMagReal (x : ℝ) : Nat :=
  let step := ⌊x⌋₊.log2 - 23
  let bits := step * 2 ^ 23 + roundEvenReal (x / (2 ^ step : Nat))
  if bits < 0x7F800000 then bits else 0x7F800000

/-- `RN32(r)` of an exact real (00_scope.md R15). The sign of a negative `r` too small for any other
value is -0 (log 13). -/
noncomputable def rn32Real (r : ℝ) : Word :=
  packBits (decide (r < 0)) (roundMagReal (|r| * (pow2 149 : Nat)))

/-- The Nyquist violations of R152 and the inputs that are not greater than 0. -/
def degenerateReal (fs fc bw : ℝ) : Prop :=
  fs ≤ 0 ∨ fc ≤ 0 ∨ bw ≤ 0 ∨ fs / 2 < fc ∨ fs / 2 < bw ∨ fs / 2 < fc + bw

/-- M = 2 * ceil(2 / bwn) (R153). -/
noncomputable def orderReal (bwn : ℝ) : Nat := 2 * ⌈2 / bwn⌉₊

/-- The sinc kernel at `k` from the centre (R153). -/
noncomputable def sincReal (fcn : ℝ) (k : Int) : ℝ :=
  if k = 0 then 2 * Real.pi * fcn else Real.sin (2 * Real.pi * fcn * k) / k

/-- The Blackman window (R153). -/
noncomputable def blackmanReal (i m : Nat) : ℝ :=
  0.42 - 0.5 * Real.cos (2 * Real.pi * i / m) + 0.08 * Real.cos (4 * Real.pi * i / m)

/-- `p[i]`, kernel times window (R153). -/
noncomputable def productReal (fcn : ℝ) (m i : Nat) : ℝ :=
  sincReal fcn ((i : Int) - (m / 2 : Nat)) * blackmanReal i m

/-- `S`, the sum of the products (R153). -/
noncomputable def productSumReal (fcn : ℝ) (m : Nat) : ℝ :=
  ∑ i ∈ Finset.range (m + 1), productReal fcn m i

/-- G (R151). -/
def targetGain (up : Bool) : Nat := if up then 2 else 1

open Classical in
/-- `design(Fs, fc, bw, upsampling)` on real numbers: taps and latency (R150 to R153). -/
noncomputable def designReal (fs fc bw : ℝ) (up : Bool) : List Word × Nat :=
  if degenerateReal fs fc bw then unityIr
  else
    let m := orderReal (bw / fs)
    ((List.range (m + 1)).map (fun i =>
      rn32Real (targetGain up * productReal (fc / fs) m i / productSumReal (fc / fs) m)), (m + 1) / 2)

/-- `design` (R150). `none` is a non-finite input, which gives the unity IR (R152). -/
noncomputable def design (fs fc bw : Option ℝ) (up : Bool) : List Word × Nat :=
  match fs, fc, bw with
  | some fs, some fc, some bw => designReal fs fc bw up
  | _, _, _ => unityIr

end Sys2Proof.Machine
end

