-- ==== Sys2Proof/Laws/Designer.lean ====
section
/-! SUPPORT. The designer on real numbers: its rounding is `rn32`, its order and its degenerate inputs are
those of the evaluation on rationals, and the properties of 41_filter_design.md R154. -/

namespace Sys2Proof.Machine

/-! ### Rounding -/

/-- Rounding a quotient of naturals as a real is `roundEven`. -/
theorem roundEvenReal_div (n d : Nat) (hd : 0 < d) :
    roundEvenReal ((n : ℝ) / d) = roundEven n d := by
  have hd' : (0 : ℝ) < d := by exact_mod_cast hd
  have hfl : ⌊(n : ℝ) / d⌋₊ = n / d := by
    rw [Nat.floor_div_natCast, Nat.floor_natCast]
  have hfr : Int.fract ((n : ℝ) / d) = ((n % d : Nat) : ℝ) / d := by
    rw [Int.fract_eq_iff]
    refine ⟨by positivity, ?_, ((n / d : Nat) : Int), ?_⟩
    · rw [div_lt_one hd']
      exact_mod_cast Nat.mod_lt n hd
    · have h : (n : ℝ) = d * (n / d : Nat) + (n % d : Nat) := by
        exact_mod_cast (Nat.div_add_mod n d).symm
      rw [← sub_div, div_eq_iff hd'.ne', Int.cast_natCast]
      linarith
  have hlt : Int.fract ((n : ℝ) / d) < 1 / 2 ↔ 2 * (n % d) < d := by
    rw [hfr, div_lt_div_iff₀ hd' two_pos]
    constructor
    · intro h; exact_mod_cast (by linarith : (2 : ℝ) * (n % d : Nat) < d)
    · intro h
      have : (2 : ℝ) * (n % d : Nat) < d := by exact_mod_cast h
      linarith
  have heq : Int.fract ((n : ℝ) / d) = 1 / 2 ↔ 2 * (n % d) = d := by
    rw [hfr, div_eq_div_iff hd'.ne' two_ne_zero]
    constructor
    · intro h; exact_mod_cast (by linarith : (2 : ℝ) * (n % d : Nat) = d)
    · intro h
      have : (2 : ℝ) * (n % d : Nat) = d := by exact_mod_cast h
      linarith
  unfold roundEvenReal roundEven
  simp only [hlt, heq, hfl]

/-- The magnitude of a quotient as a real is `roundMag`. -/
theorem roundMagReal_div (n d : Nat) (hd : 0 < d) :
    roundMagReal ((n : ℝ) / d) = roundMag n d := by
  have hfl : ⌊(n : ℝ) / d⌋₊ = n / d := by
    rw [Nat.floor_div_natCast, Nat.floor_natCast]
  have hq : ∀ k : Nat, (n : ℝ) / d / (2 ^ k : Nat) = (n : ℝ) / (d * 2 ^ k : Nat) := by
    intro k
    rw [div_div, Nat.cast_mul]
  unfold roundMagReal roundMag roundStep
  simp only [hfl, hq, roundEvenReal_div n _ (Nat.mul_pos hd (Nat.two_pow_pos _))]

/-- RN32 of a nonzero quotient of units of 2^-149, as a real, is `rn32` (00_scope.md R15). -/
theorem rn32Real_ratio (neg : Bool) (n d : Nat) (hn : 0 < n) (hd : 0 < d) :
    rn32Real ((if neg then -1 else 1) * ((n : ℝ) / d / (pow2 149 : Nat))) = rn32 neg n d := by
  have hp : (0 : ℝ) < (pow2 149 : Nat) := by
    exact_mod_cast (show 0 < pow2 149 from Nat.two_pow_pos 149)
  have hpos : (0 : ℝ) < (n : ℝ) / d / (pow2 149 : Nat) := by
    have : (0 : ℝ) < n := by exact_mod_cast hn
    have : (0 : ℝ) < d := by exact_mod_cast hd
    positivity
  generalize hx : (n : ℝ) / d / (pow2 149 : Nat) = x at hpos ⊢
  have hmag : x * (pow2 149 : Nat) = (n : ℝ) / d := by rw [← hx, div_mul_cancel₀ _ hp.ne']
  have habs : |(if neg then -1 else 1) * x| = x := by
    cases neg <;> simp [abs_of_pos hpos]
  have hsign : decide ((if neg then -1 else 1) * x < 0) = neg := by
    cases neg <;> simp [hpos, hpos.le]
  unfold rn32Real rn32
  rw [habs, hmag, hsign, roundMagReal_div n d hd, if_neg hd.ne']

/-- RN32(0) is +0 (00_scope.md R15). -/
theorem rn32Real_zero : rn32Real 0 = 0#32 := by
  have h : roundMagReal ((0 : Nat) / (1 : Nat) : ℝ) = roundMag 0 1 := roundMagReal_div 0 1 one_pos
  simp only [Nat.cast_zero, zero_div] at h
  have hz : roundMag 0 1 = 0 := by decide
  simp [rn32Real, h, hz, packBits]

/-! ### Order and degenerate inputs -/

/-- The ceiling by which `designOrder` evaluates is the ceiling. -/
theorem ceil_eq_intCeil (q : Rat) : q.ceil = ⌈q⌉ :=
  le_antisymm (Rat.ceil_le_iff.mpr (Int.le_ceil q)) (Int.ceil_le.mpr (Rat.ceil_le_iff.mp le_rfl))

/-- The evaluation's order is the order (41_filter_design.md R153). -/
theorem designOrder_eq_orderReal (fs bw : Rat) :
    designOrder fs bw = orderReal ((bw : ℝ) / fs) := by
  have h : (2 : ℝ) / ((bw : ℝ) / fs) = ((2 * fs / bw : Rat) : ℝ) := by
    push_cast
    rw [div_div_eq_mul_div]
  unfold designOrder orderReal
  rw [h, ← Int.ceil_toNat, Rat.ceil_cast, ceil_eq_intCeil]

/-- The evaluation's degenerate inputs are those of R152. -/
theorem designDegenerate_iff (fs fc bw : Rat) :
    designDegenerate fs fc bw = true ↔ degenerateReal fs fc bw := by
  have half : ∀ x : Rat, ((fs : ℝ) / 2 < x ↔ fs < 2 * x) := by
    intro x
    rw [div_lt_iff₀ two_pos, mul_comm]
    exact_mod_cast Iff.rfl
  have hsum : ((fs : ℝ) / 2 < fc + bw ↔ fs < 2 * (fc + bw)) := by
    rw [← half]; push_cast; rfl
  simp only [designDegenerate, degenerateReal, Bool.or_eq_true, decide_eq_true_eq, half, hsum,
    Rat.cast_nonpos, or_assoc]

/-! ### Properties of a design (41_filter_design.md R152, R154) -/

theorem design_degenerate {fs fc bw : ℝ} (up : Bool) (h : degenerateReal fs fc bw) :
    design (some fs) (some fc) (some bw) up = unityIr := if_pos h

theorem designReal_length {fs fc bw : ℝ} (up : Bool) (h : ¬ degenerateReal fs fc bw) :
    (designReal fs fc bw up).1.length = orderReal (bw / fs) + 1 := by
  simp [designReal, h]

/-- The latency is half the order, the floor of half the length (R154). -/
theorem designReal_latency {fs fc bw : ℝ} (up : Bool) (h : ¬ degenerateReal fs fc bw) :
    (designReal fs fc bw up).2 = orderReal (bw / fs) / 2 := by
  simp only [designReal, h, if_false, orderReal]
  omega

theorem sincReal_neg (fcn : ℝ) (k : Int) : sincReal fcn (-k) = sincReal fcn k := by
  unfold sincReal
  by_cases hk : k = 0
  · simp [hk]
  · have hk' : (k : ℝ) ≠ 0 := by exact_mod_cast hk
    simp only [neg_eq_zero, hk, if_false, Int.cast_neg, mul_neg, Real.sin_neg, neg_div_neg_eq]

theorem blackmanReal_symm (i m : Nat) (hi : i ≤ m) (hm : 0 < m) :
    blackmanReal (m - i) m = blackmanReal i m := by
  have hm' : (m : ℝ) ≠ 0 := by exact_mod_cast hm.ne'
  have h2 : 2 * Real.pi * ((m - i : Nat) : ℝ) / m = 2 * Real.pi - 2 * Real.pi * i / m := by
    rw [Nat.cast_sub hi]; field_simp
  have h4 : 4 * Real.pi * ((m - i : Nat) : ℝ) / m =
      ((2 : Nat) : ℝ) * (2 * Real.pi) - 4 * Real.pi * i / m := by
    rw [Nat.cast_sub hi]; push_cast; field_simp; ring
  unfold blackmanReal
  rw [h2, h4, Real.cos_two_pi_sub, Real.cos_nat_mul_two_pi_sub]

/-- The products are symmetric about the centre (R154). -/
theorem productReal_symm (fcn : ℝ) {i m : Nat} (hm : m % 2 = 0) (h0 : 0 < m) (hi : i ≤ m) :
    productReal fcn m (m - i) = productReal fcn m i := by
  unfold productReal
  rw [blackmanReal_symm i m hi h0,
    show ((m - i : Nat) : Int) - (m / 2 : Nat) = -((i : Int) - (m / 2 : Nat)) by omega, sincReal_neg]

/-- The window ends are 0, so the first and the last product are (R154). -/
theorem productReal_ends (fcn : ℝ) {m : Nat} (hm : m % 2 = 0) (h0 : 0 < m) :
    productReal fcn m 0 = 0 ∧ productReal fcn m m = 0 := by
  have h : productReal fcn m 0 = 0 := by
    unfold productReal blackmanReal
    norm_num
  refine ⟨h, ?_⟩
  have := productReal_symm fcn hm h0 (Nat.zero_le m)
  rw [Nat.sub_zero] at this
  rw [this, h]

end Sys2Proof.Machine
end

