-- ==== Sys2Proof/Laws/Memory.lean ====
section
/-! SUPPORT. The laws of the bus memory: a read after a write, the bytes a write leaves alone, and
the canonical form. -/

namespace Sys2Proof.Machine

theorem wordOfBytes_wordByte (w : Word) :
    wordOfBytes (wordByte w 0) (wordByte w 1) (wordByte w 2) (wordByte w 3) = w := by
  apply BitVec.eq_of_getLsbD_eq
  intro i hi
  simp only [wordOfBytes, wordByte, BitVec.getLsbD_append, BitVec.getLsbD_extractLsb']
  by_cases h1 : i < 8
  · simp [h1]
  · by_cases h2 : i < 16
    · have : i - 8 < 8 := by omega
      simp [h1, this, show 8 + (i - 8) = i by omega]
    · by_cases h3 : i < 24
      · have e1 : ¬ i - 8 < 8 := by omega
        have e2 : i - 8 - 8 < 8 := by omega
        simp [h1, e1, e2, show 16 + (i - 8 - 8) = i by omega]
      · have e1 : ¬ i - 8 < 8 := by omega
        have e2 : ¬ i - 8 - 8 < 8 := by omega
        have e3 : i - 8 - 8 - 8 < 8 := by omega
        simp [h1, e1, e2, e3, show 24 + (i - 8 - 8 - 8) = i by omega]

/-- What a byte reads as after a word is stored: the word's byte, or what it read as before. -/
theorem readByte_storeWord (s : State) (a : Nat) (w : Word) (b : Nat) :
    (s.storeWord a w).readByte b =
      if a ≤ b ∧ b < a + 4 then wordByte w (b - a) else s.readByte b := by
  unfold State.readByte State.storeWord Memory.putWord
  simp only [Store.read_write]
  by_cases h3 : b = a + 3
  · subst h3; simp [show a + 3 - a = 3 by omega]
  · by_cases h2 : b = a + 2
    · subst h2; simp [show a + 2 - a = 2 by omega]
    · by_cases h1 : b = a + 1
      · subst h1; simp [show a + 1 - a = 1 by omega]
      · by_cases h0 : b = a
        · subst h0; simp
        · have : ¬ (a ≤ b ∧ b < a + 4) := by omega
          simp [h0, h1, h2, h3, this]

/-- A read of an element after a write to it gives the word written (20_memory.md R85). -/
@[simp] theorem loadWord_storeWord_same (s : State) (a : Nat) (w : Word) :
    (s.storeWord a w).loadWord a = w := by
  unfold State.loadWord
  simp only [readByte_storeWord]
  rw [if_pos (by omega), if_pos (by omega), if_pos (by omega), if_pos (by omega)]
  simp only [Nat.sub_self, Nat.add_sub_cancel_left]
  exact wordOfBytes_wordByte w

/-- Two states whose bytes agree at an element read the same word there. -/
theorem loadWord_congr {s t : State} {a : Nat}
    (h : ∀ b, a ≤ b → b < a + 4 → s.readByte b = t.readByte b) : s.loadWord a = t.loadWord a := by
  unfold State.loadWord
  rw [h a (by omega) (by omega), h (a + 1) (by omega) (by omega), h (a + 2) (by omega) (by omega),
    h (a + 3) (by omega) (by omega)]

/-- A write leaves an element that it does not touch alone. -/
theorem loadWord_storeWord_disjoint (s : State) {a b : Nat} (w : Word)
    (h : b + 4 ≤ a ∨ a + 4 ≤ b) : (s.storeWord a w).loadWord b = s.loadWord b := by
  refine loadWord_congr fun k h1 h2 => ?_
  rw [readByte_storeWord, if_neg (by omega)]

/-- Storing a block stores its first word, then the rest. -/
theorem storeBlock_cons (s : State) (a : Nat) (w : Word) (ws : List Word) :
    s.storeBlock a (w :: ws) = (s.storeWord a w).storeBlock (a + 4) ws := rfl

@[simp] theorem storeBlock_nil (s : State) (a : Nat) : s.storeBlock a [] = s := rfl

/-- The bytes outside a stored block read as before. -/
theorem readByte_storeBlock_outside (ws : List Word) :
    ∀ (s : State) (a b : Nat), (b < a ∨ a + 4 * ws.length ≤ b) →
      (s.storeBlock a ws).readByte b = s.readByte b := by
  induction ws with
  | nil => intro s a b _; rfl
  | cons w ws ih =>
    intro s a b h
    rw [List.length_cons] at h
    rw [storeBlock_cons, ih _ _ _ (by omega), readByte_storeWord, if_neg (by omega)]

/-- A read of an element of a stored block gives the word stored there. -/
theorem loadWord_storeBlock (ws : List Word) :
    ∀ (s : State) (a i : Nat) (h : i < ws.length),
      (s.storeBlock a ws).loadWord (a + 4 * i) = ws[i] := by
  induction ws with
  | nil => intro s a i h; simp at h
  | cons w ws ih =>
    intro s a i h
    rw [storeBlock_cons]
    cases i with
    | zero =>
      rw [Nat.mul_zero, Nat.add_zero]
      rw [loadWord_congr (t := s.storeWord a w) fun b h1 h2 =>
        readByte_storeBlock_outside ws _ _ _ (by omega)]
      simp
    | succ i =>
      have h' : i < ws.length := by simpa using h
      have := ih (s.storeWord a w) (a + 4) i h'
      rw [show a + 4 * (i + 1) = a + 4 + 4 * i by omega, this]
      simp

@[simp] theorem length_loadBlock (s : State) (a n : Nat) : (s.loadBlock a n).length = n := by
  simp [State.loadBlock]

/-- The elements of a loaded block. -/
theorem getElem_loadBlock (s : State) (a n i : Nat) (h : i < (s.loadBlock a n).length) :
    (s.loadBlock a n)[i] = s.loadWord (a + 4 * i) := by
  simp [State.loadBlock]

/-- Every block operation keeps the canonical form (and so does every sequence of them). -/
theorem Memory.wf_putWord (m : Memory) (a : Nat) (w : Word) (h : Memory.wf m = true) :
    Memory.wf (Memory.putWord m a w) = true :=
  Store.wf_write _ _ _ (Store.wf_write _ _ _ (Store.wf_write _ _ _ (Store.wf_write _ _ _ h)))

theorem Memory.wf_putBlock (ws : List Word) :
    ∀ (m : Memory) (a : Nat), Memory.wf m = true → Memory.wf (Memory.putBlock m a ws) = true := by
  induction ws with
  | nil => intro m a h; exact h
  | cons w ws ih => intro m a h; exact ih _ _ (Memory.wf_putWord m a w h)

theorem Memory.wf_nil : Memory.wf [] = true := Store.wf_nil

/-- The memory of a reset state is canonical. -/
theorem Memory.wf_reset : Memory.wf State.reset.mem = true := Memory.wf_nil

theorem wf_storeWord (s : State) (a : Nat) (w : Word) (h : Memory.wf s.mem = true) :
    Memory.wf (s.storeWord a w).mem = true := Memory.wf_putWord s.mem a w h

theorem wf_storeBlock (s : State) (a : Nat) (ws : List Word) (h : Memory.wf s.mem = true) :
    Memory.wf (s.storeBlock a ws).mem = true := Memory.wf_putBlock ws s.mem a h

theorem wf_storeChannels (addr : Nat → Nat) (chans : List (List Word)) :
    ∀ (s : State) (c : Nat), Memory.wf s.mem = true →
      Memory.wf (s.storeChannels addr c chans).mem = true := by
  induction chans with
  | nil => intro s c h; exact h
  | cons ws rest ih => intro s c h; exact ih _ _ (wf_storeBlock s _ ws h)

/-- The bytes that lie in no stored channel read as before. -/
theorem readByte_storeChannels_outside (addr : Nat → Nat) (chans : List (List Word)) :
    ∀ (s : State) (c b : Nat),
      (∀ i (h : i < chans.length),
        b < addr (c + i) ∨ addr (c + i) + 4 * (chans[i]).length ≤ b) →
      (s.storeChannels addr c chans).readByte b = s.readByte b := by
  induction chans with
  | nil => intro s c b _; rfl
  | cons ws rest ih =>
    intro s c b h
    have h0 := h 0 (by simp)
    simp only [State.storeChannels]
    rw [ih _ _ _ ?_, readByte_storeBlock_outside ws _ _ _ (by simpa using h0)]
    intro i hi
    have := h (i + 1) (by simpa using hi)
    simpa [show c + (i + 1) = c + 1 + i by omega] using this

/-- A read of an element of a stored channel gives the word stored there, where no later channel
reaches back into it. -/
theorem loadWord_storeChannels (addr : Nat → Nat) (chans : List (List Word)) :
    ∀ (s : State) (c k i : Nat) (hk : k < chans.length) (hi : i < (chans[k]).length),
      (∀ j, k < j → j < chans.length →
        addr (c + k) + 4 * (chans[k]).length ≤ addr (c + j)) →
      (s.storeChannels addr c chans).loadWord (addr (c + k) + 4 * i) = chans[k][i] := by
  induction chans with
  | nil => intro s c k i hk; simp at hk
  | cons ws rest ih =>
    intro s c k i hk hi hlater
    simp only [State.storeChannels]
    cases k with
    | zero =>
      simp only [List.getElem_cons_zero, Nat.add_zero] at hi hlater ⊢
      rw [loadWord_congr (t := s.storeBlock (addr c) ws) fun b h1 h2 => ?_]
      · exact loadWord_storeBlock ws s (addr c) i hi
      · refine readByte_storeChannels_outside addr rest _ _ _ fun j hj => ?_
        have := hlater (j + 1) (by omega) (by simpa using hj)
        rw [show c + (j + 1) = c + 1 + j by omega] at this
        left; omega
    | succ k =>
      have hk' : k < rest.length := by simpa using hk
      have := ih (s.storeBlock (addr c) ws) (c + 1) k i hk' (by simpa using hi) (fun j h1 h2 => by
        have := hlater (j + 1) (by omega) (by simpa using h2)
        simpa [show c + (k + 1) = c + 1 + k by omega, show c + (j + 1) = c + 1 + j by omega] using this)
      simpa [show c + (k + 1) = c + 1 + k by omega] using this

end Sys2Proof.Machine
end

