-- ==== Sys2Proof/Laws/PerInstr.lean ====
section
/-! SUPPORT. What is said of every operation as syntax: where its write goes. -/

namespace Sys2Proof.Laws

/-- The write that an operation is goes to one of the three registers of 30_encoding.md R120; a CMD
word has RSV = 0 (R121). -/
def EncodeShape.Statement (i : Instr) : Prop :=
  ((encode i).addr = cmdAddr ∧ cmdRsv (encode i).data = 0#2) ∨ (encode i).addr = osReqAddr ∨
    (encode i).addr = latTickAddr

/-- RSV of a command word is 0 (30_encoding.md R121). -/
theorem cmdRsv_cmdWord (op : BitVec 8) (stg : BitVec 2) (ch : BitVec 4) (cnt : BitVec 16) :
    cmdRsv (cmdWord op stg ch cnt) = 0#2 := by
  apply BitVec.eq_of_getLsbD_eq
  intro i hi
  have h1 : ¬ 10 + i < 8 := by omega
  have h2 : ¬ 10 + i - 8 < 2 := by omega
  have h3 : 10 + i - 8 - 2 < 2 := by omega
  simp only [cmdRsv, cmdWord, BitVec.getLsbD_extractLsb', BitVec.getLsbD_append, h1, h2, h3,
    if_true, if_false, BitVec.getLsbD_zero, Bool.and_false]

theorem EncodeShape.nop : EncodeShape.Statement .nop := .inl ⟨rfl, cmdRsv_cmdWord ..⟩

theorem EncodeShape.prepare : EncodeShape.Statement .prepare := .inl ⟨rfl, cmdRsv_cmdWord ..⟩

theorem EncodeShape.upsample (n : BitVec 16) : EncodeShape.Statement (.upsample n) :=
  .inl ⟨rfl, cmdRsv_cmdWord ..⟩

theorem EncodeShape.downsample : EncodeShape.Statement .downsample := .inl ⟨rfl, cmdRsv_cmdWord ..⟩

theorem EncodeShape.process (n : BitVec 16) : EncodeShape.Statement (.process n) :=
  .inl ⟨rfl, cmdRsv_cmdWord ..⟩

theorem EncodeShape.wavefold : EncodeShape.Statement .wavefold := .inl ⟨rfl, cmdRsv_cmdWord ..⟩

theorem EncodeShape.saturate : EncodeShape.Statement .saturate := .inl ⟨rfl, cmdRsv_cmdWord ..⟩

theorem EncodeShape.vibrato : EncodeShape.Statement .vibrato := .inl ⟨rfl, cmdRsv_cmdWord ..⟩

theorem EncodeShape.convDirect (stg : Stage) (ch : BitVec 4) (n : BitVec 16) :
    EncodeShape.Statement (.convDirect stg ch n) := .inl ⟨rfl, cmdRsv_cmdWord ..⟩

theorem EncodeShape.convPoly (stg : Stage) (ch : BitVec 4) (n : BitVec 16) :
    EncodeShape.Statement (.convPoly stg ch n) := .inl ⟨rfl, cmdRsv_cmdWord ..⟩

theorem EncodeShape.rlpRun (stg : Stage) (ch : BitVec 4) (n : BitVec 16) :
    EncodeShape.Statement (.rlpRun stg ch n) := .inl ⟨rfl, cmdRsv_cmdWord ..⟩

theorem EncodeShape.setEnabled (data : Word) : EncodeShape.Statement (.setEnabled data) :=
  .inr (.inl rfl)

theorem EncodeShape.latTick (data : Word) : EncodeShape.Statement (.latTick data) :=
  .inr (.inr rfl)

end Sys2Proof.Laws
end

