-- ==== Sys2Proof/Machine/Asm.lean ====
section
/-! DEFINITION. The assembler of 30_encoding.md R128 and R129: what each line of a command program
stands for on the bus. It is the host's text, not a state transition; nothing in `step` calls it. -/

namespace Sys2Proof.Machine

/-- The lines of a command program: R128's operations and R129's pseudo-operations. Integer and
float literals are already words. -/
inductive AsmLine where
  /-- The eleven commands and `SETEN`, `TICK`, as their operation. -/
  | op (i : Instr)
  /-- `WR addr, v`. -/
  | wr (addr v : Word)
  /-- `RD addr`. -/
  | rd (addr : Word)
  /-- `WRFS r`, `r` the binary64 bits. -/
  | wrfs (r : BitVec 64)
  /-- `CLR m`. -/
  | clr (m : Word)
  /-- `TAPS stg, v0, v1, ...`. -/
  | taps (g : FirStage) (vs : List Word)
  /-- `COEFS stg, q, b0, b1, b2, a1, a2`. -/
  | coefs (g : RlpStage) (q : Nat) (k : Coefs)
deriving DecidableEq, Repr

/-- `MemWrite(addr, 4, v)` by an agent. -/
def busWrite (g : Agent) (addr v : Word) : BusAccess := ⟨g, .write, addr, 4, v⟩

/-- `MemRead(addr, 4)` by an agent. -/
def busRead (g : Agent) (addr : Word) : BusAccess := ⟨g, .read, addr, 4, 0#32⟩

/-- The address of IR_LEN_s (10_state.md R47). -/
def irLenAddr : FirStage → Word
  | .up4 => 0x080#32
  | .dn4 => 0x084#32

/-- The accesses a line stands for, none where the assembler must refuse it: an operand outside its
field (R128). -/
def AsmLine.accesses (g : Agent) : AsmLine → Option (List BusAccess)
  | .op i => if i.WellFormed then some [busWrite g (encode i).addr (encode i).data] else none
  | .wr a v => some [busWrite g a v]
  | .rd a => some [busRead g a]
  | .wrfs r => some [busWrite g 0x040#32 (loWord r), busWrite g 0x044#32 (hiWord r)]
  | .clr m => some [busWrite g 0x014#32 m]
  | .taps s vs =>
    some (vs.zipIdx.map (fun p => busWrite g (BitVec.ofNat 32 (tapAddr s p.2)) p.1) ++
      [busWrite g (irLenAddr s) (BitVec.ofNat 32 vs.length)])
  | .coefs s q k =>
    some ([k.b0, k.b1, k.b2, k.a1, k.a2].zipIdx.map (fun p =>
      busWrite g (BitVec.ofNat 32 (coefAddr s q p.2)) p.1))

/-- `RUN x` as it runs when nothing else happens in between: the CMD write, START, FINISH, and the
poll of STATUS that reads BUSY = 0 (R129). -/
def runCommand (g : Agent) (i : Instr) : List Event :=
  [.bus (busWrite g cmdAddr (encode i).data), .engine, .engine, .bus (busRead g 0x014#32)]

end Sys2Proof.Machine
end

