-- ==== Sys2Proof/Tests/Slice0.lean ====
section
/-! SUPPORT. Tests. Every expected value is the spec's own (the rule is named), and every statement
for the provers that has hypotheses has a witness here that meets them. -/

namespace Sys2Proof.Tests

open Sys2Proof.Machine

-- One theorem after the other: checked all at once, their threads outgrow the memory limit.
set_option Elab.async false

/-! ### WellFormed refuses the ill-formed stage terms (30_encoding.md R123) -/

theorem test_convDirect_refuses_rlp_stages :
    Instr.WellFormed (.convDirect .up2 0#4 1#16) = false ∧
    Instr.WellFormed (.convDirect .dn2 0#4 1#16) = false := by decide

theorem test_convPoly_refuses_rlp_stages :
    Instr.WellFormed (.convPoly .up2 0#4 2#16) = false ∧
    Instr.WellFormed (.convPoly .dn2 0#4 2#16) = false := by decide

theorem test_rlpRun_refuses_fir_stages :
    Instr.WellFormed (.rlpRun .up4 0#4 1#16) = false ∧
    Instr.WellFormed (.rlpRun .dn4 0#4 1#16) = false := by decide

/-! ### Decoding: words written out from 30_encoding.md R121 and R123, 95_test_vectors.md 2.1 -/

theorem test_decode_nop : decode ⟨0x010#32, 0x00000000#32⟩ = .ok .nop := rfl
theorem test_decode_prepare : decode ⟨0x010#32, 0x00000001#32⟩ = .ok .prepare := rfl
theorem test_decode_upsample : decode ⟨0x010#32, 0x00080010#32⟩ = .ok (.upsample 8#16) := rfl
theorem test_decode_downsample : decode ⟨0x010#32, 0x00000011#32⟩ = .ok .downsample := rfl
theorem test_decode_process : decode ⟨0x010#32, 0x10010012#32⟩ = .ok (.process 4097#16) := rfl
theorem test_decode_wavefold : decode ⟨0x010#32, 0x00000020#32⟩ = .ok .wavefold := rfl
theorem test_decode_saturate : decode ⟨0x010#32, 0x00000021#32⟩ = .ok .saturate := rfl
theorem test_decode_vibrato : decode ⟨0x010#32, 0x00000022#32⟩ = .ok .vibrato := rfl

theorem test_decode_convDirect :
    decode ⟨0x010#32, 0x0001F230#32⟩ = .ok (.convDirect .up4 15#4 1#16) ∧
    decode ⟨0x010#32, 0x00050330#32⟩ = .ok (.convDirect .dn4 0#4 5#16) := ⟨rfl, rfl⟩

theorem test_decode_convPoly :
    decode ⟨0x010#32, 0x00041231#32⟩ = .ok (.convPoly .up4 1#4 4#16) := rfl

theorem test_decode_rlpRun :
    decode ⟨0x010#32, 0x00031132#32⟩ = .ok (.rlpRun .dn2 1#4 3#16) := rfl

theorem test_decode_setEnabled :
    decode ⟨0x01C#32, 0x00000001#32⟩ = .ok (.setEnabled 1#32) := rfl

theorem test_decode_latTick :
    decode ⟨0x020#32, 0xFFFFFFFF#32⟩ = .ok (.latTick 0xFFFFFFFF#32) := rfl

/-- The illegal words of 95_test_vectors.md 2.1. -/
theorem test_decode_illegal :
    decodeCmd 0x00000401#32 = .error .rsvNonzero ∧ decodeCmd 0x00000411#32 = .error .rsvNonzero ∧
    decodeCmd 0x00000130#32 = .error .badStage ∧ decodeCmd 0x00010232#32 = .error .badStage ∧
    decodeCmd 0x00010011#32 = .error .fieldNonzero ∧
    decodeCmd 0x00001000#32 = .error .fieldNonzero ∧
    decodeCmd 0x00041010#32 = .error .fieldNonzero ∧
    decodeCmd 0x00000002#32 = .error .unknownOp ∧ decodeCmd 0x000000FF#32 = .error .unknownOp :=
  ⟨rfl, rfl, rfl, rfl, rfl, rfl, rfl, rfl, rfl⟩

/-- A table word of two bytes is read with the bits above them 0. -/
theorem test_decodeTableWord :
    decodeTableWord 16 0x0230 = some (.convDirect .up4 0#4 0#16) ∧
    decodeTableWord 32 0x00080010 = some (.upsample 8#16) := by decide

/-! ### One step of each operation, on small states -/

/-- A machine after reset whose ENGINE is in phase STARTED. -/
def started : State := { State.reset with engPhase := .started }

/-- A prepared machine (FS = 2000, L = 14) with one channel of work buffer in the given mode. -/
def work (mode : WMode) (n len : Nat) (xs : List Word) : State :=
  { started with
    prepared := true, wmode := mode, wn := BitVec.ofNat 32 n, wch := 1#32,
    wlen := BitVec.ofNat 32 len, vibLen := 14#16, upFsHi := 0x409F4000#32,
    active := decide (mode = WMode.os4),
    prepareReq := decide (mode = WMode.trans) }.setScrBlock 0 xs

/-- A prepared machine with the given samples in IN[0]. -/
def ready (xs : List Word) : State := { work .none 0 0 [] with wch := 0#32 }.storeBlock (inAddr 0 0) xs

/-- R200. -/
theorem test_nop : after .nop started = { started with done := true, engPhase := .idle } := by decide

/-- R206: FS = 44100, BLOCK_SIZE = 512, ACTIVE = 1 gives 176400, 2048, 1235. -/
theorem test_prepare :
    let t := after .prepare { started with
      fsHi := 0x40E58880#32, fsLo := 0#32, blockSize := 512#16, active := true, prepared := true }
    (t.upFsHi, t.upFsLo, t.upBlock, t.vibLen, t.osDirty, t.vibDirty) =
      (0x41058880#32, 0#32, 2048#16, 1235#16, true, true) := by decide +kernel

/-- R206: FS = 400000, ACTIVE = 1 is out of range. -/
theorem test_prepare_too_long :
    let t := after .prepare { started with
      fsHi := 0x41186A00#32, blockSize := 64#16, active := true, prepared := true }
    (t.err, t.errcode, t.done) = (true, 0x03#8, false) := by decide +kernel

/-- R213: the base-rate copy moves bit patterns and sets no NUMERR (95_test_vectors.md 2.6). -/
theorem test_upsample_copies_bits :
    let t := after (.upsample 2#16) (ready [0x80000000#32, 0x7FC00001#32])
    (t.scrBlock 0 2, t.numerr, t.wmode, t.wlen) =
      ([0x80000000#32, 0x7FC00001#32], false, .pass, 2#32) := by decide +kernel

/-- R214: the first samples of the x4 path at 1.0 (95_test_vectors.md 2.6, block 0). -/
theorem test_upsample_oversamples :
    let t := after (.upsample 1#16)
      { ready [0x3F800000#32] with active := true, reqSnap := true }
    (t.scrBlock 0 4, t.wmode, t.wlen, t.wn) =
      ([0x3F15F61A#32, 0#32, 0x3F95F61A#32, 0#32], .os4, 4#32, 1#32) := by decide +kernel

/-- R216: NUMERR is set by DOWNSAMPLE of a NaN (95_test_vectors.md 2.6). -/
theorem test_downsample_copies_bits :
    let t := after .downsample (work .pass 2 2 [0x80000000#32, 0x7FC00001#32])
    (t.loadBlock (outAddr 0 0) 2, t.numerr, t.wmode) =
      ([0x80000000#32, 0x7FC00001#32], true, .none) := by decide +kernel

/-- R217: the first output sample of the x4 path at 1.0 (95_test_vectors.md 2.6, block 0). -/
theorem test_downsample_decimates :
    let t := after .downsample
      (work .os4 1 4 [0x3F15F61A#32, 0#32, 0x3F95F61A#32, 0#32])
    (t.loadBlock (outAddr 0 0) 1, t.wmode) = ([0x3E2FB0CE#32], .none) := by decide +kernel

/-- R220: PROCESS with the saturator (95_test_vectors.md 2.8, program P1's first two samples). -/
theorem test_process_saturates :
    let t := after (.process 2#16)
      { ready [0x41800000#32, 0x3D800000#32] with fxCtrl := 2#3, satDrive := 0x3F800000#32 }
    (t.loadBlock (outAddr 0 0) 2, t.wmode, t.done) =
      ([0x40000000#32, 0x3F000000#32], .none, true) := by decide +kernel

/-- R220: a NaN that the base-rate copy alone writes to SCR sets NUMERR; the vibrato holds it back from
OUT (R283, a delay of 7). -/
theorem test_process_counts_copy :
    let t := after (.process 1#16) { ready [0x7FC00001#32] with fxCtrl := 4#3 }
    (t.loadBlock (outAddr 0 0) 1, t.numerr) = ([0#32], true) := by decide +kernel

/-- R266. -/
theorem test_wavefold :
    (after .wavefold (work .pass 6 6 [0x3DCCCCCD#32, 0x3F800000#32, 0xBFC00000#32, 0x3F7FFFFE#32,
      0x80000000#32, 0x4C189680#32])).scrBlock 0 6 =
    [0x3DCCCCD0#32, 0xBF800000#32, 0x3F000000#32, 0x3F7FFFFE#32, 0#32, 0xBF800000#32] := by
  decide +kernel

/-- R266: drive 3, and an infinite sample. -/
theorem test_wavefold_drive :
    let t := after .wavefold { work .os4 1 4 [0x3F000000#32, 0x7F800000#32, 0#32, 0#32] with
      wfDrive := 0x40400000#32 }
    (t.scrBlock 0 2, t.numerr) = ([0xBE2AAAAB#32, 0x7FC00000#32], true) := by decide +kernel

/-- R274. -/
theorem test_saturate :
    (after .saturate { work .trans 4 4 [0x3F000000#32, 0xC1800000#32, 0x40000000#32, 0x322BCC77#32]
      with satDrive := 0x3F800000#32 }).scrBlock 0 4 =
    [0x3F5744FD#32, 0xC0000000#32, 0x3F9837F0#32, 0x3C23D70A#32] := by decide +kernel

/-- R274: drive 0.5. -/
theorem test_saturate_half :
    (after .saturate { work .pass 1 1 [0x41800000#32] with satDrive := 0x3F000000#32 }).scrBlock 0 1 =
    [0x41100000#32] := by decide +kernel

/-- R284: depth 0 at 123 Hz is a delay of 7; VIB_INC and the phase (95_test_vectors.md 2.8). -/
theorem test_vibrato_zero_depth :
    let t := after .vibrato { work .pass 8 8 [0x3F800000#32, 0x40000000#32, 0x40400000#32,
      0x40800000#32, 0x40A00000#32, 0x40C00000#32, 0x40E00000#32, 0x41000000#32] with
      vibFreq := 0x42F60000#32 }
    (t.scrBlock 0 8, t.vibInc, t.vph, t.vib.map (·.vw)) =
      ([0#32, 0#32, 0#32, 0#32, 0#32, 0#32, 0#32, 0x3F800000#32], 0x3D7BE76D#32, 0x3EFBE76E#32,
        [8, 0]) := by decide +kernel

/-- R284: depth 1 at 500 Hz, an impulse, 16 frames. -/
theorem test_vibrato_full_depth :
    let t := after .vibrato { work .os4 4 16 (0x3F800000#32 :: List.replicate 15 0#32) with
      vibFreq := 0x43FA0000#32, vibDepth := 0x3F800000#32 }
    (t.scrBlock 0 16, t.vph, t.vib.map (·.vw)) =
      (List.replicate 13 0#32 ++ [0x3F333330#32, 0#32, 0#32], 0#32, [2, 0]) := by decide +kernel

/-- R179, direct mode: taps [0.25, 0.5, 0.25]. -/
theorem test_convDirect :
    let s := started.storeBlock (tapAddr .dn4 0) [0x3E800000#32, 0x3F000000#32, 0x3E800000#32]
    let t := after (.convDirect .dn4 0#4 5#16) ({ s with irLenDn4 := 3#32 }.setScrBlock 0
      [0x3F800000#32, 0#32, 0#32, 0#32, 0x40000000#32])
    (t.scrBlock 0 5, (t.firLine .dn4 0).cur, t.done) =
      ([0x3E800000#32, 0x3F000000#32, 0x3E800000#32, 0#32, 0x3F000000#32], 2, true) := by
  decide +kernel

/-- R177: the unity IR turns -0 into +0 and any NaN into the canonical one. -/
theorem test_convDirect_unity :
    let t := after (.convDirect .up4 0#4 2#16) (started.setScrBlock 0 [0x80000000#32, 0x7FC00001#32])
    (t.scrBlock 0 2, t.numerr) = ([0#32, 0x7FC00000#32], true) := by decide +kernel

/-- R179, polyphase mode: taps [1, 2, 3]; the odd elements are ignored. -/
theorem test_convPoly :
    let s := started.storeBlock (tapAddr .up4 0) [0x3F800000#32, 0x40000000#32, 0x40400000#32]
    let t := after (.convPoly .up4 1#4 4#16) ({ s with irLenUp4 := 3#32 }.setScrBlock 1
      [0x3F800000#32, 0x42C60000#32, 0x40000000#32, 0x42C60000#32])
    (t.scrBlock 1 4, (t.firLine .up4 1).cur, (t.firLine .up4 0).cur) =
      ([0x3F800000#32, 0x40000000#32, 0x40A00000#32, 0x40800000#32], 1, 0) := by decide +kernel

/-- R175: an odd count is out of range. -/
theorem test_convPoly_odd :
    let t := after (.convPoly .up4 0#4 3#16) started
    (t.err, t.errcode, t.done, t.engPhase) = (true, 0x03#8, false, .idle) := by decide +kernel

/-- R197: an impulse. -/
theorem test_rlpRun :
    (after (.rlpRun .up2 0#4 6#16) (started.setScrBlock 0
      [0x3F800000#32, 0#32, 0#32, 0#32, 0#32, 0#32])).scrBlock 0 6 =
    [0x3E95F61A#32, 0x3F15F61A#32, 0x3E7876CE#32, 0xBDCDD59A#32, 0xBD2A84CF#32, 0x3C8D432C#32] := by
  decide +kernel

/-- R197: the alternating input on the other stage and channel. -/
theorem test_rlpRun_alternating :
    (after (.rlpRun .dn2 1#4 3#16) (started.setScrBlock 1
      [0x3F800000#32, 0xBF800000#32, 0x3F800000#32])).scrBlock 1 3 =
    [0x3E95F61A#32, 0x3E95F61A#32, 0xBD4DD59A#32] := by decide +kernel

/-- By hand from R191 and the operations of 00_scope.md R14, for an infinite y1 and the input 1: with
A1 = +0 the product A1·y1 is a NaN (70_reset_and_hazards.md R357); with A1 = -0.5 and A2 = -0.1 it is
-infinity, and 1 - (-infinity) is +infinity (43_recursive.md R194: the output stays non-finite). -/
theorem test_biquad_of_infinite_state :
    (biquadSample false ⟨0x3F800000#32, 0x3F800000#32, 0x3F800000#32, 0x00000000#32, 0xBDCCCCCD#32⟩
      ⟨0#32, 0#32, 0x7F800000#32, 0#32⟩ 0x3F800000#32).2 = 0x7FC00000#32 ∧
    (biquadSample false ⟨0x3F800000#32, 0x3F800000#32, 0x3F800000#32, 0xBF000000#32, 0xBDCCCCCD#32⟩
      ⟨0#32, 0#32, 0x7F800000#32, 0#32⟩ 0x3F800000#32).2 = 0x7F800000#32 := by decide +kernel

/-- R230. -/
theorem test_setEnabled :
    let t := after (.setEnabled 0xFFFFFFFF#32) started
    (t.osReq, t.pending, t.active) = (true, true, false) := by decide

/-- R248: OS_LAT 2 and VIB_LAT 7 publish 9. -/
theorem test_latTick :
    let t := after (.latTick 5#32) { work .os4 1 4 [] with osDirty := true }
    (t.latPub, t.osTotal, t.vibTotal, t.osDirty, t.latNew) = (9#32, 9#32, 9#32, false, true) := by
  decide

/-- R243: without a dirty flag nothing changes. -/
theorem test_latTick_clean : after (.latTick 0#32) started = started := by decide

/-! ### Steps of the bus and the ENGINE -/

/-- The state after one step. -/
def stepped (s : State) : State :=
  match step s with
  | .next t => t
  | .fault _ => s
  | .refused _ => s

/-- One access by AUDIO, size 4. -/
def access (s : State) (k : AccessKind) (a v : Word) : State :=
  { s with inputs := [.bus ⟨.audio, k, a, 4, v⟩] }

/-- 95_test_vectors.md 2.2. -/
theorem test_bus_reads :
    (stepped (access State.reset .read 0x008#32 0#32)).reply = some ⟨.okay, 0x00FF0402#32⟩ ∧
    (stepped (access State.reset .read 0x00C#32 0#32)).reply = some ⟨.okay, 0x20001000#32⟩ ∧
    (stepped (access State.reset .read 0x2000#32 0#32)).reply = some ⟨.okay, 0x3F800000#32⟩ ∧
    (stepped (access State.reset .read 0x1010#32 0#32)).reply = some ⟨.okay, 0x3E2FB0CD#32⟩ ∧
    (stepped (access State.reset .read 0x23FC#32 0#32)).reply = some ⟨.error, 0#32⟩ ∧
    (stepped (access State.reset .read 0x104000#32 0#32)).errcode = 0x06#8 := by decide +kernel

/-- 95_test_vectors.md 2.2: the checked registers. -/
theorem test_bus_checked_writes :
    (stepped (access State.reset .write 0x04C#32 3#32)).errcode = 0x03#8 ∧
    (stepped (access State.reset .write 0x04C#32 2#32)).nchIn = 2#32 ∧
    (stepped (access State.reset .write 0x080#32 2#32)).errcode = 0x03#8 ∧
    (stepped (access State.reset .write 0x080#32 255#32)).irLenUp4 = 255#32 := by decide +kernel

/-- 95_test_vectors.md 2.2: BUSY comes before RANGE, BUS before BUSY. -/
theorem test_bus_busy :
    (stepped (access started .write 0x04C#32 3#32)).errcode = 0x02#8 ∧
    (stepped (access started .read 0x03C#32 0#32)).errcode = 0x06#8 ∧
    (stepped (access started .write 0x01C#32 1#32)).osReq = true := by decide +kernel

/-- A word placed for the fetch runs as the first step after reset. -/
theorem test_withFetchWord :
    (stepped (State.reset.withFetchWord 32 0x00000000)).done = true ∧
    (stepped (State.reset.withFetchWord 32 0x00080010)).errcode = 0x04#8 := by decide +kernel

/-- 30_encoding.md R129: RUN of a word finishes it. -/
theorem test_runCommand :
    runCommand .audio .nop = [.bus ⟨.audio, .write, 0x010#32, 4, 0#32⟩, .engine, .engine,
      .bus ⟨.audio, .read, 0x014#32, 4, 0#32⟩] := by decide

/-! ### Constants -/

/-- Machin's formula gives the constant of the sine series again. -/
theorem test_piScaled : piFixed 480 = piScaled := by decide +kernel

/-- sin of an eighth of a turn is the square root of 1/2. -/
theorem test_sine_eighth : sin2pi .default 0x3E000000#32 = fsqrt false f32Half := by decide +kernel

/-- 95_test_vectors.md 2.3: the shortest design, by its first and centre taps and its length. -/
theorem test_design :
    let t := (designRat (some 48000) (some 1000) (some 23000) false).1
    (t.length, t.getD 1 0#32, t.getD 5 0#32) = (11, 0x3C16E338#32, 0x3E759515#32) := by
  decide +kernel

/-- R153 by hand: for a tiny cutoff the kernel is flat, so the centre tap of an order-16 design is the
window's 1 over its sum 0.42·16, which is 1/6.72. -/
theorem test_design_tiny_cutoff :
    let t := (designRat (some 1) (some (1 / (pow2 410 : Nat))) (some (1 / 4)) false).1
    (t.length, t.getD 8 0#32) = (17, rn32 false (100 * pow2 149) 672) := by decide +kernel

/-! ### Witnesses: for each statement with hypotheses, a state and operands that meet them -/

/-- Inputs that leave the ENGINE its turn. -/
def turn (s : State) : State := { s with inputs := [.engine, .engine] }

theorem witness_DecodesSpecExampleWords :
    ({ started with pendCmd := 0x00000401#32 } : State).engPhase = .started ∧
    ({ started with pendCmd := 0x00000401#32 } : State).pendCmd = 0x00000401#32 ∧
    ({ started with pendCmd := 0x00000130#32 } : State).pendCmd = 0x00000130#32 := by decide

theorem witness_DecodeOfEncodeIsIdentity :
    Instr.WellFormed (.convDirect .dn4 15#4 65535#16) = true ∧
    Instr.WellFormed (.rlpRun .dn2 0#4 0#16) = true := by decide

theorem witness_DecodedWriteIsItsEncoding :
    decode ⟨0x010#32, 0xFFFFF330#32⟩ = .ok (.convDirect .dn4 15#4 65535#16) := rfl

theorem witness_LegalWordsMatchOpcodeTable :
    ((0x00000230#32 : Word), (0x00000EFF#32 : Word)) ∈ cmdRows ∧
    (0xFFFFF330#32 : Word) &&& 0x00000EFF#32 = 0x00000230#32 := by decide

theorem witness_StepRunsDecodedCommand :
    (turn started).EngineNext [.engine] ∧ started.EngineNext [] ∧ started.engPhase = .started ∧
    decode ⟨cmdAddr, started.pendCmd⟩ = .ok .nop ∧
    decode ⟨cmdAddr, BitVec.ofNat 32 0x00080012⟩ = .ok (.process 8#16) :=
  ⟨.inl rfl, .inr ⟨rfl, rfl⟩, rfl, rfl, rfl⟩

theorem witness_StepRunsRegisterOperation :
    (access started .write 0x01C#32 1#32).inputs = [.bus ⟨.audio, .write, 0x01C#32, 4, 1#32⟩] ∧
    (0x01C#32 : Word) ≠ cmdAddr ∧ (0x020#32 : Word) ≠ cmdAddr ∧
    decode ⟨0x01C#32, 1#32⟩ = .ok (.setEnabled 1#32) ∧
    decode ⟨0x020#32, 0#32⟩ = .ok (.latTick 0#32) := ⟨rfl, by decide, by decide, rfl, rfl⟩

theorem witness_EngineStartSamplesRequest :
    (turn { started with engPhase := .queued }).EngineNext [.engine] ∧
    (turn State.reset).EngineNext [.engine] ∧ (turn State.reset).engPhase = .idle :=
  ⟨.inl rfl, .inl rfl, rfl⟩

theorem witness_IllegalWordRaisesOnlyIllegal :
    ({ started with pendCmd := 0x00000002#32 } : State).EngineNext [] ∧
    ∀ i, decode ⟨cmdAddr, 0x00000002#32⟩ ≠ .ok i := by
  refine ⟨.inr ⟨rfl, rfl⟩, fun i h => ?_⟩
  rw [show decode ⟨cmdAddr, 0x00000002#32⟩ = .error .unknownOp from rfl] at h
  cases h

theorem witness_CommandFinishesWithinTwoTurns :
    (turn { started with engPhase := .queued }).inputs = .engine :: .engine :: [] := rfl

theorem witness_BusyPortKeepsCommandInputs :
    started.busy = true ∧
    step (access started .write 0x060#32 1#32) =
      .next (stepped (access started .write 0x060#32 1#32)) := ⟨by decide, rfl⟩

theorem witness_ResetTable :
    ({ started with inputs := [.reset] } : State).inputs = .reset :: [] ∧
    Params.default.legal = true ∧
    Params.legal ⟨4, 16383, 1023, 4, 65535, true, .other⟩ = true := by decide

/-- No element lies below 0x1000. -/
theorem elementAddress_ge {p : Params} {a : Nat} (h : elementAddress p a) : 0x1000 ≤ a := by
  rcases h with ⟨g, q, j, -, -, rfl⟩ | ⟨g, k, -, rfl⟩ | ⟨c, i, -, -, rfl⟩ | ⟨c, i, -, -, rfl⟩ |
    ⟨c, i, -, -, rfl⟩
  · cases g <;> simp only [coefAddr] <;> omega
  · cases g <;> simp only [tapAddr] <;> omega
  · simp only [inAddr]; omega
  · simp only [outAddr]; omega
  · simp only [scrAddr]; omega

/-- The bounds of the address map: the last register and element of each kind exist. -/
theorem witness_MappedAddressesAreRegistersAndElements :
    Params.default.legal = true ∧ mappedRegister 0x000 ∧ mappedRegister 0x0A0 ∧
    ¬ mappedRegister 0x03C ∧ elementAddress Params.default 0x10F0 ∧
    elementAddress Params.default 0x23F8 ∧ elementAddress Params.default 0x113FFC ∧
    elementAddress Params.default 0x213FFC ∧ elementAddress Params.default 0x44FFFC := by
  refine ⟨by decide, ⟨by decide, by decide, by decide⟩, ⟨by decide, by decide, by decide⟩,
    fun h => h.2.2 rfl, .inl ⟨.dn2, 3, 4, by decide, by decide, rfl⟩,
    .inr (.inl ⟨.up4, 254, by decide, rfl⟩),
    .inr (.inr (.inl ⟨1, 4095, by decide, by decide, rfl⟩)),
    .inr (.inr (.inr (.inl ⟨1, 4095, by decide, by decide, rfl⟩))),
    .inr (.inr (.inr (.inr ⟨1, 16383, by decide, by decide, rfl⟩)))⟩

theorem witness_BadAccessRaisesBusError :
    State.reset.params.legal = true ∧
    (⟨.audio, .read, 0x000#32, 2, 0#32⟩ : BusAccess).size ≠ 4 ∧
    (⟨.audio, .read, 0x002#32, 4, 0#32⟩ : BusAccess).addr.toNat % 4 ≠ 0 ∧
    (¬ mappedRegister 0x03C ∧ ¬ elementAddress State.reset.params 0x03C) ∧
    (¬ mappedRegister 0x0A4 ∧ ¬ elementAddress State.reset.params 0x0A4) := by
  refine ⟨by decide, by decide, by decide, ⟨fun h => h.2.2 rfl, fun h => ?_⟩,
    ⟨fun h => absurd h.2.1 (by decide), fun h => ?_⟩⟩ <;>
  exact absurd (elementAddress_ge h) (by decide)

theorem witness_BusyRefusesAccess :
    started.params.legal = true ∧ started.busy = true ∧
    elementAddress started.params 0x100000 ∧ mappedRegister 0x010 ∧
    (0x010#32 : Word).toNat % 4 = 0 ∧ (0x010#32 : Word).toNat ≠ 0x014 := by
  refine ⟨by decide, by decide, .inr (.inr (.inl ⟨0, 0, by decide, by decide, rfl⟩)),
    ⟨by decide, by decide, by decide⟩, by decide, by decide⟩

theorem witness_RegisterReadHasNoSideEffect :
    (access started .read 0x014#32 0#32).ReadNext (BitVec.ofNat 32 (Reg.offset .status)) [] ∧
    started.params.legal = true := ⟨⟨.audio, 0#32, rfl⟩, by decide⟩

theorem witness_ElementAccess :
    State.reset.params.legal = true ∧ State.reset.busy = false ∧
    elementAddress State.reset.params (0x40FFFC#32 : Word).toNat ∧
    (access State.reset .read 0x40FFFC#32 0#32).ReadNext 0x40FFFC#32 [] ∧
    (access State.reset .write 0x40FFFC#32 5#32).WriteNext 0x40FFFC#32 5#32 [] :=
  ⟨by decide, by decide, .inr (.inr (.inr (.inr ⟨0, 16383, by decide, by decide, rfl⟩))),
    ⟨.audio, 0#32, rfl⟩, ⟨.audio, rfl⟩⟩

theorem witness_ReadOnlyWriteIgnored :
    State.reset.busy = false ∧ Reg.access .id = .ro ∧ Reg.access .wn = .ro ∧
    (access State.reset .write 0x000#32 5#32).WriteNext (BitVec.ofNat 32 (Reg.offset .id)) 5#32 [] :=
  ⟨by decide, rfl, rfl, .audio, rfl⟩

/-- The values next to the legal ranges, with the default parameters. -/
theorem witness_CheckedRegisterRefusesIllegal :
    State.reset.busy = false ∧
    (access State.reset .write 0x04C#32 3#32).WriteNext (BitVec.ofNat 32 (Reg.offset .nchIn)) 3#32 [] ∧
    State.reset.params.nchMax < (3#32 : Word).toNat ∧ (0#32 : Word).toNat < 1 ∧
    (254#32 : Word).toNat % 2 = 0 ∧ State.reset.params.tapMax < (256#32 : Word).toNat ∧
    State.reset.params.rlpSecMax < (5#32 : Word).toNat :=
  ⟨by decide, ⟨.audio, rfl⟩, by decide, by decide, by decide, by decide, by decide⟩

/-- The ends of the legal ranges, with the default parameters. -/
theorem witness_CheckedRegisterCommits :
    State.reset.busy = false ∧ 1 ≤ (2#32 : Word).toNat ∧
    (2#32 : Word).toNat ≤ State.reset.params.nchMax ∧ (255#32 : Word).toNat % 2 = 1 ∧
    (255#32 : Word).toNat ≤ State.reset.params.tapMax ∧
    (4#32 : Word).toNat ≤ State.reset.params.rlpSecMax ∧
    (access State.reset .write 0x04C#32 2#32).WriteNext 0x04C#32 2#32 [] ∧
    (access State.reset .write 0x050#32 2#32).WriteNext 0x050#32 2#32 [] ∧
    (access State.reset .write 0x080#32 255#32).WriteNext 0x080#32 255#32 [] ∧
    (access State.reset .write 0x084#32 1#32).WriteNext 0x084#32 1#32 [] ∧
    (access State.reset .write 0x088#32 4#32).WriteNext 0x088#32 4#32 [] ∧
    (access State.reset .write 0x08C#32 1#32).WriteNext 0x08C#32 1#32 [] :=
  ⟨by decide, by decide, by decide, by decide, by decide, by decide, ⟨.audio, rfl⟩, ⟨.audio, rfl⟩,
    ⟨.audio, rfl⟩, ⟨.audio, rfl⟩, ⟨.audio, rfl⟩, ⟨.audio, rfl⟩⟩

theorem witness_RegisterReadsBack :
    State.reset.busy = false ∧ Reg.access .fxCtrl = .rw ∧ Reg.access .irLenUp4 = .rwc ∧
    Reg.legal State.reset.params 0xFFFFFFFF#32 .fxCtrl = true ∧
    Reg.legal State.reset.params 255#32 .irLenUp4 = true ∧
    (access State.reset .write 0x060#32 0xFFFFFFFF#32).WriteNext
      (BitVec.ofNat 32 (Reg.offset .fxCtrl)) 0xFFFFFFFF#32 [] :=
  ⟨by decide, rfl, rfl, by decide, by decide, .audio, rfl⟩

theorem witness_CmdWriteQueues :
    (access State.reset .write 0x010#32 1#32).WriteNext 0x010#32 1#32 [] ∧
    (access State.reset .write 0x010#32 1#32).busy = false ∧
    (access started .write 0x010#32 1#32).WriteNext 0x010#32 1#32 [] ∧
    (access started .write 0x010#32 1#32).busy = true :=
  ⟨⟨.audio, rfl⟩, by decide, ⟨.audio, rfl⟩, by decide⟩

theorem witness_StatusWriteClears :
    (access started .write 0x014#32 0x1E#32).WriteNext 0x014#32 0x1E#32 [] := ⟨.audio, rfl⟩

theorem witness_CommandErrorsArePrecise :
    (encode (.upsample 0#16)).addr = cmdAddr ∧
    exec (.upsample 0#16) started = .next (after (.upsample 0#16) started) ∧
    exec .nop started = .next (after .nop started) := ⟨rfl, rfl, rfl⟩

/-- Each clause of the table, at the ends of its ranges, with the default parameters. -/
theorem witness_CommandErrorTable :
    started.prepared = false ∧ (work .pass 1 1 []).prepared = true ∧ (0#16).toNat < 1 ∧
    started.params.blkMax < (4097#16).toNat ∧ (work .none 0 0 []).prepared = true ∧
    (work .none 0 0 []).wmode = .none ∧ started.params.nchMax ≤ (2#4).toNat ∧
    4 * started.params.blkMax < (16385#16).toNat ∧ (3#16).toNat % 2 = 1 ∧
    Instr.WellFormed (.rlpRun .up4 0#4 0#16) = false := by decide +kernel

theorem witness_NopCompletes :
    (turn { started with engPhase := .queued }).inputs = .engine :: .engine :: [] ∧
    (turn { started with engPhase := .queued }).engPhase = .queued ∧
    (turn { started with engPhase := .queued }).pendCmd = 0#32 := ⟨rfl, rfl, rfl⟩

theorem witness_SetEnabledCompletes :
    (access started .write 0x01C#32 0#32).WriteNext 0x01C#32 0#32 [] ∧
    (0#32 : Word).getLsbD 0 = started.active ∧
    checkAccess started ⟨.control, .write, 0x01C#32, 2, 0#32⟩ = .error .bus :=
  ⟨⟨.audio, rfl⟩, by decide, rfl⟩

theorem witness_LatTickPublishes :
    (access started .write 0x020#32 0#32).WriteNext 0x020#32 0#32 [] := ⟨.audio, rfl⟩

/-! #### PREPARE -/

/-- A machine ready for PREPARE at FS = 2000, BLOCK_SIZE = 8. -/
def toPrepare : State := { started with fsHi := 0x409F4000#32, blockSize := 8#16 }

theorem witness_PrepareCompletes :
    let d := bits64 toPrepare.fsHi toPrepare.fsLo
    expField64 d ≠ 2047 ∧ d.getLsbD 63 = false ∧ magnitude64 d ≠ 0 ∧
    1 ≤ toPrepare.blockSize.toNat ∧ toPrepare.blockSize.toNat ≤ toPrepare.params.blkMax ∧
    1 * magnitude64 d < pow2 1024 * pow2 1074 ∧
    vibLength (1 * magnitude64 d) ≤ toPrepare.params.vibMax ∧ toPrepare.active = false := by
  decide +kernel

/-- Each failing check: NaN, negative, zero, block sizes 0 and 4097, the overflow of 4·FS, and a rate
just above the longest line. -/
theorem witness_PrepareCompletes_refused :
    expField64 (bits64 0x7FF80000#32 0#32) = 2047 ∧
    (bits64 0xC09F4000#32 0#32).getLsbD 63 = true ∧ magnitude64 (bits64 0#32 0#32) = 0 ∧
    ({ toPrepare with blockSize := 0#16 } : State).blockSize.toNat < 1 ∧
    toPrepare.params.blkMax < ({ toPrepare with blockSize := 4097#16 } : State).blockSize.toNat ∧
    pow2 1024 * pow2 1074 ≤ 4 * magnitude64 (bits64 0x7FD00000#32 0#32) ∧
    toPrepare.params.vibMax < vibLength (4 * magnitude64 (bits64 0x41186A00#32 0#32)) := by
  decide +kernel

theorem witness_PrepareRatesExact :
    toPrepare.params.legal = true ∧ ∃ t, prepareBody toPrepare = .ok t := by
  refine ⟨by decide, ?_⟩
  have h : (prepareBody toPrepare).toOption.isSome = true := by decide +kernel
  generalize prepareBody toPrepare = r at h
  cases r with
  | ok t => exact ⟨t, rfl⟩
  | error e => cases h

/-! #### Work buffers -/

/-- Four words of samples. -/
def four : List Word := [0x3F800000#32, 0xBF800000#32, 0x3F000000#32, 0#32]

theorem reset_shape : State.reset.Shape := by
  refine ⟨rfl, rfl, rfl, rfl, rfl, ?_, ?_⟩ <;> decide

theorem work_inv_pass : (work .pass 2 2 four).Inv := by
  refine ⟨by decide +kernel, ?_, ?_, ?_, ?_, ?_⟩
  · exact reset_shape
  · unfold State.RegistersLegal; decide +kernel
  · unfold State.CursorsInRange; decide +kernel
  · unfold State.VibratoInRange; decide +kernel
  · show State.WorkBufferLegal _ ∧ _
    unfold State.WorkBufferLegal; decide +kernel

theorem work_inv_os4 : (work .os4 1 4 four).Inv := by
  refine ⟨by decide +kernel, ?_, ?_, ?_, ?_, ?_⟩
  · exact reset_shape
  · unfold State.RegistersLegal; decide +kernel
  · unfold State.CursorsInRange; decide +kernel
  · unfold State.VibratoInRange; decide +kernel
  · show State.WorkBufferLegal _ ∧ _
    unfold State.WorkBufferLegal; decide +kernel

/-- A prepared machine, ready for an oversampled block of silence. -/
def readySilence : State :=
  { ready [0#32, 0#32] with
    active := true, reqSnap := true, wfDrive := 0x3F800000#32, fxCtrl := 7#3 }

theorem readySilence_inv : readySilence.Inv := by
  refine ⟨by decide +kernel, ?_, ?_, ?_, ?_, ?_⟩
  · exact reset_shape
  · unfold State.RegistersLegal; decide +kernel
  · unfold State.CursorsInRange; decide +kernel
  · unfold State.VibratoInRange; decide +kernel
  · exact .inl (by decide +kernel)

theorem witness_LatencySumsDoNotWrap :
    started.params.legal = true ∧ started.RegistersLegal := by
  refine ⟨by decide, ?_⟩
  unfold State.RegistersLegal; decide +kernel

/-- A base-rate block of the largest size, and a transitional one. -/
theorem witness_UpsampleCopies :
    (ready four).params.legal = true ∧ (ready four).RegistersLegal ∧ (ready four).prepared = true ∧
    1 ≤ (4096#16).toNat ∧ (4096#16).toNat ≤ (ready four).params.blkMax ∧
    (ready four).active = false ∧
    State.TransitionalNow { ready four with reqSnap := true } := by
  refine ⟨by decide +kernel, ?_, by decide +kernel, by decide, by decide +kernel, by decide +kernel,
    .inr (by decide +kernel)⟩
  unfold State.RegistersLegal; decide +kernel

theorem witness_UpsampleOversamples :
    readySilence.Inv ∧ readySilence.prepared = true ∧ 1 ≤ (1#16).toNat ∧
    (4096#16).toNat ≤ readySilence.params.blkMax ∧ ¬ readySilence.TransitionalNow ∧
    readySilence.active = true := by
  refine ⟨readySilence_inv, by decide +kernel, by decide, by decide +kernel, ?_, by decide +kernel⟩
  unfold State.TransitionalNow; decide +kernel

theorem witness_DownsampleCopies :
    (work .pass 2 2 four).Inv ∧ (work .pass 2 2 four).prepared = true ∧
    (work .pass 2 2 four).wmode = .pass := ⟨work_inv_pass, rfl, rfl⟩

theorem witness_DownsampleDecimates :
    (work .os4 1 4 four).Inv ∧ (work .os4 1 4 four).prepared = true ∧
    (work .os4 1 4 four).wmode = .os4 := ⟨work_inv_os4, rfl, rfl⟩

theorem witness_ProcessEqualsSplitPath :
    (ready four).prepared = true ∧ 1 ≤ (1#16).toNat ∧ (1#16).toNat ≤ (ready four).params.blkMax := by
  decide +kernel

theorem witness_ProcessIdentity :
    (ready four).params.legal = true ∧ (ready four).RegistersLegal ∧ (ready four).prepared = true ∧
    (1#16).toNat ≤ (ready four).params.blkMax ∧
    ((ready four).active = false ∧ (ready four).prepareReq = false ∧ (ready four).reqSnap = false ∧
      (ready four).fxCtrl = 0#3) ∧
    State.TransitionalNow { ready four with prepareReq := true, fxCtrl := 7#3 } := by
  refine ⟨by decide +kernel, ?_, by decide +kernel, by decide +kernel, by decide +kernel, .inl rfl⟩
  unfold State.RegistersLegal; decide +kernel

/-- The whole set of premises of the silence statement, at the reset taps and coefficients. -/
theorem witness_SilenceRoundTrip :
    readySilence.Inv ∧ readySilence.prepared = true ∧ (1#16).toNat ≤ readySilence.params.blkMax ∧
    (∀ l ∈ readySilence.firUp4, l.hist = []) ∧ (∀ l ∈ readySilence.firDn4, l.hist = []) ∧
    (∀ bs ∈ readySilence.rlpUp2, ∀ b ∈ bs, b = Biquad.zero) ∧
    (∀ bs ∈ readySilence.rlpDn2, ∀ b ∈ bs, b = Biquad.zero) ∧
    (∀ g k, k < readySilence.irLen g → isFinite (readySilence.tap g k) = true) ∧
    (∀ g q, q < readySilence.rlpNsec g →
      isFinite (readySilence.coefs g q).b0 = true ∧ isFinite (readySilence.coefs g q).b1 = true ∧
      isFinite (readySilence.coefs g q).b2 = true ∧ isFinite (readySilence.coefs g q).a1 = true ∧
      isFinite (readySilence.coefs g q).a2 = true ∧ signBit (readySilence.coefs g q).b0 = false) ∧
    isFinite readySilence.wfDrive = true ∧
    (readySilence.fxCtrl.getLsbD 2 = true ∧ readySilence.params.sin2pi = .default ∧
      readySilence.PhaseInRange ∧ ∀ l ∈ readySilence.vib, l.vb = []) ∧
    (∀ c < readySilence.nchIn.toNat, ∀ i < (1#16).toNat,
      readySilence.loadWord (inAddr c i) = 0#32) := by
  refine ⟨readySilence_inv, by decide +kernel, by decide +kernel, by decide +kernel,
    by decide +kernel, by decide +kernel, by decide +kernel, ?_, ?_, by decide +kernel,
    ⟨by decide +kernel, by decide +kernel, ⟨by decide +kernel, by decide +kernel⟩, by decide +kernel⟩,
    by decide +kernel⟩
  · intro g k hk
    have h1 : readySilence.irLen g = 1 := by cases g <;> decide +kernel
    obtain rfl : k = 0 := by omega
    cases g <;> decide +kernel
  · intro g q hq
    have h1 : readySilence.rlpNsec g = 1 := by cases g <;> decide +kernel
    obtain rfl : q = 0 := by omega
    cases g <;> decide +kernel

theorem witness_WavefoldCompletes :
    (work .pass 2 2 four).Inv ∧ (work .pass 2 2 four).prepared = true ∧
    (work .pass 2 2 four).wmode ≠ .none := ⟨work_inv_pass, rfl, by decide +kernel⟩

theorem witness_SaturateCompletes :
    (work .os4 1 4 four).Inv ∧ (work .os4 1 4 four).prepared = true ∧
    (work .os4 1 4 four).wmode ≠ .none := ⟨work_inv_os4, rfl, by decide +kernel⟩

/-- A machine with a work buffer; a frequency of 1.0 and one of a NaN; and a line with a finite read
position. -/
theorem witness_VibratoRunsFrameByFrame :
    (work .os4 1 4 four).Inv ∧ (work .os4 1 4 four).prepared = true ∧
    (work .os4 1 4 four).wmode ≠ .none ∧
    unpack 0x3F800000#32 = .fin false (pow2 149) ∧ 1 ≤ pow2 149 ∧
    flt 0x00000000#32 0x7FC00000#32 = false ∧
    isFinite (fsub false (rn32 false (1 * pow2 149) 1) 0x3F000000#32) = true :=
  ⟨work_inv_os4, rfl, by decide +kernel, by decide +kernel, by decide +kernel, by decide +kernel,
    by decide +kernel⟩

/-! #### Arithmetic -/

theorem witness_SaturatorZeroDriveIdentity :
    isFinite 0x7F7FFFFF#32 = true ∧ (0x7F7FFFFF#32 : Word) ≠ 0x80000000#32 ∧
    isFinite 0x00000001#32 = true := by decide

theorem witness_WavefolderGridIdentity :
    -(2 ^ 23 : Nat) ≤ (-8388608 : Int) ∧ (8388607 : Int) < (2 ^ 23 : Nat) := by decide

theorem witness_ZeroDepthVibratoIsPureDelay :
    isFinite 0xBF800000#32 = true ∧ 1 ≤ (65535 : Nat) ∧ 2 * 32767 + 1 ≤ (65535 : Nat) ∧
    ∀ x ∈ four, expField x < 254 ∧ x ≠ 0x80000000#32 ∧
      (true = true → expField x = 0 → x = 0x00000000#32) := by
  have h : four.all (fun x => decide (expField x < 254) && (x != 0x80000000#32) &&
      (expField x != 0 || x == 0x00000000#32)) = true := by decide +kernel
  refine ⟨by decide, by decide, by decide, fun x hx => ?_⟩
  have := List.all_eq_true.mp h x hx
  simp only [Bool.and_eq_true, Bool.or_eq_true, decide_eq_true_eq, bne_iff_ne, beq_iff_eq] at this
  exact ⟨this.1.1, this.1.2, fun _ h0 => this.2.resolve_left (· h0)⟩

theorem witness_PolyphaseEqualsDirect :
    ∀ k < 3, isFinite ((fun k => if k = 0 then f32One else 0xC0000000#32) k) = true := by decide +kernel

/-- The last magnitude that rounds to a finite value, and the first that does not. -/
theorem witness_RoundingNearestEven :
    1 * (pow2 277 - pow2 252) ≤ pow2 277 - pow2 252 ∧
    pow2 277 - pow2 252 - 1 < 1 * (pow2 277 - pow2 252) ∧
    unpack 0x7F7FFFFF#32 = .fin false ((2 ^ 23 + (2 ^ 23 - 1)) * pow2 253) := by decide +kernel

/-- Operands of every kind: a positive and a negative one, zeros, a NaN, and a subnormal that FTZ
flushes. -/
theorem witness_OperationsRoundOnce :
    isFinite 0x40000000#32 = true ∧ 0 < unitsOf (flush true 0x40000000#32) ∧
    unitsOf (flush true 0xC0000000#32) < 0 ∧ unitsOf (flush true 0x80000001#32) = 0 ∧
    unitsOf (flush false 0x80000001#32) ≠ 0 ∧ isNaN 0xFFC00001#32 := by
  refine ⟨by decide, by decide +kernel, by decide +kernel, by decide +kernel, by decide +kernel, ?_⟩
  exact ⟨by decide, by decide⟩

/-! #### The primitives -/

theorem witness_ConvDirectCompletes :
    started.params.legal = true ∧ started.Shape ∧ firStage? .up4 = some .up4 ∧
    firStage? .dn4 = some .dn4 ∧ (1#4).toNat < started.params.nchMax ∧
    (16384#16).toNat ≤ 4 * started.params.blkMax :=
  ⟨by decide, reset_shape, rfl, rfl, by decide, by decide⟩

theorem witness_ConvPolyCompletes :
    started.params.legal = true ∧ started.Shape ∧ firStage? .up4 = some .up4 ∧
    (1#4).toNat < started.params.nchMax ∧ (16384#16).toNat ≤ 4 * started.params.blkMax ∧
    (16384#16).toNat % 2 = 0 ∧ 1 ≤ started.irLen .up4 :=
  ⟨by decide, reset_shape, rfl, by decide, by decide, by decide, by decide⟩

theorem witness_RlpRunCompletes :
    started.params.legal = true ∧ started.Shape ∧ rlpStage? .up2 = some .up2 ∧
    rlpStage? .dn2 = some .dn2 ∧ (1#4).toNat < started.params.nchMax ∧
    (16384#16).toNat ≤ 4 * started.params.blkMax :=
  ⟨by decide, reset_shape, rfl, rfl, by decide, by decide⟩

theorem witness_DirectModeIsConvolution :
    1 ≤ 255 ∧ (⟨254, []⟩ : FirLine).cur < 255 ∧ 3 < four.length := by decide

/-! #### The whole machine -/

/-- A block that applies the toggle. -/
def toggling : State := { ready four with pendCmd := 0x00010010#32, reqSnap := true }

theorem witness_ActiveChangesOnlyByToggle :
    step toggling = .next (stepped toggling) ∧ (stepped toggling).active ≠ toggling.active :=
  ⟨rfl, by decide +kernel⟩

/-- Each dirty flag set, and both cleared. -/
theorem witness_DirtyFlagsSetOnlyByTheirEvents :
    step toggling = .next (stepped toggling) ∧ toggling.osDirty = false ∧
    (stepped toggling).osDirty = true ∧
    (stepped { toPrepare with pendCmd := 1#32 }).vibDirty = true ∧ toPrepare.vibDirty = false ∧
    (stepped (access { started with osDirty := true, vibDirty := true } .write 0x020#32 0#32)).osDirty =
      false :=
  ⟨rfl, by decide +kernel, by decide +kernel, by decide +kernel, by decide +kernel, by decide +kernel⟩

theorem witness_InvariantsAtReset : Params.default.legal = true := by decide

theorem witness_StepKeepsInv :
    (work .os4 1 4 four).Inv ∧ step (work .os4 1 4 four) = .next (stepped (work .os4 1 4 four)) :=
  ⟨work_inv_os4, rfl⟩

theorem witness_StepKeepsPhase :
    State.PhaseInRange { work .os4 1 4 four with vph := 0x3F7FFFFF#32 } ∧
    step { work .os4 1 4 four with pendCmd := 0x22#32 } =
      .next (stepped { work .os4 1 4 four with pendCmd := 0x22#32 }) :=
  ⟨⟨by decide +kernel, by decide +kernel⟩, rfl⟩

theorem witness_StepKeepsCanonicalStores :
    (work .os4 1 4 four).StoresCanonical ∧
    step (work .os4 1 4 four) = .next (stepped (work .os4 1 4 four)) := by
  refine ⟨⟨?_, ?_, ?_, ?_⟩, rfl⟩ <;> decide +kernel

theorem witness_StepKeepsErrorsModesAndTotals :
    State.ErrorRecord { work .os4 1 4 four with err := true, errcode := 0x06#8 } ∧
    (work .os4 1 4 four).ModesAgree ∧ (work .pass 1 1 four).ModesAgree ∧
    (work .trans 1 1 four).ModesAgree ∧ (work .os4 1 4 four).TotalsAgree := by
  unfold State.ErrorRecord State.ModesAgree State.TotalsAgree
  decide +kernel

end Sys2Proof.Tests
end

section
/-! SUPPORT. The fields of a binary32 pattern: a pattern is a sign and its bits 30:0, and `bitsValue`
is the magnitude those bits stand for (00_scope.md R14). -/

namespace Sys2Proof.Machine

/-! ### Sign and bits 30:0 -/

theorem pow2_eq (k : Nat) : pow2 k = 2 ^ k := rfl

theorem pow2_pos (k : Nat) : 0 < pow2 k := Nat.two_pow_pos k

theorem pow2_add (j k : Nat) : pow2 (j + k) = pow2 j * pow2 k := pow_add 2 j k

theorem signBit_eq (w : Word) : signBit w = decide (2 ^ 31 ≤ w.toNat) := by
  have hw := w.isLt
  rw [signBit, BitVec.getLsbD, Nat.testBit_eq_decide_div_mod_eq, decide_eq_decide]
  omega

/-- The exponent field, from bits 30:0. -/
theorem expField_eq (w : Word) : expField w = w.toNat % 2 ^ 31 / 2 ^ 23 := by
  unfold expField; omega

/-- The fraction field, from bits 30:0. -/
theorem fracField_eq (w : Word) : fracField w = w.toNat % 2 ^ 31 % 2 ^ 23 := by
  unfold fracField; omega

theorem toNat_packBits (neg : Bool) {bits : Nat} (h : bits < 2 ^ 31) :
    (packBits neg bits).toNat = (if neg then 2 ^ 31 else 0) + bits := by
  rw [packBits, BitVec.toNat_ofNat, Nat.mod_eq_of_lt]
  split <;> omega

theorem signBit_packBits (neg : Bool) {bits : Nat} (h : bits < 2 ^ 31) :
    signBit (packBits neg bits) = neg := by
  rw [signBit_eq, toNat_packBits neg h]
  cases neg with
  | false => simpa using h
  | true => simp

theorem toNat_packBits_mod (neg : Bool) {bits : Nat} (h : bits < 2 ^ 31) :
    (packBits neg bits).toNat % 2 ^ 31 = bits := by
  rw [toNat_packBits neg h]
  split <;> omega

theorem expField_packBits (neg : Bool) {bits : Nat} (h : bits < 2 ^ 31) :
    expField (packBits neg bits) = bits / 2 ^ 23 := by
  rw [expField_eq, toNat_packBits_mod neg h]

theorem fracField_packBits (neg : Bool) {bits : Nat} (h : bits < 2 ^ 31) :
    fracField (packBits neg bits) = bits % 2 ^ 23 := by
  rw [fracField_eq, toNat_packBits_mod neg h]

/-- Bit 0 of a pattern is the parity of its fraction. -/
theorem getLsbD_zero_packBits (neg : Bool) {bits : Nat} (h : bits < 2 ^ 31) :
    (packBits neg bits).getLsbD 0 = decide (bits % 2 = 1) := by
  rw [BitVec.getLsbD, toNat_packBits neg h, Nat.testBit_zero, decide_eq_decide]
  split <;> omega

/-- A pattern is its sign and its bits 30:0. -/
theorem packBits_signBit (w : Word) : packBits (signBit w) (w.toNat % 2 ^ 31) = w := by
  have hw := w.isLt
  apply BitVec.eq_of_toNat_eq
  rw [toNat_packBits _ (Nat.mod_lt _ (by decide)), signBit_eq]
  simp only [decide_eq_true_eq]
  split <;> omega

@[simp] theorem signBit_zero (neg : Bool) : signBit (zero neg) = neg := by cases neg <;> rfl

@[simp] theorem expField_zero (neg : Bool) : expField (zero neg) = 0 := by cases neg <;> rfl

@[simp] theorem unpack_zero (neg : Bool) : unpack (zero neg) = .fin neg 0 := by cases neg <;> rfl

@[simp] theorem unpack_infinity (neg : Bool) : unpack (infinity neg) = .inf neg := by
  cases neg <;> rfl

/-! ### The magnitude of bits 30:0 -/

/-- The magnitude, in units of 2^-149, of the finite pattern with these bits 30:0 (R14). -/
def bitsValue (b : Nat) : Nat :=
  if b < 2 ^ 23 then b else (2 ^ 23 + b % 2 ^ 23) * 2 ^ (b / 2 ^ 23 - 1)

theorem unpack_packBits (neg : Bool) {b : Nat} (h : b < 0x7F800000) :
    unpack (packBits neg b) = .fin neg (bitsValue b) := by
  have h31 : b < 2 ^ 31 := by omega
  unfold unpack bitsValue
  rw [expField_packBits neg h31, fracField_packBits neg h31, signBit_packBits neg h31,
    if_neg (by omega)]
  by_cases hb : b < 2 ^ 23
  · rw [if_pos (by omega), if_pos hb, Nat.mod_eq_of_lt hb]
  · rw [if_neg (by omega), if_neg hb]

/-- A significand `q` placed `step` binades up has the value `q·2^step`, also where `q` carries out of
the fraction (`q = 2^24`). -/
theorem bitsValue_step {step q : Nat} (hlo : step = 0 ∨ 2 ^ 23 ≤ q) (hhi : q ≤ 2 ^ 24) :
    bitsValue (step * 2 ^ 23 + q) = q * 2 ^ step := by
  unfold bitsValue
  by_cases hq : q < 2 ^ 23
  · obtain rfl : step = 0 := by omega
    rw [if_pos (by omega)]; omega
  · rw [if_neg (by omega)]
    by_cases hc : q = 2 ^ 24
    · subst hc
      rw [show (step * 2 ^ 23 + 2 ^ 24) % 2 ^ 23 = 0 by omega,
        show (step * 2 ^ 23 + 2 ^ 24) / 2 ^ 23 - 1 = step + 1 by omega, Nat.pow_succ]
      ring
    · rw [show (step * 2 ^ 23 + q) % 2 ^ 23 = q - 2 ^ 23 by omega,
        show (step * 2 ^ 23 + q) / 2 ^ 23 - 1 = step by omega,
        show 2 ^ 23 + (q - 2 ^ 23) = q by omega]

/-- Bits 30:0 are a step and a significand below 2^24, with the top bit set above the lowest
binades. -/
theorem exists_step_eq (b : Nat) :
    ∃ step q, b = step * 2 ^ 23 + q ∧ (step = 0 ∨ 2 ^ 23 ≤ q) ∧ q < 2 ^ 24 := by
  by_cases hb : b < 2 ^ 23
  · exact ⟨0, b, by omega, .inl rfl, by omega⟩
  · exact ⟨b / 2 ^ 23 - 1, 2 ^ 23 + b % 2 ^ 23, by omega, .inr (by omega), by omega⟩

/-- From `2^(e + 23)` units on, binary32 values are multiples of `2^e`. -/
theorem dvd_bitsValue {b e : Nat} (h : 2 ^ (e + 23) ≤ bitsValue b) : 2 ^ e ∣ bitsValue b := by
  obtain ⟨step, q, rfl, hlo, hhi⟩ := exists_step_eq b
  rw [bitsValue_step hlo hhi.le] at h ⊢
  have hlt : 2 ^ (e + 23) < 2 ^ (24 + step) := by
    rw [Nat.pow_add 2 24]
    exact h.trans_lt (Nat.mul_lt_mul_of_pos_right hhi (Nat.two_pow_pos _))
  have := (Nat.pow_lt_pow_iff_right (by decide : 1 < 2)).mp hlt
  exact (Nat.pow_dvd_pow 2 (by omega)).mul_left q

/-- The patterns of a finite value: its sign, and bits 30:0 of its magnitude. -/
theorem unpack_eq_fin {w : Word} {s : Bool} {m : Nat} (h : unpack w = .fin s m) :
    ∃ b < 0x7F800000, w = packBits s b ∧ m = bitsValue b := by
  have hw := packBits_signBit w
  generalize hb : w.toNat % 2 ^ 31 = b at hw
  have hfin : b < 0x7F800000 := by
    by_contra hge
    have he : expField w = 255 := by rw [expField_eq, hb]; omega
    unfold unpack at h
    rw [if_pos he] at h
    split at h <;> cases h
  rw [← hw, unpack_packBits _ hfin, Fl.fin.injEq] at h
  exact ⟨b, hfin, by rw [← h.1, hw], h.2.symm⟩

end Sys2Proof.Machine
end

section
/-! SUPPORT. `RN32` (00_scope.md R15): `roundMag` is exact on binary32 magnitudes, overflows from
2^128·(1 - 2^-25) on, and is the nearest magnitude below that. -/

namespace Sys2Proof.Machine

/-! ### Rounding to a whole number -/

theorem roundEven_of_dvd (q : Nat) {den : Nat} (hd : 0 < den) : roundEven (q * den) den = q := by
  simp [roundEven, Nat.mul_div_cancel _ hd, hd]

/-- Rounding goes to the quotient, from at most half a step above it, or to the next number, from at
least half a step above it; half a step goes to the even one (R15). -/
theorem roundEven_cases (num den : Nat) :
    (roundEven num den = num / den ∧ 2 * (num % den) ≤ den ∧
      (2 * (num % den) = den → num / den % 2 = 0)) ∨
    (roundEven num den = num / den + 1 ∧ den ≤ 2 * (num % den) ∧
      (2 * (num % den) = den → num / den % 2 = 1)) := by
  unfold roundEven
  split
  · exact .inl ⟨rfl, by omega, by omega⟩
  · split
    · rcases Nat.mod_two_eq_zero_or_one (num / den) with h | h
      · exact .inl ⟨by omega, by omega, fun _ => h⟩
      · exact .inr ⟨by omega, by omega, fun _ => h⟩
    · exact .inr ⟨rfl, by omega, by omega⟩

/-! ### The binade of a quotient -/

/-- The significand before rounding has at most 24 bits. -/
theorem div_step_lt (num den : Nat) : num / (den * 2 ^ roundStep num den) < 2 ^ 24 := by
  rw [← Nat.div_div_eq_div_mul, Nat.div_lt_iff_lt_mul (Nat.two_pow_pos _), ← Nat.pow_add]
  refine Nat.lt_log2_self.trans_le (Nat.pow_le_pow_right (by decide) ?_)
  unfold roundStep; omega

/-- Above the lowest binades it has exactly 24. -/
theorem le_div_step {num den : Nat} (h : 0 < roundStep num den) :
    2 ^ 23 ≤ num / (den * 2 ^ roundStep num den) := by
  rw [← Nat.div_div_eq_div_mul, Nat.le_div_iff_mul_le (Nat.two_pow_pos _), ← Nat.pow_add]
  unfold roundStep at h ⊢
  rw [show 23 + ((num / den).log2 - 23) = (num / den).log2 by omega]
  exact Nat.log2_self_le (by rintro h0; simp [h0] at h)

/-- The rounded significand has at most 24 bits or is 2^24. -/
theorem roundEven_step_le (num den : Nat) :
    roundEven num (den * 2 ^ roundStep num den) ≤ 2 ^ 24 := by
  have := div_step_lt num den
  rcases roundEven_cases num (den * 2 ^ roundStep num den) with ⟨h, -⟩ | ⟨h, -⟩ <;> omega

theorem le_roundEven_step (num den : Nat) :
    roundStep num den = 0 ∨ 2 ^ 23 ≤ roundEven num (den * 2 ^ roundStep num den) := by
  rcases Nat.eq_zero_or_pos (roundStep num den) with h | h
  · exact .inl h
  · have := le_div_step h
    rcases roundEven_cases num (den * 2 ^ roundStep num den) with ⟨h, -⟩ | ⟨h, -⟩ <;> omega

theorem roundMag_eq (num den : Nat) :
    roundMag num den =
      if roundStep num den * 2 ^ 23 + roundEven num (den * 2 ^ roundStep num den) < 0x7F800000 then
        roundStep num den * 2 ^ 23 + roundEven num (den * 2 ^ roundStep num den)
      else 0x7F800000 := rfl

theorem roundMag_le (num den : Nat) : roundMag num den ≤ 0x7F800000 := by
  rw [roundMag_eq]; split <;> omega

/-- A finite rounding stands for the rounded significand. -/
theorem bitsValue_roundMag {num den : Nat} (h : roundMag num den < 0x7F800000) :
    bitsValue (roundMag num den) =
      roundEven num (den * 2 ^ roundStep num den) * 2 ^ roundStep num den := by
  rw [roundMag_eq] at h ⊢
  split at h
  · next hlt =>
    rw [if_pos hlt, bitsValue_step (le_roundEven_step num den) (roundEven_step_le num den)]
  · omega

/-! ### Exact values -/

/-- The magnitude of a pattern rounds to the pattern. -/
theorem roundMag_bitsValue {b den : Nat} (hb : b < 0x7F800000) (hd : 0 < den) :
    roundMag (bitsValue b * den) den = b := by
  obtain ⟨step, q, rfl, hlo, hhi⟩ := exists_step_eq b
  have hstep : roundStep (q * 2 ^ step * den) den = step := by
    unfold roundStep
    rw [Nat.mul_div_cancel _ hd]
    rcases hlo with rfl | hlo
    · have : q.log2 < 24 := by
        rcases Nat.eq_zero_or_pos q with rfl | hq
        · decide
        · exact (Nat.log2_lt hq.ne').mpr hhi
      simp only [Nat.pow_zero, Nat.mul_one]; omega
    · have hq : q * 2 ^ step ≠ 0 := (Nat.mul_pos (by omega) (Nat.two_pow_pos _)).ne'
      have : (q * 2 ^ step).log2 = 23 + step := by
        rw [Nat.log2_eq_iff hq, Nat.pow_add, show 23 + step + 1 = 24 + step by omega, Nat.pow_add 2 24]
        exact ⟨Nat.mul_le_mul_right _ hlo, Nat.mul_lt_mul_of_pos_right hhi (Nat.two_pow_pos _)⟩
      omega
  rw [bitsValue_step hlo hhi.le, roundMag_eq, hstep,
    show q * 2 ^ step * den = q * (den * 2 ^ step) by ring,
    roundEven_of_dvd q (Nat.mul_pos hd (Nat.two_pow_pos _)), if_pos hb]

theorem rn32_eq (neg : Bool) (num : Nat) {den : Nat} (hd : 0 < den) :
    rn32 neg num den = packBits neg (roundMag num den) := if_neg hd.ne'

/-- `RN32` of a binary32 value is that value (R15). -/
theorem rn32_exact {w : Word} {s : Bool} {m num den : Nat} (hw : unpack w = .fin s m) (hd : 0 < den)
    (hnum : num = m * den) : rn32 s num den = w := by
  obtain ⟨b, hb, rfl, rfl⟩ := unpack_eq_fin hw
  rw [rn32_eq _ _ hd, hnum, roundMag_bitsValue hb hd]

/-- The finite rounding of a quotient, unpacked. -/
theorem unpack_rn32 (neg : Bool) {num den : Nat} (hd : 0 < den) (h : roundMag num den < 0x7F800000) :
    unpack (rn32 neg num den) = .fin neg (bitsValue (roundMag num den)) := by
  rw [rn32_eq neg num hd, unpack_packBits neg h]

/-- `RN32` of 0, of either sign. -/
@[simp] theorem rn32_zero (neg : Bool) (den : Nat) : rn32 neg 0 den = zero neg := by
  by_cases h : den = 0
  · simp [rn32, h]
  · exact rn32_exact (unpack_zero neg) (Nat.pos_of_ne_zero h) (by simp)

/-- The products of 2^e with up to 24 bits are binary32 magnitudes. -/
theorem exists_bitsValue_eq {z e : Nat} (hz : z < 2 ^ 24) (he : e ≤ 253) :
    ∃ b < 0x7F800000, bitsValue b = z * 2 ^ e := by
  induction e generalizing z with
  | zero => exact ⟨0 * 2 ^ 23 + z, by omega, bitsValue_step (.inl rfl) hz.le⟩
  | succ e ih =>
    by_cases h : z < 2 ^ 23
    · obtain ⟨b, hb, hv⟩ := ih (z := 2 * z) (by omega) (by omega)
      exact ⟨b, hb, by rw [hv, Nat.pow_succ]; ring⟩
    · exact ⟨(e + 1) * 2 ^ 23 + z, by omega, bitsValue_step (.inr (by omega)) hz.le⟩

/-- `RN32` of a 24-bit multiple of 2^e is exact. -/
theorem unpack_rn32_scaled (neg : Bool) {z e : Nat} (hz : z < 2 ^ 24) (he : e ≤ 253) :
    unpack (rn32 neg (z * pow2 e) 1) = .fin neg (z * pow2 e) := by
  obtain ⟨b, hb, hv⟩ := exists_bitsValue_eq hz he
  rw [pow2_eq, ← hv, rn32_exact (unpack_packBits neg hb) one_pos (by simp), unpack_packBits neg hb]

/-! ### Overflow -/

/-- The overflow threshold 2^128·(1 - 2^-25), in units of 2^-149. -/
theorem overflowBound_eq : pow2 277 - pow2 252 = (2 ^ 25 - 1) * pow2 252 := by
  rw [show 277 = 25 + 252 from rfl, pow2_add, Nat.sub_mul, Nat.one_mul, pow2_eq 25]

/-- In the highest finite binade the significand stays below 2^24 exactly below its last midpoint. -/
theorem roundEven_lt_iff {num d : Nat} (hd : 0 < d) (h : num / d < 2 ^ 24) :
    roundEven num d < 2 ^ 24 ↔ 2 * num < d * (2 ^ 25 - 1) := by
  have hnum := Nat.div_add_mod num d
  have hmod := Nat.mod_lt num hd
  have hcases := roundEven_cases num d
  generalize roundEven num d = e at *
  generalize num % d = r at *
  generalize num / d = q at *
  rcases Nat.lt_or_ge q (2 ^ 24 - 1) with hq | hq
  · have hmul : d * q ≤ d * (2 ^ 24 - 2) := Nat.mul_le_mul_left d (by omega)
    rcases hcases with ⟨he, -⟩ | ⟨he, -⟩ <;> omega
  · obtain rfl : q = 2 ^ 24 - 1 := by omega
    rcases hcases with ⟨he, hle, heven⟩ | ⟨he, hle, -⟩
    · have hne : 2 * r ≠ d := fun hc => by simpa using heven hc
      refine iff_of_true (by simp [he]) ?_
      rw [← hnum]
      clear heven he hnum h hq
      omega
    · omega

/-- The rounding is finite exactly below the overflow threshold (R15). -/
theorem roundMag_lt_iff (num : Nat) {den : Nat} (hd : 0 < den) :
    roundMag num den < 0x7F800000 ↔ num < den * (pow2 277 - pow2 252) := by
  have hlt := div_step_lt num den
  have hle := le_roundEven_step num den
  have hhi := roundEven_step_le num den
  have hiff := roundEven_lt_iff (Nat.mul_pos hd (Nat.two_pow_pos _)) hlt
  have hfin : roundMag num den < 0x7F800000 ↔
      roundStep num den * 2 ^ 23 + roundEven num (den * 2 ^ roundStep num den) < 0x7F800000 := by
    rw [roundMag_eq]; split <;> omega
  have hge := @le_div_step num den
  rw [hfin, overflowBound_eq,
    show den * ((2 ^ 25 - 1) * pow2 252) = den * pow2 252 * (2 ^ 25 - 1) by ring]
  generalize roundStep num den = step at *
  generalize roundEven num (den * 2 ^ step) = e at *
  have hD : 0 < den * 2 ^ step := Nat.mul_pos hd (Nat.two_pow_pos _)
  rw [Nat.div_lt_iff_lt_mul hD] at hlt
  simp only [Nat.le_div_iff_mul_le hD] at hge
  rcases Nat.lt_trichotomy step 253 with h | rfl | h
  · have hp : den * 2 ^ step ≤ den * pow2 252 :=
      Nat.mul_le_mul_left den (Nat.pow_le_pow_right (by decide) (by omega))
    omega
  · rw [show den * 2 ^ 253 = 2 * (den * pow2 252) by rw [pow2_eq, Nat.pow_succ]; ring] at hiff
    omega
  · have hpow : pow2 2 * pow2 252 ≤ 2 ^ step := by
      rw [← pow2_add]; exact Nat.pow_le_pow_right (by decide) h
    have hp : den * (2 ^ 2 * pow2 252) ≤ den * 2 ^ step := Nat.mul_le_mul_left den hpow
    rw [show den * (2 ^ 2 * pow2 252) = 4 * (den * pow2 252) by ring] at hp
    omega

/-- From the threshold on, `RN32` is an infinity (R15). -/
theorem rn32_overflow (neg : Bool) {num den : Nat} (hd : 0 < den)
    (h : den * (pow2 277 - pow2 252) ≤ num) : rn32 neg num den = infinity neg := by
  have hfin := (roundMag_lt_iff num hd).not.mpr h.not_gt
  rw [rn32_eq neg num hd, le_antisymm (roundMag_le num den) (not_lt.mp hfin)]
  rfl

/-! ### The nearest value -/

/-- No binary32 magnitude lies between two neighbours of the grid on which a quotient is rounded. -/
theorem bitsValue_le_or_ge (b num den : Nat) :
    bitsValue b ≤ num / (den * 2 ^ roundStep num den) * 2 ^ roundStep num den ∨
    (num / (den * 2 ^ roundStep num den) + 1) * 2 ^ roundStep num den ≤ bitsValue b := by
  rcases Nat.eq_zero_or_pos (roundStep num den) with h | h
  · simp only [h, Nat.pow_zero, Nat.mul_one]; omega
  · have hq := le_div_step h
    generalize roundStep num den = step at *
    generalize num / (den * 2 ^ step) = q at *
    by_contra hno
    obtain ⟨hlo, hhi⟩ := not_or.mp hno
    have hlow : 2 ^ (step + 23) ≤ bitsValue b := by
      rw [Nat.add_comm, Nat.pow_add]
      exact (Nat.mul_le_mul_right _ hq).trans (not_le.mp hlo).le
    obtain ⟨c, hc⟩ := dvd_bitsValue hlow
    rw [hc, Nat.mul_comm (2 ^ step)] at hlo hhi
    have h1 := lt_of_mul_lt_mul_right (not_le.mp hlo) (Nat.zero_le _)
    have h2 := lt_of_mul_lt_mul_right (not_le.mp hhi) (Nat.zero_le _)
    omega

/-- Rounding to the grid of multiples of `g` is nearest among the values that avoid the open gap around
the quotient, and a value as near as the result means that the result is even (R15). -/
theorem roundEven_nearest {num den g k : Nat} (hden : 0 < den) (hg : 0 < g)
    (hk : k ≤ num / (den * g) * g ∨ (num / (den * g) + 1) * g ≤ k) :
    ((roundEven num (den * g) * g : Nat) * (den : Int) - num).natAbs ≤
      ((k : Int) * den - num).natAbs ∧
    (((roundEven num (den * g) * g : Nat) * (den : Int) - num).natAbs =
        ((k : Int) * den - num).natAbs → k ≠ roundEven num (den * g) * g →
      roundEven num (den * g) % 2 = 0) := by
  have hnum := Nat.div_add_mod num (den * g)
  have hmod := Nat.mod_lt num (Nat.mul_pos hden hg)
  have hcases := roundEven_cases num (den * g)
  generalize roundEven num (den * g) = e at *
  generalize num % (den * g) = r at *
  generalize num / (den * g) = q at *
  have hkd : k * den ≤ q * g * den ∨ (q + 1) * g * den ≤ k * den :=
    hk.imp (Nat.mul_le_mul_right den) (Nat.mul_le_mul_right den)
  have hne : k ≠ e * g → k * den ≠ e * g * den := fun h hc => h (Nat.eq_of_mul_eq_mul_right hden hc)
  have hq : den * g * q = q * g * den := by ring
  have hq1 : (q + 1) * g * den = q * g * den + den * g := by ring
  simp only [← Nat.cast_mul]
  rw [hq] at hnum
  rw [hq1] at hkd
  rcases hcases with ⟨rfl, hle, heven⟩ | ⟨rfl, hle, heven⟩
  · generalize den * g = d at *
    generalize e * g * den = x at *
    generalize k * den = y at *
    omega
  · rw [hq1] at hne ⊢
    generalize den * g = d at *
    generalize q * g * den = x at *
    generalize k * den = y at *
    omega

/-- Below the overflow threshold the rounding is the nearest binary32 magnitude, and of two nearest the
one with an even pattern (R15). -/
theorem roundMag_nearest {num den : Nat} (hd : 0 < den) (hnum : num < den * (pow2 277 - pow2 252))
    (b : Nat) :
    ((bitsValue (roundMag num den) : Int) * den - num).natAbs ≤
      ((bitsValue b : Int) * den - num).natAbs ∧
    (((bitsValue (roundMag num den) : Int) * den - num).natAbs =
        ((bitsValue b : Int) * den - num).natAbs →
      bitsValue b ≠ bitsValue (roundMag num den) → roundMag num den % 2 = 0) := by
  have hfin := (roundMag_lt_iff num hd).mpr hnum
  have hpar : roundMag num den % 2 = roundEven num (den * 2 ^ roundStep num den) % 2 := by
    rw [roundMag_eq] at hfin ⊢
    split at hfin
    · next hlt => rw [if_pos hlt]; omega
    · omega
  rw [bitsValue_roundMag hfin, hpar]
  exact roundEven_nearest hd (Nat.two_pow_pos _) (bitsValue_le_or_ge b num den)

end Sys2Proof.Machine
end

section
/-! PROOF. Rounding (00_scope.md R15). -/

namespace Sys2Proof.Machine

/-- Settles O52: the nearest value by `roundMag_nearest`, and the infinities by `rn32_overflow`. -/
theorem roundingNearestEven : Obligations.RoundingNearestEven := by
  refine ⟨rn32_zero false, fun neg num den hden => ⟨rn32_overflow neg hden, fun hnum => ?_⟩⟩
  have hfin := (roundMag_lt_iff num hden).mpr hnum
  refine ⟨_, unpack_rn32 neg hden hfin, fun v sgn k hv => ?_⟩
  obtain ⟨b, -, -, rfl⟩ := unpack_eq_fin hv
  obtain ⟨hle, heven⟩ := roundMag_nearest hden hnum b
  refine ⟨hle, fun heq hne => ?_⟩
  rw [rn32_eq neg num hden, getLsbD_zero_packBits neg (by omega), heven heq hne]
  rfl

end Sys2Proof.Machine
end

section
/-! SUPPORT. Operands, results and comparisons of binary32 (00_scope.md R14, R16, R17): a finite word is
its sign and its units, an operand is the flushed word, and a result is flushed `RN32`. -/

namespace Sys2Proof.Machine

/-! ### Finite words -/

theorem isFinite_iff (w : Word) : isFinite w = true ↔ expField w ≠ 255 := by simp [isFinite]

theorem signBit_of_unpack {w : Word} {s : Bool} {m : Nat} (h : unpack w = .fin s m) :
    signBit w = s := by
  obtain ⟨b, hb, rfl, -⟩ := unpack_eq_fin h
  exact signBit_packBits s (by omega)

theorem isFinite_of_unpack {w : Word} {s : Bool} {m : Nat} (h : unpack w = .fin s m) :
    isFinite w = true := by
  obtain ⟨b, hb, rfl, -⟩ := unpack_eq_fin h
  rw [isFinite_iff, expField_packBits s (by omega)]
  omega

theorem unitsOf_of_unpack {w : Word} {s : Bool} {m : Nat} (h : unpack w = .fin s m) :
    unitsOf w = if s then -(m : Int) else m := by
  rw [unitsOf, h]

theorem natAbs_unitsOf {w : Word} {s : Bool} {m : Nat} (h : unpack w = .fin s m) :
    (unitsOf w).natAbs = m := by
  rw [unitsOf_of_unpack h]; cases s <;> simp

/-- A finite word unpacks to its sign and its units. -/
theorem unpack_of_finite {w : Word} (h : isFinite w = true) :
    unpack w = .fin (signBit w) (unitsOf w).natAbs := by
  have hfin : ∃ m, unpack w = .fin (signBit w) m := by
    rw [isFinite_iff] at h
    unfold unpack
    rw [if_neg h]
    split <;> exact ⟨_, rfl⟩
  obtain ⟨m, hm⟩ := hfin
  rw [natAbs_unitsOf hm, hm]

/-- The sign of a nonzero word is the sign of its units. -/
theorem signBit_of_units_ne {w : Word} (h : isFinite w = true) (h0 : unitsOf w ≠ 0) :
    signBit w = decide (unitsOf w < 0) := by
  have hval := unitsOf_of_unpack (unpack_of_finite h)
  have hnn := Int.natCast_nonneg (unitsOf w).natAbs
  cases hs : signBit w with
  | true => rw [hs, if_pos rfl] at hval; exact (decide_eq_true (by omega)).symm
  | false => rw [hs, if_neg Bool.false_ne_true] at hval; exact (decide_eq_false (by omega)).symm

/-- Two finite words of one sign and magnitude are one word. -/
theorem eq_of_unpack_eq {v w : Word} {s : Bool} {m : Nat} (hv : unpack v = .fin s m)
    (hw : unpack w = .fin s m) : v = w := by
  rw [← rn32_exact hv one_pos rfl, rn32_exact hw one_pos rfl]

/-- Finite magnitudes lie below 2^128. -/
theorem mag_lt {w : Word} {s : Bool} {m : Nat} (h : unpack w = .fin s m) : m < pow2 277 := by
  obtain ⟨b, hb, -, rfl⟩ := unpack_eq_fin h
  have hr := (roundMag_lt_iff (bitsValue b * 1) one_pos).mp
    (by rw [roundMag_bitsValue hb one_pos]; exact hb)
  omega

/-! ### Subnormals and FTZ -/

/-- The subnormal magnitudes are those below 2^23 units. -/
theorem bitsValue_lt_iff (b : Nat) : bitsValue b < 2 ^ 23 ↔ b < 2 ^ 23 := by
  unfold bitsValue
  split
  · rfl
  · next h =>
    have hp := Nat.two_pow_pos (b / 2 ^ 23 - 1)
    have hmul := Nat.le_mul_of_pos_right (2 ^ 23 + b % 2 ^ 23) hp
    generalize (2 ^ 23 + b % 2 ^ 23) * 2 ^ (b / 2 ^ 23 - 1) = v at *
    omega

theorem expField_eq_zero_iff {w : Word} {s : Bool} {m : Nat} (h : unpack w = .fin s m) :
    expField w = 0 ↔ m < 2 ^ 23 := by
  obtain ⟨b, hb, rfl, rfl⟩ := unpack_eq_fin h
  rw [expField_packBits s (by omega), bitsValue_lt_iff]
  omega

/-- FTZ leaves a normal word and a zero alone. -/
theorem flush_eq_self (ftz : Bool) {w : Word} {s : Bool} {m : Nat} (h : unpack w = .fin s m)
    (hm : ftz = true → m = 0 ∨ 2 ^ 23 ≤ m) : flush ftz w = w := by
  unfold flush
  split
  · next hc =>
    obtain rfl : m = 0 := by
      have := (expField_eq_zero_iff h).mp hc.2
      have := hm hc.1
      omega
    rw [signBit_of_unpack h]
    exact eq_of_unpack_eq (unpack_zero s) h
  · rfl

@[simp] theorem flush_zero (ftz neg : Bool) : flush ftz (zero neg) = zero neg := by
  simp [flush]

@[simp] theorem signBit_flush (ftz : Bool) (w : Word) : signBit (flush ftz w) = signBit w := by
  unfold flush; split <;> simp

@[simp] theorem isFinite_flush (ftz : Bool) (w : Word) : isFinite (flush ftz w) = isFinite w := by
  unfold flush
  split
  · next h => simp [isFinite, h.2]
  · rfl

/-- An operand is the flushed word, unpacked (R14). -/
theorem operand_eq (ftz : Bool) (w : Word) : operand ftz w = unpack (flush ftz w) := by
  unfold operand
  cases h : unpack w with
  | nan | inf =>
    have he : expField w ≠ 0 := fun h0 => by simp [unpack, h0] at h
    simp [flush, he, h]
  | fin s m =>
    show (if (ftz && decide (m < 2 ^ 23)) = true then Fl.fin s 0 else Fl.fin s m) = _
    simp only [Bool.and_eq_true, decide_eq_true_eq]
    by_cases hc : ftz = true ∧ m < 2 ^ 23
    · rw [if_pos hc, flush, if_pos ⟨hc.1, (expField_eq_zero_iff h).mpr hc.2⟩, unpack_zero,
        signBit_of_unpack h]
    · rw [if_neg hc, flush, if_neg (by rwa [expField_eq_zero_iff h]), h]

/-- A result is `RN32`, flushed (R14). -/
theorem roundResult_eq (ftz neg : Bool) (num : Nat) {den : Nat} (hd : 0 < den) :
    roundResult ftz neg num den = flush ftz (rn32 neg num den) := by
  have hle := roundMag_le num den
  have h31 : roundMag num den < 2 ^ 31 := by omega
  have he : expField (packBits neg (roundMag num den)) = 0 ↔ roundMag num den < 2 ^ 23 := by
    rw [expField_packBits neg h31]; omega
  unfold roundResult flush
  simp only [rn32_eq neg num hd, he, signBit_packBits neg h31, Bool.and_eq_true, decide_eq_true_eq]

/-! ### NaN -/

theorem isNaN_iff (w : Word) : isNaN w ↔ unpack w = .nan := by
  unfold isNaN unpack
  by_cases he : expField w = 255
  · by_cases hf : fracField w = 0 <;> simp [he, hf]
  · by_cases h0 : expField w = 0 <;> simp [he, h0]

theorem operand_of_isNaN (ftz : Bool) {w : Word} (h : isNaN w) : operand ftz w = .nan := by
  rw [isNaN_iff] at h
  rw [operand, h]

@[simp] theorem operand_infinity (ftz neg : Bool) : operand ftz (infinity neg) = .inf neg := by
  rw [operand, unpack_infinity]

theorem operand_of_finite (ftz : Bool) {w : Word} (h : isFinite w = true) :
    operand ftz w = .fin (signBit (flush ftz w)) (unitsOf (flush ftz w)).natAbs := by
  rw [operand_eq, unpack_of_finite (by simpa using h)]

/-! ### Negation -/

theorem toNat_fneg_mod (w : Word) : (fneg w).toNat % 2 ^ 31 = w.toNat % 2 ^ 31 := by
  rw [fneg, BitVec.toNat_xor, Nat.xor_mod_two_pow]
  simp

@[simp] theorem signBit_fneg (w : Word) : signBit (fneg w) = !signBit w := by
  simp [signBit, fneg]

@[simp] theorem expField_fneg (w : Word) : expField (fneg w) = expField w := by
  rw [expField_eq, expField_eq, toNat_fneg_mod]

@[simp] theorem fracField_fneg (w : Word) : fracField (fneg w) = fracField w := by
  rw [fracField_eq, fracField_eq, toNat_fneg_mod]

@[simp] theorem isFinite_fneg (w : Word) : isFinite (fneg w) = isFinite w := by simp [isFinite]

theorem isNaN_fneg (w : Word) : isNaN (fneg w) ↔ isNaN w := by simp [isNaN]

theorem unpack_fneg {w : Word} {s : Bool} {m : Nat} (h : unpack w = .fin s m) :
    unpack (fneg w) = .fin (!s) m := by
  obtain ⟨b, hb, rfl, rfl⟩ := unpack_eq_fin h
  have h31 : b < 2 ^ 31 := by omega
  rw [← packBits_signBit (fneg _), signBit_fneg, toNat_fneg_mod, signBit_packBits s h31,
    toNat_packBits_mod s h31, unpack_packBits _ hb]

theorem unitsOf_fneg {w : Word} (h : isFinite w = true) : unitsOf (fneg w) = -unitsOf w := by
  have hw := unpack_of_finite h
  rw [unitsOf_of_unpack (unpack_fneg hw), unitsOf_of_unpack hw]
  cases signBit w <;> simp

@[simp] theorem fneg_infinity (s : Bool) : fneg (infinity s) = infinity (!s) := by
  cases s <;> rfl

@[simp] theorem fneg_zero (s : Bool) : fneg (zero s) = zero (!s) := by cases s <;> rfl

@[simp] theorem flush_fneg (ftz : Bool) (w : Word) : flush ftz (fneg w) = fneg (flush ftz w) := by
  unfold flush
  simp only [expField_fneg, signBit_fneg]
  split <;> simp

/-! ### The operations on finite words -/

/-- A rounded result under the sign and the magnitude of a nonzero integer. -/
theorem roundResult_signed (ftz : Bool) {x : Int} {s : Bool} {k : Nat}
    (hx : x = if s then -(k : Int) else k) (h0 : x ≠ 0) :
    roundResult ftz s k 1 = flush ftz (rn32 (decide (x < 0)) x.natAbs 1) := by
  have hs : decide (x < 0) = s := by cases s <;> simp at hx ⊢ <;> omega
  have hk : x.natAbs = k := by cases s <;> simp at hx <;> omega
  rw [hs, hk, roundResult_eq ftz s k one_pos]

/-- The sum of two finite values is the exact sum rounded once, and its zero is -0 only when both are
negative. -/
theorem addFinite_eq (ftz : Bool) {u v : Int} {s t : Bool} {m n : Nat}
    (hu : u = if s then -(m : Int) else m) (hv : v = if t then -(n : Int) else n) :
    addFinite ftz s m t n =
      if u + v = 0 then zero (s && t) else flush ftz (rn32 (decide (u + v < 0)) (u + v).natAbs 1) := by
  unfold addFinite
  by_cases hst : s = t
  · subst hst
    have hsum : u + v = if s then -((m + n : Nat) : Int) else (m + n : Nat) := by
      cases s <;> simp at hu hv ⊢ <;> omega
    rw [if_pos rfl]
    split
    · next h0 =>
      have hmn : m + n = 0 := by cases s <;> simp at hsum <;> omega
      rw [hmn, roundResult_eq ftz s 0 one_pos, rn32_zero, flush_zero, Bool.and_self]
    · next h0 => exact roundResult_signed ftz hsum h0
  · obtain rfl : t = !s := by cases s <;> cases t <;> simp at hst ⊢
    have hzero : u + v = 0 ↔ m = n := by cases s <;> simp at hu hv <;> omega
    rw [if_neg hst, Bool.and_not_self]
    simp only [hzero]
    split
    · rfl
    · next hmn =>
      split <;>
      · refine roundResult_signed ftz ?_ (hzero.not.mpr hmn)
        cases s <;> simp at hu hv ⊢ <;> omega

section Finite
variable (ftz : Bool) {a b : Word} (ha : isFinite a = true) (hb : isFinite b = true)
include ha hb

/-- The sum of finite words is the exact sum rounded once and flushed (R14). -/
theorem fadd_finite :
    fadd ftz a b =
      if unitsOf (flush ftz a) + unitsOf (flush ftz b) = 0 then
        zero (signBit (flush ftz a) && signBit (flush ftz b))
      else flush ftz (rn32 (decide (unitsOf (flush ftz a) + unitsOf (flush ftz b) < 0))
        (unitsOf (flush ftz a) + unitsOf (flush ftz b)).natAbs 1) := by
  have hp := unpack_of_finite (w := flush ftz a) (by simpa using ha)
  have hq := unpack_of_finite (w := flush ftz b) (by simpa using hb)
  unfold fadd
  rw [operand_of_finite ftz ha, operand_of_finite ftz hb]
  exact addFinite_eq ftz (unitsOf_of_unpack hp) (unitsOf_of_unpack hq)

theorem fsub_finite :
    fsub ftz a b =
      if unitsOf (flush ftz a) - unitsOf (flush ftz b) = 0 then
        zero (signBit (flush ftz a) && !signBit (flush ftz b))
      else flush ftz (rn32 (decide (unitsOf (flush ftz a) - unitsOf (flush ftz b) < 0))
        (unitsOf (flush ftz a) - unitsOf (flush ftz b)).natAbs 1) := by
  rw [fsub, fadd_finite ftz ha (by simpa using hb)]
  simp only [flush_fneg, unitsOf_fneg (w := flush ftz b) (by simpa using hb), signBit_fneg,
    Int.sub_eq_add_neg]

theorem fmul_finite :
    fmul ftz a b = flush ftz (rn32 (signBit (flush ftz a) != signBit (flush ftz b))
      (unitsOf (flush ftz a) * unitsOf (flush ftz b)).natAbs (pow2 149)) := by
  unfold fmul
  rw [operand_of_finite ftz ha, operand_of_finite ftz hb]
  simp only [roundResult_eq ftz _ _ (pow2_pos 149), Int.natAbs_mul]

theorem fdiv_finite (hv : unitsOf (flush ftz b) ≠ 0) :
    fdiv ftz a b = flush ftz (rn32 (signBit (flush ftz a) != signBit (flush ftz b))
      ((unitsOf (flush ftz a)).natAbs * pow2 149) (unitsOf (flush ftz b)).natAbs) := by
  have hpos : 0 < (unitsOf (flush ftz b)).natAbs := Int.natAbs_pos.mpr hv
  unfold fdiv
  rw [operand_of_finite ftz ha, operand_of_finite ftz hb]
  simp only [roundResult_eq ftz _ _ hpos, if_neg hpos.ne']

theorem fdiv_finite_zero (hv : unitsOf (flush ftz b) = 0) :
    fdiv ftz a b = if unitsOf (flush ftz a) = 0 then canonicalNaN
      else infinity (signBit (flush ftz a) != signBit (flush ftz b)) := by
  unfold fdiv
  rw [operand_of_finite ftz ha, operand_of_finite ftz hb]
  simp [hv]

end Finite

end Sys2Proof.Machine
end

section
/-! SUPPORT. The square root of 00_scope.md R14: the digits of `isqrt`, and the rounded root as the
nearest binary32 by squares. -/

namespace Sys2Proof.Machine

/-! ### The integer root -/

/-- The digits that remain keep the root between `r` and `r + 2^k`. -/
theorem isqrtFrom_spec {n : Nat} (k : Nat) :
    ∀ r, r * r ≤ n → n < (r + 2 ^ k) * (r + 2 ^ k) →
      isqrtFrom n k r * isqrtFrom n k r ≤ n ∧
        n < (isqrtFrom n k r + 1) * (isqrtFrom n k r + 1) := by
  induction k with
  | zero => exact fun r hlo hhi => ⟨hlo, hhi⟩
  | succ k ih =>
    intro r hlo hhi
    rw [isqrtFrom]
    split
    · next h => exact ih _ h (by rwa [Nat.add_assoc, ← Nat.two_mul, ← Nat.pow_succ'])
    · next h => exact ih _ hlo (not_le.mp h)

theorem isqrt_spec (n : Nat) :
    isqrt n * isqrt n ≤ n ∧ n < (isqrt n + 1) * (isqrt n + 1) := by
  refine isqrtFrom_spec _ 0 (Nat.zero_le n) ?_
  rw [Nat.zero_add, ← Nat.pow_add]
  exact Nat.lt_log2_self.trans_le (Nat.pow_le_pow_right (by decide) (by omega))

/-! ### The root with its sticky bit -/

/-- What `fsqrt` rounds: the root of `m` units with 26 further bits and a sticky bit, in units. -/
def stickyRoot (m : Nat) : Nat :=
  (2 * isqrt (2 * m * 2 ^ 52) +
    if isqrt (2 * m * 2 ^ 52) * isqrt (2 * m * 2 ^ 52) = 2 * m * 2 ^ 52 then 0 else 1) * 2 ^ 47

theorem four_mul_units (m : Nat) :
    4 * (m * pow2 149) = 2 ^ 49 * (2 ^ 49 * (2 * m * 2 ^ 52)) := by
  rw [show (149 : Nat) = 49 + 49 + 51 from rfl, pow2_add, pow2_add, pow2_eq 49, pow2_eq 51]
  ring

theorem scaled_sq (c : Nat) : 2 ^ 49 * c * (2 ^ 49 * c) = 2 ^ 49 * (2 ^ 49 * (c * c)) := by ring

/-- A multiple of 2^49 not above twice the sticky root is not above twice the exact root. -/
theorem sq_le_of_le_stickyRoot {m c : Nat} (h : 2 ^ 49 * c ≤ 2 * stickyRoot m) :
    2 ^ 49 * c * (2 ^ 49 * c) ≤ 4 * (m * pow2 149) := by
  obtain ⟨hlo, -⟩ := isqrt_spec (2 * m * 2 ^ 52)
  have hc : c ≤ isqrt (2 * m * 2 ^ 52) := by
    unfold stickyRoot at h
    split at h <;> omega
  rw [four_mul_units, scaled_sq]
  exact Nat.mul_le_mul_left _ (Nat.mul_le_mul_left _ ((Nat.mul_le_mul hc hc).trans hlo))

/-- A multiple of 2^49 not below twice the sticky root is not below twice the exact root. -/
theorem le_sq_of_stickyRoot_le {m c : Nat} (h : 2 * stickyRoot m ≤ 2 ^ 49 * c) :
    4 * (m * pow2 149) ≤ 2 ^ 49 * c * (2 ^ 49 * c) := by
  obtain ⟨-, hhi⟩ := isqrt_spec (2 * m * 2 ^ 52)
  rw [four_mul_units, scaled_sq]
  refine Nat.mul_le_mul_left _ (Nat.mul_le_mul_left _ ?_)
  unfold stickyRoot at h
  split at h
  · next hsq =>
    have hc : isqrt (2 * m * 2 ^ 52) ≤ c := by omega
    rw [← hsq]
    exact Nat.mul_le_mul hc hc
  · have hc : isqrt (2 * m * 2 ^ 52) + 1 ≤ c := by omega
    exact hhi.le.trans (Nat.mul_le_mul hc hc)

/-- A multiple of 2^49 that is twice the exact root is twice the sticky root. -/
theorem eq_stickyRoot_of_sq_eq {m c : Nat}
    (h : 2 ^ 49 * c * (2 ^ 49 * c) = 4 * (m * pow2 149)) : 2 ^ 49 * c = 2 * stickyRoot m := by
  obtain ⟨hlo, hhi⟩ := isqrt_spec (2 * m * 2 ^ 52)
  rw [four_mul_units, scaled_sq] at h
  have hsq : c * c = 2 * m * 2 ^ 52 :=
    Nat.eq_of_mul_eq_mul_left (by decide) (Nat.eq_of_mul_eq_mul_left (by decide) h)
  have hc : isqrt (2 * m * 2 ^ 52) = c := by
    rw [← hsq] at hlo hhi ⊢
    have h1 := Nat.mul_self_le_mul_self_iff.mp hlo
    have h2 := Nat.mul_self_lt_mul_self_iff.mp hhi
    omega
  rw [stickyRoot, hc, if_pos hsq]
  omega

theorem le_stickyRoot {m : Nat} (h : 0 < m) : 2 ^ 74 ≤ stickyRoot m := by
  obtain ⟨-, hhi⟩ := isqrt_spec (2 * m * 2 ^ 52)
  have hr : 2 ^ 26 ≤ isqrt (2 * m * 2 ^ 52) := by
    by_contra hlt
    have hle : isqrt (2 * m * 2 ^ 52) + 1 ≤ 2 ^ 26 := by omega
    have := Nat.mul_le_mul hle hle
    omega
  unfold stickyRoot
  omega

theorem stickyRoot_lt {m : Nat} (h : m < pow2 277) : stickyRoot m < pow2 277 - pow2 252 := by
  obtain ⟨hlo, -⟩ := isqrt_spec (2 * m * 2 ^ 52)
  have hr : isqrt (2 * m * 2 ^ 52) < pow2 165 := by
    refine Nat.mul_self_lt_mul_self_iff.mp (hlo.trans_lt ?_)
    rw [← pow2_add, show 165 + 165 = 1 + 52 + 277 from rfl, pow2_add, pow2_add, pow2_eq 1, pow2_eq 52]
    omega
  have hy : stickyRoot m < pow2 213 := by
    rw [show 213 = 48 + 165 from rfl, pow2_add, pow2_eq 48]
    unfold stickyRoot
    split <;> omega
  rw [overflowBound_eq, show 252 = 39 + 213 from rfl, pow2_add, pow2_eq 39]
  omega

/-! ### The rounded root -/

/-- The root of a positive word is the sticky root, rounded (R14). -/
theorem fsqrt_pos (ftz : Bool) {a : Word} {m : Nat} (ha : unpack (flush ftz a) = .fin false m)
    (hm : 0 < m) : fsqrt ftz a = flush ftz (rn32 false (stickyRoot m) 1) := by
  unfold fsqrt
  rw [operand_eq, ha, ← roundResult_eq ftz false _ one_pos]
  simp [stickyRoot, hm.ne']

/-- The magnitude of the rounded root of `m` units. -/
def rootValue (m : Nat) : Nat := bitsValue (roundMag (stickyRoot m) 1)

theorem roundMag_stickyRoot_lt {m : Nat} (h : m < pow2 277) :
    roundMag (stickyRoot m) 1 < 0x7F800000 :=
  (roundMag_lt_iff _ one_pos).mpr (by simpa using stickyRoot_lt h)

/-- The rounded root is the nearest value to the sticky root. -/
theorem rootValue_nearest {m : Nat} (h : m < pow2 277) (b : Nat) :
    ((rootValue m : Int) - stickyRoot m).natAbs ≤ ((bitsValue b : Int) - stickyRoot m).natAbs ∧
    (((rootValue m : Int) - stickyRoot m).natAbs = ((bitsValue b : Int) - stickyRoot m).natAbs →
      bitsValue b ≠ rootValue m → roundMag (stickyRoot m) 1 % 2 = 0) := by
  simpa [rootValue] using roundMag_nearest one_pos (by simpa using stickyRoot_lt h) b

theorem natAbs_sub_eq_of_add_eq {x y z : Nat} (h : x + y = 2 * z) :
    ((y : Int) - z).natAbs = ((x : Int) - z).natAbs := by omega

section Nearest
variable {m : Nat} (hm : 0 < m) (hlt : m < pow2 277)
include hm hlt

theorem le_rootValue : 2 ^ 74 ≤ rootValue m := by
  obtain ⟨b, -, hb⟩ := exists_bitsValue_eq (z := 1) (e := 74) (by decide) (by decide)
  have := (rootValue_nearest hlt b).1
  have := le_stickyRoot hm
  omega

theorem exists_rootValue_eq : ∃ c, rootValue m = 2 ^ 49 * c :=
  dvd_bitsValue (e := 49) ((Nat.pow_le_pow_right (by decide) (by decide)).trans (le_rootValue hm hlt))

/-- Between a value below the rounded root and the root lies a multiple of 2^49, possibly the value
itself, which is a value too. -/
theorem exists_scaled_value {b : Nat} (h : bitsValue b < rootValue m) :
    ∃ b' c, bitsValue b ≤ bitsValue b' ∧ bitsValue b' < rootValue m ∧ bitsValue b' = 2 ^ 49 * c := by
  by_cases hb : 2 ^ 72 ≤ bitsValue b
  · obtain ⟨c, hc⟩ := dvd_bitsValue (e := 49) hb
    exact ⟨b, c, le_rfl, h, hc⟩
  · obtain ⟨b', -, hb'⟩ := exists_bitsValue_eq (z := 1) (e := 72) (by decide) (by decide)
    have := le_rootValue hm hlt
    exact ⟨b', 2 ^ 23, by omega, by omega, by omega⟩

/-- The midpoint of the rounded root and a value below it is not above the exact root. -/
theorem midpoint_le_root {b : Nat} (h : bitsValue b < rootValue m) :
    (bitsValue b + rootValue m) * (bitsValue b + rootValue m) ≤ 4 * (m * pow2 149) := by
  obtain ⟨b', c, hle, hb', hc⟩ := exists_scaled_value hm hlt h
  obtain ⟨d, hd⟩ := exists_rootValue_eq hm hlt
  have hnear := (rootValue_nearest hlt b').1
  have hsum : bitsValue b + rootValue m ≤ 2 ^ 49 * (c + d) := by omega
  exact (Nat.mul_le_mul hsum hsum).trans (sq_le_of_le_stickyRoot (by omega))

/-- The midpoint of the rounded root and a value above it is not below the exact root. -/
theorem root_le_midpoint {b : Nat} (h : rootValue m < bitsValue b) :
    4 * (m * pow2 149) ≤ (bitsValue b + rootValue m) * (bitsValue b + rootValue m) := by
  have hroot := le_rootValue hm hlt
  obtain ⟨c, hc⟩ := dvd_bitsValue (b := b) (e := 49) (by omega)
  obtain ⟨d, hd⟩ := exists_rootValue_eq hm hlt
  have hnear := (rootValue_nearest hlt b).1
  rw [hc, hd, ← Nat.mul_add]
  exact le_sq_of_stickyRoot_le (by omega)

/-- A midpoint at the exact root means that the rounded root is even. -/
theorem even_of_midpoint_eq_root {b : Nat} (hne : bitsValue b ≠ rootValue m)
    (h : (bitsValue b + rootValue m) * (bitsValue b + rootValue m) = 4 * (m * pow2 149)) :
    roundMag (stickyRoot m) 1 % 2 = 0 := by
  have hroot := le_rootValue hm hlt
  obtain ⟨d, hd⟩ := exists_rootValue_eq hm hlt
  have hb : 2 ^ 49 ∣ bitsValue b := by
    refine dvd_bitsValue (e := 49) ?_
    by_contra hlow
    obtain ⟨b', -, hb'⟩ := exists_bitsValue_eq (z := 1) (e := 72) (by decide) (by decide)
    have hle := midpoint_le_root hm hlt (b := b') (by omega)
    rw [← h] at hle
    have := Nat.mul_self_le_mul_self_iff.mp hle
    omega
  obtain ⟨c, hc⟩ := hb
  have hmid : bitsValue b + rootValue m = 2 * stickyRoot m := by
    rw [hc, hd, ← Nat.mul_add]
    refine eq_stickyRoot_of_sq_eq ?_
    rw [Nat.mul_add, ← hc, ← hd, h]
  exact (rootValue_nearest hlt b).2 (natAbs_sub_eq_of_add_eq hmid) hne

/-- The root of a positive word, with its bits. -/
theorem fsqrt_eq_packBits (ftz : Bool) {a : Word} (ha : unpack (flush ftz a) = .fin false m) :
    fsqrt ftz a = packBits false (roundMag (stickyRoot m) 1) := by
  have hw := unpack_rn32 false one_pos (roundMag_stickyRoot_lt hlt)
  have hroot : 2 ^ 74 ≤ bitsValue (roundMag (stickyRoot m) 1) := le_rootValue hm hlt
  rw [fsqrt_pos ftz ha hm, flush_eq_self ftz hw (fun _ => .inr (by omega)), rn32_eq _ _ one_pos]

end Nearest

end Sys2Proof.Machine
end

section
/-! PROOF. Each operation rounds once (00_scope.md R14, R16, R17): the square root, the NaN rules, the
comparisons and the infinities, assembled with the laws of the finite operations. -/

namespace Sys2Proof.Machine

/-! ### The square root of a finite word -/

section Root
variable (ftz : Bool) {a : Word} (ha : isFinite a = true)
include ha

theorem fsqrt_finite_zero (hu : unitsOf (flush ftz a) = 0) :
    fsqrt ftz a = zero (signBit (flush ftz a)) := by
  simp [fsqrt, operand_of_finite ftz ha, hu]

theorem unpack_flush_of_ne (hu : unitsOf (flush ftz a) ≠ 0) :
    unpack (flush ftz a) =
      .fin (decide (unitsOf (flush ftz a) < 0)) (unitsOf (flush ftz a)).natAbs := by
  have hfin : isFinite (flush ftz a) = true := by simpa using ha
  rw [← signBit_of_units_ne hfin hu, unpack_of_finite hfin]

theorem fsqrt_finite_neg (hu : unitsOf (flush ftz a) < 0) : fsqrt ftz a = canonicalNaN := by
  simp [fsqrt, operand_eq, unpack_flush_of_ne ftz ha hu.ne, hu, hu.ne]

/-- The root of a positive word is the nearest value by squares, ties to even (R14). -/
theorem fsqrt_finite_pos (hu : 0 < unitsOf (flush ftz a)) :
    ∃ k : Nat, unpack (fsqrt ftz a) = .fin false k ∧
      ∀ (w : Word) (sgn : Bool) (j : Nat), unpack w = .fin sgn j →
        (j < k → (j + k) * (j + k) ≤ 4 * ((unitsOf (flush ftz a)).natAbs * pow2 149)) ∧
        (k < j → 4 * ((unitsOf (flush ftz a)).natAbs * pow2 149) ≤ (j + k) * (j + k)) ∧
        (j ≠ k → (j + k) * (j + k) = 4 * ((unitsOf (flush ftz a)).natAbs * pow2 149) →
          (fsqrt ftz a).getLsbD 0 = false) := by
  have hp := unpack_flush_of_ne ftz ha hu.ne'
  rw [decide_eq_false hu.not_gt] at hp
  have hm : 0 < (unitsOf (flush ftz a)).natAbs := by omega
  have hlt := mag_lt hp
  have hfin := roundMag_stickyRoot_lt hlt
  rw [fsqrt_eq_packBits hm hlt ftz hp]
  refine ⟨_, unpack_packBits false hfin, fun w sgn j hw => ?_⟩
  obtain ⟨b, -, -, rfl⟩ := unpack_eq_fin hw
  refine ⟨midpoint_le_root hm hlt, root_le_midpoint hm hlt, fun hne hmid => ?_⟩
  rw [getLsbD_zero_packBits false (by omega), even_of_midpoint_eq_root hm hlt hne hmid]
  rfl

end Root

/-! ### NaN results -/

/-- A NaN result is the canonical one (R16). -/
def NaNIsCanonical (w : Word) : Prop := isNaN w → w = canonicalNaN

theorem nanIsCanonical_of_not {w : Word} (h : ¬ isNaN w) : NaNIsCanonical w := fun hn => absurd hn h

@[simp] theorem nanIsCanonical_canonicalNaN : NaNIsCanonical canonicalNaN := fun _ => rfl

@[simp] theorem nanIsCanonical_zero (neg : Bool) : NaNIsCanonical (zero neg) :=
  nanIsCanonical_of_not (by simp [isNaN_iff])

@[simp] theorem nanIsCanonical_infinity (neg : Bool) : NaNIsCanonical (infinity neg) :=
  nanIsCanonical_of_not (by simp [isNaN_iff])

@[simp] theorem nanIsCanonical_rn32 (neg : Bool) (num den : Nat) :
    NaNIsCanonical (rn32 neg num den) := by
  rcases Nat.eq_zero_or_pos den with rfl | hd
  · exact nanIsCanonical_zero neg
  · by_cases h : roundMag num den < 0x7F800000
    · exact nanIsCanonical_of_not (by simp [isNaN_iff, unpack_rn32 neg hd h])
    · rw [roundMag_lt_iff num hd, not_lt] at h
      rw [rn32_overflow neg hd h]
      exact nanIsCanonical_infinity neg

@[simp] theorem nanIsCanonical_roundResult (ftz neg : Bool) (num den : Nat) :
    NaNIsCanonical (roundResult ftz neg num den) := by
  unfold roundResult; split <;> simp

theorem nanIsCanonical_addFinite (ftz s t : Bool) (m n : Nat) :
    NaNIsCanonical (addFinite ftz s m t n) := by
  unfold addFinite; repeat' split
  all_goals simp

theorem nanIsCanonical_fadd (ftz : Bool) (a b : Word) : NaNIsCanonical (fadd ftz a b) := by
  unfold fadd
  split
  case h_3 => split <;> simp
  case h_7 s m t n _ _ => exact nanIsCanonical_addFinite ftz s t m n
  all_goals simp

theorem nanIsCanonical_fmul (ftz : Bool) (a b : Word) : NaNIsCanonical (fmul ftz a b) := by
  unfold fmul
  split
  case h_4 | h_6 => split <;> simp
  all_goals simp

theorem nanIsCanonical_fdiv (ftz : Bool) (a b : Word) : NaNIsCanonical (fdiv ftz a b) := by
  unfold fdiv
  split
  case h_7 =>
    repeat' split
    all_goals simp
  all_goals simp

theorem nanIsCanonical_fsqrt (ftz : Bool) (a : Word) : NaNIsCanonical (fsqrt ftz a) := by
  unfold fsqrt
  split
  case h_2 => split <;> simp
  case h_3 =>
    repeat' split
    all_goals simp
  all_goals simp

/-! ### NaN operands -/

theorem fadd_nan {ftz : Bool} {a b : Word} (h : isNaN a ∨ isNaN b) :
    fadd ftz a b = canonicalNaN := by
  unfold fadd
  rcases h with h | h
  · rw [operand_of_isNaN ftz h]
  · rw [operand_of_isNaN ftz h]; cases operand ftz a <;> rfl

theorem fsub_nan {ftz : Bool} {a b : Word} (h : isNaN a ∨ isNaN b) :
    fsub ftz a b = canonicalNaN := fadd_nan (h.imp_right (isNaN_fneg b).mpr)

theorem fmul_nan {ftz : Bool} {a b : Word} (h : isNaN a ∨ isNaN b) :
    fmul ftz a b = canonicalNaN := by
  unfold fmul
  rcases h with h | h
  · rw [operand_of_isNaN ftz h]
  · rw [operand_of_isNaN ftz h]; cases operand ftz a <;> rfl

theorem fdiv_nan {ftz : Bool} {a b : Word} (h : isNaN a ∨ isNaN b) :
    fdiv ftz a b = canonicalNaN := by
  unfold fdiv
  rcases h with h | h
  · rw [operand_of_isNaN ftz h]
  · rw [operand_of_isNaN ftz h]; cases operand ftz a <;> rfl

theorem fsqrt_nan {ftz : Bool} {a : Word} (h : isNaN a) : fsqrt ftz a = canonicalNaN := by
  rw [fsqrt, operand_of_isNaN ftz h]

/-! ### Comparisons -/

theorem orderKey_nan {w : Word} (h : isNaN w) : orderKey w = none := by
  rw [orderKey, (isNaN_iff w).mp h]

/-- The place of an infinity, beyond every finite value. -/
def infinityKey (neg : Bool) : Int := if neg then -((pow2 277 : Nat) : Int) else (pow2 277 : Nat)

theorem orderKey_infinity (neg : Bool) : orderKey (infinity neg) = some (infinityKey neg) := by
  rw [orderKey, unpack_infinity]
  rfl

theorem orderKey_finite {w : Word} (h : isFinite w = true) : orderKey w = some (unitsOf w) := by
  have hw := unpack_of_finite h
  rw [unitsOf_of_unpack hw, orderKey, hw]

/-- The units of a finite word lie between the places of the infinities. -/
theorem unitsOf_between {w : Word} (h : isFinite w = true) :
    infinityKey true < unitsOf w ∧ unitsOf w < infinityKey false := by
  have := mag_lt (unpack_of_finite h)
  rw [infinityKey, infinityKey, if_pos rfl, if_neg Bool.false_ne_true]
  omega

theorem compare_nan {a b : Word} (h : isNaN a ∨ isNaN b) :
    fle a b = false ∧ flt a b = false ∧ feq a b = false := by
  unfold fle flt feq
  rcases h with h | h
  · simp [orderKey_nan h]
  · rw [orderKey_nan h]; cases orderKey a <;> simp

section Keys
variable {a b : Word} {x y : Int} (ha : orderKey a = some x) (hb : orderKey b = some y)
include ha hb

theorem fle_of_keys : fle a b = decide (x ≤ y) := by rw [fle, ha, hb]

theorem flt_of_keys : flt a b = decide (x < y) := by rw [flt, ha, hb]

theorem feq_of_keys : feq a b = decide (x = y) := by rw [feq, ha, hb]

/-- The comparisons of two words of which the first has the lower place. -/
theorem compare_of_key_lt (h : x < y) :
    fle a b = true ∧ flt a b = true ∧ fle b a = false ∧ flt b a = false ∧
    feq a b = false ∧ feq b a = false := by
  rw [fle_of_keys ha hb, flt_of_keys ha hb, feq_of_keys ha hb, fle_of_keys hb ha,
    flt_of_keys hb ha, feq_of_keys hb ha]
  exact ⟨decide_eq_true h.le, decide_eq_true h, decide_eq_false h.not_ge,
    decide_eq_false h.not_gt, decide_eq_false h.ne, decide_eq_false h.ne'⟩

end Keys

theorem compare_self {a : Word} {x : Int} (ha : orderKey a = some x) :
    fle a a = true ∧ flt a a = false ∧ feq a a = true := by
  rw [fle_of_keys ha ha, flt_of_keys ha ha, feq_of_keys ha ha]
  exact ⟨decide_eq_true le_rfl, decide_eq_false (lt_irrefl x), decide_eq_true rfl⟩

theorem infinityKey_lt : infinityKey true < infinityKey false :=
  have h := unitsOf_between (w := 0#32) rfl
  h.1.trans h.2

/-- The comparisons of the infinities with each other (R17). -/
theorem compare_infinity_infinity (s t : Bool) :
    fle (infinity s) (infinity t) = (s || !t) ∧ flt (infinity s) (infinity t) = (s && !t) ∧
    feq (infinity s) (infinity t) = decide (s = t) := by
  have hlt := compare_of_key_lt (orderKey_infinity true) (orderKey_infinity false) infinityKey_lt
  obtain ⟨hle1, hlt1, hle2, hlt2, heq1, heq2⟩ := hlt
  have hself : ∀ s, _ := fun s => compare_self (orderKey_infinity s)
  cases s <;> cases t
  · exact hself false
  · exact ⟨hle2, hlt2, heq2⟩
  · exact ⟨hle1, hlt1, heq1⟩
  · exact hself true

/-! ### Infinite operands -/

section Infinite
variable {ftz s t : Bool} {m n : Nat} {a b : Word}

theorem fadd_inf_inf (ha : operand ftz a = .inf s) (hb : operand ftz b = .inf t) :
    fadd ftz a b = if s = t then infinity s else canonicalNaN := by unfold fadd; rw [ha, hb]

theorem fadd_inf_fin (ha : operand ftz a = .inf s) (hb : operand ftz b = .fin t n) :
    fadd ftz a b = infinity s := by unfold fadd; rw [ha, hb]

theorem fadd_fin_inf (ha : operand ftz a = .fin s m) (hb : operand ftz b = .inf t) :
    fadd ftz a b = infinity t := by unfold fadd; rw [ha, hb]

theorem fmul_inf_inf (ha : operand ftz a = .inf s) (hb : operand ftz b = .inf t) :
    fmul ftz a b = infinity (s != t) := by unfold fmul; rw [ha, hb]

theorem fmul_inf_fin (ha : operand ftz a = .inf s) (hb : operand ftz b = .fin t n) :
    fmul ftz a b = if n = 0 then canonicalNaN else infinity (s != t) := by unfold fmul; rw [ha, hb]

theorem fmul_fin_inf (ha : operand ftz a = .fin s m) (hb : operand ftz b = .inf t) :
    fmul ftz a b = if m = 0 then canonicalNaN else infinity (s != t) := by unfold fmul; rw [ha, hb]

theorem fdiv_inf_inf (ha : operand ftz a = .inf s) (hb : operand ftz b = .inf t) :
    fdiv ftz a b = canonicalNaN := by unfold fdiv; rw [ha, hb]

theorem fdiv_inf_fin (ha : operand ftz a = .inf s) (hb : operand ftz b = .fin t n) :
    fdiv ftz a b = infinity (s != t) := by unfold fdiv; rw [ha, hb]

theorem fdiv_fin_inf (ha : operand ftz a = .fin s m) (hb : operand ftz b = .inf t) :
    fdiv ftz a b = zero (s != t) := by unfold fdiv; rw [ha, hb]

theorem fsqrt_inf (ha : operand ftz a = .inf s) :
    fsqrt ftz a = if s then canonicalNaN else infinity false := by unfold fsqrt; rw [ha]

end Infinite

theorem fsub_infinity_infinity (ftz s t : Bool) :
    fsub ftz (infinity s) (infinity t) = if s = t then canonicalNaN else infinity s := by
  rw [fsub, fneg_infinity, fadd_inf_inf (operand_infinity ftz s) (operand_infinity ftz (!t))]
  cases s <;> cases t <;> rfl

theorem fsub_finite_infinity (ftz s : Bool) {a : Word} (ha : isFinite a = true) :
    fsub ftz a (infinity s) = infinity (!s) := by
  rw [fsub, fneg_infinity,
    fadd_fin_inf (operand_of_finite ftz ha) (operand_infinity ftz (!s))]

theorem fsub_infinity_finite (ftz s : Bool) {a : Word} (ha : isFinite a = true) :
    fsub ftz (infinity s) a = infinity s :=
  fadd_inf_fin (operand_infinity ftz s) (operand_of_finite ftz (by simpa using ha))

theorem fmul_infinity_finite (ftz s : Bool) {a : Word} (ha : isFinite a = true) :
    fmul ftz (infinity s) a =
      if unitsOf (flush ftz a) = 0 then canonicalNaN
      else infinity (s != signBit (flush ftz a)) := by
  rw [fmul_inf_fin (operand_infinity ftz s) (operand_of_finite ftz ha)]
  simp only [Int.natAbs_eq_zero]

theorem fmul_finite_infinity (ftz s : Bool) {a : Word} (ha : isFinite a = true) :
    fmul ftz a (infinity s) =
      if unitsOf (flush ftz a) = 0 then canonicalNaN
      else infinity (signBit (flush ftz a) != s) := by
  rw [fmul_fin_inf (operand_of_finite ftz ha) (operand_infinity ftz s)]
  simp only [Int.natAbs_eq_zero]

/-! ### The statement -/

/-- Settles O53: finite operands by one rounding of the exact result, then NaN and infinite
operands. -/
theorem operationsRoundOnce : Obligations.OperationsRoundOnce := by
  refine ⟨fun ftz a b ha hb => ?_, fun ftz a b h => ?_, fun ftz a b => ?_, fun ftz s t a ha => ?_⟩
  · have hka := orderKey_finite ha
    have hkb := orderKey_finite hb
    exact ⟨fadd_finite ftz ha hb, fsub_finite ftz ha hb, fmul_finite ftz ha hb,
      fdiv_finite ftz ha hb, fdiv_finite_zero ftz ha hb, fsqrt_finite_zero ftz ha,
      fsqrt_finite_neg ftz ha, fsqrt_finite_pos ftz ha, fle_of_keys hka hkb, flt_of_keys hka hkb,
      feq_of_keys hka hkb⟩
  · exact ⟨fadd_nan h, fsub_nan h, fmul_nan h, fdiv_nan h, fsqrt_nan, compare_nan h⟩
  · intro r hr
    simp only [List.mem_cons, List.not_mem_nil, or_false] at hr
    rcases hr with rfl | rfl | rfl | rfl | rfl
    · exact nanIsCanonical_fadd ftz a b
    · exact nanIsCanonical_fadd ftz a (fneg b)
    · exact nanIsCanonical_fmul ftz a b
    · exact nanIsCanonical_fdiv ftz a b
    · exact nanIsCanonical_fsqrt ftz a
  · have hs := operand_infinity ftz s
    have ht := operand_infinity ftz t
    have hp := operand_of_finite ftz ha
    have hka := orderKey_finite ha
    obtain ⟨hlo, hhi⟩ := unitsOf_between ha
    obtain ⟨hle1, hlt1, hle2, hlt2, heq1, heq2⟩ :=
      compare_of_key_lt (orderKey_infinity true) hka hlo
    obtain ⟨hle3, hlt3, hle4, hlt4, heq3, heq4⟩ :=
      compare_of_key_lt hka (orderKey_infinity false) hhi
    have heq : feq (infinity s) a = false ∧ feq a (infinity s) = false := by
      cases s
      · exact ⟨heq4, heq3⟩
      · exact ⟨heq1, heq2⟩
    exact ⟨fadd_inf_inf hs ht, fsub_infinity_infinity ftz s t, fmul_inf_inf hs ht,
      fdiv_inf_inf hs ht, fadd_inf_fin hs hp, fadd_fin_inf hp hs, fsub_infinity_finite ftz s ha,
      fsub_finite_infinity ftz s ha, fmul_infinity_finite ftz s ha, fmul_finite_infinity ftz s ha,
      fdiv_inf_fin hs hp, fdiv_fin_inf hp hs, fsqrt_inf hs, hle1, hle3, hlt1, hlt3, hlt2, hlt4, hle2,
      hle4, heq.1, heq.2, compare_infinity_infinity s t⟩

end Sys2Proof.Machine
end

section
/-! SUPPORT. The work buffer as a whole: what storing a block in each of its channels does to SCR, to
NUMERR and to the rest of the state (10_state.md R52, R63). -/

namespace Sys2Proof.Machine

/-! ### Bounds -/

/-- The legal parameters (00_scope.md R7). -/
theorem legal_iff (p : Params) :
    p.legal = true ↔ (1 ≤ p.nchMax ∧ p.nchMax ≤ 4) ∧ (1 ≤ p.blkMax ∧ p.blkMax ≤ 16383) ∧
      (1 ≤ p.tapMax ∧ p.tapMax ≤ 1023 ∧ p.tapMax % 2 = 1) ∧
      (1 ≤ p.rlpSecMax ∧ p.rlpSecMax ≤ 4) ∧ (2 ≤ p.vibMax ∧ p.vibMax ≤ 65535) := by
  simp only [Params.legal, Bool.and_eq_true, decide_eq_true_eq, and_assoc]

theorem legalIrLen_iff (p : Params) (v : Word) :
    legalIrLen p v = true ↔ v.toNat % 2 = 1 ∧ v.toNat ≤ p.tapMax := by simp [legalIrLen]

/-- A work buffer in use is legal, in any mode (10_state.md R64). -/
theorem workBufferLegal_of_inv {s : State} (h : s.Inv) (hw : s.wmode ≠ .none) :
    s.WorkBufferLegal := by
  obtain ⟨-, -, -, -, -, hgeo⟩ := h
  unfold State.WorkGeometry at hgeo
  split at hgeo
  · next hnone => exact absurd hnone hw
  all_goals exact hgeo.1

/-- A channel of the work buffer fits in its window of SCR. -/
theorem wlen_le_of_inv {s : State} (h : s.Inv) (hw : s.wmode ≠ .none) :
    s.wlen.toNat ≤ 0x10000 := by
  obtain ⟨-, hwn, -, -, hwlen⟩ := workBufferLegal_of_inv h hw
  obtain ⟨-, ⟨-, hblk⟩, -⟩ := (legal_iff _).mp h.1
  omega

/-! ### The elements of SCR -/

theorem scrAddr_eq (c i : Nat) : scrAddr c i = scrAddr c 0 + 4 * i := by
  unfold scrAddr; omega

@[simp] theorem length_workBuffer (s : State) : s.workBuffer.length = s.wch.toNat := by
  simp [State.workBuffer]

theorem getElem_workBuffer (s : State) (c : Nat) (h : c < s.workBuffer.length) :
    s.workBuffer[c] = s.scrBlock c s.wlen.toNat := by
  simp [State.workBuffer]

@[simp] theorem length_scrBlock (s : State) (c n : Nat) : (s.scrBlock c n).length = n := by
  simp [State.scrBlock]

theorem getElem_scrBlock (s : State) (c n i : Nat) (h : i < (s.scrBlock c n).length) :
    (s.scrBlock c n)[i] = s.loadWord (scrAddr c i) := by
  rw [scrAddr_eq]
  exact getElem_loadBlock s (scrAddr c 0) n i h

/-! ### Storing a block in each channel -/

section Store
variable {n : Nat} {chans : List (List Word)} (hlen : ∀ ws ∈ chans, ws.length = n)
include hlen

/-- Every stored sample reads back. -/
theorem loadWord_setScrChannels (hn : n ≤ 0x10000) (s : State) {c i : Nat} (hc : c < chans.length)
    (hi : i < chans[c].length) :
    (s.setScrChannels chans).loadWord (scrAddr c i) = chans[c][i] := by
  have hlc := hlen _ (List.getElem_mem hc)
  have h := loadWord_storeChannels (fun c => scrAddr c 0) chans s 0 c i hc hi
    (fun j hkj _ => by simp only [scrAddr]; omega)
  rw [scrAddr_eq]
  rw [Nat.zero_add] at h
  exact h

/-- The bytes outside the stored blocks read as before. -/
theorem readByte_setScrChannels (s : State) {a : Nat}
    (ha : ¬ inChannels scrAddr chans.length n a) :
    (s.setScrChannels chans).readByte a = s.readByte a := by
  refine readByte_storeChannels_outside (fun c => scrAddr c 0) chans s 0 a fun i hi => ?_
  rw [hlen _ (List.getElem_mem hi), Nat.zero_add]
  by_contra hno
  exact ha ⟨i, hi, by unfold inWords; omega⟩

end Store

/-! ### NUMERR -/

theorem anyNonFinite_flatten_iff (chans : List (List Word)) :
    anyNonFinite chans.flatten = true ↔
      ∃ c, ∃ hc : c < chans.length, ∃ i, ∃ hi : i < chans[c].length,
        isFinite (chans[c][i]) = false := by
  simp only [anyNonFinite, List.any_eq_true, List.mem_flatten, Bool.not_eq_true']
  constructor
  · rintro ⟨w, ⟨ws, hws, hw⟩, hnf⟩
    obtain ⟨c, hc, rfl⟩ := List.getElem_of_mem hws
    obtain ⟨i, hi, rfl⟩ := List.getElem_of_mem hw
    exact ⟨c, hc, i, hi, hnf⟩
  · rintro ⟨c, hc, i, hi, hnf⟩
    exact ⟨_, ⟨_, List.getElem_mem hc, List.getElem_mem hi⟩, hnf⟩

/-! ### An effect on the work buffer -/

@[simp] theorem readByte_flagNumerr (s : State) (ws : List Word) (a : Nat) :
    (s.flagNumerr ws).readByte a = s.readByte a := rfl

@[simp] theorem loadWord_flagNumerr (s : State) (ws : List Word) (a : Nat) :
    (s.flagNumerr ws).loadWord a = s.loadWord a := rfl

@[simp] theorem readByte_completed (s : State) (a : Nat) : s.completed.readByte a = s.readByte a := rfl

@[simp] theorem loadWord_completed (s : State) (a : Nat) : s.completed.loadWord a = s.loadWord a := rfl

/-- A command that maps every sample of the work buffer and flags the non-finite results. -/
def State.mapWork (s : State) (f : Word → Word) : State :=
  (s.setScrChannels (s.workBuffer.map (List.map f))).flagNumerr (s.workBuffer.map (List.map f)).flatten

theorem saturateBody_eq (s : State) :
    saturateBody s = s.mapWork (satSample s.params.ftz (clampUnit s.satDrive)) := rfl

theorem length_of_mem_mapped {s : State} {f : Word → Word} {ws : List Word}
    (h : ws ∈ s.workBuffer.map (List.map f)) : ws.length = s.wlen.toNat := by
  obtain ⟨ch, hch, rfl⟩ := List.mem_map.mp h
  obtain ⟨c, hc, rfl⟩ := List.getElem_of_mem hch
  rw [List.length_map, getElem_workBuffer, length_scrBlock]

/-- Only the memory and NUMERR change. -/
theorem mapWork_eq (s : State) (f : Word → Word) :
    s.mapWork f = { s with mem := (s.mapWork f).mem, numerr := (s.mapWork f).numerr } := by
  unfold State.mapWork State.flagNumerr
  rw [setScrChannels_eq]

/-- The bytes outside the work buffer read as before. -/
theorem sameBytesOutside_mapWork (s : State) (f : Word → Word) :
    sameBytesOutside s (s.mapWork f) (inChannels scrAddr s.wch.toNat s.wlen.toNat) := by
  intro a ha
  rw [State.mapWork, readByte_flagNumerr]
  exact readByte_setScrChannels (fun _ => length_of_mem_mapped) s (by simpa using ha)

section MapWork
variable {s : State} (hn : s.wlen.toNat ≤ 0x10000) (f : Word → Word)
include hn

/-- Every sample of the work buffer is mapped. -/
theorem loadWord_mapWork {c i : Nat} (hc : c < s.wch.toNat) (hi : i < s.wlen.toNat) :
    (s.mapWork f).loadWord (scrAddr c i) = f (s.loadWord (scrAddr c i)) := by
  have h := loadWord_setScrChannels (fun ws => length_of_mem_mapped (f := f)) hn s (c := c) (i := i)
    (by simpa using hc) (by simpa [getElem_workBuffer] using hi)
  rw [State.mapWork, loadWord_flagNumerr, h]
  simp only [List.getElem_map, getElem_workBuffer, getElem_scrBlock]

/-- NUMERR is set exactly for a non-finite result. -/
theorem numerrAfter_mapWork :
    s.NumerrAfter (s.mapWork f) scrAddr s.wch.toNat s.wlen.toNat := by
  have hflag : (s.mapWork f).numerr = true ↔
      s.numerr = true ∨ anyNonFinite (s.workBuffer.map (List.map f)).flatten = true := by
    simp [State.mapWork, State.flagNumerr]
  unfold State.NumerrAfter
  rw [hflag, anyNonFinite_flatten_iff]
  refine or_congr_right ⟨?_, ?_⟩
  · rintro ⟨c, hc, i, hi, hnf⟩
    simp only [List.length_map, length_workBuffer] at hc
    simp only [List.getElem_map, getElem_workBuffer, List.length_map, length_scrBlock] at hi
    refine ⟨c, hc, i, hi, ?_⟩
    rw [loadWord_mapWork hn f hc hi]
    simpa [getElem_workBuffer, getElem_scrBlock] using hnf
  · rintro ⟨c, hc, i, hi, hnf⟩
    rw [loadWord_mapWork hn f hc hi] at hnf
    exact ⟨c, by simpa using hc, i, by simpa [getElem_workBuffer] using hi,
      by simpa [getElem_workBuffer, getElem_scrBlock] using hnf⟩

end MapWork

/-- An effect command on a prepared machine with a work buffer completes, maps every sample, sets NUMERR
for a non-finite result, and changes nothing else (46_effects.md R261). -/
theorem mapWork_completes {s : State} (hinv : s.Inv) (hp : s.prepared = true)
    (hw : s.wmode ≠ .none) {body : State → State} {f : Word → Word} (hbody : body s = s.mapWork f) :
    ∃ t, finishCommand s (effectChecks s body) = .next t ∧
      t = { s with mem := t.mem, numerr := t.numerr, done := true, engPhase := .idle } ∧
      (∀ c < s.wch.toNat, ∀ i < s.wlen.toNat,
        t.loadWord (scrAddr c i) = f (s.loadWord (scrAddr c i))) ∧
      s.NumerrAfter t scrAddr s.wch.toNat s.wlen.toNat ∧
      sameBytesOutside s t (inChannels scrAddr s.wch.toNat s.wlen.toNat) := by
  have hn := wlen_le_of_inv hinv hw
  have hok : effectChecks s body = .ok (s.mapWork f) :=
    (effectChecks_ok_iff s _ body).mpr ⟨hp, hw, hbody.symm⟩
  refine ⟨(s.mapWork f).completed, by rw [hok]; rfl, ?_, fun c hc i hi => ?_, ?_, fun a ha => ?_⟩
  · rw [State.completed, mapWork_eq]
  · rw [loadWord_completed, loadWord_mapWork hn f hc hi]
  · have h := numerrAfter_mapWork hn f
    unfold State.NumerrAfter at h ⊢
    simp only [loadWord_completed]
    exact h
  · rw [readByte_completed, sameBytesOutside_mapWork s f a ha]

end Sys2Proof.Machine
end

section
/-! PROOF. SATURATE on the work buffer (46_effects.md R268 to R271), and the latency sums
(45_latency.md R240, R241). -/

namespace Sys2Proof.Machine

/-- Settles O41: the saturator by its definition, the command by `mapWork_completes`. -/
theorem saturateCompletes : Obligations.SaturateCompletes :=
  ⟨fun _ _ _ => rfl, fun s hinv hp hw => mapWork_completes hinv hp hw (saturateBody_eq s)⟩

/-- No impulse response is longer than TAP_MAX allows. -/
theorem irLen_le {s : State} (hp : s.params.legal = true) (hr : s.RegistersLegal) (g : FirStage) :
    s.irLen g ≤ 1023 := by
  obtain ⟨-, -, hup, hdn, -, -⟩ := hr
  obtain ⟨-, -, ⟨-, htap, -⟩, -⟩ := (legal_iff _).mp hp
  cases g
  · exact ((legalIrLen_iff _ _).mp hup).2.trans htap
  · exact ((legalIrLen_iff _ _).mp hdn).2.trans htap

/-- OS_LAT does not wrap, and stays below 2^18. -/
theorem toNat_osLat {s : State} (hp : s.params.legal = true) (hr : s.RegistersLegal) :
    s.osLat.toNat = (if s.active then s.rlpLatUp2.toNat + s.rlpLatDn2.toNat +
      s.irLenUp4.toNat / 2 + s.irLenDn4.toNat / 2 else 0) ∧ s.osLat.toNat < 2 ^ 18 := by
  have hup : s.irLenUp4.toNat ≤ 1023 := irLen_le hp hr .up4
  have hdn : s.irLenDn4.toNat ≤ 1023 := irLen_le hp hr .dn4
  have hlu := s.rlpLatUp2.isLt
  have hld := s.rlpLatDn2.isLt
  unfold State.osLat
  split
  · rw [BitVec.toNat_ofNat, State.irLen, State.irLen, Nat.mod_eq_of_lt (by omega)]
    exact ⟨rfl, by omega⟩
  · exact ⟨rfl, by decide⟩

theorem toNat_vibLat (s : State) : s.vibLat.toNat = s.vibLen.toNat / 2 := by
  have h := s.vibLen.isLt
  rw [State.vibLat, BitVec.toNat_ofNat, Nat.mod_eq_of_lt (by omega)]

/-- Settles O30: OS_LAT stays below 2^18 and VIB_LAT below 2^15. -/
theorem latencySumsDoNotWrap : Obligations.LatencySumsDoNotWrap := by
  intro s hp hr
  obtain ⟨hos, hlt⟩ := toNat_osLat hp hr
  have hvib := s.vibLen.isLt
  rw [State.readReg, State.readReg, BitVec.toNat_add, toNat_vibLat, Nat.mod_eq_of_lt (by omega), hos]

end Sys2Proof.Machine
end

section
/-! SUPPORT. The binary32 values that the vibrato's read positions take: `halfWord z` is `z/2`, on which
sums, differences, floors and fractions are exact; and products and sums with a zero. -/

namespace Sys2Proof.Machine

/-! ### Zeros and exact results -/

/-- A finite word is the rounding of its own units. -/
theorem rn32_unitsOf {w : Word} (hw : isFinite w = true) (h0 : unitsOf w ≠ 0) :
    rn32 (decide (unitsOf w < 0)) (unitsOf w).natAbs 1 = w := by
  have hu := unpack_of_finite hw
  rw [← signBit_of_units_ne hw h0]
  exact rn32_exact hu one_pos (Nat.mul_one _).symm

@[simp] theorem isFinite_zero (neg : Bool) : isFinite (zero neg) = true := by simp [isFinite]

@[simp] theorem unitsOf_zero (neg : Bool) : unitsOf (zero neg) = 0 := by
  cases neg <;> rfl

theorem isFinite_rn32 (neg : Bool) {num den : Nat} (hd : 0 < den)
    (h : num < den * (pow2 277 - pow2 252)) : isFinite (rn32 neg num den) = true :=
  isFinite_of_unpack (unpack_rn32 neg hd ((roundMag_lt_iff num hd).mpr h))

section Zeros
variable (ftz : Bool) {a b : Word} (ha : isFinite a = true) (hb : isFinite b = true)
include ha hb

/-- A product with a zero is a zero. -/
theorem fmul_eq_zero (h : unitsOf (flush ftz a) = 0 ∨ unitsOf (flush ftz b) = 0) :
    fmul ftz a b = zero (signBit a != signBit b) := by
  have hprod : unitsOf (flush ftz a) * unitsOf (flush ftz b) = 0 := mul_eq_zero.mpr h
  rw [fmul_finite ftz ha hb, hprod, Int.natAbs_zero, rn32_zero, flush_zero, signBit_flush,
    signBit_flush]

end Zeros

/-- Adding a nonzero word that FTZ leaves alone to a zero gives the word. -/
theorem zero_fadd (ftz s : Bool) {b : Word} (hb : isFinite b = true) (hf : flush ftz b = b)
    (h0 : unitsOf b ≠ 0) : fadd ftz (zero s) b = b := by
  rw [fadd_finite ftz (isFinite_zero s) hb, flush_zero, unitsOf_zero, Int.zero_add, hf, if_neg h0,
    rn32_unitsOf hb h0, hf]

/-- Adding a zero to a word that is not -0 and that FTZ leaves alone gives the word. -/
theorem fadd_zero (ftz s : Bool) {a : Word} (ha : isFinite a = true) (hf : flush ftz a = a)
    (hneg : a ≠ 0x80000000#32) : fadd ftz a (zero s) = a := by
  rw [fadd_finite ftz ha (isFinite_zero s), flush_zero, unitsOf_zero, Int.add_zero, hf]
  split
  · next h0 =>
    have hu := unpack_of_finite ha
    rw [h0, Int.natAbs_zero] at hu
    have haz : a = zero (signBit a) := eq_of_unpack_eq hu (unpack_zero _)
    cases hs : signBit a with
    | false => rw [haz, hs]; rfl
    | true => rw [hs] at haz; exact absurd haz hneg
  · next h0 => rw [rn32_unitsOf ha h0, hf]

/-! ### Halves -/

/-- The binary32 `z/2`; exact for |z| < 2^24. -/
def halfWord (z : Int) : Word := rn32 (decide (z < 0)) (z.natAbs * pow2 148) 1

theorem halfWord_natCast (n : Nat) : halfWord n = rn32 false (n * pow2 148) 1 := by
  rw [halfWord, decide_eq_false (by omega), Int.natAbs_natCast]

theorem pow2_149_eq : pow2 149 = 2 * pow2 148 := by
  rw [show 149 = 1 + 148 from rfl, pow2_add, pow2_eq 1, Nat.pow_one]

/-- A whole number is an even number of halves (R20). -/
theorem f32OfNat_eq (n : Nat) : f32OfNat n = halfWord (2 * n : Nat) := by
  rw [halfWord_natCast, f32OfNat, pow2_149_eq, Nat.mul_left_comm, ← Nat.mul_assoc]

theorem halfWord_zero : halfWord 0 = zero false := rn32_zero _ _

section Half
variable {z : Int} (hz : z.natAbs < 2 ^ 24)
include hz

theorem unpack_halfWord : unpack (halfWord z) = .fin (decide (z < 0)) (z.natAbs * pow2 148) :=
  unpack_rn32_scaled _ hz (by decide)

theorem isFinite_halfWord : isFinite (halfWord z) = true := isFinite_of_unpack (unpack_halfWord hz)

theorem signBit_halfWord : signBit (halfWord z) = decide (z < 0) :=
  signBit_of_unpack (unpack_halfWord hz)

theorem unitsOf_halfWord : unitsOf (halfWord z) = z * (pow2 148 : Nat) := by
  rw [unitsOf_of_unpack (unpack_halfWord hz), Nat.cast_mul]
  by_cases h : z < 0
  · rw [if_pos (by simpa using h), ← Int.neg_mul, Int.ofNat_natAbs_of_nonpos h.le, Int.neg_neg]
  · rw [if_neg (by simpa using h), Int.natAbs_of_nonneg (not_lt.mp h)]

theorem flush_halfWord (ftz : Bool) : flush ftz (halfWord z) = halfWord z := by
  refine flush_eq_self ftz (unpack_halfWord hz) fun _ => ?_
  rw [show 148 = 23 + 125 from rfl, pow2_add, pow2_eq 23]
  rcases Nat.eq_zero_or_pos z.natAbs with h | h
  · exact .inl (by rw [h, Nat.zero_mul])
  · exact .inr (Nat.le_mul_of_pos_left _ h |>.trans' (Nat.le_mul_of_pos_right _ (pow2_pos 125)))

/-- A position is below 0 exactly when its halves are. -/
theorem flt_halfWord_zero : flt (halfWord z) 0#32 = decide (z < 0) := by
  have h0 : orderKey 0#32 = some 0 := rfl
  rw [flt_of_keys (orderKey_finite (isFinite_halfWord hz)) h0, unitsOf_halfWord hz, decide_eq_decide]
  have hpos : (0 : Int) < (pow2 148 : Nat) := Int.natCast_pos.mpr (pow2_pos 148)
  exact ⟨fun h => neg_of_mul_neg_left h hpos.le, fun h => mul_neg_of_neg_of_pos h hpos⟩

theorem floorOf_halfWord : floorOf (halfWord z) = z / 2 := by
  rw [floorOf, unitsOf_halfWord hz, pow2_149_eq, Nat.cast_mul,
    Int.mul_ediv_mul_of_pos_left _ _ (by exact_mod_cast pow2_pos 148)]
  rfl

theorem fractionOf_halfWord : fractionOf (halfWord z) = halfWord (z % 2) := by
  obtain ⟨k, hk⟩ := Int.eq_ofNat_of_zero_le (Int.emod_nonneg z (by decide : (2 : Int) ≠ 0))
  rw [fractionOf, unitsOf_halfWord hz, pow2_149_eq, Nat.cast_mul, Int.mul_comm z,
    Int.mul_comm (2 : Nat), Int.mul_emod_mul_of_pos _ _ (Int.natCast_pos.mpr (pow2_pos 148))]
  rw [Nat.cast_ofNat, hk, halfWord_natCast, ← Nat.cast_mul, Int.toNat_natCast, Nat.mul_comm]

end Half

/-- The rounding of a whole number of halves. -/
theorem rn32_halves {z : Int} (hz : z.natAbs < 2 ^ 24) (h0 : z * (pow2 148 : Nat) ≠ 0) :
    rn32 (decide (z * (pow2 148 : Nat) < 0)) (z * (pow2 148 : Nat)).natAbs 1 = halfWord z := by
  rw [← unitsOf_halfWord hz] at h0 ⊢
  exact rn32_unitsOf (isFinite_halfWord hz) h0

section Sums
variable (ftz : Bool) {y z : Int} (hy : y.natAbs < 2 ^ 24) (hz : z.natAbs < 2 ^ 24)
include hy hz

theorem fsub_halfWord (hd : (y - z).natAbs < 2 ^ 24) :
    fsub ftz (halfWord y) (halfWord z) = halfWord (y - z) := by
  rw [fsub_finite ftz (isFinite_halfWord hy) (isFinite_halfWord hz), flush_halfWord hy,
    flush_halfWord hz, unitsOf_halfWord hy, unitsOf_halfWord hz, ← Int.sub_mul,
    signBit_halfWord hy, signBit_halfWord hz]
  split
  · next h =>
    have hyz : y - z = 0 := (mul_eq_zero.mp h).resolve_right (by exact_mod_cast (pow2_pos 148).ne')
    obtain rfl : y = z := by omega
    rw [Bool.and_not_self, Int.sub_self, halfWord_zero]
  · next h => rw [rn32_halves hd h, flush_halfWord hd]

theorem fadd_halfWord (hd : (y + z).natAbs < 2 ^ 24) :
    fadd ftz (halfWord y) (halfWord z) = halfWord (y + z) := by
  rw [fadd_finite ftz (isFinite_halfWord hy) (isFinite_halfWord hz), flush_halfWord hy,
    flush_halfWord hz, unitsOf_halfWord hy, unitsOf_halfWord hz, ← Int.add_mul,
    signBit_halfWord hy, signBit_halfWord hz]
  split
  · next h =>
    have hyz : y + z = 0 := (mul_eq_zero.mp h).resolve_right (by exact_mod_cast (pow2_pos 148).ne')
    have hsign : (decide (y < 0) && decide (z < 0)) = false := by simp; omega
    rw [hsign, hyz, halfWord_zero]
  · next h => rw [rn32_halves hd h, flush_halfWord hd]

end Sums

end Sys2Proof.Machine
end

section
/-! SUPPORT. The vibrato line as a delay line: what it holds after the samples so far, and what a frame
reads from it at the offset `len/2` (46_effects.md R281, R283). -/

namespace Sys2Proof.Machine

/-! ### The read position at half the length -/

section Position
variable (ftz : Bool) {w len : Nat} (hw : w < len) (hlen : len ≤ 65535)
include hw hlen

/-- The read position, in halves: `2·w - len`, wrapped. -/
theorem vibReadPos_half :
    vibReadPos ftz w (halfWord len) len =
      halfWord (if 2 * w < len then 2 * w + len else 2 * w - len) := by
  have hdiff : fsub ftz (f32OfNat w) (halfWord len) = halfWord (2 * w - len) := by
    rw [f32OfNat_eq, fsub_halfWord ftz (by omega) (by omega) (by omega)]
    push_cast; rfl
  unfold vibReadPos
  simp only [hdiff, flt_halfWord_zero (z := 2 * (w : Int) - len) (by omega), decide_eq_true_eq]
  split
  · rw [if_pos (by omega), f32OfNat_eq, fadd_halfWord ftz (by omega) (by omega) (by omega)]
    congr 1; push_cast; ring
  · rw [if_neg (by omega)]

/-- The element read is half the length ahead of the write position. -/
theorem vibReadIndex_half :
    vibReadIndex (vibReadPos ftz w (halfWord len) len) len = (w + len / 2) % len := by
  have hbound : (if 2 * w < len then 2 * (w : Int) + len else 2 * w - len).natAbs < 2 ^ 24 := by
    split <;> omega
  rw [vibReadPos_half ftz hw hlen, vibReadIndex, isFinite_halfWord hbound, if_pos rfl,
    floorOf_halfWord hbound]
  split
  · rw [show (2 * (w : Int) + len) / 2 = ((w + len / 2 : Nat) : Int) by omega, ← Int.natCast_emod,
      Int.toNat_natCast]
  · rw [show (2 * (w : Int) - len) / 2 = ((w + len / 2 : Nat) : Int) - len by omega,
      Int.sub_emod_right, ← Int.natCast_emod, Int.toNat_natCast]

/-- The fraction is 0 for an even length and a half for an odd one. -/
theorem vibReadFraction_half :
    vibReadFraction (vibReadPos ftz w (halfWord len) len) = halfWord (len % 2 : Nat) := by
  have hbound : (if 2 * w < len then 2 * (w : Int) + len else 2 * w - len).natAbs < 2 ^ 24 := by
    split <;> omega
  rw [vibReadPos_half ftz hw hlen, vibReadFraction, isFinite_halfWord hbound, if_pos rfl,
    fractionOf_halfWord hbound]
  congr 1
  split <;> omega

end Position

/-! ### Steps back in a ring -/

/-- Steps back after a step forward. -/
theorem ringBack_ringNext (cur d : Nat) {len : Nat} (h : 0 < len) :
    ringBack (ringNext cur len) (d + 1) len = ringBack cur d len := by
  rw [ringBack_eq_emod _ _ h, ringBack_eq_emod _ _ h, ringNext]
  push_cast
  rw [Int.emod_sub_emod]
  congr 2; ring

/-- One step forward of `d + 1` steps back is `d` steps back. -/
theorem ringNext_ringBack (cur d : Nat) {len : Nat} (h : 0 < len) :
    ringNext (ringBack cur (d + 1) len) len = ringBack cur d len := by
  have hcast : ((ringBack cur (d + 1) len : Nat) : Int) = ((cur : Int) - (d + 1 : Nat)) % len := by
    rw [ringBack_eq_emod _ _ h, Int.toNat_of_nonneg (Int.emod_nonneg _ (by omega))]
  have hnext : ((ringNext (ringBack cur (d + 1) len) len : Nat) : Int) = ((cur : Int) - d) % len := by
    rw [ringNext]; push_cast
    rw [hcast, Int.emod_add_emod]
    congr 1; push_cast; ring
  rw [ringBack_eq_emod cur d h, ← hnext, Int.toNat_natCast]

/-- Steps ahead are steps back. -/
theorem add_mod_eq_ringBack {cur k len : Nat} (hc : cur < len) (hk : k ≤ len) :
    (cur + k) % len = ringBack cur (len - k) len := by
  rw [ringBack_eq_emod _ _ (by omega), Nat.cast_sub hk,
    show (cur : Int) - (len - k) = ((cur + k : Nat) : Int) - len by push_cast; ring,
    Int.sub_emod_right, ← Int.natCast_emod, Int.toNat_natCast]

/-- Fewer steps back than the length do not come back to the cursor. -/
theorem ringBack_ne {cur d len : Nat} (hc : cur < len) (hd : 0 < d) (hdl : d < len) :
    ringBack cur d len ≠ cur := by
  unfold ringBack
  rw [Nat.mod_eq_of_lt hc, Nat.mod_eq_of_lt hdl, Nat.add_mod_eq_ite, Nat.mod_eq_of_lt hc,
    Nat.mod_eq_of_lt (by omega)]
  split <;> omega

/-! ### The line -/

theorem VibLine.get_push (l : VibLine) (prepared : Bool) (free : Nat → Word) (w k : Nat) (x : Word) :
    (l.push prepared w x).get prepared free k = if k = w then x else l.get prepared free k := by
  unfold VibLine.push VibLine.get
  by_cases h : k = w
  · rw [Store.read_write, if_pos h, if_pos h]
  · rw [Store.read_write, if_neg h, if_neg h]

/-- The line holds these samples, the latest first, and +0 before them. -/
def VibLine.Holds (l : VibLine) (free : Nat → Word) (len : Nat) (past : List Word) : Prop :=
  ∀ d < len, l.get true free (ringBack l.vw d len) = past.getD d 0#32

theorem VibLine.holds_zeroed (free : Nat → Word) (len : Nat) :
    VibLine.Holds ⟨0, []⟩ free len [] := fun _ _ => rfl

/-- A push makes its sample the latest. -/
theorem VibLine.holds_push {l : VibLine} {free : Nat → Word} {len : Nat} {past : List Word}
    (h : l.Holds free len past) (x : Word) :
    (l.push true (ringNext l.vw len) x).Holds free len (x :: past) := by
  intro d hd
  have hlen : 0 < len := by omega
  have hw := ringNext_lt l.vw hlen
  rw [VibLine.get_push]
  cases d with
  | zero => rw [show (l.push true (ringNext l.vw len) x).vw = ringNext l.vw len from rfl,
      ringBack_zero hw, if_pos rfl]; rfl
  | succ d =>
    rw [show (l.push true (ringNext l.vw len) x).vw = ringNext l.vw len from rfl,
      if_neg (ringBack_ne hw (Nat.succ_pos d) hd), ringBack_ringNext l.vw d hlen,
      h d (by omega), List.getD_cons_succ]

/-! ### A frame and a block at the offset `len/2` -/

/-- The linear interpolation of a frame at the offset `len/2`, from the later sample `b` and the one
before it, `a`. -/
def halfMix (ftz : Bool) (len : Nat) (a b : Word) : Word :=
  fadd ftz a (fmul ftz (halfWord (len % 2 : Nat)) (fsub ftz b a))

/-- The output of a line with these samples, the latest first. -/
def halfTap (ftz : Bool) (len : Nat) (past : List Word) : Word :=
  halfMix ftz len (past.getD (len - len / 2) 0#32) (past.getD (len - len / 2 - 1) 0#32)

section Block
variable (ftz : Bool) {free : Nat → Word} {len : Nat} (h2 : 2 ≤ len) (hlen : len ≤ 65535)
include h2 hlen

theorem vibSample_half {l : VibLine} {past : List Word} (h : l.Holds free len past) (x : Word) :
    vibSample ftz true free len l x (halfWord len) =
      (l.push true (ringNext l.vw len) x, halfTap ftz len (x :: past)) := by
  have hw : ringNext l.vw len < len := ringNext_lt l.vw (by omega)
  have hpush := VibLine.holds_push h x
  have ha := hpush (len - len / 2) (by omega)
  have hb := hpush (len - len / 2 - 1) (by omega)
  have hnext := ringNext_ringBack (ringNext l.vw len) (len - len / 2 - 1) (len := len) (by omega)
  rw [show len - len / 2 - 1 + 1 = len - len / 2 by omega] at hnext
  unfold vibSample
  simp only [vibReadIndex_half ftz hw hlen, vibReadFraction_half ftz hw hlen,
    add_mod_eq_ringBack hw (show len / 2 ≤ len by omega), hnext]
  rw [halfTap, halfMix, ← ha, ← hb]
  rfl

/-- The samples of a block through a line at the offset `len/2`. -/
theorem vibBlock_half (xs : List Word) :
    ∀ (l : VibLine) (past : List Word), l.Holds free len past → ∀ i < xs.length,
      (vibBlock ftz true free len l (xs.map (fun x => (x, halfWord len)))).2.getD i 0#32 =
        halfTap ftz len ((xs.take (i + 1)).reverse ++ past) := by
  induction xs with
  | nil => intro l past _ i hi; simp at hi
  | cons x xs ih =>
    intro l past h i hi
    rw [List.map_cons, vibBlock_cons, vibSample_half ftz h2 hlen h x]
    cases i with
    | zero => simp
    | succ i =>
      rw [List.getD_cons_succ, ih _ (x :: past) (VibLine.holds_push h x) i (by simpa using hi)]
      simp

end Block

/-- A sample `d` frames earlier, +0 before the block. -/
theorem getD_reverse_take (xs : List Word) {i : Nat} (d : Nat) (hi : i < xs.length) :
    ((xs.take (i + 1)).reverse ++ []).getD d 0#32 = if i < d then 0#32 else xs.getD (i - d) 0#32 := by
  have hlen : (xs.take (i + 1)).reverse.length = i + 1 := by simp; omega
  rw [List.append_nil]
  split
  · next h => exact List.getD_eq_default _ _ (by omega)
  · next h =>
    rw [List.getD_eq_getElem _ _ (by omega), List.getD_eq_getElem _ _ (by omega), List.getElem_reverse,
      List.getElem_take]
    congr 1
    simp
    omega

/-- The output of a zeroed line at the offset `len/2`: the samples `len - len/2` frames and one frame
fewer earlier, interpolated. -/
theorem vibBlock_half_zeroed (ftz : Bool) (free : Nat → Word) {len : Nat} (h2 : 2 ≤ len)
    (hlen : len ≤ 65535) (xs : List Word) {i : Nat} (hi : i < xs.length) :
    (vibBlock ftz true free len ⟨0, []⟩ (xs.map (fun x => (x, halfWord len)))).2.getD i 0#32 =
      halfMix ftz len
        (if i < len - len / 2 then 0#32 else xs.getD (i - (len - len / 2)) 0#32)
        (if i < len - len / 2 - 1 then 0#32 else xs.getD (i - (len - len / 2 - 1)) 0#32) := by
  rw [vibBlock_half ftz h2 hlen xs _ _ (VibLine.holds_zeroed free len) i hi, halfTap,
    getD_reverse_take xs _ hi, getD_reverse_take xs _ hi]

end Sys2Proof.Machine
end

section
/-! PROOF. The vibrato at depth 0 (46_effects.md R283). -/

namespace Sys2Proof.Machine

/-! ### The offset at depth 0 -/

theorem unpack_f32Half : unpack f32Half = .fin false (pow2 148) := by decide +kernel

theorem halfWord_one : halfWord 1 = f32Half := by
  rw [← Nat.cast_one, halfWord_natCast]
  exact rn32_exact unpack_f32Half one_pos (Nat.mul_comm 1 _)

/-- At depth 0 the modulation is one half, for every finite LFO output. -/
theorem modulation_zero_depth (ftz : Bool) {lfo : Word} (h : isFinite lfo = true) :
    fadd ftz (fmul ftz (fmul ftz (fmul ftz c09 (zero false)) lfo) f32Half) f32Half = f32Half := by
  have hone : (1 : Int).natAbs < 2 ^ 24 := by decide
  have hhalf : isFinite f32Half = true := rfl
  rw [fmul_eq_zero ftz rfl (isFinite_zero false) (.inr (by simp)),
    fmul_eq_zero ftz (isFinite_zero _) h (.inl (by simp)),
    fmul_eq_zero ftz (isFinite_zero _) hhalf (.inl (by simp)), ← halfWord_one]
  refine zero_fadd ftz _ (isFinite_halfWord hone) (flush_halfWord hone ftz) ?_
  rw [unitsOf_halfWord hone, Int.one_mul]
  exact_mod_cast (pow2_pos 148).ne'

/-- Half of a whole number is its halves. -/
theorem f32Half_fmul (ftz : Bool) {len : Nat} (h : len ≤ 65535) :
    fmul ftz f32Half (f32OfNat len) = halfWord len := by
  have hone : (1 : Int).natAbs < 2 ^ 24 := by decide
  have hlen : (len : Int).natAbs < 2 ^ 24 := by omega
  have hwhole : ((2 * len : Nat) : Int).natAbs < 2 ^ 24 := by omega
  have hval := unpack_halfWord hlen
  rw [decide_eq_false (by omega), Int.natAbs_natCast] at hval
  rw [← halfWord_one, f32OfNat_eq,
    fmul_finite ftz (isFinite_halfWord hone) (isFinite_halfWord hwhole), flush_halfWord hone,
    flush_halfWord hwhole, signBit_halfWord hone, signBit_halfWord hwhole, unitsOf_halfWord hone,
    unitsOf_halfWord hwhole, decide_eq_false (by omega), decide_eq_false (by omega)]
  rw [← flush_halfWord hlen ftz]
  refine congrArg (flush ftz) (rn32_exact hval (pow2_pos 149) ?_)
  rw [pow2_149_eq, Int.one_mul, ← Nat.cast_mul, ← Nat.cast_mul, Int.natAbs_natCast]
  ring

/-- At depth 0 the offset is half the length (R283). -/
theorem vibOffset_zero_depth (ftz : Bool) {lfo : Word} {len : Nat} (hlfo : isFinite lfo = true)
    (hlen : len ≤ 65535) : vibOffset ftz 0#32 lfo len = halfWord len := by
  have h := modulation_zero_depth ftz hlfo
  have hz : zero false = 0#32 := rfl
  unfold vibOffset
  rw [← hz, h, f32Half_fmul ftz hlen]

/-! ### An even length -/

/-- The samples that a delay returns as they are: below 2^127 in magnitude, not -0, and not a subnormal
where FTZ flushes it (00_scope.md R14; 46_effects.md R281, R282). -/
def Delayable (ftz : Bool) (x : Word) : Prop :=
  expField x < 254 ∧ x ≠ 0x80000000#32 ∧ (ftz = true → expField x = 0 → x = 0x00000000#32)

theorem delayable_zero (ftz : Bool) : Delayable ftz 0#32 := ⟨by decide, by decide, fun _ _ => rfl⟩

theorem isFinite_of_delayable {ftz : Bool} {x : Word} (h : Delayable ftz x) : isFinite x = true :=
  (isFinite_iff x).mpr (by have := h.1; omega)

theorem flush_of_delayable {ftz : Bool} {x : Word} (h : Delayable ftz x) : flush ftz x = x := by
  obtain ⟨-, -, hsub⟩ := h
  unfold flush
  split
  · next hc => rw [hsub hc.1 hc.2]; rfl
  · rfl

/-- A magnitude below 2^127. -/
theorem natAbs_unitsOf_le {x : Word} (h : expField x < 254) :
    (unitsOf x).natAbs ≤ (2 ^ 24 - 1) * pow2 252 := by
  have hu := unpack_of_finite ((isFinite_iff x).mpr (by omega))
  obtain ⟨b, hb, hx, hval⟩ := unpack_eq_fin hu
  rw [hx, expField_packBits _ (by omega)] at h
  obtain ⟨step, q, rfl, hlo, hhi⟩ := exists_step_eq b
  rw [hval, bitsValue_step hlo hhi.le]
  exact Nat.mul_le_mul (by omega) (Nat.pow_le_pow_right (by decide) (by omega))

/-- The difference of two such samples is finite. -/
theorem isFinite_fsub_of_delayable {ftz : Bool} {a b : Word} (ha : Delayable ftz a)
    (hb : Delayable ftz b) : isFinite (fsub ftz b a) = true := by
  have hu := natAbs_unitsOf_le ha.1
  have hv := natAbs_unitsOf_le hb.1
  rw [fsub_finite ftz (isFinite_of_delayable hb) (isFinite_of_delayable ha), flush_of_delayable ha,
    flush_of_delayable hb]
  split
  · exact isFinite_zero _
  · rw [isFinite_flush]
    refine isFinite_rn32 _ one_pos ?_
    have hpos := pow2_pos 252
    rw [overflowBound_eq]
    generalize pow2 252 = p at *
    omega

/-- For an even length the interpolation is the earlier sample. -/
theorem halfMix_even {ftz : Bool} {len : Nat} {a b : Word} (hlen : len % 2 = 0)
    (ha : Delayable ftz a) (hb : Delayable ftz b) : halfMix ftz len a b = a := by
  rw [halfMix, hlen, Nat.cast_zero, halfWord_zero,
    fmul_eq_zero ftz (isFinite_zero _) (isFinite_fsub_of_delayable ha hb) (.inl (by simp)),
    fadd_zero ftz _ (isFinite_of_delayable ha) (flush_of_delayable ha) ha.2.1]

/-! ### An odd length -/

/-- For an odd length the interpolation is the mean. -/
theorem halfMix_odd (ftz : Bool) {len : Nat} (a b : Word) (hlen : len % 2 = 1) :
    halfMix ftz len a b = fadd ftz a (fmul ftz 0x3F000000#32 (fsub ftz b a)) := by
  rw [halfMix, hlen, Nat.cast_one, halfWord_one]
  rfl

/-! ### The statement -/

/-- A sample of the block, or the +0 before it. -/
theorem delayable_sample {ftz : Bool} {xs : List Word} (h : ∀ x ∈ xs, Delayable ftz x) (i d : Nat) :
    Delayable ftz (if i < d then 0#32 else xs.getD (i - d) 0#32) := by
  split
  · exact delayable_zero ftz
  · rcases lt_or_ge (i - d) xs.length with hi | hi
    · rw [List.getD_eq_getElem _ _ hi]; exact h _ (List.getElem_mem hi)
    · rw [List.getD_eq_default _ _ hi]; exact delayable_zero ftz

/-- Settles O45: the offset by `vibOffset_zero_depth`, the delays by `vibBlock_half_zeroed`. -/
theorem zeroDepthVibratoIsPureDelay : Obligations.ZeroDepthVibratoIsPureDelay := by
  refine ⟨fun ftz lfo len hlfo _ hlen => ?_, fun ftz free h xs hh hlen hxs i hi => ?_,
    fun ftz free h xs hh hlen i hi => ?_⟩
  · rw [vibOffset_zero_depth ftz hlfo hlen, halfWord_natCast]
  · have hoff : rn32 false (h * pow2 149) 1 = halfWord (2 * h : Nat) := f32OfNat_eq h
    rw [hoff, vibBlock_half_zeroed ftz free (by omega) hlen xs hi,
      halfMix_even (by omega) (delayable_sample hxs i _) (delayable_sample hxs i _),
      show 2 * h - 2 * h / 2 = h by omega]
  · rw [← halfWord_natCast, vibBlock_half_zeroed ftz free (by omega) hlen xs hi,
      halfMix_odd ftz _ _ (by omega), show 2 * h + 1 - (2 * h + 1) / 2 = h + 1 by omega,
      Nat.add_sub_cancel]

end Sys2Proof.Machine
end

section
/-! SUPPORT. What one step can do: the bus turn as the access it performs, the commands as the bodies
that complete, and one inversion lemma for `step` (20_memory.md R90 to R92; 60_exceptions.md R320 to
R322). -/

namespace Sys2Proof.Machine

/-! ### The target of an access -/

@[simp] theorem targetAt_offset (p : Params) (r : Reg) : targetAt p r.offset = some (.reg r) := by
  simp [targetAt]

theorem toNat_offset (r : Reg) : (BitVec.ofNat 32 r.offset).toNat = r.offset := by
  cases r <;> rfl

theorem offset_mod_four (r : Reg) : r.offset % 4 = 0 := by cases r <;> rfl

/-- A permitted access has the target that its address names, and that target passes the checks. -/
theorem checkAccess_ok {s : State} {a : BusAccess} {t : Target} (h : checkAccess s a = .ok t) :
    targetAt s.params a.addr.toNat = some t ∧ checkTarget s a t = .ok t := by
  rcases checkAccess_cases s a with ⟨-, he⟩ | ⟨-, -, -, he⟩ | ⟨u, -, -, hu, he⟩
  · cases he.symm.trans h
  · cases he.symm.trans h
  · have hc := he.symm.trans h
    obtain rfl := checkTarget_ok hc
    exact ⟨hu, hc⟩

/-- The checks of an access to a register. -/
theorem checkAccess_reg (s : State) (g : Agent) (k : AccessKind) (r : Reg) (v : Word) :
    checkAccess s ⟨g, k, BitVec.ofNat 32 r.offset, 4, v⟩ =
      checkTarget s ⟨g, k, BitVec.ofNat 32 r.offset, 4, v⟩ (.reg r) := by
  unfold checkAccess
  dsimp only
  rw [toNat_offset, if_pos ⟨rfl, offset_mod_four r⟩, targetAt_offset]

/-! ### The bus turn -/

/-- The two operations that a bus write runs itself (30_encoding.md R120). -/
theorem regwOperation_some {a : BusAccess} {i : Instr} (h : regwOperation a = some i) :
    a.kind = .write ∧ ((a.addr = osReqAddr ∧ i = .setEnabled a.wdata) ∨
      (a.addr = latTickAddr ∧ i = .latTick a.wdata)) := by
  unfold regwOperation at h
  split at h
  · cases h
  · next hk =>
    refine ⟨hk, ?_⟩
    split at h
    · cases h
    · next hcmd =>
      unfold decode at h
      rw [if_neg hcmd] at h
      split at h
      · next ha => exact .inl ⟨ha, (Option.some.inj h).symm⟩
      · split at h
        · next ha => exact .inr ⟨ha, (Option.some.inj h).symm⟩
        · cases h

/-- LAT_TICK does not read the port's answer. -/
theorem latTick_answer (s : State) (resp : Response) (w : Word) :
    (s.answer resp w).latTick = s.latTick.answer resp w := by
  unfold State.latTick
  by_cases h : (s.osDirty || s.vibDirty) = true
  · rw [if_pos h]; exact if_pos h
  · rw [if_neg h]; exact if_neg h

/-- The operation of a permitted write to OS_REQ or LAT_TICK is the register write. -/
theorem exec_regwOperation {s : State} {a : BusAccess} {t : Target} {i : Instr}
    (hi : regwOperation a = some i) (ht : checkAccess s a = .ok t) :
    exec i (s.answer .okay 0#32) = .next (s.performAccess a t) := by
  obtain ⟨htarget, -⟩ := checkAccess_ok ht
  obtain ⟨hk, ⟨ha, rfl⟩ | ⟨ha, rfl⟩⟩ := regwOperation_some hi
  · rw [ha, show osReqAddr.toNat = Reg.osReq.offset from rfl, targetAt_offset] at htarget
    obtain rfl := Option.some.inj htarget
    rw [State.performAccess, hk]
    rfl
  · rw [ha, show latTickAddr.toNat = Reg.latTick.offset from rfl, targetAt_offset] at htarget
    obtain rfl := Option.some.inj htarget
    rw [State.performAccess, hk]
    exact congrArg Host.Outcome.next (latTick_answer s .okay 0#32)

/-- A permitted access is performed, whichever register it is to. -/
theorem busTurn_ok {s : State} {a : BusAccess} {t : Target} (h : checkAccess s a = .ok t) :
    busTurn a s = .next (s.performAccess a t) := by
  unfold busTurn
  rw [h]
  cases hi : regwOperation a with
  | none => rfl
  | some i => exact exec_regwOperation hi h

theorem busTurn_error {s : State} {a : BusAccess} {e : ErrorCode} (h : checkAccess s a = .error e) :
    busTurn a s = .next (s.refuseAccess e) := by
  unfold busTurn
  rw [h]

/-! ### Steps on a register -/

section Register
variable {s : State} {r : Reg} {v : Word} {rest : List Event}

/-- A register read answers the register's word (20_memory.md R90, R94). -/
theorem step_readReg (h : s.ReadNext (BitVec.ofNat 32 r.offset) rest) :
    step s = .next { s with inputs := rest, reply := some ⟨.okay, s.readReg r⟩ } := by
  obtain ⟨g, w, hin⟩ := h
  unfold step
  rw [hin]
  have hok := (checkAccess_reg { s with inputs := rest } g .read r w).trans (checkTarget_read _ _ r rfl)
  refine (busTurn_ok hok).trans ?_
  cases r <;> rfl

section Write
variable (h : s.WriteNext (BitVec.ofNat 32 r.offset) v rest)
include h

/-- A permitted register write does what `writeReg` says and answers OKAY (20_memory.md R91). -/
theorem step_writeReg (hbusy : s.busy = false ∨ r.writableWhileBusy = true)
    (hlegal : Reg.legal s.params v r = true) :
    step s = .next ((State.writeReg { s with inputs := rest } v r).answer .okay 0#32) := by
  obtain ⟨g, hin⟩ := h
  unfold step
  rw [hin]
  have hok := (checkAccess_reg { s with inputs := rest } g .write r v).trans
    ((checkTarget_write_ok_iff _ _ r rfl).mpr ⟨hbusy, hlegal⟩)
  exact busTurn_ok hok

/-- A write to a register that is shut while the ENGINE works raises ERR_BUSY (20_memory.md R94). -/
theorem step_writeReg_busy (hbusy : s.busy = true) (hr : r.writableWhileBusy = false) :
    step s = .next (State.refuseAccess { s with inputs := rest } .busy) := by
  obtain ⟨g, hin⟩ := h
  unfold step
  rw [hin]
  have hb : State.busy { s with inputs := rest } = true := hbusy
  refine busTurn_error ((checkAccess_reg { s with inputs := rest } g .write r v).trans ?_)
  simp [checkTarget, hb, hr]

/-- A write of an illegal value raises ERR_RANGE (20_memory.md R91). -/
theorem step_writeReg_illegal (hbusy : s.busy = false) (hlegal : Reg.legal s.params v r = false) :
    step s = .next (State.refuseAccess { s with inputs := rest } .range) := by
  obtain ⟨g, hin⟩ := h
  unfold step
  rw [hin]
  have hb : State.busy { s with inputs := rest } = false := hbusy
  refine busTurn_error ((checkAccess_reg { s with inputs := rest } g .write r v).trans ?_)
  simp [checkTarget, hb, hlegal]

end Write

end Register

/-! ### The commands -/

/-- The operations that a CMD word can name (30_encoding.md R120). -/
def isCommand : Instr → Bool
  | .setEnabled _ => false
  | .latTick _ => false
  | _ => true

/-- A decoding that is no operation or one of the commands. -/
def NamesCommand (x : Except DecodeReject Instr) : Prop := ∀ i, x = .ok i → isCommand i = true

theorem namesCommand_error (e : DecodeReject) : NamesCommand (.error e) := fun _ h => by cases h

theorem namesCommand_ok {i : Instr} (hi : isCommand i = true) : NamesCommand (.ok i) :=
  fun _ h => Except.ok.inj h ▸ hi

theorem namesCommand_ite {c : Prop} [Decidable c] {x y : Except DecodeReject Instr}
    (hx : NamesCommand x) (hy : NamesCommand y) : NamesCommand (if c then x else y) := by
  split
  · exact hx
  · exact hy

section Decode
variable (stg : BitVec 2) (ch : BitVec 4) (cnt : BitVec 16)

theorem namesCommand_decodeBare {i : Instr} (hi : isCommand i = true) :
    NamesCommand (decodeBare i stg ch cnt) :=
  namesCommand_ite (namesCommand_ok hi) (namesCommand_error _)

theorem namesCommand_decodeCount {i : BitVec 16 → Instr} (hi : ∀ n, isCommand (i n) = true) :
    NamesCommand (decodeCount i stg ch cnt) :=
  namesCommand_ite (namesCommand_ok (hi cnt)) (namesCommand_error _)

theorem namesCommand_decodeStaged {i : Stage → BitVec 4 → BitVec 16 → Instr} (fir : Bool)
    (hi : ∀ g c n, isCommand (i g c n) = true) : NamesCommand (decodeStaged i fir stg ch cnt) :=
  namesCommand_ite (namesCommand_ok (hi _ ch cnt)) (namesCommand_error _)

end Decode

/-- A CMD word never names SET_ENABLED or LAT_TICK (30_encoding.md R123). -/
theorem namesCommand_decodeCmd (w : Word) : NamesCommand (decodeCmd w) := by
  unfold decodeCmd
  refine namesCommand_ite (namesCommand_error _) ?_
  refine namesCommand_ite (namesCommand_decodeBare _ _ _ rfl) ?_
  refine namesCommand_ite (namesCommand_decodeBare _ _ _ rfl) ?_
  refine namesCommand_ite (namesCommand_decodeCount _ _ _ fun _ => rfl) ?_
  refine namesCommand_ite (namesCommand_decodeBare _ _ _ rfl) ?_
  refine namesCommand_ite (namesCommand_decodeCount _ _ _ fun _ => rfl) ?_
  refine namesCommand_ite (namesCommand_decodeBare _ _ _ rfl) ?_
  refine namesCommand_ite (namesCommand_decodeBare _ _ _ rfl) ?_
  refine namesCommand_ite (namesCommand_decodeBare _ _ _ rfl) ?_
  refine namesCommand_ite (namesCommand_decodeStaged _ _ _ _ fun _ _ _ => rfl) ?_
  refine namesCommand_ite (namesCommand_decodeStaged _ _ _ _ fun _ _ _ => rfl) ?_
  exact namesCommand_ite (namesCommand_decodeStaged _ _ _ _ fun _ _ _ => rfl) (namesCommand_error _)

theorem decode_cmdAddr (w : Word) : decode ⟨cmdAddr, w⟩ = decodeCmd w := rfl

/-- The pending word, where it decodes, names a command. -/
theorem isCommand_of_pending {s : State} {i : Instr} (h : s.pending? = some i) :
    isCommand i = true := by
  unfold State.pending? at h
  rw [decode_cmdAddr] at h
  cases hd : decodeCmd s.pendCmd with
  | error e => rw [hd] at h; cases h
  | ok j =>
    rw [hd] at h
    exact Option.some.inj h ▸ namesCommand_decodeCmd _ j hd

/-- A primitive's body on the stage that STG names; ERR_ILLEGAL when it names none of the right kind
(30_encoding.md R124, log 15). -/
def onStage {α : Type} (g : Option α) (body : α → Except ErrorCode State) : Except ErrorCode State :=
  match g with
  | some g => body g
  | none => .error .illegal

theorem onStage_ok {α : Type} {g : Option α} {body : α → Except ErrorCode State} {u : State}
    (h : onStage g body = .ok u) : ∃ g, body g = .ok u := by
  cases g with
  | some g => exact ⟨g, h⟩
  | none => cases h

/-- What the FINISH step of a command runs. -/
def commandBody : Instr → State → Except ErrorCode State
  | .nop, s => .ok s
  | .prepare, s => prepareBody s
  | .upsample n, s => upsampleBody n.toNat s
  | .downsample, s => downsampleBody s
  | .process n, s => processBody n.toNat s
  | .wavefold, s => effectChecks s wavefoldBody
  | .saturate, s => effectChecks s saturateBody
  | .vibrato, s => effectChecks s vibratoBody
  | .convDirect stg ch n, s => onStage (firStage? stg) (fun g => convDirectBody g ch.toNat n.toNat s)
  | .convPoly stg ch n, s => onStage (firStage? stg) (fun g => convPolyBody g ch.toNat n.toNat s)
  | .rlpRun stg ch n, s => onStage (rlpStage? stg) (fun g => rlpRunBody g ch.toNat n.toNat s)
  | .setEnabled _, _ => .error .illegal
  | .latTick _, _ => .error .illegal

/-- Every command is its body and the end of a command (60_exceptions.md R322). -/
theorem exec_eq_finishCommand {i : Instr} (h : isCommand i = true) (s : State) :
    exec i s = finishCommand s (commandBody i s) := by
  cases i with
  | setEnabled | latTick => cases h
  | convDirect stg | convPoly stg | rlpRun stg => cases stg <;> rfl
  | _ => rfl

/-- A filter primitive's result stored: the line of its channel, the samples, and NUMERR
(42_convolution.md R173, R175). -/
def State.storeFir (s : State) (g : FirStage) (ch : Nat) (r : FirLine × List Word) : State :=
  ((s.setFirLine g ch r.1).setScrBlock ch r.2).flagNumerr r.2

/-- The same for the recursive stage (43_recursive.md R193). -/
def State.storeRlp (s : State) (g : RlpStage) (ch : Nat) (r : List Biquad × List Word) : State :=
  ((s.setRlpLine g ch r.1).setScrBlock ch r.2).flagNumerr r.2

/-- The states in which a command's body can complete. -/
inductive Completes (s : State) : State → Prop where
  | nop : Completes s s
  | prepare {r : Rates} (h : prepareRates s = .ok r) : Completes s (s.applyPrepare r)
  | upsample {n : Nat} (hp : s.prepared = true) (hn : blockInRange s.params n = true) :
      Completes s (upsampleRun n s)
  | downsample (hp : s.prepared = true) (hw : s.wmode ≠ .none) : Completes s (downsampleRun s)
  | process {n : Nat} (hp : s.prepared = true) (hn : blockInRange s.params n = true) :
      Completes s (processRun n s)
  | wavefold (hp : s.prepared = true) (hw : s.wmode ≠ .none) : Completes s (wavefoldBody s)
  | saturate (hp : s.prepared = true) (hw : s.wmode ≠ .none) : Completes s (saturateBody s)
  | vibrato (hp : s.prepared = true) (hw : s.wmode ≠ .none) : Completes s (vibratoBody s)
  | convDirect {g : FirStage} {ch n : Nat} (hc : primitiveInRange s.params ch n = true) :
      Completes s (s.storeFir g ch
        (convDirectBlock s.params.ftz (s.tap g) (s.irLen g) (s.firLine g ch) (s.scrBlock ch n)))
  | convPoly {g : FirStage} {ch n : Nat} (hc : primitiveInRange s.params ch n = true) :
      Completes s (s.storeFir g ch
        (convPolyBlock s.params.ftz (s.tap g) (s.irLen g) (s.firLine g ch) (evens (s.scrBlock ch n))))
  | rlpRun {g : RlpStage} {ch n : Nat} (hc : primitiveInRange s.params ch n = true) :
      Completes s (s.storeRlp g ch
        (rlpBlock s.params.ftz (s.coefs g) (s.rlpNsec g) (s.rlpLine g ch) (s.scrBlock ch n)))

theorem completes_of_convDirectBody {s u : State} {g : FirStage} {ch n : Nat}
    (h : convDirectBody g ch n s = .ok u) : Completes s u := by
  unfold convDirectBody at h
  split at h
  · next hc => exact Except.ok.inj h ▸ .convDirect hc
  · cases h

theorem completes_of_convPolyBody {s u : State} {g : FirStage} {ch n : Nat}
    (h : convPolyBody g ch n s = .ok u) : Completes s u := by
  unfold convPolyBody at h
  split at h
  · next hc => exact Except.ok.inj h ▸ .convPoly (Bool.and_eq_true_iff.mp hc).1
  · cases h

theorem completes_of_rlpRunBody {s u : State} {g : RlpStage} {ch n : Nat}
    (h : rlpRunBody g ch n s = .ok u) : Completes s u := by
  unfold rlpRunBody at h
  split at h
  · next hc => exact Except.ok.inj h ▸ .rlpRun hc
  · cases h

/-- Everything that a completed command can have done. -/
theorem completes_of_commandBody {i : Instr} {s u : State} (h : commandBody i s = .ok u) :
    Completes s u := by
  cases i with
  | nop => exact Except.ok.inj h ▸ .nop
  | prepare =>
    obtain ⟨r, hr, rfl⟩ := (prepareBody_ok_iff s u).mp h
    exact .prepare hr
  | upsample n =>
    obtain ⟨hp, hn, rfl⟩ := (upsampleBody_ok_iff _ s u).mp h
    exact .upsample hp hn
  | downsample =>
    obtain ⟨hp, hw, rfl⟩ := (downsampleBody_ok_iff s u).mp h
    exact .downsample hp hw
  | process n =>
    obtain ⟨hp, hn, rfl⟩ := (processBody_ok_iff _ s u).mp h
    exact .process hp hn
  | wavefold =>
    obtain ⟨hp, hw, rfl⟩ := (effectChecks_ok_iff s u _).mp h
    exact .wavefold hp hw
  | saturate =>
    obtain ⟨hp, hw, rfl⟩ := (effectChecks_ok_iff s u _).mp h
    exact .saturate hp hw
  | vibrato =>
    obtain ⟨hp, hw, rfl⟩ := (effectChecks_ok_iff s u _).mp h
    exact .vibrato hp hw
  | convDirect stg ch n =>
    obtain ⟨g, hg⟩ := onStage_ok h
    exact completes_of_convDirectBody hg
  | convPoly stg ch n =>
    obtain ⟨g, hg⟩ := onStage_ok h
    exact completes_of_convPolyBody hg
  | rlpRun stg ch n =>
    obtain ⟨g, hg⟩ := onStage_ok h
    exact completes_of_rlpRunBody hg
  | setEnabled | latTick => cases h

/-! ### The step -/

/-- Everything that one step can do to the state, apart from taking its event. -/
inductive StepEffect (s : State) : State → Prop where
  /-- The ENGINE has no step to take. -/
  | idle : StepEffect s s
  /-- START. -/
  | start : StepEffect s s.start
  /-- FINISH of a command that completes. -/
  | complete {u : State} (h : Completes s u) : StepEffect s u.completed
  /-- FINISH of a command that raises. -/
  | fail (e : ErrorCode) : StepEffect s { s.raise e with engPhase := .idle }
  /-- A bus access that raises. -/
  | refuse (e : ErrorCode) : StepEffect s (s.refuseAccess e)
  /-- A bus read. -/
  | read (w : Word) : StepEffect s (s.answer .okay w)
  /-- A permitted register write. -/
  | writeReg {r : Reg} {v : Word} (h : Reg.legal s.params v r = true) :
      StepEffect s ((s.writeReg v r).answer .okay 0#32)
  /-- A write of an element. -/
  | writeElement (a : Nat) (v : Word) : StepEffect s ((s.storeWord a v).answer .okay 0#32)
  /-- The reset input. -/
  | reset : StepEffect s s.resetInput

/-- What the end of a command can do. -/
theorem stepEffect_of_finishCommand {s t : State} {b : Except ErrorCode State}
    (hb : ∀ u, b = .ok u → Completes s u) (h : finishCommand s b = .next t) : StepEffect s t := by
  rcases finishCommand_cases h with ⟨u, hu, rfl⟩ | ⟨e, -, rfl⟩
  · exact .complete (hb u hu)
  · exact .fail e

theorem stepEffect_of_engineTurn {s t : State} (h : engineTurn s = .next t) : StepEffect s t := by
  unfold engineTurn at h
  split at h
  · cases h; exact .idle
  · cases h; exact .start
  · split at h
    · next i hi =>
      rw [exec_eq_finishCommand (isCommand_of_pending hi)] at h
      exact stepEffect_of_finishCommand (fun u hu => completes_of_commandBody hu) h
    · exact stepEffect_of_finishCommand (fun u hu => by cases hu) h

/-- What a permitted access can do. -/
theorem stepEffect_of_performAccess {s : State} {a : BusAccess} {u : Target}
    (h : checkTarget s a u = .ok u) : StepEffect s (s.performAccess a u) := by
  unfold State.performAccess
  split
  · exact .read _
  · next hk =>
    cases u with
    | reg r => exact .writeReg ((checkTarget_write_ok_iff s a r hk).mp h).2
    | element => exact .writeElement _ _

theorem stepEffect_of_busTurn {s t : State} {a : BusAccess} (h : busTurn a s = .next t) :
    StepEffect s t := by
  cases hc : checkAccess s a with
  | error e =>
    rw [busTurn_error hc] at h
    cases h; exact .refuse e
  | ok u =>
    rw [busTurn_ok hc] at h
    cases h; exact stepEffect_of_performAccess (checkAccess_ok hc).2

/-- Every step takes its event and has one of these effects. -/
theorem step_effect {s t : State} (h : step s = .next t) :
    ∃ rest, StepEffect { s with inputs := rest } t := by
  unfold step at h
  split at h
  · next hin => exact ⟨[], hin ▸ stepEffect_of_engineTurn h⟩
  · next rest _ => exact ⟨rest, stepEffect_of_engineTurn h⟩
  · next a rest _ => exact ⟨rest, stepEffect_of_busTurn h⟩
  · next rest _ => cases h; exact ⟨rest, .reset⟩

end Sys2Proof.Machine
end

section
/-! SUPPORT. The packaged induction over one step: a predicate that every update of the state keeps is
kept by every step. -/

namespace Sys2Proof.Machine

/-- What must be shown of a predicate for every step to keep it: that each kind of update the machine
makes keeps it. -/
structure StepInvariant (P : State → Prop) : Prop where
  /-- The fields of the model's own interleaving and the ENGINE's state. -/
  engine : ∀ {s : State} (rest : List Event) (phase : EngPhase) (snap done : Bool), P s →
    P { s with inputs := rest, engPhase := phase, reqSnap := snap, done := done }
  answer : ∀ {s : State} (resp : Response) (w : Word), P s → P (s.answer resp w)
  raise : ∀ {s : State} (e : ErrorCode), P s → P (s.raise e)
  writeReg : ∀ {s : State} {r : Reg} {v : Word}, Reg.legal s.params v r = true → P s →
    P (s.writeReg v r)
  numerr : ∀ {s : State} (b : Bool), P s → P { s with numerr := b }
  storeBlock : ∀ {s : State} (a : Nat) (ws : List Word), P s → P (s.storeBlock a ws)
  prepare : ∀ {s : State} {r : Rates}, prepareRates s = .ok r → P s → P (s.applyPrepare r)
  upsample : ∀ {s : State} {n : Nat}, s.prepared = true → blockInRange s.params n = true → P s →
    P (upsampleRun n s)
  vibrato : ∀ {s : State}, P s → P (vibratoBody s)
  downsample : ∀ {s : State}, P s → P (downsampleRun s)
  convDirect : ∀ {s : State} (g : FirStage) (ch : Nat) (xs : List Word), P s →
    P (s.setFirLine g ch
      (convDirectBlock s.params.ftz (s.tap g) (s.irLen g) (s.firLine g ch) xs).1)
  convPoly : ∀ {s : State} (g : FirStage) (ch : Nat) (xs : List Word), P s →
    P (s.setFirLine g ch
      (convPolyBlock s.params.ftz (s.tap g) (s.irLen g) (s.firLine g ch) xs).1)
  rlpRun : ∀ {s : State} (g : RlpStage) (ch : Nat) (xs : List Word),
    ch < s.params.nchMax → P s →
    P (s.setRlpLine g ch
      (rlpBlock s.params.ftz (s.coefs g) (s.rlpNsec g) (s.rlpLine g ch) xs).1)
  reset : ∀ {s : State}, P s → P s.resetInput

/-- An update that may be left out keeps what the update keeps. -/
theorem keeps_optional {P : State → Prop} {f : State → State} (hf : ∀ s, P s → P (f s)) {s : State}
    (hs : P s) (b : Bool) : P (if b then f s else s) := by
  split
  · exact hf s hs
  · exact hs

namespace StepInvariant

variable {P : State → Prop} (hP : StepInvariant P) {s : State} (hs : P s)
include hP hs

theorem flagNumerr (ws : List Word) : P (s.flagNumerr ws) := hP.numerr _ hs

theorem storeChannels (addr : Nat → Nat) (chans : List (List Word)) (c : Nat) :
    P (s.storeChannels addr c chans) := by
  induction chans generalizing s c with
  | nil => exact hs
  | cons ws rest ih => exact ih (hP.storeBlock _ ws hs) (c + 1)

theorem mapWork (f : Word → Word) : P (s.mapWork f) :=
  hP.flagNumerr (hP.storeChannels hs _ _ 0) _

theorem wavefold : P (wavefoldBody s) :=
  hP.mapWork hs (wfSample s.params.ftz (wfParams s.params.ftz s.wfDrive).1
    (wfParams s.params.ftz s.wfDrive).2)

theorem saturate : P (saturateBody s) := saturateBody_eq s ▸ hP.mapWork hs _

theorem effects : P (runEffects s) :=
  keeps_optional (fun _ h => hP.vibrato h) (keeps_optional (fun _ h => hP.saturate h)
    (keeps_optional (fun _ h => hP.wavefold h) hs _) _) _

theorem process {n : Nat} (hp : s.prepared = true) (hn : blockInRange s.params n = true) :
    P (processRun n s) := by
  have hup : P (upsampleRun n s) := hP.upsample hp hn hs
  refine hP.flagNumerr (hP.downsample ?_) _
  show P (if (upsampleRun n s).wmode = .trans then upsampleRun n s else runEffects (upsampleRun n s))
  split
  · exact hup
  · exact hP.effects hup

/-- A command that completes keeps the predicate. -/
theorem completes {u : State} (h : Completes s u) : P u := by
  cases h with
  | nop => exact hs
  | prepare hr => exact hP.prepare hr hs
  | upsample hp hn => exact hP.upsample hp hn hs
  | downsample => exact hP.downsample hs
  | process hp hn => exact hP.process hs hp hn
  | wavefold => exact hP.wavefold hs
  | saturate => exact hP.saturate hs
  | vibrato => exact hP.vibrato hs
  | convDirect => exact hP.flagNumerr (hP.storeBlock _ _ (hP.convDirect _ _ _ hs)) _
  | convPoly => exact hP.flagNumerr (hP.storeBlock _ _ (hP.convPoly _ _ _ hs)) _
  | rlpRun hc =>
    have hch := ((primitiveInRange_iff _ _ _).mp hc).1
    exact hP.flagNumerr (hP.storeBlock _ _ (hP.rlpRun _ _ _ hch hs)) _

/-- Every effect of a step keeps the predicate. -/
theorem stepEffect {t : State} (h : StepEffect s t) : P t := by
  cases h with
  | idle => exact hs
  | start => exact hP.engine s.inputs .started s.osReq s.done hs
  | complete h =>
    have hu := hP.completes hs h
    exact hP.engine _ .idle _ true hu
  | fail e => exact hP.engine s.inputs .idle s.reqSnap s.done (hP.raise e hs)
  | refuse e => exact hP.answer _ _ (hP.raise e hs)
  | read w => exact hP.answer _ _ hs
  | writeReg hl => exact hP.answer _ _ (hP.writeReg hl hs)
  | writeElement a v => exact hP.answer _ _ (hP.storeBlock a [v] hs)
  | reset => exact hP.reset hs

/-- Every step keeps the predicate. -/
theorem step {t : State} (h : step s = .next t) : P t := by
  obtain ⟨rest, he⟩ := step_effect h
  exact hP.stepEffect (hP.engine rest s.engPhase s.reqSnap s.done hs) he

end StepInvariant

/-! ### What the compound updates leave -/

/-- UPSAMPLE's base-rate copy changes the memory and the work buffer's registers. -/
theorem copyUp_eq (s : State) (n : Nat) (mode : WMode) :
    s.copyUp n mode = { s with
      mem := (s.copyUp n mode).mem
      wn := BitVec.ofNat 32 n, wch := s.nchOut, wlen := BitVec.ofNat 32 n, wmode := mode } :=
  congrArg (fun u : State => { u with
    wn := BitVec.ofNat 32 n, wch := s.nchOut, wlen := BitVec.ofNat 32 n, wmode := mode })
    (setScrChannels_eq s _)

/-- The stages' new states and the samples of each channel that the x4 path runs. -/
def State.upResults (s : State) (n : Nat) : List (List Biquad × FirLine × List Word) :=
  (List.range (min s.nchIn.toNat s.nchOut.toNat)).map (fun c => s.upChannel c (s.inBlock c n))

/-- The scratch channels that the x4 path writes (44_orchestrator.md R211, R214). -/
def State.upSamples (s : State) (n : Nat) : List (List Word) :=
  let ys := (s.upResults n).map (Prod.snd ∘ Prod.snd)
  ys ++ List.replicate (s.nchOut.toNat - ys.length) (ys.headD [])

/-- UPSAMPLE's x4 path, with its lists named. -/
theorem oversample_def (s : State) (n : Nat) :
    s.oversample n = State.flagNumerr { s.setScrChannels (s.upSamples n) with
      rlpUp2 := replaceFirst ((s.upResults n).map Prod.fst) s.rlpUp2
      firUp4 := replaceFirst ((s.upResults n).map (Prod.fst ∘ Prod.snd)) s.firUp4
      wn := BitVec.ofNat 32 n, wch := s.nchOut, wlen := BitVec.ofNat 32 (4 * n)
      wmode := .os4 } (s.upSamples n).flatten := rfl

/-- UPSAMPLE's x4 path changes the memory, NUMERR, the states of the up stages and the work buffer's
registers. -/
theorem oversample_eq (s : State) (n : Nat) :
    s.oversample n = { s with
      mem := (s.oversample n).mem, numerr := (s.oversample n).numerr
      rlpUp2 := replaceFirst ((s.upResults n).map Prod.fst) s.rlpUp2
      firUp4 := replaceFirst ((s.upResults n).map (Prod.fst ∘ Prod.snd)) s.firUp4
      wn := BitVec.ofNat 32 n, wch := s.nchOut, wlen := BitVec.ofNat 32 (4 * n)
      wmode := .os4 } := by
  rw [oversample_def, setScrChannels_eq]
  rfl

/-- The toggle changes ACTIVE, PREPARE_REQ, OS_DIRTY and LAST_TRANS. -/
theorem applyToggle_eq (s : State) :
    s.applyToggle = { s with
      active := s.applyToggle.active, prepareReq := s.applyToggle.prepareReq
      osDirty := s.applyToggle.osDirty, lastTrans := s.applyToggle.lastTrans } := by
  unfold State.applyToggle
  split
  · rfl
  · split <;> rfl

/-- A predicate that holds of what each path of UPSAMPLE leaves holds of what UPSAMPLE leaves. -/
theorem upsampleRun_cases {P : State → Prop} {s : State} {n : Nat}
    (htrans : s.transitional = true → P (s.applyToggle.copyUp n .trans))
    (hover : s.transitional = false → s.active = true → P (s.applyToggle.oversample n))
    (hpass : s.transitional = false → s.active = false → P (s.applyToggle.copyUp n .pass)) :
    P (upsampleRun n s) := by
  unfold upsampleRun
  split
  · next ht => exact htrans ht
  · next ht =>
    split
    · next ha => exact hover (Bool.eq_false_iff.mpr ht) ha
    · next ha => exact hpass (Bool.eq_false_iff.mpr ht) (Bool.eq_false_iff.mpr ha)

/-- What UPSAMPLE may change. -/
theorem upsampleRun_eq (s : State) (n : Nat) :
    upsampleRun n s = { s with
      mem := (upsampleRun n s).mem, numerr := (upsampleRun n s).numerr
      active := (upsampleRun n s).active, prepareReq := (upsampleRun n s).prepareReq
      osDirty := (upsampleRun n s).osDirty, lastTrans := (upsampleRun n s).lastTrans
      rlpUp2 := (upsampleRun n s).rlpUp2, firUp4 := (upsampleRun n s).firUp4
      wn := (upsampleRun n s).wn, wch := (upsampleRun n s).wch, wlen := (upsampleRun n s).wlen
      wmode := (upsampleRun n s).wmode } := by
  refine upsampleRun_cases (P := fun u => u = { s with
    mem := u.mem, numerr := u.numerr, active := u.active, prepareReq := u.prepareReq
    osDirty := u.osDirty, lastTrans := u.lastTrans, rlpUp2 := u.rlpUp2, firUp4 := u.firUp4
    wn := u.wn, wch := u.wch, wlen := u.wlen, wmode := u.wmode })
    (fun _ => ?_) (fun _ _ => ?_) (fun _ _ => ?_)
  · rw [copyUp_eq, applyToggle_eq]
  · rw [oversample_eq, applyToggle_eq]
  · rw [copyUp_eq, applyToggle_eq]

/-- The lines and samples of each channel of the vibrato. -/
def State.vibResults (s : State) : List (VibLine × List Word) :=
  s.workBuffer.zipIdx.map (fun p =>
    vibBlock s.params.ftz s.prepared (Config.freeVibElement s.resets p.2) s.vibLen.toNat
      (s.vibLine p.2) (p.1.zip s.vibFramesNow.1))

/-- VIBRATO, with its list named. -/
theorem vibratoBody_def (s : State) :
    vibratoBody s = (State.setScrChannels { s with
      vibInc := s.vibIncNow, vph := s.vibFramesNow.2
      vib := replaceFirst (s.vibResults.map Prod.fst) s.vib }
      (s.vibResults.map Prod.snd)).flagNumerr (s.vibResults.map Prod.snd).flatten := rfl

/-- VIBRATO changes the memory, NUMERR, the increment, the phase and the lines. -/
theorem vibratoBody_eq (s : State) :
    vibratoBody s = { s with
      mem := (vibratoBody s).mem, numerr := (vibratoBody s).numerr
      vibInc := s.vibIncNow, vph := s.vibFramesNow.2
      vib := replaceFirst (s.vibResults.map Prod.fst) s.vib } := by
  rw [vibratoBody_def, setScrChannels_eq]
  rfl

/-- The output channels of a base-rate work buffer (44_orchestrator.md R216). -/
def State.downCopies (s : State) : List (List Word) :=
  outputChannels s.nchOut.toNat
    ((List.range s.wch.toNat).map (fun c => s.scrBlock c s.wn.toNat))

/-- DOWNSAMPLE's base-rate copy, with its list named. -/
theorem copyDown_def (s : State) :
    s.copyDown = State.flagNumerr { s.setOutChannels s.downCopies with wmode := .none }
      s.downCopies.flatten := rfl

/-- DOWNSAMPLE's base-rate copy changes the memory, NUMERR and WMODE. -/
theorem copyDown_eq (s : State) :
    s.copyDown = { s with
      mem := s.copyDown.mem, numerr := s.copyDown.numerr, wmode := .none } := by
  rw [copyDown_def, setOutChannels_eq]
  rfl

/-- The stages' new states and the samples of each channel that the x4 down path runs. -/
def State.downResults (s : State) : List (FirLine × List Biquad × List Word) :=
  (List.range s.wch.toNat).map (fun c => s.downChannel c (s.scrBlock c (4 * s.wn.toNat)))

/-- The output channels of an oversampled work buffer (44_orchestrator.md R217). -/
def State.downSamples (s : State) : List (List Word) :=
  outputChannels s.nchOut.toNat (s.downResults.map (Prod.snd ∘ Prod.snd))

/-- DOWNSAMPLE's x4 path, with its lists named. -/
theorem decimate_def (s : State) :
    s.decimate = State.flagNumerr { s.setOutChannels s.downSamples with
      firDn4 := replaceFirst (s.downResults.map Prod.fst) s.firDn4
      rlpDn2 := replaceFirst (s.downResults.map (Prod.fst ∘ Prod.snd)) s.rlpDn2
      wmode := .none } s.downSamples.flatten := rfl

/-- DOWNSAMPLE's x4 path changes the memory, NUMERR, the states of the down stages and WMODE. -/
theorem decimate_eq (s : State) :
    s.decimate = { s with
      mem := s.decimate.mem, numerr := s.decimate.numerr
      firDn4 := replaceFirst (s.downResults.map Prod.fst) s.firDn4
      rlpDn2 := replaceFirst (s.downResults.map (Prod.fst ∘ Prod.snd)) s.rlpDn2
      wmode := .none } := by
  rw [decimate_def, setOutChannels_eq]
  rfl

/-- A predicate that holds of what both paths of DOWNSAMPLE leave holds of what DOWNSAMPLE leaves. -/
theorem downsampleRun_cases {P : State → Prop} {s : State} (hdec : P s.decimate)
    (hcopy : P s.copyDown) : P (downsampleRun s) := by
  unfold downsampleRun
  split
  · exact hdec
  · exact hcopy

/-- What DOWNSAMPLE may change. -/
theorem downsampleRun_eq (s : State) :
    downsampleRun s = { s with
      mem := (downsampleRun s).mem, numerr := (downsampleRun s).numerr
      firDn4 := (downsampleRun s).firDn4, rlpDn2 := (downsampleRun s).rlpDn2
      wmode := .none } := by
  refine downsampleRun_cases (P := fun u => u = { s with
    mem := u.mem, numerr := u.numerr, firDn4 := u.firDn4, rlpDn2 := u.rlpDn2, wmode := .none }) ?_ ?_
  · rw [decimate_eq]
  · rw [copyDown_eq]

/-! ### What the register operations leave -/

section ClearIf
variable (s : State) (b : Bool)

theorem clearDone_if :
    (if b then { s with done := false } else s) = { s with done := s.done && !b } := by
  cases b <;> simp

theorem clearErr_if :
    (if b then s.clearErr else s) =
      { s with err := s.err && !b, errcode := if b then 0#8 else s.errcode } := by
  cases b <;> simp [State.clearErr]

theorem clearNumerr_if :
    (if b then { s with numerr := false } else s) = { s with numerr := s.numerr && !b } := by
  cases b <;> simp

theorem clearLatNew_if :
    (if b then { s with latNew := false } else s) = { s with latNew := s.latNew && !b } := by
  cases b <;> simp

end ClearIf

/-- A STATUS write clears the W1C bits written 1, and ERRCODE with ERR (10_state.md R36, R37). -/
theorem writeStatus_eq (s : State) (v : Word) :
    s.writeStatus v = { s with
      done := s.done && !v.getLsbD 1, err := s.err && !v.getLsbD 2
      errcode := if v.getLsbD 2 then 0#8 else s.errcode
      numerr := s.numerr && !v.getLsbD 3, latNew := s.latNew && !v.getLsbD 4 } := by
  have hdone := clearDone_if s (v.getLsbD 1)
  have herr := (congrArg (fun u => if v.getLsbD 2 then State.clearErr u else u) hdone).trans
    (clearErr_if _ _)
  have hnum := (congrArg (fun u : State => if v.getLsbD 3 then { u with numerr := false } else u)
    herr).trans (clearNumerr_if _ _)
  exact (congrArg (fun u : State => if v.getLsbD 4 then { u with latNew := false } else u)
    hnum).trans (clearLatNew_if _ _)

/-- LAT_TICK changes LAT_PUB, the totals, the dirty flags and LAT_NEW. -/
theorem latTick_eq (s : State) :
    s.latTick = { s with
      latPub := s.latTick.latPub, osTotal := s.latTick.osTotal, vibTotal := s.latTick.vibTotal
      osDirty := s.latTick.osDirty, vibDirty := s.latTick.vibDirty, latNew := s.latTick.latNew } := by
  unfold State.latTick
  split <;> rfl

end Sys2Proof.Machine
end

section
/-! PROOF. The error record, the mode bits and the totals (10_state.md R37; 44_orchestrator.md R205,
R212 to R214; 45_latency.md R245). -/

namespace Sys2Proof.Machine

/-! ### The error record -/

theorem code_ne_zero (e : ErrorCode) : e.code ≠ 0#8 := by cases e <;> decide

theorem code_le_six (e : ErrorCode) : e.code.toNat ≤ 6 := by cases e <;> decide

/-- An error sets ERR, and ERRCODE holds a code: the one before or its own. -/
theorem errorRecord_raise {s : State} (e : ErrorCode) (h : s.ErrorRecord) :
    (s.raise e).ErrorRecord := by
  obtain ⟨hiff, hle⟩ := h
  unfold State.ErrorRecord
  rw [raise_err, raise_errcode]
  split
  · next herr =>
    have hne : s.errcode ≠ 0#8 := fun h0 => by simp [herr] at hiff; exact hiff h0
    exact ⟨by simp [hne], hle⟩
  · exact ⟨by simp [code_ne_zero], code_le_six e⟩

/-- Clearing ERR clears ERRCODE (60_exceptions.md R304). -/
theorem errorRecord_writeStatus {s : State} (v : Word) (h : s.ErrorRecord) :
    (s.writeStatus v).ErrorRecord := by
  rw [writeStatus_eq]
  unfold State.ErrorRecord
  cases hv : v.getLsbD 2 with
  | true => simp
  | false => simpa [State.ErrorRecord] using h

theorem stepInvariant_errorRecord : StepInvariant State.ErrorRecord where
  engine _ _ _ _ h := h
  answer _ _ h := h
  raise e h := errorRecord_raise e h
  writeReg {s r v} _ h := by
    cases r with
    | status => exact errorRecord_writeStatus v h
    | latTick => rw [State.writeReg, latTick_eq]; exact h
    | _ => exact h
  numerr _ h := h
  storeBlock _ _ h := h
  prepare _ h := h
  upsample {s n} _ _ h := upsampleRun_eq s n ▸ h
  vibrato {s} h := vibratoBody_eq s ▸ h
  downsample {s} h := downsampleRun_eq s ▸ h
  convDirect g _ _ h := by cases g <;> exact h
  convPoly g _ _ h := by cases g <;> exact h
  rlpRun g _ _ _ h := by cases g <;> exact h
  reset _ := by simp [State.ErrorRecord, State.resetInput, State.afterReset]

/-! ### The mode bits -/

/-- A transitional block owes a re-prepare after the toggle (44_orchestrator.md R212). -/
theorem prepareReq_applyToggle {s : State} (h : s.transitional = true) :
    s.applyToggle.prepareReq = true := by
  unfold State.applyToggle
  split
  · next hr => exact hr
  · next hr =>
    have hne : (s.reqSnap != s.active) = true := by simpa [State.transitional, hr] using h
    rw [if_pos hne]

/-- A block that is not transitional toggles nothing. -/
theorem applyToggle_of_not_transitional {s : State} (h : s.transitional = false) :
    s.prepareReq = false ∧ s.applyToggle = { s with lastTrans := false } := by
  obtain ⟨hr, hne⟩ := Bool.or_eq_false_iff.mp h
  refine ⟨hr, ?_⟩
  unfold State.applyToggle
  rw [if_neg (by simp [hr]), if_neg (by simp [hne])]

/-- The modes that UPSAMPLE sets go with what the toggle left. -/
theorem modesAgree_upsampleRun {s : State} (n : Nat) (hp : s.prepared = true) :
    (upsampleRun n s).ModesAgree := by
  refine upsampleRun_cases (fun ht => ?_) (fun ht ha => ?_) (fun ht ha => ?_)
  · rw [copyUp_eq]
    simp [State.ModesAgree, hp, prepareReq_applyToggle ht]
  · obtain ⟨hr, htog⟩ := applyToggle_of_not_transitional ht
    rw [oversample_eq, htog]
    simp [State.ModesAgree, hp, ha, hr]
  · obtain ⟨hr, htog⟩ := applyToggle_of_not_transitional ht
    rw [copyUp_eq, htog]
    simp [State.ModesAgree, hp, ha, hr]

/-- DOWNSAMPLE leaves no work buffer and the other mode bits as they were. -/
theorem modesAgree_downsampleRun {s : State} (h : s.ModesAgree) :
    (downsampleRun s).ModesAgree := by
  obtain ⟨hprep, -, -, -⟩ := h
  rw [downsampleRun_eq]
  exact ⟨fun hm => hprep (.inr (hm.resolve_left fun hw => hw rfl)), nofun, nofun, nofun⟩

theorem stepInvariant_modesAgree : StepInvariant State.ModesAgree where
  engine _ _ _ _ h := h
  answer _ _ h := h
  raise _ h := h
  writeReg {s r v} _ h := by
    cases r with
    | status => rw [State.writeReg, writeStatus_eq]; exact h
    | latTick => rw [State.writeReg, latTick_eq]; exact h
    | _ => exact h
  numerr _ h := h
  storeBlock _ _ h := h
  prepare _ _ := by simp [State.ModesAgree]
  upsample hp _ _ := modesAgree_upsampleRun _ hp
  vibrato {s} h := vibratoBody_eq s ▸ h
  downsample h := modesAgree_downsampleRun h
  convDirect g _ _ h := by cases g <;> exact h
  convPoly g _ _ h := by cases g <;> exact h
  rlpRun g _ _ _ h := by cases g <;> exact h
  reset _ := by simp [State.ModesAgree, State.resetInput, State.afterReset]

/-! ### The totals -/

/-- LAT_TICK publishes the total that it writes back (45_latency.md R243). -/
theorem totalsAgree_latTick {s : State} (h : s.TotalsAgree) : s.latTick.TotalsAgree := by
  unfold State.latTick
  split
  · exact ⟨rfl, rfl⟩
  · exact h

theorem stepInvariant_totalsAgree : StepInvariant State.TotalsAgree where
  engine _ _ _ _ h := h
  answer _ _ h := h
  raise _ h := h
  writeReg {s r v} _ h := by
    cases r with
    | status => rw [State.writeReg, writeStatus_eq]; exact h
    | latTick => exact totalsAgree_latTick h
    | _ => exact h
  numerr _ h := h
  storeBlock _ _ h := h
  prepare _ h := h
  upsample {s n} _ _ h := upsampleRun_eq s n ▸ h
  vibrato {s} h := vibratoBody_eq s ▸ h
  downsample {s} h := downsampleRun_eq s ▸ h
  convDirect g _ _ h := by cases g <;> exact h
  convPoly g _ _ h := by cases g <;> exact h
  rlpRun g _ _ _ h := by cases g <;> exact h
  reset _ := ⟨rfl, rfl⟩

/-- Settles O60: each of the three is an invariant of every update. -/
theorem stepKeepsErrorsModesAndTotals : Obligations.StepKeepsErrorsModesAndTotals :=
  fun _ _ hstep => ⟨fun h => stepInvariant_errorRecord.step h hstep,
    fun h => stepInvariant_modesAgree.step h hstep, fun h => stepInvariant_totalsAgree.step h hstep⟩

end Sys2Proof.Machine
end

section
/-! SUPPORT. Per-channel lines: a property of a line that each push keeps is kept by the blocks, and one
of every line of a stage is kept by replacing lines (10_state.md R55 to R57). -/

namespace Sys2Proof.Machine

/-! ### Lists of lines -/

section Lists
variable {α : Type} {Q : α → Prop} {ls : List α} (h : ∀ l ∈ ls, Q l)
include h

theorem forall_getD {d : α} (hd : Q d) (c : Nat) : Q (ls.getD c d) := by
  rcases lt_or_ge c ls.length with hc | hc
  · rw [List.getD_eq_getElem _ _ hc]
    exact h _ (List.getElem_mem hc)
  · rw [List.getD_eq_default _ _ hc]
    exact hd

theorem forall_set {x : α} (hx : Q x) (c : Nat) : ∀ l ∈ ls.set c x, Q l := fun l hl =>
  (List.mem_or_eq_of_mem_set hl).elim (h l) fun he => he ▸ hx

theorem forall_replaceFirst {new : List α} (hnew : ∀ l ∈ new, Q l) :
    ∀ l ∈ replaceFirst new ls, Q l := fun l hl =>
  (mem_replaceFirst hl).elim (hnew l) (h l)

end Lists

theorem forall_replicate {α : Type} {Q : α → Prop} {x : α} (hx : Q x) (n : Nat) :
    ∀ l ∈ List.replicate n x, Q l := fun _ hl => (List.eq_of_mem_replicate hl) ▸ hx

/-! ### A line through a block -/

section Fir
variable {Q : FirLine → Prop} {nt : Nat}
  (hpush : ∀ (l : FirLine) (x : Word), Q l → Q (l.push (ringNext l.cur nt) x))
include hpush

theorem convDirectBlock_keeps (ftz : Bool) (taps : Nat → Word) (xs : List Word) :
    ∀ l, Q l → Q (convDirectBlock ftz taps nt l xs).1 := by
  induction xs with
  | nil => exact fun _ hl => hl
  | cons x xs ih => exact fun l hl => ih _ (hpush l x hl)

theorem convPolyBlock_keeps (ftz : Bool) (taps : Nat → Word) (xs : List Word) :
    ∀ l, Q l → Q (convPolyBlock ftz taps nt l xs).1 := by
  induction xs with
  | nil => exact fun _ hl => hl
  | cons x xs ih => exact fun l hl => ih _ (hpush _ 0#32 (hpush l x hl))

end Fir

theorem vibBlock_keeps {Q : VibLine → Prop} {len : Nat} {prepared : Bool}
    (hpush : ∀ (l : VibLine) (x : Word), Q l → Q (l.push prepared (ringNext l.vw len) x))
    (ftz : Bool) (free : Nat → Word) (xs : List (Word × Word)) :
    ∀ l, Q l → Q (vibBlock ftz prepared free len l xs).1 := by
  induction xs with
  | nil => exact fun _ hl => hl
  | cons x xs ih => exact fun l hl => ih _ (hpush l x.1 hl)

/-! ### The lines of the compound commands -/

section Lines
variable {s : State} {Q : FirLine → Prop}

/-- Every up line that the x4 up path leaves, from a property that a push and reset give. -/
theorem forall_firUp4_oversample
    (hpush : ∀ (l : FirLine) (x : Word), Q l → Q (l.push (ringNext l.cur (s.irLen .up4)) x))
    (h0 : Q FirLine.zero) (h : ∀ l ∈ s.firUp4, Q l) (n : Nat) :
    ∀ l ∈ replaceFirst ((s.upResults n).map (Prod.fst ∘ Prod.snd)) s.firUp4, Q l := by
  refine forall_replaceFirst h fun l hl => ?_
  rw [State.upResults, List.map_map] at hl
  obtain ⟨c, -, rfl⟩ := List.mem_map.mp hl
  exact convPolyBlock_keeps hpush _ _ _ _ (forall_getD h h0 c)

/-- Every down line that the x4 down path leaves. -/
theorem forall_firDn4_decimate
    (hpush : ∀ (l : FirLine) (x : Word), Q l → Q (l.push (ringNext l.cur (s.irLen .dn4)) x))
    (h0 : Q FirLine.zero) (h : ∀ l ∈ s.firDn4, Q l) :
    ∀ l ∈ replaceFirst (s.downResults.map Prod.fst) s.firDn4, Q l := by
  refine forall_replaceFirst h fun l hl => ?_
  rw [State.downResults, List.map_map] at hl
  obtain ⟨c, -, rfl⟩ := List.mem_map.mp hl
  exact convDirectBlock_keeps hpush _ _ _ _ (forall_getD h h0 c)

/-- Every vibrato line that VIBRATO leaves. -/
theorem forall_vib_vibratoBody {Q : VibLine → Prop}
    (hpush : ∀ (l : VibLine) (x : Word), Q l →
      Q (l.push s.prepared (ringNext l.vw s.vibLen.toNat) x))
    (h0 : Q VibLine.empty) (h : ∀ l ∈ s.vib, Q l) :
    ∀ l ∈ replaceFirst (s.vibResults.map Prod.fst) s.vib, Q l := by
  refine forall_replaceFirst h fun l hl => ?_
  rw [State.vibResults, List.map_map] at hl
  obtain ⟨p, -, rfl⟩ := List.mem_map.mp hl
  exact vibBlock_keeps hpush _ _ _ _ (forall_getD h h0 p.2)

end Lines

end Sys2Proof.Machine
end

section
/-! PROOF. Every store stays in its canonical form (log 12): the bus memory, the histories and the
vibrato lines. -/

namespace Sys2Proof.Machine

/-- A history in canonical form. -/
def FirLine.Canonical (l : FirLine) : Prop := Store.wf FirLine.unlisted l.hist = true

/-- A vibrato line in canonical form. -/
def VibLine.Canonical (prepared : Bool) (l : VibLine) : Prop :=
  Store.wf (VibLine.unlisted prepared) l.vb = true

theorem FirLine.canonical_zero : FirLine.zero.Canonical := Store.wf_nil

theorem FirLine.canonical_push {l : FirLine} (k : Nat) (x : Word) (h : l.Canonical) :
    (l.push k x).Canonical := Store.wf_write l.hist k x h

theorem VibLine.canonical_empty (prepared : Bool) : VibLine.empty.Canonical prepared := Store.wf_nil

theorem VibLine.canonical_push {prepared : Bool} {l : VibLine} (k : Nat) (x : Word)
    (h : l.Canonical prepared) : (l.push prepared k x).Canonical prepared :=
  Store.wf_write l.vb k x h

theorem wf_copyUp {s : State} (n : Nat) (mode : WMode) (h : Memory.wf s.mem = true) :
    Memory.wf (s.copyUp n mode).mem = true := wf_storeChannels _ _ s 0 h

theorem wf_oversample {s : State} (n : Nat) (h : Memory.wf s.mem = true) :
    Memory.wf (s.oversample n).mem = true := wf_storeChannels _ _ s 0 h

theorem wf_vibratoBody {s : State} (h : Memory.wf s.mem = true) :
    Memory.wf (vibratoBody s).mem = true := wf_storeChannels _ _ _ 0 h

theorem wf_copyDown {s : State} (h : Memory.wf s.mem = true) : Memory.wf s.copyDown.mem = true :=
  wf_storeChannels _ _ s 0 h

theorem wf_decimate {s : State} (h : Memory.wf s.mem = true) : Memory.wf s.decimate.mem = true :=
  wf_storeChannels _ _ s 0 h

theorem storesCanonical_copyUp {s : State} (n : Nat) (mode : WMode) (h : s.StoresCanonical) :
    (s.copyUp n mode).StoresCanonical := by
  obtain ⟨hmem, hup, hdn, hvib⟩ := h
  have hwf := wf_copyUp n mode hmem
  rw [copyUp_eq]
  exact ⟨hwf, hup, hdn, hvib⟩

theorem storesCanonical_oversample {s : State} (n : Nat) (h : s.StoresCanonical) :
    (s.oversample n).StoresCanonical := by
  obtain ⟨hmem, hup, hdn, hvib⟩ := h
  have hwf := wf_oversample n hmem
  have hlines := forall_firUp4_oversample (Q := FirLine.Canonical)
    (fun _ x hl => FirLine.canonical_push _ x hl) FirLine.canonical_zero hup n
  rw [oversample_eq]
  exact ⟨hwf, hlines, hdn, hvib⟩

theorem storesCanonical_vibratoBody {s : State} (h : s.StoresCanonical) :
    (vibratoBody s).StoresCanonical := by
  obtain ⟨hmem, hup, hdn, hvib⟩ := h
  have hwf := wf_vibratoBody hmem
  have hlines := forall_vib_vibratoBody (Q := VibLine.Canonical s.prepared)
    (fun _ x hl => VibLine.canonical_push _ x hl) (VibLine.canonical_empty _) hvib
  rw [vibratoBody_eq]
  exact ⟨hwf, hup, hdn, hlines⟩

theorem storesCanonical_downsampleRun {s : State} (h : s.StoresCanonical) :
    (downsampleRun s).StoresCanonical := by
  obtain ⟨hmem, hup, hdn, hvib⟩ := h
  refine downsampleRun_cases ?_ ?_
  · have hwf := wf_decimate hmem
    have hlines := forall_firDn4_decimate (Q := FirLine.Canonical)
      (fun _ x hl => FirLine.canonical_push _ x hl) FirLine.canonical_zero hdn
    rw [decimate_eq]
    exact ⟨hwf, hup, hlines, hvib⟩
  · have hwf := wf_copyDown hmem
    rw [copyDown_eq]
    exact ⟨hwf, hup, hdn, hvib⟩

/-- Any canonical line may take the place of a channel's line. -/
theorem storesCanonical_setFirLine {s : State} (g : FirStage) (c : Nat) {l : FirLine}
    (hl : (s.firLine g c).Canonical → l.Canonical) (h : s.StoresCanonical) :
    (s.setFirLine g c l).StoresCanonical := by
  obtain ⟨hmem, hup, hdn, hvib⟩ := h
  cases g with
  | up4 =>
    have hline := hl (forall_getD hup FirLine.canonical_zero c)
    exact ⟨hmem, forall_set (Q := FirLine.Canonical) hup hline c, hdn, hvib⟩
  | dn4 =>
    have hline := hl (forall_getD hdn FirLine.canonical_zero c)
    exact ⟨hmem, hup, forall_set (Q := FirLine.Canonical) hdn hline c, hvib⟩

/-- Zeroed filter states and empty lines are canonical. -/
theorem canonical_zeroFir (p : Params) : ∀ l ∈ zeroFir p, l.Canonical :=
  forall_replicate FirLine.canonical_zero _

theorem canonical_emptyVib (p : Params) (prepared : Bool) :
    ∀ l ∈ emptyVib p, l.Canonical prepared :=
  forall_replicate (VibLine.canonical_empty prepared) _

theorem storesCanonical_commitIr {s : State} (g : FirStage) (v : Word) (h : s.StoresCanonical) :
    (s.commitIr g v).StoresCanonical := by
  obtain ⟨hmem, hup, hdn, hvib⟩ := h
  cases g with
  | up4 => exact ⟨hmem, canonical_zeroFir _, hdn, hvib⟩
  | dn4 => exact ⟨hmem, hup, canonical_zeroFir _, hvib⟩

theorem storesCanonical_afterReset (p : Params) (n : Nat) : (State.afterReset p n).StoresCanonical :=
  ⟨Memory.wf_nil, canonical_zeroFir p, canonical_zeroFir p, canonical_emptyVib p false⟩

theorem stepInvariant_storesCanonical : StepInvariant State.StoresCanonical where
  engine _ _ _ _ h := h
  answer _ _ h := h
  raise _ h := h
  writeReg {s r v} _ h := by
    cases r with
    | status => rw [State.writeReg, writeStatus_eq]; exact h
    | latTick => rw [State.writeReg, latTick_eq]; exact h
    | irLenUp4 => exact storesCanonical_commitIr .up4 v h
    | irLenDn4 => exact storesCanonical_commitIr .dn4 v h
    | _ => exact h
  numerr _ h := h
  storeBlock {s} a ws h := by
    obtain ⟨hmem, hlines⟩ := h
    exact ⟨wf_storeBlock s a ws hmem, hlines⟩
  prepare _ h :=
    ⟨h.1, canonical_zeroFir _, canonical_zeroFir _, canonical_emptyVib _ true⟩
  upsample {s n} _ _ h := by
    have htog : s.applyToggle.StoresCanonical := applyToggle_eq s ▸ h
    exact upsampleRun_cases (fun _ => storesCanonical_copyUp n _ htog)
      (fun _ _ => storesCanonical_oversample n htog) (fun _ _ => storesCanonical_copyUp n _ htog)
  vibrato h := storesCanonical_vibratoBody h
  downsample h := storesCanonical_downsampleRun h
  convDirect g ch xs h := storesCanonical_setFirLine g ch (fun hl =>
    convDirectBlock_keeps (fun _ x hl => FirLine.canonical_push _ x hl) _ _ xs _ hl) h
  convPoly g ch xs h := storesCanonical_setFirLine g ch (fun hl =>
    convPolyBlock_keeps (fun _ x hl => FirLine.canonical_push _ x hl) _ _ xs _ hl) h
  rlpRun g _ _ _ h := by cases g <;> exact h
  reset {s} _ := storesCanonical_afterReset s.params (s.resets + 1)

/-- Settles O59: the canonical form is an invariant of every update. -/
theorem stepKeepsCanonicalStores : Obligations.StepKeepsCanonicalStores :=
  fun _ _ h hstep => stepInvariant_storesCanonical.step h hstep

end Sys2Proof.Machine
end

section
/-! PROOF. The invariants of 10_state.md R64, items 1 to 5: legal registers, cursors, the vibrato length
and the work buffer's geometry, with the list lengths they rest on. -/

namespace Sys2Proof.Machine

/-! ### Ranges -/

theorem legalChannels_iff (p : Params) (v : Word) :
    legalChannels p v = true ↔ 1 ≤ v.toNat ∧ v.toNat ≤ p.nchMax := by simp [legalChannels]

theorem legalNsec_iff (p : Params) (v : Word) :
    legalNsec p v = true ↔ 1 ≤ v.toNat ∧ v.toNat ≤ p.rlpSecMax := by simp [legalNsec]

/-- No impulse response is empty. -/
theorem irLen_pos {s : State} (h : s.RegistersLegal) (g : FirStage) : 0 < s.irLen g := by
  obtain ⟨-, -, hup, hdn, -, -⟩ := h
  have hup1 := ((legalIrLen_iff _ _).mp hup).1
  have hdn1 := ((legalIrLen_iff _ _).mp hdn).1
  cases g with
  | up4 => show 0 < s.irLenUp4.toNat; omega
  | dn4 => show 0 < s.irLenDn4.toNat; omega

theorem legalChannels_nchOut {s : State} (h : s.RegistersLegal) :
    legalChannels s.params s.nchOut = true := by
  obtain ⟨-, hout, -⟩ := h
  exact hout

theorem shape_of_inv {s : State} (h : s.Inv) : s.Shape := by
  obtain ⟨-, hshape, -⟩ := h
  exact hshape

theorem registersLegal_of_inv {s : State} (h : s.Inv) : s.RegistersLegal := by
  obtain ⟨-, -, hregs, -⟩ := h
  exact hregs

/-- The work buffer has no more channels than the machine. -/
theorem wch_le_nchMax {s : State} (h : s.WorkGeometry) : s.wch.toNat ≤ s.params.nchMax := by
  have hlegal : s.WorkBufferLegal → s.wch.toNat ≤ s.params.nchMax := fun ⟨_, _, _, hle, _⟩ => hle
  unfold State.WorkGeometry at h
  split at h
  · rcases h with ⟨-, hch, -⟩ | hbuf
    · simp [hch]
    · exact hlegal hbuf
  all_goals exact hlegal h.1

/-- A block of a legal size fills a legal work buffer, at either rate. -/
theorem workBufferLegal_of_block {s : State} {n k : Nat} (hp : s.params.legal = true)
    (hn : blockInRange s.params n = true) (hch : legalChannels s.params s.nchOut = true)
    (hk : k = n ∨ k = 4 * n) :
    State.WorkBufferLegal { s with
      wn := BitVec.ofNat 32 n, wch := s.nchOut, wlen := BitVec.ofNat 32 k } ∧
    (BitVec.ofNat 32 n).toNat = n ∧ (BitVec.ofNat 32 k).toNat = k := by
  obtain ⟨h1, hblk⟩ := (blockInRange_iff _ _).mp hn
  obtain ⟨hch1, hchMax⟩ := (legalChannels_iff _ _).mp hch
  obtain ⟨-, ⟨-, hmax⟩, -⟩ := (legal_iff _).mp hp
  have hwn : (BitVec.ofNat 32 n).toNat = n := by
    rw [BitVec.toNat_ofNat, Nat.mod_eq_of_lt (by omega)]
  have hwlen : (BitVec.ofNat 32 k).toNat = k := by
    rw [BitVec.toNat_ofNat, Nat.mod_eq_of_lt (by omega)]
  refine ⟨?_, hwn, hwlen⟩
  unfold State.WorkBufferLegal
  rw [hwn, hwlen]
  exact ⟨h1, hblk, hch1, hchMax, hk⟩

/-! ### The lists' lengths -/

theorem shape_rlpLines {s : State} (h : s.Shape) (g : RlpStage) :
    (s.rlpLines g).length = s.params.nchMax ∧
      ∀ l ∈ s.rlpLines g, l.length = s.params.rlpSecMax := by
  obtain ⟨-, -, hlenUp, hlenDn, -, hup, hdn⟩ := h
  cases g with
  | up2 => exact ⟨hlenUp, hup⟩
  | dn2 => exact ⟨hlenDn, hdn⟩

/-- The state of a channel of the machine has all its sections. -/
theorem length_rlpLine {s : State} (h : s.Shape) (g : RlpStage) {c : Nat}
    (hc : c < s.params.nchMax) : (s.rlpLine g c).length = s.params.rlpSecMax := by
  obtain ⟨hlen, hall⟩ := shape_rlpLines h g
  rw [State.rlpLine, List.getD_eq_getElem _ _ (by omega)]
  exact hall _ (List.getElem_mem _)

@[simp] theorem length_upResults (s : State) (n : Nat) :
    (s.upResults n).length = min s.nchIn.toNat s.nchOut.toNat := by simp [State.upResults]

@[simp] theorem length_downResults (s : State) : s.downResults.length = s.wch.toNat := by
  simp [State.downResults]

@[simp] theorem length_vibResults (s : State) : s.vibResults.length = s.wch.toNat := by
  simp [State.vibResults]

/-- The x4 up path keeps the lists' lengths. -/
theorem shape_oversample {s : State} (n : Nat) (h : s.Shape) (hr : s.RegistersLegal) :
    (s.oversample n).Shape := by
  have hch := ((legalChannels_iff _ _).mp (legalChannels_nchOut hr)).2
  have hup2 : ∀ l ∈ (s.upResults n).map Prod.fst, l.length = s.params.rlpSecMax := by
    intro l hl
    rw [State.upResults, List.map_map] at hl
    obtain ⟨c, hc, rfl⟩ := List.mem_map.mp hl
    have hcn := List.mem_range.mp hc
    exact (length_rlpBlock_state ..).trans (length_rlpLine h .up2 (by omega))
  obtain ⟨hfu, hfd, hru, hrd, hv, hlu, hld⟩ := h
  rw [oversample_eq]
  refine ⟨?_, hfd, ?_, hrd, hv, forall_replaceFirst hlu hup2, hld⟩
  · exact (length_replaceFirst _ _ (by simp; omega)).trans hfu
  · exact (length_replaceFirst _ _ (by simp; omega)).trans hru

/-- The x4 down path keeps the lists' lengths. -/
theorem shape_decimate {s : State} (h : s.Shape) (hg : s.WorkGeometry) : s.decimate.Shape := by
  have hch := wch_le_nchMax hg
  have hdn2 : ∀ l ∈ s.downResults.map (Prod.fst ∘ Prod.snd), l.length = s.params.rlpSecMax := by
    intro l hl
    rw [State.downResults, List.map_map] at hl
    obtain ⟨c, hc, rfl⟩ := List.mem_map.mp hl
    have hcn := List.mem_range.mp hc
    exact (length_rlpBlock_state ..).trans (length_rlpLine h .dn2 (by omega))
  obtain ⟨hfu, hfd, hru, hrd, hv, hlu, hld⟩ := h
  rw [decimate_eq]
  refine ⟨hfu, ?_, hru, ?_, hv, hlu, forall_replaceFirst hld hdn2⟩
  · exact (length_replaceFirst _ _ (by simp; omega)).trans hfd
  · exact (length_replaceFirst _ _ (by simp; omega)).trans hrd

/-- A line with all its sections may take the place of a channel's line. -/
theorem shape_setRlpLine {s : State} (g : RlpStage) (c : Nat) {l : List Biquad}
    (hl : l.length = s.params.rlpSecMax) (h : s.Shape) : (s.setRlpLine g c l).Shape := by
  obtain ⟨hfu, hfd, hru, hrd, hv, hlu, hld⟩ := h
  cases g with
  | up2 => exact ⟨hfu, hfd, List.length_set.trans hru, hrd, hv, forall_set hlu hl c, hld⟩
  | dn2 => exact ⟨hfu, hfd, hru, List.length_set.trans hrd, hv, hlu, forall_set hld hl c⟩

/-! ### The zeroed lists -/

section Zeroed
variable (p : Params)

theorem length_zeroFir : (zeroFir p).length = p.nchMax := List.length_replicate

theorem length_zeroRlp : (zeroRlp p).length = p.nchMax := List.length_replicate

theorem length_emptyVib : (emptyVib p).length = p.nchMax := List.length_replicate

theorem length_of_mem_zeroRlp : ∀ l ∈ zeroRlp p, l.length = p.rlpSecMax :=
  forall_replicate (Q := fun l : List Biquad => l.length = p.rlpSecMax) List.length_replicate _

theorem cur_lt_of_mem_zeroFir {nt : Nat} (h : 0 < nt) : ∀ l ∈ zeroFir p, l.cur < nt :=
  forall_replicate (Q := fun l : FirLine => l.cur < nt) h _

theorem vw_lt_of_mem_emptyVib {len : Nat} (h : 0 < len) : ∀ l ∈ emptyVib p, l.vw < len :=
  forall_replicate (Q := fun l : VibLine => l.vw < len) h _

end Zeroed

/-! ### UPSAMPLE -/

/-- The base-rate copy makes a work buffer of the block. -/
theorem inv_copyUp {s : State} {n : Nat} {mode : WMode} (hmode : mode = .pass ∨ mode = .trans)
    (hn : blockInRange s.params n = true) (h : s.Inv) : (s.copyUp n mode).Inv := by
  obtain ⟨hp, hshape, hregs, hcur, hvib, -⟩ := h
  obtain ⟨hbuf, -, -⟩ := workBufferLegal_of_block hp hn (legalChannels_nchOut hregs) (.inl rfl)
  rw [copyUp_eq]
  refine ⟨hp, hshape, hregs, hcur, hvib, ?_⟩
  rcases hmode with rfl | rfl
  · exact ⟨hbuf, rfl⟩
  · exact ⟨hbuf, rfl⟩

/-- The x4 path makes a work buffer of four times the block and moves the up cursors inside their
rings. -/
theorem inv_oversample {s : State} {n : Nat} (hn : blockInRange s.params n = true) (h : s.Inv) :
    (s.oversample n).Inv := by
  obtain ⟨hp, hshape, hregs, hcur, hvib, -⟩ := h
  have hshape' := shape_oversample n hshape hregs
  have hpos := irLen_pos hregs .up4
  obtain ⟨hcurUp, hcurDn⟩ := hcur
  obtain ⟨hbuf, hwn, hwlen⟩ :=
    workBufferLegal_of_block hp hn (legalChannels_nchOut hregs) (.inr rfl)
  have hlines := forall_firUp4_oversample (Q := fun l => l.cur < s.irLen .up4)
    (fun l _ _ => ringNext_lt l.cur hpos) hpos hcurUp n
  rw [oversample_eq] at hshape' ⊢
  refine ⟨hp, hshape', hregs, ⟨hlines, hcurDn⟩, hvib, hbuf, ?_⟩
  show (BitVec.ofNat 32 (4 * n)).toNat = 4 * (BitVec.ofNat 32 n).toNat
  rw [hwn, hwlen]

theorem inv_upsampleRun {s : State} {n : Nat} (hn : blockInRange s.params n = true) (h : s.Inv) :
    (upsampleRun n s).Inv := by
  have htog : s.applyToggle.Inv := applyToggle_eq s ▸ h
  have hn' : blockInRange s.applyToggle.params n = true := by rwa [applyToggle_params]
  exact upsampleRun_cases (fun _ => inv_copyUp (.inr rfl) hn' htog)
    (fun _ _ => inv_oversample hn' htog) (fun _ _ => inv_copyUp (.inl rfl) hn' htog)

/-! ### VIBRATO and DOWNSAMPLE -/

/-- VIBRATO moves the write cursors inside their lines. -/
theorem inv_vibratoBody {s : State} (h : s.Inv) : (vibratoBody s).Inv := by
  obtain ⟨hp, ⟨hfu, hfd, hru, hrd, hv, hlens⟩, hregs, hcur, hvib, hgeo⟩ := h
  have hch := wch_le_nchMax hgeo
  have hlen : (replaceFirst (s.vibResults.map Prod.fst) s.vib).length = s.params.nchMax :=
    (length_replaceFirst _ _ (by simp; omega)).trans hv
  rw [vibratoBody_eq]
  refine ⟨hp, ⟨hfu, hfd, hru, hrd, hlen, hlens⟩, hregs, hcur, ?_, hgeo⟩
  unfold State.VibratoInRange at hvib ⊢
  split at hvib
  · next hprep =>
    obtain ⟨h2, hmax, hvw⟩ := hvib
    have hpos : 0 < s.vibLen.toNat := by omega
    rw [if_pos hprep]
    exact ⟨h2, hmax, forall_vib_vibratoBody (Q := fun l => l.vw < s.vibLen.toNat)
      (fun l _ _ => ringNext_lt l.vw hpos) hpos hvw⟩
  · next hprep =>
    rw [if_neg hprep]
    exact hvib

/-- A work buffer that is given up was a legal one, or none. -/
theorem workGeometry_none {s : State} (h : s.WorkGeometry) :
    (s.wn = 0#32 ∧ s.wch = 0#32 ∧ s.wlen = 0#32) ∨ s.WorkBufferLegal := by
  unfold State.WorkGeometry at h
  split at h
  · exact h
  all_goals exact .inr h.1

/-- DOWNSAMPLE gives the work buffer up and moves the down cursors inside their rings. -/
theorem inv_downsampleRun {s : State} (h : s.Inv) : (downsampleRun s).Inv := by
  obtain ⟨hp, hshape, hregs, hcur, hvib, hgeo⟩ := h
  have hnone := workGeometry_none hgeo
  refine downsampleRun_cases ?_ ?_
  · have hshape' := shape_decimate hshape hgeo
    have hpos := irLen_pos hregs .dn4
    obtain ⟨hcurUp, hcurDn⟩ := hcur
    have hlines := forall_firDn4_decimate (Q := fun l => l.cur < s.irLen .dn4)
      (fun l _ _ => ringNext_lt l.cur hpos) hpos hcurDn
    rw [decimate_eq] at hshape' ⊢
    exact ⟨hp, hshape', hregs, ⟨hcurUp, hlines⟩, hvib, hnone⟩
  · rw [copyDown_eq]
    exact ⟨hp, hshape, hregs, hcur, hvib, hnone⟩

/-! ### The primitives -/

/-- A line whose cursor lies in the ring may take the place of a channel's line. -/
theorem inv_setFirLine {s : State} (g : FirStage) (c : Nat) {l : FirLine} (h : s.Inv)
    (hl : (s.firLine g c).cur < s.irLen g → l.cur < s.irLen g) : (s.setFirLine g c l).Inv := by
  obtain ⟨hp, ⟨hfu, hfd, hlens⟩, hregs, ⟨hcurUp, hcurDn⟩, hvib, hgeo⟩ := h
  have hpos := irLen_pos hregs g
  cases g with
  | up4 =>
    have hline := hl (forall_getD (Q := fun l : FirLine => l.cur < s.irLen .up4) hcurUp hpos c)
    exact ⟨hp, ⟨List.length_set.trans hfu, hfd, hlens⟩, hregs,
      ⟨forall_set (Q := fun l : FirLine => l.cur < s.irLen .up4) hcurUp hline c, hcurDn⟩, hvib, hgeo⟩
  | dn4 =>
    have hline := hl (forall_getD (Q := fun l : FirLine => l.cur < s.irLen .dn4) hcurDn hpos c)
    exact ⟨hp, ⟨hfu, List.length_set.trans hfd, hlens⟩, hregs,
      ⟨hcurUp, forall_set (Q := fun l : FirLine => l.cur < s.irLen .dn4) hcurDn hline c⟩, hvib, hgeo⟩

theorem inv_setRlpLine {s : State} (g : RlpStage) (c : Nat) {l : List Biquad}
    (hl : l.length = s.params.rlpSecMax) (h : s.Inv) : (s.setRlpLine g c l).Inv := by
  obtain ⟨hp, hshape, hrest⟩ := h
  have hshape' := shape_setRlpLine g c hl hshape
  cases g with
  | up2 => exact ⟨hp, hshape', hrest⟩
  | dn2 => exact ⟨hp, hshape', hrest⟩

/-! ### Reset, PREPARE and the register writes -/

/-- The invariants hold after a reset of a legal machine (10_state.md R64). -/
theorem inv_afterReset {p : Params} (hp : p.legal = true) (n : Nat) : (State.afterReset p n).Inv := by
  obtain ⟨⟨hch, -⟩, -, ⟨htap, -, -⟩, ⟨hsec, -⟩, -⟩ := (legal_iff p).mp hp
  have hchan : legalChannels p 1#32 = true := (legalChannels_iff _ _).mpr ⟨le_rfl, hch⟩
  have hir : legalIrLen p 1#32 = true := (legalIrLen_iff _ _).mpr ⟨rfl, htap⟩
  have hnsec : legalNsec p 1#32 = true := (legalNsec_iff _ _).mpr ⟨le_rfl, hsec⟩
  exact ⟨hp,
    ⟨length_zeroFir p, length_zeroFir p, length_zeroRlp p, length_zeroRlp p, length_emptyVib p,
      length_of_mem_zeroRlp p, length_of_mem_zeroRlp p⟩,
    ⟨hchan, hchan, hir, hir, hnsec, hnsec⟩,
    ⟨cur_lt_of_mem_zeroFir p Nat.one_pos, cur_lt_of_mem_zeroFir p Nat.one_pos⟩, rfl,
    .inl ⟨rfl, rfl, rfl⟩⟩

/-- PREPARE zeroes the lines and the work buffer and sets a vibrato length in range
(44_orchestrator.md R202 to R205). -/
theorem inv_applyPrepare {s : State} {r : Rates} (hr : prepareRates s = .ok r) (h : s.Inv) :
    (s.applyPrepare r).Inv := by
  obtain ⟨hp, -, hregs, -⟩ := h
  obtain ⟨fs, -, -, -, hlen, rfl⟩ := prepareRates_ok hr
  obtain ⟨-, -, -, -, -, hvibMax⟩ := (legal_iff _).mp hp
  have h2 : 2 ≤ vibLength (s.rateFactor * fs) := le_max_left _ _
  have hto : (BitVec.ofNat 16 (vibLength (s.rateFactor * fs))).toNat =
      vibLength (s.rateFactor * fs) := by
    rw [BitVec.toNat_ofNat, Nat.mod_eq_of_lt (by omega)]
  have hvib : 2 ≤ (BitVec.ofNat 16 (vibLength (s.rateFactor * fs))).toNat ∧
      (BitVec.ofNat 16 (vibLength (s.rateFactor * fs))).toNat ≤ s.params.vibMax ∧
      ∀ l ∈ emptyVib s.params, l.vw < (BitVec.ofNat 16 (vibLength (s.rateFactor * fs))).toNat := by
    rw [hto]
    exact ⟨h2, hlen, vw_lt_of_mem_emptyVib _ (by omega)⟩
  exact ⟨hp,
    ⟨length_zeroFir _, length_zeroFir _, length_zeroRlp _, length_zeroRlp _, length_emptyVib _,
      length_of_mem_zeroRlp _, length_of_mem_zeroRlp _⟩,
    hregs,
    ⟨cur_lt_of_mem_zeroFir _ (irLen_pos hregs .up4), cur_lt_of_mem_zeroFir _ (irLen_pos hregs .dn4)⟩,
    hvib, .inl ⟨rfl, rfl, rfl⟩⟩

/-- The commit of a legal length (42_convolution.md R172). -/
theorem inv_commitIr {s : State} (g : FirStage) {v : Word} (hv : legalIrLen s.params v = true)
    (h : s.Inv) : (s.commitIr g v).Inv := by
  obtain ⟨hp, ⟨hfu, hfd, hlens⟩, ⟨hin, hout, hup, hdn, hsecs⟩, ⟨hcurUp, hcurDn⟩, hvib, hgeo⟩ := h
  have hpos : 0 < v.toNat := by
    have hodd := ((legalIrLen_iff _ _).mp hv).1
    omega
  have hzero := cur_lt_of_mem_zeroFir s.params hpos
  cases g with
  | up4 =>
    exact ⟨hp, ⟨length_zeroFir _, hfd, hlens⟩, ⟨hin, hout, hv, hdn, hsecs⟩, ⟨hzero, hcurDn⟩, hvib,
      hgeo⟩
  | dn4 =>
    exact ⟨hp, ⟨hfu, length_zeroFir _, hlens⟩, ⟨hin, hout, hup, hv, hsecs⟩, ⟨hcurUp, hzero⟩, hvib,
      hgeo⟩

/-- The commit of a legal section count (43_recursive.md R192). -/
theorem inv_commitNsec {s : State} (g : RlpStage) {v : Word} (hv : legalNsec s.params v = true)
    (h : s.Inv) : (s.commitNsec g v).Inv := by
  obtain ⟨hp, ⟨hfu, hfd, hru, hrd, hv', hlu, hld⟩, ⟨hin, hout, hup, hdn, hsu, hsd⟩, hrest⟩ := h
  have hzero := length_of_mem_zeroRlp s.params
  cases g with
  | up2 =>
    exact ⟨hp, ⟨hfu, hfd, length_zeroRlp _, hrd, hv', hzero, hld⟩, ⟨hin, hout, hup, hdn, hv, hsd⟩,
      hrest⟩
  | dn2 =>
    exact ⟨hp, ⟨hfu, hfd, hru, length_zeroRlp _, hv', hlu, hzero⟩, ⟨hin, hout, hup, hdn, hsu, hv⟩,
      hrest⟩

/-- A write of a legal value keeps the registers legal (10_state.md R42, R47, R48). -/
theorem inv_writeReg {s : State} {r : Reg} {v : Word} (hv : Reg.legal s.params v r = true)
    (h : s.Inv) : (s.writeReg v r).Inv := by
  cases r with
  | status => rw [State.writeReg, writeStatus_eq]; exact h
  | latTick => rw [State.writeReg, latTick_eq]; exact h
  | nchIn =>
    obtain ⟨hp, hshape, ⟨-, hregs⟩, hrest⟩ := h
    exact ⟨hp, hshape, ⟨hv, hregs⟩, hrest⟩
  | nchOut =>
    obtain ⟨hp, hshape, ⟨hin, -, hregs⟩, hrest⟩ := h
    exact ⟨hp, hshape, ⟨hin, hv, hregs⟩, hrest⟩
  | irLenUp4 => exact inv_commitIr .up4 hv h
  | irLenDn4 => exact inv_commitIr .dn4 hv h
  | rlpNsecUp2 => exact inv_commitNsec .up2 hv h
  | rlpNsecDn2 => exact inv_commitNsec .dn2 hv h
  | _ => exact h

/-! ### The statement -/

theorem stepInvariant_inv : StepInvariant State.Inv where
  engine _ _ _ _ h := h
  answer _ _ h := h
  raise _ h := h
  writeReg hv h := inv_writeReg hv h
  numerr _ h := h
  storeBlock _ _ h := h
  prepare hr h := inv_applyPrepare hr h
  upsample _ hn h := inv_upsampleRun hn h
  vibrato h := inv_vibratoBody h
  downsample h := inv_downsampleRun h
  convDirect {s} g ch xs h :=
    inv_setFirLine g ch h (convDirectBlock_keeps (Q := fun l => l.cur < s.irLen g)
      (fun l _ _ => ringNext_lt l.cur (irLen_pos (registersLegal_of_inv h) g)) _ _ xs _)
  convPoly {s} g ch xs h :=
    inv_setFirLine g ch h (convPolyBlock_keeps (Q := fun l => l.cur < s.irLen g)
      (fun l _ _ => ringNext_lt l.cur (irLen_pos (registersLegal_of_inv h) g)) _ _ xs _)
  rlpRun g ch _ hch h := inv_setRlpLine g ch
    ((length_rlpBlock_state ..).trans (length_rlpLine (shape_of_inv h) g hch)) h
  reset {s} h := inv_afterReset h.1 (s.resets + 1)

/-- Settles O57: the invariants of R64, items 1 to 5, are kept by every update. -/
theorem stepKeepsInv : Obligations.StepKeepsInv := fun _ _ h hstep => stepInvariant_inv.step h hstep

end Sys2Proof.Machine
end

section
/-! SUPPORT. Words in a range of units: rounding does not leave a range that ends at a binary32 value, so
sums, differences and FTZ stay in theirs (00_scope.md R14, R15). -/

namespace Sys2Proof.Machine

/-! ### Rounding within a bound -/

/-- A value not above a binary32 value rounds to one not above it. -/
theorem bitsValue_roundMag_le {num den b : Nat} (hd : 0 < den) (hb : b < 0x7F800000)
    (h : num ≤ bitsValue b * den) :
    roundMag num den < 0x7F800000 ∧ bitsValue (roundMag num den) ≤ bitsValue b := by
  have hexact := (roundMag_lt_iff (bitsValue b * den) hd).mp (by rwa [roundMag_bitsValue hb hd])
  have hnum : num < den * (pow2 277 - pow2 252) := lt_of_le_of_lt h hexact
  refine ⟨(roundMag_lt_iff num hd).mpr hnum, ?_⟩
  have hnear := (roundMag_nearest hd hnum b).1
  have hle : bitsValue (roundMag num den) * den ≤ bitsValue b * den := by
    simp only [← Nat.cast_mul] at hnear
    omega
  exact Nat.le_of_mul_le_mul_right hle hd

/-! ### Words from 0 to a bound -/

/-- The word is finite, not below 0 (-0 included) and at most `k` units of 2^-149. -/
def UpTo (k : Nat) (w : Word) : Prop := isFinite w = true ∧ 0 ≤ unitsOf w ∧ unitsOf w ≤ k

theorem upTo_of_unpack {w : Word} {m k : Nat} (h : unpack w = .fin false m) (hm : m ≤ k) :
    UpTo k w := by
  have hu : unitsOf w = m := unitsOf_of_unpack h
  exact ⟨isFinite_of_unpack h, by omega, by omega⟩

theorem upTo_zero (k : Nat) (neg : Bool) : UpTo k (zero neg) := by simp [UpTo]

/-- FTZ takes a word to itself or to a zero. -/
theorem flush_cases (ftz : Bool) (w : Word) : flush ftz w = w ∨ flush ftz w = zero (signBit w) := by
  unfold flush
  split
  · exact .inr rfl
  · exact .inl rfl

theorem upTo_flush (ftz : Bool) {k : Nat} {w : Word} (h : UpTo k w) : UpTo k (flush ftz w) := by
  rcases flush_cases ftz w with he | he
  · rwa [he]
  · rw [he]; exact upTo_zero k _

/-- A quotient up to a binary32 value `z·2^e` rounds to a word up to it. -/
theorem upTo_rn32 {num den z e : Nat} (hd : 0 < den) (hz : z < 2 ^ 24) (he : e ≤ 253)
    (h : num ≤ z * pow2 e * den) : UpTo (z * pow2 e) (rn32 false num den) := by
  obtain ⟨b, hb, hv⟩ := exists_bitsValue_eq hz he
  rw [pow2_eq, ← hv] at h ⊢
  obtain ⟨hfin, hle⟩ := bitsValue_roundMag_le hd hb h
  exact upTo_of_unpack (unpack_rn32 false hd hfin) hle

section Sum
variable (ftz : Bool) {j k z e : Nat} (hz : z < 2 ^ 24) (he : e ≤ 253) {a b : Word}
include hz he

/-- A whole number of units up to `z·2^e`, rounded and flushed. -/
theorem upTo_flush_rn32 {x : Int} (h0 : 0 ≤ x) (hx : x ≤ (z * pow2 e : Nat)) :
    UpTo (z * pow2 e) (flush ftz (rn32 (decide (x < 0)) x.natAbs 1)) := by
  rw [decide_eq_false (by omega)]
  exact upTo_flush ftz (upTo_rn32 one_pos hz he (by omega))

/-- The sum of two words in range, where the sum of their bounds is a binary32 value. -/
theorem upTo_fadd (ha : UpTo j a) (hb : UpTo k b) (hjk : j + k ≤ z * pow2 e) :
    UpTo (z * pow2 e) (fadd ftz a b) := by
  obtain ⟨-, ha0, haj⟩ := upTo_flush ftz ha
  obtain ⟨-, hb0, hbk⟩ := upTo_flush ftz hb
  rw [fadd_finite ftz ha.1 hb.1]
  split
  · exact upTo_zero _ _
  · exact upTo_flush_rn32 ftz hz he (by omega) (by omega)

/-- The difference of two words that FTZ leaves alone and that lie no more than `z·2^e` apart. -/
theorem upTo_fsub (ha : isFinite a = true) (hb : isFinite b = true) (hfa : flush ftz a = a)
    (hfb : flush ftz b = b) (hle : unitsOf b ≤ unitsOf a)
    (hdiff : unitsOf a - unitsOf b ≤ (z * pow2 e : Nat)) : UpTo (z * pow2 e) (fsub ftz a b) := by
  rw [fsub_finite ftz ha hb, hfa, hfb]
  split
  · exact upTo_zero _ _
  · exact upTo_flush_rn32 ftz hz he (by omega) hdiff

end Sum

end Sys2Proof.Machine
end

section
/-! PROOF. The LFO's phase stays in [0, 1) (10_state.md R64, sixth item; 46_effects.md R278, R279). -/

namespace Sys2Proof.Machine

/-! ### The range of the phase -/

theorem unpack_f32One : unpack f32One = .fin false (pow2 149) := by decide +kernel

theorem isFinite_f32One : isFinite f32One = true := isFinite_of_unpack unpack_f32One

theorem unitsOf_f32One : unitsOf f32One = (pow2 149 : Nat) := unitsOf_of_unpack unpack_f32One

theorem orderKey_zeroWord : orderKey 0#32 = some 0 := rfl

theorem orderKey_f32One : orderKey f32One = some ((pow2 149 : Nat) : Int) := by
  rw [orderKey_finite isFinite_f32One, unitsOf_f32One]

/-- A phase: finite and from 0 to below 1 (-0 included). -/
def PhaseWord (w : Word) : Prop :=
  isFinite w = true ∧ 0 ≤ unitsOf w ∧ unitsOf w < (pow2 149 : Nat)

/-- A place nearer to 0 than the infinities' is a finite word's. -/
theorem isFinite_of_orderKey {w : Word} {x : Int} (h : orderKey w = some x)
    (hx : x.natAbs < pow2 277) : isFinite w = true := by
  unfold orderKey at h
  cases hu : unpack w with
  | nan => rw [hu] at h; cases h
  | inf s =>
    rw [hu] at h
    obtain rfl : infinityKey s = x := Option.some.inj h
    have hlarge : (infinityKey s).natAbs = pow2 277 := by cases s <;> simp [infinityKey]
    exact absurd hlarge hx.ne
  | fin s m => exact isFinite_of_unpack hu

theorem exists_key_of_fle_zero {w : Word} (h : fle 0#32 w = true) :
    ∃ x, orderKey w = some x ∧ 0 ≤ x := by
  unfold fle at h
  rw [orderKey_zeroWord] at h
  cases hw : orderKey w with
  | none => rw [hw] at h; cases h
  | some x => rw [hw] at h; exact ⟨x, rfl, of_decide_eq_true h⟩

theorem phaseInRange_iff (s : State) : s.PhaseInRange ↔ PhaseWord s.vph := by
  constructor
  · rintro ⟨hlo, hhi⟩
    obtain ⟨x, hkey, hx0⟩ := exists_key_of_fle_zero hlo
    rw [flt_of_keys hkey orderKey_f32One, decide_eq_true_eq] at hhi
    have hlt : pow2 149 < pow2 277 := mag_lt unpack_f32One
    have hfin := isFinite_of_orderKey hkey (lt_trans (by omega) hlt)
    obtain rfl : unitsOf s.vph = x := Option.some.inj ((orderKey_finite hfin).symm.trans hkey)
    exact ⟨hfin, hx0, hhi⟩
  · rintro ⟨hfin, hlo, hhi⟩
    have hkey := orderKey_finite hfin
    exact ⟨(fle_of_keys orderKey_zeroWord hkey).trans (decide_eq_true hlo),
      (flt_of_keys hkey orderKey_f32One).trans (decide_eq_true hhi)⟩

theorem phaseWord_zero : PhaseWord 0#32 :=
  ⟨rfl, le_rfl, Int.natCast_pos.mpr (pow2_pos 149)⟩

theorem phaseWord_of_upTo {k : Nat} {w : Word} (h : UpTo k w) (hk : k < pow2 149) : PhaseWord w := by
  obtain ⟨hfin, hlo, hhi⟩ := h
  exact ⟨hfin, hlo, by omega⟩

theorem upTo_of_phaseWord {w : Word} (h : PhaseWord w) : UpTo (pow2 149) w := by
  obtain ⟨hfin, hlo, hhi⟩ := h
  exact ⟨hfin, hlo, hhi.le⟩

/-! ### The increment and the advance -/

theorem upTo_f32Half : UpTo (1 * pow2 148) f32Half :=
  upTo_of_unpack unpack_f32Half (Nat.one_mul _).ge

/-- The increment is at most a half, whatever the frequency and the rate (R278). -/
theorem upTo_vibIncrement (freq : Word) (ufs : Nat) : UpTo (1 * pow2 148) (vibIncrement freq ufs) := by
  unfold vibIncrement
  split
  · split
    · next f _ =>
      split
      · exact upTo_f32Half
      · next hlt =>
        refine upTo_rn32 (by omega) (by decide) (by decide) ?_
        calc f * pow2 925 * pow2 149 = pow2 148 * (2 * (f * pow2 925)) := by rw [pow2_149_eq]; ring
          _ ≤ pow2 148 * ufs := Nat.mul_le_mul_left _ (by omega)
          _ = 1 * pow2 148 * ufs := by rw [Nat.one_mul]
    · exact upTo_f32Half
  · exact upTo_zero _ false

/-- FTZ leaves a word from 1 on alone. -/
theorem flush_of_one_le (ftz : Bool) {w : Word} (hfin : isFinite w = true)
    (h : (pow2 149 : Nat) ≤ unitsOf w) : flush ftz w = w := by
  have hle : 2 ^ 23 ≤ pow2 149 := Nat.pow_le_pow_right (by decide) (by decide)
  exact flush_eq_self ftz (unpack_of_finite hfin) fun _ => .inr (by omega)

/-- The phase after a frame is a phase: the sum stays below 2, and 1 is taken off from 1 on (R279). -/
theorem phaseWord_vibAdvance (ftz : Bool) {inc vph : Word} (hinc : UpTo (1 * pow2 148) inc)
    (hvph : PhaseWord vph) : PhaseWord (vibAdvance ftz inc vph) := by
  have h149 := pow2_149_eq
  have hpos := pow2_pos 148
  have hv : UpTo (3 * pow2 148) (fadd ftz vph inc) :=
    upTo_fadd ftz (by decide) (by decide) (upTo_of_phaseWord hvph) hinc (by omega)
  obtain ⟨hfin, hlo, hhi⟩ := hv
  have hone := unitsOf_f32One
  unfold vibAdvance
  simp only [fle_of_keys orderKey_f32One (orderKey_finite hfin), decide_eq_true_eq]
  split
  · next hge =>
    have hsub : UpTo (1 * pow2 148) (fsub ftz (fadd ftz vph inc) f32One) :=
      upTo_fsub ftz (by decide) (by decide) hfin isFinite_f32One (flush_of_one_le ftz hfin hge)
        (flush_of_one_le ftz isFinite_f32One hone.ge) (by omega) (by omega)
    exact phaseWord_of_upTo hsub (by omega)
  · next hlt => exact ⟨hfin, hlo, by omega⟩

/-- The phase after any number of frames is a phase. -/
theorem phaseWord_vibFrames (ftz : Bool) (sine : Word → Word) (depth : Word) {inc : Word}
    (hinc : UpTo (1 * pow2 148) inc) (len n : Nat) :
    ∀ vph, PhaseWord vph → PhaseWord (vibFrames ftz sine depth inc len n vph).2 := by
  induction n with
  | zero => exact fun _ h => h
  | succ n ih => exact fun vph h => ih _ (phaseWord_vibAdvance ftz hinc h)

/-! ### The statement -/

theorem phaseInRange_vibratoBody {s : State} (h : s.PhaseInRange) :
    (vibratoBody s).PhaseInRange := by
  rw [phaseInRange_iff] at h ⊢
  rw [vibratoBody_eq]
  exact phaseWord_vibFrames _ _ _ (upTo_vibIncrement _ _) _ _ _ h

theorem phaseInRange_of_vph_zero {s : State} (h : s.vph = 0#32) : s.PhaseInRange :=
  (phaseInRange_iff s).mpr (h ▸ phaseWord_zero)

theorem stepInvariant_phaseInRange : StepInvariant State.PhaseInRange where
  engine _ _ _ _ h := h
  answer _ _ h := h
  raise _ h := h
  writeReg {s r v} _ h := by
    cases r with
    | status => rw [State.writeReg, writeStatus_eq]; exact h
    | latTick => rw [State.writeReg, latTick_eq]; exact h
    | _ => exact h
  numerr _ h := h
  storeBlock _ _ h := h
  prepare _ _ := phaseInRange_of_vph_zero rfl
  upsample {s n} _ _ h := upsampleRun_eq s n ▸ h
  vibrato h := phaseInRange_vibratoBody h
  downsample {s} h := downsampleRun_eq s ▸ h
  convDirect g _ _ h := by cases g <;> exact h
  convPoly g _ _ h := by cases g <;> exact h
  rlpRun g _ _ _ h := by cases g <;> exact h
  reset _ := phaseInRange_of_vph_zero rfl

/-- Settles O58: only VIBRATO moves the phase, and its advance keeps it in [0, 1). -/
theorem stepKeepsPhase : Obligations.StepKeepsPhase :=
  fun _ _ h hstep => stepInvariant_phaseInRange.step h hstep

end Sys2Proof.Machine
end

section
/-! SUPPORT. The words of the registers, bit by bit (10_state.md R31 to R50), and what a register write
leaves of the other registers. -/

namespace Sys2Proof.Machine

/-! ### Words put together -/

theorem toNat_append_eq {n m : Nat} (x : BitVec n) (y : BitVec m) :
    (x ++ y).toNat = x.toNat * 2 ^ m + y.toNat := by
  rw [BitVec.toNat_append, ← Nat.shiftLeft_add_eq_or_of_lt y.isLt, Nat.shiftLeft_eq]

section Append
variable {n m : Nat} (x : BitVec n) (y : BitVec m)

theorem getLsbD_append_add (i : Nat) : (x ++ y).getLsbD (m + i) = x.getLsbD i := by
  simp [BitVec.getLsbD_append]

theorem getLsbD_append_of_lt {i : Nat} (h : i < m) : (x ++ y).getLsbD i = y.getLsbD i := by
  simp [BitVec.getLsbD_append, h]

theorem extractLsb'_append_add (i len : Nat) :
    (x ++ y).extractLsb' (m + i) len = x.extractLsb' i len := by
  apply BitVec.eq_of_getLsbD_eq
  intro j hj
  rw [BitVec.getLsbD_extractLsb', BitVec.getLsbD_extractLsb', Nat.add_assoc, getLsbD_append_add]

theorem extractLsb'_append_low : (x ++ y).extractLsb' 0 m = y := by
  apply BitVec.eq_of_getLsbD_eq
  intro j hj
  rw [BitVec.getLsbD_extractLsb', Nat.zero_add, getLsbD_append_of_lt x y hj]
  simp [hj]
end Append

/-- Storing the low bits of a word and reading them back clears the others. -/
theorem setWidth_setWidth_eq_and (v : Word) {k : Nat} (hk : k ≤ 32) :
    (v.setWidth k).setWidth 32 = v &&& BitVec.ofNat 32 (2 ^ k - 1) := by
  have hpow : 2 ^ k ≤ 2 ^ 32 := Nat.pow_le_pow_right (by decide) hk
  have hpos := Nat.two_pow_pos k
  have hmod := Nat.mod_lt v.toNat hpos
  apply BitVec.eq_of_toNat_eq
  rw [BitVec.toNat_and, BitVec.toNat_setWidth, BitVec.toNat_setWidth, BitVec.toNat_ofNat,
    Nat.mod_eq_of_lt (by omega : 2 ^ k - 1 < 2 ^ 32), Nat.and_two_pow_sub_one_eq_mod,
    Nat.mod_eq_of_lt (by omega)]

theorem ofBool_getLsbD_zero (v : Word) : BitVec.ofBool (v.getLsbD 0) = v.setWidth 1 := by
  apply BitVec.eq_of_getLsbD_eq
  intro i hi
  obtain rfl : i = 0 := by omega
  simp

/-- PARAM0 is its three fields side by side (10_state.md R33). -/
theorem toNat_param0 {p : Params} (hp : p.legal = true) :
    (Params.param0 p).toNat = p.tapMax * 65536 + p.rlpSecMax * 256 + p.nchMax := by
  obtain ⟨⟨-, hch⟩, -, ⟨-, htap, -⟩, ⟨-, hsec⟩, -⟩ := (legal_iff p).mp hp
  rw [Params.param0, toNat_append_eq, toNat_append_eq, BitVec.toNat_ofNat, BitVec.toNat_ofNat,
    BitVec.toNat_ofNat]
  omega

/-- PARAM1 is its two fields side by side (10_state.md R33). -/
theorem toNat_param1 {p : Params} (hp : p.legal = true) :
    (Params.param1 p).toNat = p.vibMax * 65536 + p.blkMax := by
  obtain ⟨-, ⟨-, hblk⟩, -, -, ⟨-, hvib⟩⟩ := (legal_iff p).mp hp
  rw [Params.param1, toNat_append_eq, BitVec.toNat_ofNat, BitVec.toNat_ofNat]
  omega

/-- The fields of PARAM0. -/
theorem param0_fields {p : Params} (hp : p.legal = true) :
    (Params.param0 p).extractLsb' 0 8 = BitVec.ofNat 8 p.nchMax ∧
    (Params.param0 p).extractLsb' 8 8 = BitVec.ofNat 8 p.rlpSecMax ∧
    (Params.param0 p).extractLsb' 16 16 = BitVec.ofNat 16 p.tapMax := by
  obtain ⟨⟨-, hch⟩, -, ⟨-, htap, -⟩, ⟨-, hsec⟩, -⟩ := (legal_iff p).mp hp
  have hnat := toNat_param0 hp
  refine ⟨?_, ?_, ?_⟩ <;>
  · apply BitVec.eq_of_toNat_eq
    rw [BitVec.extractLsb'_toNat, hnat, BitVec.toNat_ofNat, Nat.shiftRight_eq_div_pow]
    omega

/-- LAT_DIRTY holds its two flags and zeros (10_state.md R39). -/
theorem latDirty_bits (os vib : Bool) :
    ((BitVec.ofBool vib ++ BitVec.ofBool os).setWidth 32 : Word).getLsbD 0 = os ∧
    ((BitVec.ofBool vib ++ BitVec.ofBool os).setWidth 32 : Word).getLsbD 1 = vib ∧
    ((BitVec.ofBool vib ++ BitVec.ofBool os).setWidth 32 : Word).extractLsb' 2 30 = 0#30 := by
  revert os vib
  decide

/-! ### STATUS -/

theorem getLsbD_ofBool_zero (b : Bool) : (BitVec.ofBool b).getLsbD 0 = b := by cases b <;> rfl

/-- The single bits of STATUS, from its definition (10_state.md R36). -/
theorem statusWord_bits (s : State) :
    s.statusWord.getLsbD 0 = s.busy ∧ s.statusWord.getLsbD 1 = s.done ∧
    s.statusWord.getLsbD 2 = s.err ∧ s.statusWord.getLsbD 3 = s.numerr ∧
    s.statusWord.getLsbD 4 = s.latNew ∧ s.statusWord.getLsbD 5 = s.prepared ∧
    s.statusWord.getLsbD 6 = s.active ∧ s.statusWord.getLsbD 7 = s.pending ∧
    s.statusWord.getLsbD 8 = s.prepareReq ∧ s.statusWord.getLsbD 11 = s.lastTrans := by
  unfold State.statusWord
  simp only [BitVec.getLsbD_append, Nat.reduceLT, Nat.reduceSub, if_true, if_false,
    getLsbD_ofBool_zero, and_true]

/-- The bits of STATUS from 9 on lie above nine single bits. -/
theorem statusWord_upper (s : State) (i len : Nat) :
    s.statusWord.extractLsb' (9 + i) len =
      (0#20 ++ BitVec.ofBool s.lastTrans ++ s.wmode.field).extractLsb' i len := by
  unfold State.statusWord
  rw [show 9 + i = 1 + (1 + (1 + (1 + (1 + (1 + (1 + (1 + (1 + i)))))))) by omega]
  simp only [extractLsb'_append_add]

/-! ### A write and the registers -/

theorem readReg_answer (s : State) (resp : Response) (w : Word) (r : Reg) :
    (s.answer resp w).readReg r = s.readReg r := by cases r <;> rfl

theorem readReg_inputs (s : State) (rest : List Event) (r : Reg) :
    State.readReg { s with inputs := rest } r = s.readReg r := by cases r <;> rfl

/-- A register that can be written and read holds the defined bits of the word written (R31). -/
theorem readReg_writeReg_same (s : State) (v : Word) {r : Reg} (h : r.access = .rw ∨ r.access = .rwc) :
    (s.writeReg v r).readReg r = v &&& r.writtenBits := by
  have hall : v = v &&& 0xFFFFFFFF#32 := (BitVec.and_allOnes (x := v)).symm
  cases r with
  | osReq =>
    show (BitVec.ofBool (v.getLsbD 0)).setWidth 32 = _
    rw [ofBool_getLsbD_zero]
    exact setWidth_setWidth_eq_and v (by decide)
  | blockSize | rlpLatUp2 | rlpLatDn2 => exact setWidth_setWidth_eq_and v (k := 16) (by decide)
  | fxCtrl => exact setWidth_setWidth_eq_and v (k := 3) (by decide)
  | fsLo | fsHi | nchIn | nchOut | wfDrive | satDrive | vibFreq | vibDepth | irLenUp4 | irLenDn4
  | rlpNsecUp2 | rlpNsecDn2 => exact hall
  | _ => exact absurd h (by decide)

/-- The registers whose write sets OS_DIRTY and moves OS_LAT (45_latency.md R240, R242). -/
def Reg.setsOsDirty (r : Reg) : Prop :=
  r = .irLenUp4 ∨ r = .irLenDn4 ∨ r = .rlpLatUp2 ∨ r = .rlpLatDn2

/-- A register write changes its own register, PENDING for OS_REQ, and LAT_DIRTY and OS_LAT for the
latency registers and the IR lengths. -/
theorem readReg_writeReg_other (s : State) (v : Word) {r r' : Reg}
    (h : r.access = .rw ∨ r.access = .rwc) (hne : r' ≠ r) (hstatus : r' = .status → r ≠ .osReq)
    (hlat : r' = .latDirty ∨ r' = .osLat → ¬ r.setsOsDirty) :
    (s.writeReg v r).readReg r' = s.readReg r' := by
  cases r with
  | osReq => cases r' <;> simp at hne hstatus <;> rfl
  | irLenUp4 | irLenDn4 | rlpLatUp2 | rlpLatDn2 =>
    cases r' <;> simp [Reg.setsOsDirty] at hne hlat <;> rfl
  | fsLo | fsHi | blockSize | nchIn | nchOut | fxCtrl | wfDrive | satDrive | vibFreq | vibDepth
  | rlpNsecUp2 | rlpNsecDn2 => cases r' <;> simp at hne <;> rfl
  | _ => exact absurd h (by decide)

end Sys2Proof.Machine
end

section
/-! PROOF. The registers at the bus (10_state.md R31 to R50; 20_memory.md R89 to R94). -/

namespace Sys2Proof.Machine

/-! ### Reads -/

/-- Settles O16: the step by `step_readReg`, the composed words by their fields. -/
theorem registerReadHasNoSideEffect : Obligations.RegisterReadHasNoSideEffect := by
  refine ⟨fun s r rest h => step_readReg h, fun s hp => ?_⟩
  obtain ⟨hch, hsec, htap⟩ := param0_fields hp
  obtain ⟨hos, hvib, hres⟩ := latDirty_bits s.osDirty s.vibDirty
  have hosLat : s.osLat.toNat = if s.active then (s.rlpLatUp2.toNat + s.rlpLatDn2.toNat +
      s.irLenUp4.toNat / 2 + s.irLenDn4.toNat / 2) % 2 ^ 32 else 0 := by
    unfold State.osLat
    split <;> rfl
  have hwide : ∀ {w : Nat} (x : BitVec w), w ≤ 32 → (x.setWidth 32 : Word).toNat = x.toNat :=
    fun x hw => BitVec.toNat_setWidth_of_le hw
  exact ⟨rfl, rfl, hch, hsec, htap, toNat_param0 hp, toNat_param1 hp, rfl, rfl,
    hwide s.errcode (by decide), rfl, hos, hvib, hres, hosLat, toNat_vibLat s, rfl, rfl, rfl, rfl,
    hwide s.upBlock (by decide), hwide s.vibLen (by decide), rfl, rfl, rfl, rfl, rfl⟩

/-- Settles O24: each bit falls in one piece of the word. -/
theorem statusWordBits : Obligations.StatusWordBits := by
  intro s
  have hbusy : s.busy = true ↔ s.engPhase ≠ .idle := by simp [State.busy]
  have hpending : s.pending = true ↔ s.osReq ≠ s.active := by simp [State.pending]
  obtain ⟨hb, hdone, herr, hnum, hlat, hprep, hact, hpend, hreq, htrans⟩ := statusWord_bits s
  have hfield : s.statusWord.extractLsb' 9 2 = s.wmode.field :=
    (statusWord_upper s 0 2).trans (extractLsb'_append_low _ _)
  have hres : s.statusWord.extractLsb' 12 20 = 0#20 :=
    (statusWord_upper s 3 20).trans
      ((extractLsb'_append_add _ _ 1 20).trans (extractLsb'_append_add _ _ 0 20))
  refine ⟨hb ▸ hbusy, hdone, herr, hnum, hlat, hprep, hact, hpend ▸ hpending, hreq, ?_, htrans, hres⟩
  refine hfield.trans ?_
  cases s.wmode <;> rfl

/-! ### Writes -/

/-- A read-only register has no value to check and nothing to store. -/
theorem writeReg_ro (s : State) (v : Word) {r : Reg} (h : r.access = .ro) : s.writeReg v r = s := by
  cases r with
  | id | version | param0 | param1 | errcode | latPub | latDirty | osLat | vibLat | osTotal | vibTotal
  | upFsLo | upFsHi | upBlock | vibLen | vibPhase | vibInc | wlen | wch | wn => rfl
  | _ => cases h

theorem legal_ro (p : Params) (v : Word) {r : Reg} (h : r.access = .ro) : Reg.legal p v r = true := by
  cases r with
  | nchIn | nchOut | irLenUp4 | irLenDn4 | rlpNsecUp2 | rlpNsecDn2 => cases h
  | _ => rfl

/-- Settles O18: every value is permitted (`legal_ro`) and none is stored (`writeReg_ro`). -/
theorem readOnlyWriteIgnored : Obligations.ReadOnlyWriteIgnored := by
  intro s r v rest hbusy hro hw
  rw [step_writeReg hw (.inl hbusy) (legal_ro s.params v hro), writeReg_ro _ v hro]
  rfl

/-- Settles O19: the listed values are the illegal ones. -/
theorem checkedRegisterRefusesIllegal : Obligations.CheckedRegisterRefusesIllegal := by
  intro s r v rest hbusy hw hv
  have hlegal : Reg.legal s.params v r = false := by
    rw [Bool.eq_false_iff]
    rcases hv with ⟨rfl | rfl, hv⟩ | ⟨rfl | rfl, hv⟩ | ⟨rfl | rfl, hv⟩
    · exact fun hl => absurd ((legalChannels_iff _ _).mp hl) (by omega)
    · exact fun hl => absurd ((legalChannels_iff _ _).mp hl) (by omega)
    · exact fun hl => absurd ((legalIrLen_iff _ _).mp hl) (by omega)
    · exact fun hl => absurd ((legalIrLen_iff _ _).mp hl) (by omega)
    · exact fun hl => absurd ((legalNsec_iff _ _).mp hl) (by omega)
    · exact fun hl => absurd ((legalNsec_iff _ _).mp hl) (by omega)
  rw [step_writeReg_illegal hw hbusy hlegal]
  rfl

/-- Settles O20: each is a permitted write of its register. -/
theorem checkedRegisterCommits : Obligations.CheckedRegisterCommits := by
  intro s v rest hbusy
  refine ⟨fun h1 hmax => ?_, fun hodd hmax => ?_, fun h1 hmax => ?_⟩
  · have hl := (legalChannels_iff s.params v).mpr ⟨h1, hmax⟩
    exact ⟨fun h => step_writeReg (r := .nchIn) h (.inl hbusy) hl,
      fun h => step_writeReg (r := .nchOut) h (.inl hbusy) hl⟩
  · have hl := (legalIrLen_iff s.params v).mpr ⟨hodd, hmax⟩
    exact ⟨fun h => step_writeReg (r := .irLenUp4) h (.inl hbusy) hl,
      fun h => step_writeReg (r := .irLenDn4) h (.inl hbusy) hl⟩
  · have hl := (legalNsec_iff s.params v).mpr ⟨h1, hmax⟩
    exact ⟨fun h => step_writeReg (r := .rlpNsecUp2) h (.inl hbusy) hl,
      fun h => step_writeReg (r := .rlpNsecDn2) h (.inl hbusy) hl⟩

/-- Settles O22: CMD takes every word while idle, and none while busy. -/
theorem cmdWriteQueues : Obligations.CmdWriteQueues := by
  refine ⟨fun s w rest h => ⟨fun hbusy => ?_, fun hbusy => ?_⟩, fun _ => rfl, rfl, rfl⟩
  · exact ⟨_, step_writeReg (r := .cmd) h (.inl hbusy) rfl, rfl, rfl⟩
  · exact step_writeReg_busy (r := .cmd) h hbusy rfl

/-- Settles O23: STATUS is writable in every phase, and its write is `writeStatus_eq`. -/
theorem statusWriteClears : Obligations.StatusWriteClears := by
  intro s v rest h
  rw [step_writeReg (r := .status) h (.inr rfl) rfl, State.writeReg, writeStatus_eq]
  rfl

/-! ### Reading back -/

/-- What a write to an RW or RWC register leaves of the state beside the registers: OS_DIRTY, and the
filter states that a commit zeroes. -/
theorem writeReg_frame (s : State) (v : Word) {r : Reg} (h : r.access = .rw ∨ r.access = .rwc) :
    let t := s.writeReg v r
    t.osDirty = (if r = .irLenUp4 ∨ r = .irLenDn4 ∨ r = .rlpLatUp2 ∨ r = .rlpLatDn2 then true
      else s.osDirty) ∧
    t.firUp4 = (if r = .irLenUp4 then zeroFir s.params else s.firUp4) ∧
    t.firDn4 = (if r = .irLenDn4 then zeroFir s.params else s.firDn4) ∧
    t.rlpUp2 = (if r = .rlpNsecUp2 then zeroRlp s.params else s.rlpUp2) ∧
    t.rlpDn2 = (if r = .rlpNsecDn2 then zeroRlp s.params else s.rlpDn2) ∧
    t = { s with
      osReq := t.osReq, fsLo := t.fsLo, fsHi := t.fsHi, blockSize := t.blockSize, nchIn := t.nchIn
      nchOut := t.nchOut, fxCtrl := t.fxCtrl, wfDrive := t.wfDrive, satDrive := t.satDrive
      vibFreq := t.vibFreq, vibDepth := t.vibDepth, irLenUp4 := t.irLenUp4, irLenDn4 := t.irLenDn4
      rlpNsecUp2 := t.rlpNsecUp2, rlpNsecDn2 := t.rlpNsecDn2, rlpLatUp2 := t.rlpLatUp2
      rlpLatDn2 := t.rlpLatDn2, osDirty := t.osDirty, firUp4 := t.firUp4, firDn4 := t.firDn4
      rlpUp2 := t.rlpUp2, rlpDn2 := t.rlpDn2 } := by
  cases r with
  | osReq | fsLo | fsHi | blockSize | nchIn | nchOut | fxCtrl | wfDrive | satDrive | vibFreq | vibDepth
  | irLenUp4 | irLenDn4 | rlpNsecUp2 | rlpNsecDn2 | rlpLatUp2 | rlpLatDn2 =>
    exact ⟨rfl, rfl, rfl, rfl, rfl, rfl⟩
  | _ => exact absurd h (by decide)

/-- Settles O21: the word read back, the other registers, and the frame of the write. -/
theorem registerReadsBack : Obligations.RegisterReadsBack := by
  intro s r v rest hbusy hacc hlegal hw
  obtain ⟨hdirty, hfu, hfd, hru, hrd, hframe⟩ := writeReg_frame { s with inputs := rest } v hacc
  refine ⟨_, step_writeReg hw (.inl hbusy) hlegal, ?_, fun r' hne hstatus hlat => ?_, hdirty, hfu, hfd,
    hru, hrd, ?_⟩
  · rw [readReg_answer, readReg_writeReg_same _ _ hacc]
  · rw [readReg_answer, readReg_writeReg_other _ _ hacc hne hstatus, readReg_inputs]
    intro hr' hset
    obtain ⟨h1, h2, h3, h4⟩ := hlat hr'
    rcases hset with h | h | h | h
    · exact h1 h
    · exact h2 h
    · exact h3 h
    · exact h4 h
  · exact congrArg (fun u : State => u.answer .okay 0#32) hframe

end Sys2Proof.Machine
end

section
/-! PROOF. Reset (70_reset_and_hazards.md R340 to R342; 10_state.md R64). -/

namespace Sys2Proof.Machine

/-! ### The registers -/

/-- The reset words of 70_reset_and_hazards.md R341. -/
def Reg.resetWord (p : Params) : Reg → Word
  | .id => 0x4F535431#32
  | .version => 0x00010000#32
  | .param0 => BitVec.ofNat 32 (p.tapMax * 65536 + p.rlpSecMax * 256 + p.nchMax)
  | .param1 => BitVec.ofNat 32 (p.vibMax * 65536 + p.blkMax)
  | .wfDrive => 0x3F800000#32
  | .nchIn | .nchOut | .irLenUp4 | .irLenDn4 | .rlpNsecUp2 | .rlpNsecDn2 | .rlpLatUp2
  | .rlpLatDn2 => 1#32
  | _ => 0#32

/-- STATUS reads 0: no flag is set, the ENGINE is idle and nothing is pending. -/
theorem statusWord_afterReset (p : Params) (n : Nat) : (State.afterReset p n).statusWord = 0#32 := by
  show (0#20 ++ BitVec.ofBool false ++ 0#2 ++ BitVec.ofBool false ++ BitVec.ofBool false ++
    BitVec.ofBool false ++ BitVec.ofBool false ++ BitVec.ofBool false ++ BitVec.ofBool false ++
    BitVec.ofBool false ++ BitVec.ofBool false ++ BitVec.ofBool false : Word) = 0#32
  decide

theorem eq_ofNat_of_toNat_eq {w : Word} {k : Nat} (h : w.toNat = k) : w = BitVec.ofNat 32 k := by
  rw [← h, BitVec.ofNat_toNat, BitVec.setWidth_eq]

/-- Every register reads as its reset word. -/
theorem readReg_afterReset {p : Params} (hp : p.legal = true) (n : Nat) (r : Reg) :
    (State.afterReset p n).readReg r = r.resetWord p := by
  cases r with
  | param0 => exact eq_ofNat_of_toNat_eq (toNat_param0 hp)
  | param1 => exact eq_ofNat_of_toNat_eq (toNat_param1 hp)
  | status => exact statusWord_afterReset p n
  | latDirty => show ((BitVec.ofBool false ++ BitVec.ofBool false).setWidth 32 : Word) = 0#32; decide
  | vibLat => show BitVec.ofNat 32 ((0#16).toNat / 2) = 0#32; decide
  | _ => rfl

/-! ### The windows -/

/-- An unlisted byte of a word that has reset contents. -/
theorem readByte_afterReset (p : Params) (n : Nat) {a i : Nat} {w : Word} (ha : a % 4 = 0)
    (hi : i < 4) (hw : resetWord a = some w) :
    (State.afterReset p n).readByte (a + i) = wordByte w i := by
  have hbase : a + i - (a + i) % 4 = a := by omega
  have hoff : (a + i) % 4 = i := by omega
  show (match Memory.unlisted (a + i) with | some b => b | none => _) = _
  unfold Memory.unlisted
  rw [hbase, hoff, hw]

/-- A word that has reset contents reads as them. -/
theorem loadWord_afterReset (p : Params) (n : Nat) {a : Nat} {w : Word} (ha : a % 4 = 0)
    (hw : resetWord a = some w) : (State.afterReset p n).loadWord a = w := by
  have hbyte : ∀ i < 4, (State.afterReset p n).readByte (a + i) = wordByte w i :=
    fun i hi => readByte_afterReset p n ha hi hw
  have h0 := hbyte 0 (by decide)
  rw [Nat.add_zero] at h0
  rw [State.loadWord, h0, hbyte 1 (by decide), hbyte 2 (by decide), hbyte 3 (by decide),
    wordOfBytes_wordByte]

theorem resetWord_coef {a : Nat} (hlo : 0x1000 ≤ a) (hhi : a < 0x1100) :
    resetWord a = some (resetCoef ((a - 0x1000) % 0x80 / 0x20) ((a - 0x1000) % 0x20 / 4)) := by
  unfold resetWord
  rw [if_pos ⟨hlo, hhi⟩]

theorem resetWord_tapUp4 {a : Nat} (hlo : 0x2000 ≤ a) (hhi : a < 0x3000) :
    resetWord a = some (resetTap ((a - 0x2000) / 4)) := by
  unfold resetWord
  rw [if_neg (by omega), if_pos ⟨hlo, hhi⟩]

theorem resetWord_tapDn4 {a : Nat} (hlo : 0x3000 ≤ a) (hhi : a < 0x4000) :
    resetWord a = some (resetTap ((a - 0x3000) / 4)) := by
  unfold resetWord
  rw [if_neg (by omega), if_neg (by omega), if_pos ⟨hlo, hhi⟩]

/-- The taps are the unity response (10_state.md R53). -/
theorem tap_afterReset (p : Params) (n : Nat) (g : FirStage) {k : Nat} (hk : k < 1024) :
    (State.afterReset p n).tap g k = resetTap k := by
  cases g with
  | up4 =>
    have hword := resetWord_tapUp4 (a := 0x2000 + 4 * k) (by omega) (by omega)
    rw [show (0x2000 + 4 * k - 0x2000) / 4 = k by omega] at hword
    exact loadWord_afterReset p n (a := 0x2000 + 4 * k) (by omega) hword
  | dn4 =>
    have hword := resetWord_tapDn4 (a := 0x3000 + 4 * k) (by omega) (by omega)
    rw [show (0x3000 + 4 * k - 0x3000) / 4 = k by omega] at hword
    exact loadWord_afterReset p n (a := 0x3000 + 4 * k) (by omega) hword

/-- The coefficients are those of 10_state.md R54. -/
theorem loadWord_coefAddr_afterReset (p : Params) (n : Nat) (g : RlpStage) {q j : Nat} (hq : q < 4)
    (hj : j ≤ 4) : (State.afterReset p n).loadWord (coefAddr g q j) = resetCoef q j := by
  have haddr : coefAddr g q j = 0x1000 + q * 0x20 + 4 * j ∨
      coefAddr g q j = 0x1080 + q * 0x20 + 4 * j := by
    cases g with
    | up2 => exact .inl rfl
    | dn2 => exact .inr rfl
  generalize coefAddr g q j = a at haddr
  have hword := resetWord_coef (a := a) (by omega) (by omega)
  rw [show (a - 0x1000) % 0x80 / 0x20 = q by omega, show (a - 0x1000) % 0x20 / 4 = j by omega] at hword
  exact loadWord_afterReset p n (by omega) hword

theorem coefs_afterReset (p : Params) (n : Nat) (g : RlpStage) {q : Nat} (hq : q < 4) :
    (State.afterReset p n).coefs g q =
      ⟨resetCoef q 0, resetCoef q 1, resetCoef q 2, resetCoef q 3, resetCoef q 4⟩ := by
  unfold State.coefs
  rw [loadWord_coefAddr_afterReset p n g hq (by decide),
    loadWord_coefAddr_afterReset p n g hq (by decide),
    loadWord_coefAddr_afterReset p n g hq (by decide),
    loadWord_coefAddr_afterReset p n g hq (by decide),
    loadWord_coefAddr_afterReset p n g hq (by decide)]

/-- IN, OUT and SCR hold no value (R342). -/
theorem resetWord_of_le {a : Nat} (h : 0x100000 ≤ a) : resetWord (a - a % 4) = none := by
  unfold resetWord
  rw [if_neg (by omega), if_neg (by omega), if_neg (by omega)]

theorem read_nil_of_le {a : Nat} (h : 0x100000 ≤ a) :
    Store.read Memory.unlisted ([] : Memory) a = none := by
  show Memory.unlisted a = none
  unfold Memory.unlisted
  rw [resetWord_of_le h]

/-! ### The statements -/

theorem step_reset {s : State} {rest : List Event} (h : s.inputs = .reset :: rest) :
    step s = .next { State.afterReset s.params (s.resets + 1) with inputs := rest } := by
  unfold step
  rw [h]
  rfl

/-- Settles O12: the registers by `readReg_afterReset`, the windows by their reset contents. -/
theorem resetTable : Obligations.ResetTable := by
  refine ⟨fun s rest h => step_reset h, fun p n hp => ?_⟩
  obtain ⟨-, -, ⟨-, htap, -⟩, ⟨-, hsec⟩, -⟩ := (legal_iff p).mp hp
  refine ⟨rfl, rfl, rfl, rfl, fun r v hrv => ?_, fun g => ⟨?_, fun k h1 hk => ?_⟩,
    fun g => ⟨?_, fun q h1 hq => ?_⟩, fun g => ?_, fun g => ?_, rfl, fun a ha => read_nil_of_le ha⟩
  · have htable : (r, v) ∈ Reg.all.map (fun r => (r, r.resetWord p)) := hrv
    obtain ⟨r', -, he⟩ := List.mem_map.mp htable
    obtain ⟨rfl, rfl⟩ := Prod.mk.inj he
    exact readReg_afterReset hp n r'
  · exact tap_afterReset p n g (by decide)
  · rw [tap_afterReset p n g (by omega), resetTap, if_neg (by omega)]
  · exact coefs_afterReset p n g (by decide)
  · rw [coefs_afterReset p n g (by omega)]
    simp [resetCoef, show q ≠ 0 by omega]
  · cases g <;> rfl
  · cases g <;> rfl

/-- Settles O56: each invariant at reset. -/
theorem invariantsAtReset : Obligations.InvariantsAtReset := fun p n hp =>
  ⟨inv_afterReset hp n, phaseInRange_of_vph_zero rfl, storesCanonical_afterReset p n,
    by simp [State.ErrorRecord, State.afterReset], by simp [State.ModesAgree, State.afterReset],
    ⟨rfl, rfl⟩, rfl, rfl⟩

end Sys2Proof.Machine
end

section
/-! SUPPORT. The address map (20_memory.md R83, R84): which addresses are the offset of a register, and
which are the address of an element that exists. -/

namespace Sys2Proof.Machine

/-! ### Registers -/

theorem at?_eq_some_iff {a : Nat} {r : Reg} : Reg.at? a = some r ↔ r.offset = a :=
  ⟨offset_of_at?, fun h => h ▸ at?_offset r⟩

theorem mappedRegister_offset (r : Reg) : mappedRegister r.offset := by
  unfold mappedRegister
  cases r <;> decide

/-- Each word of REGS up to 0x0A0 but the hole at 0x03C has its register. -/
theorem isSome_at?_word : ∀ k ≤ 40, k ≠ 15 → (Reg.at? (4 * k)).isSome = true := by decide

theorem exists_offset_iff (a : Nat) : (∃ r : Reg, r.offset = a) ↔ mappedRegister a := by
  constructor
  · rintro ⟨r, rfl⟩
    exact mappedRegister_offset r
  · rintro ⟨halign, hle, hhole⟩
    have hsome := isSome_at?_word (a / 4) (by omega) (by omega)
    rw [Nat.mul_div_cancel' (Nat.dvd_of_mod_eq_zero halign)] at hsome
    obtain ⟨r, hr⟩ := Option.isSome_iff_exists.mp hsome
    exact ⟨r, offset_of_at? hr⟩

/-! ### Windows -/

/-- The elements of a window of channels: the channel and the index are the quotient and the remainder
by the stride. -/
theorem channelElement_iff (p : Params) {base stride len a : Nat} (hbase : base ≤ a)
    (hstride : 4 ∣ stride) (halign : (a - base) % 4 = 0) (hlen : 4 * len ≤ stride) :
    channelElement p base stride len a = true ↔
      ∃ c i, c < p.nchMax ∧ i < len ∧ a = base + c * stride + 4 * i := by
  simp only [channelElement, Bool.and_eq_true, decide_eq_true_eq]
  constructor
  · rintro ⟨hc, hi⟩
    refine ⟨_, _, hc, hi, ?_⟩
    have hdiv := Nat.div_add_mod' (a - base) stride
    have hmod : (a - base) % stride % 4 = 0 := (Nat.mod_mod_of_dvd _ hstride).trans halign
    omega
  · rintro ⟨c, i, hc, hi, rfl⟩
    have hoff : base + c * stride + 4 * i - base = 4 * i + c * stride := by omega
    have hlt : 4 * i < stride := by omega
    rw [hoff, Nat.add_mul_div_right _ _ (by omega), Nat.add_mul_mod_self_right, Nat.div_eq_of_lt hlt,
      Nat.mod_eq_of_lt hlt]
    omega

section Window
variable {p : Params} {a : Nat}

theorem elementExists_coef (h : 0x1000 ≤ a ∧ a ≤ 0x10FF) : elementExists p a =
    (decide ((a - 0x1000) % 0x80 / 0x20 < p.rlpSecMax) && decide ((a - 0x1000) % 0x20 / 4 ≤ 4)) :=
  if_pos h

theorem elementExists_tapUp4 (h : 0x2000 ≤ a ∧ a ≤ 0x2FFF) :
    elementExists p a = decide ((a - 0x2000) / 4 < p.tapMax) := by
  unfold elementExists
  rw [if_neg (by omega), if_pos h]

theorem elementExists_tapDn4 (h : 0x3000 ≤ a ∧ a ≤ 0x3FFF) :
    elementExists p a = decide ((a - 0x3000) / 4 < p.tapMax) := by
  unfold elementExists
  rw [if_neg (by omega), if_neg (by omega), if_pos h]

theorem elementExists_in (h : 0x100000 ≤ a ∧ a ≤ 0x13FFFF) :
    elementExists p a = channelElement p 0x100000 0x10000 p.blkMax a := by
  unfold elementExists
  rw [if_neg (by omega), if_neg (by omega), if_neg (by omega), if_pos h]

theorem elementExists_out (h : 0x200000 ≤ a ∧ a ≤ 0x23FFFF) :
    elementExists p a = channelElement p 0x200000 0x10000 p.blkMax a := by
  unfold elementExists
  rw [if_neg (by omega), if_neg (by omega), if_neg (by omega), if_neg (by omega), if_pos h]

theorem elementExists_scr (h : 0x400000 ≤ a ∧ a ≤ 0x4FFFFF) :
    elementExists p a = channelElement p 0x400000 0x40000 (4 * p.blkMax) a := by
  unfold elementExists
  rw [if_neg (by omega), if_neg (by omega), if_neg (by omega), if_neg (by omega), if_neg (by omega),
    if_pos h]

/-- An element that exists lies in one of the windows. -/
theorem elementExists_window (h : elementExists p a = true) :
    (0x1000 ≤ a ∧ a ≤ 0x10FF) ∨ (0x2000 ≤ a ∧ a ≤ 0x2FFF) ∨ (0x3000 ≤ a ∧ a ≤ 0x3FFF) ∨
    (0x100000 ≤ a ∧ a ≤ 0x13FFFF) ∨ (0x200000 ≤ a ∧ a ≤ 0x23FFFF) ∨
    (0x400000 ≤ a ∧ a ≤ 0x4FFFFF) := by
  by_contra hout
  unfold elementExists at h
  rw [if_neg (by omega), if_neg (by omega), if_neg (by omega), if_neg (by omega), if_neg (by omega),
    if_neg (by omega)] at h
  cases h

theorem elementAddress_aligned (h : elementAddress p a) : a % 4 = 0 := by
  rcases h with ⟨g, q, j, -, -, rfl⟩ | ⟨g, k, -, rfl⟩ | ⟨c, i, -, -, rfl⟩ | ⟨c, i, -, -, rfl⟩ |
    ⟨c, i, -, -, rfl⟩
  · cases g <;> simp only [coefAddr] <;> omega
  · cases g <;> simp only [tapAddr] <;> omega
  · unfold inAddr; omega
  · unfold outAddr; omega
  · unfold scrAddr; omega

variable (hp : p.legal = true)
include hp

theorem elementExists_of_elementAddress (h : elementAddress p a) : elementExists p a = true := by
  have halign := elementAddress_aligned h
  obtain ⟨⟨-, hch⟩, ⟨-, hblk⟩, ⟨-, htap, -⟩, ⟨-, hsec⟩, -⟩ := (legal_iff p).mp hp
  rcases h with ⟨g, q, j, hq, hj, ha⟩ | ⟨g, k, hk, ha⟩ | ⟨c, i, hc, hi, ha⟩ | ⟨c, i, hc, hi, ha⟩ |
    ⟨c, i, hc, hi, ha⟩
  · have hbase : a = 0x1000 + q * 0x20 + 4 * j ∨ a = 0x1080 + q * 0x20 + 4 * j := by
      cases g
      · exact .inl ha
      · exact .inr ha
    rw [elementExists_coef (by omega), show (a - 0x1000) % 0x80 / 0x20 = q by omega,
      show (a - 0x1000) % 0x20 / 4 = j by omega, decide_eq_true hq, decide_eq_true hj]
    rfl
  · cases g with
    | up4 =>
      have ha : a = 0x2000 + 4 * k := ha
      rw [elementExists_tapUp4 (by omega)]
      exact decide_eq_true (by omega)
    | dn4 =>
      have ha : a = 0x3000 + 4 * k := ha
      rw [elementExists_tapDn4 (by omega)]
      exact decide_eq_true (by omega)
  · have haddr : a = 0x100000 + c * 0x10000 + 4 * i := ha
    rw [elementExists_in (by omega)]
    exact (channelElement_iff p (by omega) (by decide) (by omega) (by omega)).mpr ⟨c, i, hc, hi, ha⟩
  · have haddr : a = 0x200000 + c * 0x10000 + 4 * i := ha
    rw [elementExists_out (by omega)]
    exact (channelElement_iff p (by omega) (by decide) (by omega) (by omega)).mpr ⟨c, i, hc, hi, ha⟩
  · have haddr : a = 0x400000 + c * 0x40000 + 4 * i := ha
    rw [elementExists_scr (by omega)]
    exact (channelElement_iff p (by omega) (by decide) (by omega) (by omega)).mpr ⟨c, i, hc, hi, ha⟩

theorem elementAddress_of_elementExists (halign : a % 4 = 0) (h : elementExists p a = true) :
    elementAddress p a := by
  obtain ⟨-, ⟨-, hblk⟩, -⟩ := (legal_iff p).mp hp
  rcases elementExists_window h with hw | hw | hw | hw | hw | hw
  · rw [elementExists_coef hw, Bool.and_eq_true, decide_eq_true_eq, decide_eq_true_eq] at h
    obtain ⟨hq, hj⟩ := h
    by_cases hhalf : a < 0x1080
    · exact .inl ⟨.up2, _, _, hq, hj, by simp only [coefAddr]; omega⟩
    · exact .inl ⟨.dn2, _, _, hq, hj, by simp only [coefAddr]; omega⟩
  · rw [elementExists_tapUp4 hw, decide_eq_true_eq] at h
    exact .inr (.inl ⟨.up4, _, h, by simp only [tapAddr]; omega⟩)
  · rw [elementExists_tapDn4 hw, decide_eq_true_eq] at h
    exact .inr (.inl ⟨.dn4, _, h, by simp only [tapAddr]; omega⟩)
  · rw [elementExists_in hw] at h
    exact .inr (.inr (.inl
      ((channelElement_iff p hw.1 (by decide) (by omega) (by omega)).mp h)))
  · rw [elementExists_out hw] at h
    exact .inr (.inr (.inr (.inl
      ((channelElement_iff p hw.1 (by decide) (by omega) (by omega)).mp h))))
  · rw [elementExists_scr hw] at h
    exact .inr (.inr (.inr (.inr
      ((channelElement_iff p hw.1 (by decide) (by omega) (by omega)).mp h))))

end Window

/-! ### Targets -/

theorem targetAt_reg_iff (p : Params) {a : Nat} {r : Reg} :
    targetAt p a = some (.reg r) ↔ r.offset = a := by
  constructor
  · intro h
    unfold targetAt at h
    split at h
    · next r' hr =>
      cases h
      exact offset_of_at? hr
    · split at h <;> cases h
  · rintro rfl
    exact targetAt_offset p r

/-- No register lies in a window. -/
theorem at?_of_elementExists {p : Params} {a : Nat} (h : elementExists p a = true) :
    Reg.at? a = none := by
  have hwindow := elementExists_window h
  refine Option.eq_none_iff_forall_ne_some.mpr fun r hr => ?_
  obtain ⟨-, hle, -⟩ := mappedRegister_offset r
  have hoff := offset_of_at? hr
  omega

theorem targetAt_element_iff_exists (p : Params) (a : Nat) :
    targetAt p a = some .element ↔ elementExists p a = true := by
  constructor
  · intro h
    unfold targetAt at h
    split at h
    · cases h
    · split at h
      · assumption
      · cases h
  · intro h
    unfold targetAt
    rw [at?_of_elementExists h, if_pos h]

theorem targetAt_of_elementAddress {p : Params} {a : Nat} (hp : p.legal = true)
    (h : elementAddress p a) : targetAt p a = some .element :=
  (targetAt_element_iff_exists p a).mpr (elementExists_of_elementAddress hp h)

theorem targetAt_element_iff {p : Params} {a : Nat} (hp : p.legal = true) (halign : a % 4 = 0) :
    targetAt p a = some .element ↔ elementAddress p a :=
  ⟨fun h => elementAddress_of_elementExists hp halign ((targetAt_element_iff_exists p a).mp h),
    targetAt_of_elementAddress hp⟩

end Sys2Proof.Machine
end

section
/-! PROOF. Accesses at the bus port (20_memory.md R82 to R94; 30_encoding.md R120). -/

namespace Sys2Proof.Machine

/-- Settles O13: registers by their offsets, elements window by window. -/
theorem mappedAddressesAreRegistersAndElements :
    Obligations.MappedAddressesAreRegistersAndElements := fun p a hp halign =>
  ⟨exists_offset_iff a, fun _ => targetAt_reg_iff p, targetAt_element_iff hp halign⟩

/-! ### The step of an access -/

section Access
variable {s : State} {a : BusAccess} {rest : List Event} (hin : s.inputs = .bus a :: rest)
include hin

theorem step_bus : step s = busTurn a { s with inputs := rest } := by
  unfold step
  rw [hin]

/-- An access that the checks refuse raises their error. -/
theorem step_bus_error {e : ErrorCode} (h : checkAccess s a = .error e) :
    step s = .next (State.refuseAccess { s with inputs := rest } e) :=
  (step_bus hin).trans (busTurn_error h)

/-- An access that the checks permit is performed. -/
theorem step_bus_ok {t : Target} (h : checkAccess s a = .ok t) :
    step s = .next (State.performAccess { s with inputs := rest } a t) :=
  (step_bus hin).trans (busTurn_ok h)

end Access

/-! ### Accesses that name nothing -/

/-- Settles O14: without a target, or in another form, the checks answer ERR_BUS. -/
theorem badAccessRaisesBusError : Obligations.BadAccessRaisesBusError := by
  intro s a rest hp hin hbad
  have hcheck : checkAccess s a = .error .bus := by
    rcases checkAccess_cases s a with ⟨-, he⟩ | ⟨-, -, -, he⟩ | ⟨t, hsize, halign, ht, -⟩
    · exact he
    · exact he
    · rcases hbad with hs | ha | ⟨hreg, helem⟩
      · exact absurd hsize hs
      · exact absurd halign ha
      · cases t with
        | reg r =>
          exact absurd ((exists_offset_iff _).mp ⟨r, (targetAt_reg_iff _).mp ht⟩) hreg
        | element => exact absurd ((targetAt_element_iff hp halign).mp ht) helem
  exact step_bus_error hin hcheck

/-! ### Elements -/

/-- The checks of an access to an element: only BUSY stands against it (20_memory.md R94). -/
theorem checkAccess_element {s : State} {a : BusAccess} (hp : s.params.legal = true)
    (hsize : a.size = 4) (h : elementAddress s.params a.addr.toNat) :
    checkAccess s a = if s.busy then .error .busy else .ok .element := by
  unfold checkAccess
  rw [if_pos ⟨hsize, elementAddress_aligned h⟩, targetAt_of_elementAddress hp h]
  exact checkTarget_element s a

/-- Settles O17: the access is performed on the element, and a store is read back. -/
theorem elementAccess : Obligations.ElementAccess := by
  intro s a v rest hp hbusy helem
  have hcheck : ∀ g k w, checkAccess s ⟨g, k, a, 4, w⟩ = .ok .element := fun g k w => by
    rw [checkAccess_element hp rfl helem, if_neg (by simp [hbusy])]
  refine ⟨?_, ?_⟩
  · rintro ⟨g, w, hin⟩
    exact step_bus_ok hin (hcheck g .read w)
  · rintro ⟨g, hin⟩
    refine ⟨_, step_bus_ok hin (hcheck g .write v), rfl, ?_, fun b hb => ?_⟩
    · exact loadWord_storeWord_same { s with inputs := rest } a.toNat v
    · exact (readByte_storeWord { s with inputs := rest } a.toNat v b).trans (if_neg hb)

/-! ### While BUSY -/

theorem writableWhileBusy_iff (r : Reg) :
    r.writableWhileBusy = true ↔ r.offset = 0x014 ∨ r.offset = 0x01C ∨ r.offset = 0x020 := by
  cases r <;> decide

/-- Settles O15: elements are shut while BUSY, and so is every register but the three. -/
theorem busyRefusesAccess : Obligations.BusyRefusesAccess := by
  rintro s ⟨g, k, addr, size, v⟩ rest hp hin hbusy rfl - (helem | ⟨rfl, hmapped, hst, hreq, htick⟩)
  · refine step_bus_error hin (e := .busy) ?_
    rw [checkAccess_element hp rfl helem, if_pos hbusy]
  · obtain ⟨r, hr⟩ := (exists_offset_iff _).mpr hmapped
    have hshut : r.writableWhileBusy = false := by
      rw [Bool.eq_false_iff, Ne, writableWhileBusy_iff, hr]
      rintro (h | h | h)
      · exact hst h
      · exact hreq h
      · exact htick h
    have haddr : addr = BitVec.ofNat 32 r.offset := eq_ofNat_of_toNat_eq hr.symm
    exact step_writeReg_busy ⟨g, haddr ▸ hin⟩ hbusy hshut

/-- While BUSY only registers are reached, and only the three are written. -/
theorem checkTarget_ok_of_busy {s : State} {a : BusAccess} {t : Target} (hbusy : s.busy = true)
    (h : checkTarget s a t = .ok t) :
    ∃ r, t = .reg r ∧ (a.kind = .write → r.writableWhileBusy = true) := by
  cases t with
  | reg r =>
    refine ⟨r, rfl, fun hk => ?_⟩
    obtain ⟨hidle | hr, -⟩ := (checkTarget_write_ok_iff s a r hk).mp h
    · cases hbusy.symm.trans hidle
    · exact hr
  | element =>
    rw [checkTarget_element, if_pos hbusy] at h
    cases h

/-- What the three writes that are open while BUSY can change. -/
theorem writeReg_frame_of_writableWhileBusy (s : State) (v : Word) {r : Reg}
    (h : r.writableWhileBusy = true) :
    let t := s.writeReg v r
    t = { s with
      done := t.done, err := t.err, errcode := t.errcode, numerr := t.numerr, latNew := t.latNew
      osReq := t.osReq, latPub := t.latPub, osDirty := t.osDirty, vibDirty := t.vibDirty
      osTotal := t.osTotal, vibTotal := t.vibTotal } := by
  cases r with
  | status => simp only [State.writeReg, writeStatus_eq]
  | osReq => rfl
  | latTick =>
    dsimp only [State.writeReg]
    rw [latTick_eq]
  | _ => cases h

/-- Settles O11: a refused access keeps its books, a read only answers, and the open writes are
`writeReg_frame_of_writableWhileBusy`. -/
theorem busyPortKeepsCommandInputs : Obligations.BusyPortKeepsCommandInputs := by
  intro s t a rest hbusy hin hstep
  cases hc : checkAccess s a with
  | error e =>
    cases (step_bus_error hin hc).symm.trans hstep
    rfl
  | ok u =>
    obtain ⟨r, rfl, hwritable⟩ := checkTarget_ok_of_busy hbusy (checkAccess_ok hc).2
    cases (step_bus_ok hin hc).symm.trans hstep
    unfold State.performAccess
    split
    · rfl
    · next hk =>
      exact congrArg (fun u : State => u.answer .okay 0#32)
        (writeReg_frame_of_writableWhileBusy { s with inputs := rest } a.wdata (hwritable hk))

/-! ### The register operations -/

/-- A write that decodes to an operation, elsewhere than at CMD, is to OS_REQ or LAT_TICK, which are
open in every phase (20_memory.md R94). -/
theorem checkAccess_regwOperation (s : State) {a : BusAccess} {i : Instr} (hsize : a.size = 4)
    (h : regwOperation a = some i) : ∃ t, checkAccess s a = .ok t := by
  obtain ⟨g, k, addr, size, v⟩ := a
  obtain ⟨rfl, hreg⟩ := regwOperation_some h
  obtain rfl : size = 4 := hsize
  obtain ⟨rfl, -⟩ | ⟨rfl, -⟩ := hreg
  · exact ⟨_, (checkAccess_reg s g .write .osReq v).trans
      ((checkTarget_write_ok_iff s _ .osReq rfl).mpr ⟨.inr rfl, rfl⟩)⟩
  · exact ⟨_, (checkAccess_reg s g .write .latTick v).trans
      ((checkTarget_write_ok_iff s _ .latTick rfl).mpr ⟨.inr rfl, rfl⟩)⟩

/-- Settles O6: the checks pass, and the bus turn runs the operation. -/
theorem stepRunsRegisterOperation : Obligations.StepRunsRegisterOperation := by
  intro s rest g addr data i hin hcmd hdec
  have hop : regwOperation ⟨g, .write, addr, 4, data⟩ = some i := by
    simp [regwOperation, hcmd, hdec, Except.toOption]
  obtain ⟨t, ht⟩ := checkAccess_regwOperation { s with inputs := rest } rfl hop
  rw [step_bus hin, busTurn, ht, hop]
  rfl

end Sys2Proof.Machine
end

section
/-! SUPPORT. The fields of a CMD word: a word is its five fields, a mask acts field by field, and the
STG field names the stage (30_encoding.md R121, R123). -/

namespace Sys2Proof

/-! ### A word and its fields -/

/-- Two CMD words with the same fields are the same word. -/
theorem cmd_ext {w v : Word} (hop : cmdOp w = cmdOp v) (hstg : cmdStg w = cmdStg v)
    (hrsv : cmdRsv w = cmdRsv v) (hch : cmdCh w = cmdCh v) (hcnt : cmdCnt w = cmdCnt v) : w = v := by
  simp only [cmdOp, cmdStg, cmdRsv, cmdCh, cmdCnt, ← BitVec.toNat_inj, BitVec.extractLsb'_toNat,
    Nat.shiftRight_eq_div_pow] at *
  omega

section CmdWord
variable (op : BitVec 8) (stg : BitVec 2) (ch : BitVec 4) (cnt : BitVec 16)

@[simp] theorem cmdOp_cmdWord : cmdOp (cmdWord op stg ch cnt) = op :=
  BitVec.extractLsb'_append_eq_right

@[simp] theorem cmdStg_cmdWord : cmdStg (cmdWord op stg ch cnt) = stg :=
  (BitVec.extractLsb'_append_eq_of_le (by decide)).trans BitVec.extractLsb'_append_eq_right

@[simp] theorem cmdCh_cmdWord : cmdCh (cmdWord op stg ch cnt) = ch :=
  calc cmdCh (cmdWord op stg ch cnt)
    _ = (cnt ++ ch ++ 0#2 ++ stg).extractLsb' 4 4 := BitVec.extractLsb'_append_eq_of_le (by decide)
    _ = (cnt ++ ch ++ 0#2).extractLsb' 2 4 := BitVec.extractLsb'_append_eq_of_le (by decide)
    _ = (cnt ++ ch).extractLsb' 0 4 := BitVec.extractLsb'_append_eq_of_le (by decide)
    _ = ch := BitVec.extractLsb'_append_eq_right

@[simp] theorem cmdCnt_cmdWord : cmdCnt (cmdWord op stg ch cnt) = cnt :=
  calc cmdCnt (cmdWord op stg ch cnt)
    _ = (cnt ++ ch ++ 0#2 ++ stg).extractLsb' 8 16 := BitVec.extractLsb'_append_eq_of_le (by decide)
    _ = (cnt ++ ch ++ 0#2).extractLsb' 6 16 := BitVec.extractLsb'_append_eq_of_le (by decide)
    _ = (cnt ++ ch).extractLsb' 4 16 := BitVec.extractLsb'_append_eq_of_le (by decide)
    _ = cnt := BitVec.extractLsb'_append_eq_left

end CmdWord

/-- A word with RSV = 0 is the command word of its other fields. -/
theorem cmdWord_fields {w : Word} (hrsv : cmdRsv w = 0#2) :
    cmdWord (cmdOp w) (cmdStg w) (cmdCh w) (cmdCnt w) = w :=
  cmd_ext (cmdOp_cmdWord ..) (cmdStg_cmdWord ..) ((Laws.cmdRsv_cmdWord ..).trans hrsv.symm)
    (cmdCh_cmdWord ..) (cmdCnt_cmdWord ..)

/-- A mask acts on each field by itself. -/
theorem and_eq_iff_fields (w m v : Word) :
    w &&& m = v ↔ cmdOp w &&& cmdOp m = cmdOp v ∧ cmdStg w &&& cmdStg m = cmdStg v ∧
      cmdRsv w &&& cmdRsv m = cmdRsv v ∧ cmdCh w &&& cmdCh m = cmdCh v ∧
      cmdCnt w &&& cmdCnt m = cmdCnt v := by
  constructor
  · rintro rfl
    simp [cmdOp, cmdStg, cmdRsv, cmdCh, cmdCnt, BitVec.extractLsb'_and]
  · rintro ⟨hop, hstg, hrsv, hch, hcnt⟩
    apply cmd_ext <;>
      simpa [cmdOp, cmdStg, cmdRsv, cmdCh, cmdCnt, BitVec.extractLsb'_and]

/-! ### The STG field -/

@[simp] theorem stageOf_index (g : Stage) : stageOf g.index = g := by cases g <;> rfl

@[simp] theorem index_stageOf (b : BitVec 2) : (stageOf b).index = b := by
  revert b; decide

/-- Bit 1 of STG tells the FIR stages (00_scope.md R4). -/
theorem and_two_eq_iff_isFir (b : BitVec 2) (fir : Bool) :
    b &&& 2#2 = (if fir then 2#2 else 0#2) ↔ (stageOf b).isFir = fir := by
  revert b fir; decide

end Sys2Proof
end

section
/-! SUPPORT. The decoder and the encoder are inverse to each other (30_encoding.md R120 to R124). -/

namespace Sys2Proof

/-! ### Decoding an encoding -/

theorem decodeStaged_index {i : Stage → BitVec 4 → BitVec 16 → Instr} {fir : Bool} {g : Stage}
    (h : g.isFir = fir) (ch : BitVec 4) (n : BitVec 16) :
    decodeStaged i fir g.index ch n = .ok (i g ch n) := by
  simp [decodeStaged, h]

theorem decode_encode {i : Instr} (h : i.WellFormed = true) : decode (encode i) = .ok i := by
  cases i with
  | setEnabled data => rfl
  | latTick data => rfl
  | convDirect g ch n =>
    simpa [encode, decode, decodeCmd, Laws.cmdRsv_cmdWord] using decodeStaged_index h ch n
  | convPoly g ch n =>
    simpa [encode, decode, decodeCmd, Laws.cmdRsv_cmdWord] using decodeStaged_index h ch n
  | rlpRun g ch n =>
    have hg : g.isFir = false := by simpa [Instr.WellFormed] using h
    simpa [encode, decode, decodeCmd, Laws.cmdRsv_cmdWord] using decodeStaged_index hg ch n
  | _ => simp [encode, decode, decodeCmd, Laws.cmdRsv_cmdWord, decodeBare, decodeCount]

/-! ### Encoding what was decoded -/

/-- A decoding of the CMD word `w` that is no operation, or a well-formed one encoded as `w`. -/
def YieldsEncoding (w : Word) (x : Except DecodeReject Instr) : Prop :=
  ∀ i, x = .ok i → i.WellFormed = true ∧ encode i = ⟨cmdAddr, w⟩

theorem yieldsEncoding_error (w : Word) (e : DecodeReject) : YieldsEncoding w (.error e) :=
  fun _ h => by cases h

theorem yieldsEncoding_ite {w : Word} {c : Prop} [Decidable c] {x y : Except DecodeReject Instr}
    (hx : c → YieldsEncoding w x) (hy : ¬ c → YieldsEncoding w y) :
    YieldsEncoding w (if c then x else y) := by
  split
  · next hc => exact hx hc
  · next hc => exact hy hc

section Yields
variable {w : Word} (hrsv : cmdRsv w = 0#2) {op : BitVec 8}
include hrsv

/-- A word of the form of `decodeBare`: the operand fields are 0. -/
theorem yieldsEncoding_decodeBare {i : Instr} (hi : i.WellFormed = true)
    (henc : encode i = ⟨cmdAddr, cmdWord op 0#2 0#4 0#16⟩) (hop : cmdOp w = op) :
    YieldsEncoding w (decodeBare i (cmdStg w) (cmdCh w) (cmdCnt w)) := by
  refine yieldsEncoding_ite ?_ fun _ => yieldsEncoding_error w _
  rintro ⟨hstg, hch, hcnt⟩ _ ⟨⟩
  refine ⟨hi, henc.trans ?_⟩
  rw [← hop, ← hstg, ← hch, ← hcnt, cmdWord_fields hrsv]

/-- A word of the form of `decodeCount`: STG and CH are 0. -/
theorem yieldsEncoding_decodeCount {i : BitVec 16 → Instr} (hi : ∀ n, (i n).WellFormed = true)
    (henc : ∀ n, encode (i n) = ⟨cmdAddr, cmdWord op 0#2 0#4 n⟩) (hop : cmdOp w = op) :
    YieldsEncoding w (decodeCount i (cmdStg w) (cmdCh w) (cmdCnt w)) := by
  refine yieldsEncoding_ite ?_ fun _ => yieldsEncoding_error w _
  rintro ⟨hstg, hch⟩ _ ⟨⟩
  refine ⟨hi _, (henc _).trans ?_⟩
  rw [← hop, ← hstg, ← hch, cmdWord_fields hrsv]

/-- A word of the form of `decodeStaged`: STG names a stage of the right kind. -/
theorem yieldsEncoding_decodeStaged {i : Stage → BitVec 4 → BitVec 16 → Instr} {fir : Bool}
    (hi : ∀ g ch n, g.isFir = fir → (i g ch n).WellFormed = true)
    (henc : ∀ g ch n, encode (i g ch n) = ⟨cmdAddr, cmdWord op g.index ch n⟩) (hop : cmdOp w = op) :
    YieldsEncoding w (decodeStaged i fir (cmdStg w) (cmdCh w) (cmdCnt w)) := by
  refine yieldsEncoding_ite ?_ fun _ => yieldsEncoding_error w _
  rintro hfir _ ⟨⟩
  refine ⟨hi _ _ _ hfir, (henc _ _ _).trans ?_⟩
  rw [index_stageOf, ← hop, cmdWord_fields hrsv]

end Yields

/-- Every branch of the decoder reads all the fields that are not fixed. -/
theorem yieldsEncoding_decodeCmd (w : Word) : YieldsEncoding w (decodeCmd w) := by
  refine yieldsEncoding_ite (fun _ => yieldsEncoding_error w _) fun h => ?_
  have hrsv : cmdRsv w = 0#2 := not_not.mp h
  refine yieldsEncoding_ite (yieldsEncoding_decodeBare hrsv rfl rfl) fun _ => ?_
  refine yieldsEncoding_ite (yieldsEncoding_decodeBare hrsv rfl rfl) fun _ => ?_
  refine yieldsEncoding_ite (yieldsEncoding_decodeCount hrsv (fun _ => rfl) fun _ => rfl) fun _ => ?_
  refine yieldsEncoding_ite (yieldsEncoding_decodeBare hrsv rfl rfl) fun _ => ?_
  refine yieldsEncoding_ite (yieldsEncoding_decodeCount hrsv (fun _ => rfl) fun _ => rfl) fun _ => ?_
  refine yieldsEncoding_ite (yieldsEncoding_decodeBare hrsv rfl rfl) fun _ => ?_
  refine yieldsEncoding_ite (yieldsEncoding_decodeBare hrsv rfl rfl) fun _ => ?_
  refine yieldsEncoding_ite (yieldsEncoding_decodeBare hrsv rfl rfl) fun _ => ?_
  refine yieldsEncoding_ite
    (yieldsEncoding_decodeStaged hrsv (fun _ _ _ h => h) fun _ _ _ => rfl) fun _ => ?_
  refine yieldsEncoding_ite
    (yieldsEncoding_decodeStaged hrsv (fun _ _ _ h => h) fun _ _ _ => rfl) fun _ => ?_
  exact yieldsEncoding_ite
    (yieldsEncoding_decodeStaged hrsv (fun g _ _ h => by simp [Instr.WellFormed, h])
      fun _ _ _ => rfl) fun _ => yieldsEncoding_error w _

/-- The decoder accepts exactly the encodings of the well-formed operations. -/
theorem decode_eq_ok_iff (r : RegWrite) (i : Instr) :
    decode r = .ok i ↔ i.WellFormed = true ∧ encode i = r := by
  constructor
  · intro h
    obtain ⟨addr, data⟩ := r
    unfold decode at h
    split at h
    · next ha => obtain rfl : addr = cmdAddr := ha; exact yieldsEncoding_decodeCmd data i h
    · split at h
      · next ha => obtain rfl : addr = osReqAddr := ha; cases h; exact ⟨rfl, rfl⟩
      · split at h
        · next ha => obtain rfl : addr = latTickAddr := ha; cases h; exact ⟨rfl, rfl⟩
        · cases h
  · rintro ⟨hwf, rfl⟩
    exact decode_encode hwf

end Sys2Proof
end

section
/-! SUPPORT. The rows of the opcode table against the encoder: each kind of row matches exactly the
words of its operations (30_encoding.md R123). -/

namespace Sys2Proof.Machine

/-- A row fixes OP and RSV; what it fixes of the operand fields is left to its mask. -/
theorem and_eq_cmdWord_iff (w : Word) {m : Word} (hop : cmdOp m = BitVec.allOnes 8)
    (hrsv : cmdRsv m = BitVec.allOnes 2) (op : BitVec 8) (stg : BitVec 2) (ch : BitVec 4)
    (cnt : BitVec 16) :
    w &&& m = cmdWord op stg ch cnt ↔ cmdOp w = op ∧ cmdStg w &&& cmdStg m = stg ∧ cmdRsv w = 0#2 ∧
      cmdCh w &&& cmdCh m = ch ∧ cmdCnt w &&& cmdCnt m = cnt := by
  rw [and_eq_iff_fields, hop, hrsv, BitVec.and_allOnes, BitVec.and_allOnes]
  simp only [cmdOp_cmdWord, cmdStg_cmdWord, Laws.cmdRsv_cmdWord, cmdCh_cmdWord, cmdCnt_cmdWord]

/-- A row that fixes every bit: NOP, PREPARE, DOWNSAMPLE and the three effects. -/
theorem matches_bare_iff (w v : Word) : w &&& 0xFFFFFFFF#32 = v ↔ w = v := by
  rw [show (0xFFFFFFFF#32 : Word) = BitVec.allOnes 32 from rfl, BitVec.and_allOnes]

/-- A row that leaves CNT free: UPSAMPLE and PROCESS. -/
theorem matches_count_iff (w : Word) (op : BitVec 8) :
    w &&& 0x0000FFFF#32 = cmdWord op 0#2 0#4 0#16 ↔ ∃ n, w = cmdWord op 0#2 0#4 n := by
  have hstg : cmdStg 0x0000FFFF#32 = BitVec.allOnes 2 := rfl
  have hch : cmdCh 0x0000FFFF#32 = BitVec.allOnes 4 := rfl
  have hcnt : cmdCnt 0x0000FFFF#32 = 0#16 := rfl
  rw [and_eq_cmdWord_iff w rfl rfl, hstg, hch, hcnt, BitVec.and_allOnes, BitVec.and_allOnes]
  constructor
  · rintro ⟨hop, hstg, hrsv, hch, -⟩
    exact ⟨cmdCnt w, by rw [← hop, ← hstg, ← hch, cmdWord_fields hrsv]⟩
  · rintro ⟨n, rfl⟩
    simp [Laws.cmdRsv_cmdWord]

/-- A row that leaves CH, CNT and bit 0 of STG free: the three primitives. -/
theorem matches_staged_iff (w : Word) (op : BitVec 8) (fir : Bool) :
    w &&& 0x00000EFF#32 = cmdWord op (if fir then 2#2 else 0#2) 0#4 0#16 ↔
      ∃ g ch n, Stage.isFir g = fir ∧ w = cmdWord op g.index ch n := by
  have hstg : cmdStg 0x00000EFF#32 = 2#2 := rfl
  have hch : cmdCh 0x00000EFF#32 = 0#4 := rfl
  have hcnt : cmdCnt 0x00000EFF#32 = 0#16 := rfl
  rw [and_eq_cmdWord_iff w rfl rfl, hstg, hch, hcnt, and_two_eq_iff_isFir]
  constructor
  · rintro ⟨hop, hfir, hrsv, -⟩
    exact ⟨stageOf (cmdStg w), cmdCh w, cmdCnt w, hfir, by
      rw [index_stageOf, ← hop, cmdWord_fields hrsv]⟩
  · rintro ⟨g, ch, n, hfir, rfl⟩
    simp [hfir, Laws.cmdRsv_cmdWord]

/-! ### The rows together -/

/-- A row of the opcode table matches the word. -/
def HasRow (w : Word) : Prop := ∃ row ∈ cmdRows, w &&& row.2 = row.1

theorem hasRow_bare {op : BitVec 8} (h : (cmdWord op 0#2 0#4 0#16, 0xFFFFFFFF#32) ∈ cmdRows) :
    HasRow (cmdWord op 0#2 0#4 0#16) := ⟨_, h, (matches_bare_iff _ _).mpr rfl⟩

theorem hasRow_count {op : BitVec 8} (h : (cmdWord op 0#2 0#4 0#16, 0x0000FFFF#32) ∈ cmdRows)
    (n : BitVec 16) : HasRow (cmdWord op 0#2 0#4 n) := ⟨_, h, (matches_count_iff _ op).mpr ⟨n, rfl⟩⟩

theorem hasRow_staged {op : BitVec 8} {fir : Bool}
    (h : (cmdWord op (if fir then 2#2 else 0#2) 0#4 0#16, 0x00000EFF#32) ∈ cmdRows) {g : Stage}
    (hg : g.isFir = fir) (ch : BitVec 4) (n : BitVec 16) : HasRow (cmdWord op g.index ch n) :=
  ⟨_, h, (matches_staged_iff _ op fir).mpr ⟨g, ch, n, hg, rfl⟩⟩

/-- A row matches every CMD word that encodes a well-formed operation. -/
theorem hasRow_encode {i : Instr} (hcmd : isCommand i = true) (hwf : i.WellFormed = true) :
    HasRow (encode i).data := by
  cases i with
  | nop => exact hasRow_bare (op := 0x00#8) (by decide)
  | prepare => exact hasRow_bare (op := 0x01#8) (by decide)
  | upsample n => exact hasRow_count (op := 0x10#8) (by decide) n
  | downsample => exact hasRow_bare (op := 0x11#8) (by decide)
  | process n => exact hasRow_count (op := 0x12#8) (by decide) n
  | wavefold => exact hasRow_bare (op := 0x20#8) (by decide)
  | saturate => exact hasRow_bare (op := 0x21#8) (by decide)
  | vibrato => exact hasRow_bare (op := 0x22#8) (by decide)
  | convDirect g ch n => exact hasRow_staged (op := 0x30#8) (fir := true) (by decide) hwf ch n
  | convPoly g ch n => exact hasRow_staged (op := 0x31#8) (fir := true) (by decide) hwf ch n
  | rlpRun g ch n =>
    have hg : g.isFir = false := by simpa [Instr.WellFormed] using hwf
    exact hasRow_staged (op := 0x32#8) (by decide) hg ch n
  | setEnabled data => cases hcmd
  | latTick data => cases hcmd

/-- A word that a row matches decodes. -/
theorem decodes_of_hasRow {w : Word} (h : HasRow w) : ∃ i, decodeCmd w = .ok i := by
  suffices ∃ i : Instr, i.WellFormed = true ∧ encode i = ⟨cmdAddr, w⟩ by
    obtain ⟨i, hi⟩ := this
    exact ⟨i, (decode_eq_ok_iff ⟨cmdAddr, w⟩ i).mpr hi⟩
  obtain ⟨row, hrow, hw⟩ := h
  simp only [cmdRows, List.mem_cons, List.not_mem_nil, or_false] at hrow
  rcases hrow with rfl | rfl | rfl | rfl | rfl | rfl | rfl | rfl | rfl | rfl | rfl
  · obtain rfl := (matches_bare_iff _ _).mp hw; exact ⟨.nop, rfl, rfl⟩
  · obtain rfl := (matches_bare_iff _ _).mp hw; exact ⟨.prepare, rfl, rfl⟩
  · obtain ⟨n, rfl⟩ := (matches_count_iff w 0x10#8).mp hw; exact ⟨.upsample n, rfl, rfl⟩
  · obtain rfl := (matches_bare_iff _ _).mp hw; exact ⟨.downsample, rfl, rfl⟩
  · obtain ⟨n, rfl⟩ := (matches_count_iff w 0x12#8).mp hw; exact ⟨.process n, rfl, rfl⟩
  · obtain rfl := (matches_bare_iff _ _).mp hw; exact ⟨.wavefold, rfl, rfl⟩
  · obtain rfl := (matches_bare_iff _ _).mp hw; exact ⟨.saturate, rfl, rfl⟩
  · obtain rfl := (matches_bare_iff _ _).mp hw; exact ⟨.vibrato, rfl, rfl⟩
  · obtain ⟨g, ch, n, hg, rfl⟩ := (matches_staged_iff w 0x30#8 true).mp hw
    exact ⟨.convDirect g ch n, hg, rfl⟩
  · obtain ⟨g, ch, n, hg, rfl⟩ := (matches_staged_iff w 0x31#8 true).mp hw
    exact ⟨.convPoly g ch n, hg, rfl⟩
  · obtain ⟨g, ch, n, hg, rfl⟩ := (matches_staged_iff w 0x32#8 false).mp hw
    exact ⟨.rlpRun g ch n, by simp [Instr.WellFormed, hg], rfl⟩

/-- The rows differ in OP. -/
theorem nodup_cmdOp_cmdRows : (cmdRows.map fun row => cmdOp row.1).Nodup := by decide

/-- Every row fixes all of OP. -/
theorem cmdOp_mask : ∀ row ∈ cmdRows, cmdOp row.2 = BitVec.allOnes 8 := by
  simp [cmdRows, cmdOp]

/-- A row that matches a word has the word's OP. -/
theorem cmdOp_eq_of_matches {row : Word × Word} {w : Word} (hrow : row ∈ cmdRows)
    (h : w &&& row.2 = row.1) : cmdOp w = cmdOp row.1 := by
  obtain ⟨hop, -⟩ := (and_eq_iff_fields w row.2 row.1).mp h
  rwa [cmdOp_mask row hrow, BitVec.and_allOnes] at hop

end Sys2Proof.Machine
end

section
/-! PROOF. The encoding, and the FINISH step that runs what it names (30_encoding.md R121 to R130;
60_exceptions.md R303, R322). -/

namespace Sys2Proof.Machine

/-- Settles O2: the decoder accepts the encoding of every well-formed operation. -/
theorem decodeOfEncodeIsIdentity : Obligations.DecodeOfEncodeIsIdentity := fun _ h => decode_encode h

/-- Settles O3: the decoder accepts nothing else. -/
theorem decodedWriteIsItsEncoding : Obligations.DecodedWriteIsItsEncoding := fun r i h =>
  (decode_eq_ok_iff r i).mp h

/-- Settles O4: the rows against the encoder both ways, and no two rows have the same OP. -/
theorem legalWordsMatchOpcodeTable : Obligations.LegalWordsMatchOpcodeTable := by
  refine fun w => ⟨⟨?_, decodes_of_hasRow⟩, fun row₁ h₁ row₂ h₂ hw₁ hw₂ => ?_⟩
  · rintro ⟨i, h⟩
    obtain ⟨hwf, henc⟩ := (decode_eq_ok_iff ⟨cmdAddr, w⟩ i).mp h
    have hrow := hasRow_encode (namesCommand_decodeCmd w i h) hwf
    rwa [henc] at hrow
  · exact List.inj_on_of_nodup_map nodup_cmdOp_cmdRows h₁ h₂
      ((cmdOp_eq_of_matches h₁ hw₁).symm.trans (cmdOp_eq_of_matches h₂ hw₂))

/-! ### The ENGINE's turn -/

theorem step_engine {s : State} {rest : List Event} (h : s.EngineNext rest) :
    step s = engineTurn { s with inputs := rest } := by
  obtain hin | ⟨hin, rfl⟩ := h
  · unfold step
    rw [hin]
  · have hs : { s with inputs := [] } = s := hin ▸ rfl
    unfold step
    rw [hs, hin]

section Finish
variable {s : State} (hphase : s.engPhase = .started)
include hphase

/-- FINISH of a legal word is its operation. -/
theorem engineTurn_of_decode {i : Instr} (h : decode ⟨cmdAddr, s.pendCmd⟩ = .ok i) :
    engineTurn s = exec i s := by
  have hpend : s.pending? = some i := by rw [State.pending?, h]; rfl
  rw [engineTurn, hphase]
  dsimp only
  rw [hpend]

/-- FINISH of a word that is no operation raises ERR_ILLEGAL. -/
theorem engineTurn_of_illegal {e : DecodeReject} (h : decode ⟨cmdAddr, s.pendCmd⟩ = .error e) :
    engineTurn s = .next (s.raised 0x01#8) := by
  have hpend : s.pending? = none := by rw [State.pending?, h]; rfl
  rw [engineTurn, hphase]
  dsimp only
  rw [hpend]
  exact finishCommand_error s .illegal

end Finish

/-- Settles O1: the words by the decoder; the two illegal ones have RSV ≠ 0 and a stage of the wrong
kind. -/
theorem decodesSpecExampleWords : Obligations.DecodesSpecExampleWords := by
  refine ⟨rfl, rfl, rfl, rfl, rfl, rfl, rfl, fun s hphase hw => ?_⟩
  obtain hw | hw := hw
  · exact engineTurn_of_illegal hphase (e := .rsvNonzero) (by rw [hw]; rfl)
  · exact engineTurn_of_illegal hphase (e := .badStage) (by rw [hw]; rfl)

/-- The ENGINE's turn in phase STARTED with a legal word pending. -/
theorem step_of_decode (s : State) (rest : List Event) (i : Instr) (hnext : s.EngineNext rest)
    (hphase : s.engPhase = .started) (h : decode ⟨cmdAddr, s.pendCmd⟩ = .ok i) :
    step s = exec i { s with inputs := rest } :=
  (step_engine hnext).trans (engineTurn_of_decode (s := { s with inputs := rest }) hphase h)

/-- Settles O5: a placed word is the pending one of a state whose next turn is the ENGINE's. -/
theorem stepRunsDecodedCommand : Obligations.StepRunsDecodedCommand :=
  ⟨step_of_decode, fun s nbits w i h =>
    step_of_decode (s.withFetchWord nbits w) s.inputs i (.inl rfl) rfl h⟩

/-- Settles O8: a word that decodes to no operation is refused by the decoder. -/
theorem illegalWordRaisesOnlyIllegal : Obligations.IllegalWordRaisesOnlyIllegal := by
  intro s rest hnext hphase hillegal
  rw [step_engine hnext]
  cases h : decode ⟨cmdAddr, s.pendCmd⟩ with
  | ok i => exact absurd h (hillegal i)
  | error e => exact engineTurn_of_illegal (s := { s with inputs := rest }) hphase h

end Sys2Proof.Machine
end

section
/-! SUPPORT. The convolution line as a delay line, and both modes as sums over the samples it holds
(42_convolution.md R171, R174). -/

namespace Sys2Proof.Machine

/-! ### Sums of products -/

/-- A sum is taken from +0 in ascending order (42_convolution.md R171). -/
theorem sumProducts_range (ftz : Bool) (n : Nat) (f g : Nat → Word) :
    sumProducts ftz ((List.range n).map fun k => (f k, g k)) =
      (List.range n).foldl (fun acc k => fadd ftz acc (fmul ftz (f k) (g k))) 0#32 :=
  List.foldl_map

/-- The last product is added last. -/
theorem sumProducts_range_succ (ftz : Bool) (n : Nat) (f : Nat → Word × Word) :
    sumProducts ftz ((List.range (n + 1)).map f) =
      fadd ftz (sumProducts ftz ((List.range n).map f)) (fmul ftz (f n).1 (f n).2) := by
  simp [sumProducts, List.range_succ]

theorem sumProducts_range_congr (ftz : Bool) {n : Nat} {f g : Nat → Word × Word}
    (h : ∀ k < n, f k = g k) :
    sumProducts ftz ((List.range n).map f) = sumProducts ftz ((List.range n).map g) :=
  congrArg _ (List.map_congr_left fun k hk => h k (List.mem_range.mp hk))

/-! ### The halves of a pair -/

theorem polyPair_eq (ftz : Bool) (taps : Nat → Word) (nt : Nat) (l : FirLine) (x : Word) :
    polyPair ftz taps nt l x =
      ((polyOdd ftz taps nt (polyEven ftz taps nt l x).1).1, (polyEven ftz taps nt l x).2,
        (polyOdd ftz taps nt (polyEven ftz taps nt l x).1).2) := rfl

section WrittenOut
variable (ftz : Bool) (taps : Nat → Word) {nt : Nat} (hnt : 1 ≤ nt) (l : FirLine) (x : Word)

theorem convDirectSample_line :
    (convDirectSample ftz taps nt l x).1 = l.push (ringNext l.cur nt) x := rfl

include hnt

/-- The output of direct mode, with its ring positions in the integers (42_convolution.md R171). -/
theorem convDirectSample_output :
    (convDirectSample ftz taps nt l x).2 = (List.range nt).foldl (fun acc k =>
      fadd ftz acc (fmul ftz (taps k) ((convDirectSample ftz taps nt l x).1.get
        ((((convDirectSample ftz taps nt l x).1.cur - k : Int) % nt).toNat)))) 0#32 := by
  simp only [← ringBack_eq_emod _ _ hnt]
  exact sumProducts_range ftz nt taps _

/-- The even output of a pair (42_convolution.md R174). -/
theorem polyEven_output :
    (polyEven ftz taps nt l x).2 = (List.range ((nt + 1) / 2)).foldl (fun acc j =>
      fadd ftz acc (fmul ftz (taps (2 * j)) ((polyEven ftz taps nt l x).1.get
        ((((polyEven ftz taps nt l x).1.cur - 2 * j : Int) % nt).toNat)))) 0#32 := by
  have hpos : ∀ cur j : Nat, ((cur - 2 * j : Int) % nt).toNat = ringBack cur (2 * j) nt :=
    fun cur j => by rw [ringBack_eq_emod _ _ hnt]; push_cast; rfl
  simp only [hpos]
  exact sumProducts_range ftz _ (fun j => taps (2 * j)) _

/-- The odd output of a pair (42_convolution.md R174). -/
theorem polyOdd_output :
    (polyOdd ftz taps nt l).2 = (List.range (nt / 2)).foldl (fun acc j =>
      fadd ftz acc (fmul ftz (taps (2 * j + 1)) ((polyOdd ftz taps nt l).1.get
        ((((polyOdd ftz taps nt l).1.cur - 1 - 2 * j : Int) % nt).toNat)))) 0#32 := by
  have hpos : ∀ cur j : Nat, ((cur - 1 - 2 * j : Int) % nt).toNat = ringBack cur (1 + 2 * j) nt :=
    fun cur j => by rw [ringBack_eq_emod _ _ hnt]; push_cast; rw [Int.sub_sub]
  simp only [hpos]
  exact sumProducts_range ftz _ (fun j => taps (2 * j + 1)) _

end WrittenOut

/-! ### The samples of a line -/

/-- The line holds these samples, the latest first, and +0 before them. -/
def FirLine.Holds (l : FirLine) (nt : Nat) (past : List Word) : Prop :=
  ∀ d < nt, l.get (ringBack l.cur d nt) = past.getD d 0#32

theorem FirLine.holds_zeroed (nt : Nat) : FirLine.Holds ⟨0, []⟩ nt [] := fun _ _ => rfl

/-- A push makes its sample the latest. -/
theorem FirLine.holds_push {l : FirLine} {nt : Nat} {past : List Word} (h : l.Holds nt past)
    (x : Word) : (l.push (ringNext l.cur nt) x).Holds nt (x :: past) := by
  intro d hd
  have hnt : 0 < nt := by omega
  have hw := ringNext_lt l.cur hnt
  rw [FirLine.get_push, FirLine.cur_push]
  cases d with
  | zero => rw [ringBack_zero hw, if_pos rfl]; rfl
  | succ d =>
    rw [if_neg (ringBack_ne hw (Nat.succ_pos d) hd), ringBack_ringNext l.cur d hnt,
      h d (by omega), List.getD_cons_succ]

section Held
variable (ftz : Bool) (taps : Nat → Word) {nt : Nat} {l : FirLine} {past : List Word}
  (h : l.Holds nt past) (x : Word)
include h

/-- Direct mode convolves the taps with the samples, the new one included. -/
theorem convDirectSample_of_holds :
    (convDirectSample ftz taps nt l x).2 =
      sumProducts ftz ((List.range nt).map fun k => (taps k, (x :: past).getD k 0#32)) :=
  sumProducts_range_congr ftz fun k hk => congrArg _ (FirLine.holds_push h x k hk)

theorem polyEven_of_holds :
    (polyEven ftz taps nt l x).2 =
      sumProducts ftz ((List.range ((nt + 1) / 2)).map fun j =>
        (taps (2 * j), (x :: past).getD (2 * j) 0#32)) :=
  sumProducts_range_congr ftz fun j hj => congrArg _ (FirLine.holds_push h x (2 * j) (by omega))

theorem polyOdd_of_holds :
    (polyOdd ftz taps nt l).2 =
      sumProducts ftz ((List.range (nt / 2)).map fun j =>
        (taps (2 * j + 1), (0#32 :: past).getD (2 * j + 1) 0#32)) := by
  refine sumProducts_range_congr ftz fun j hj => ?_
  rw [Nat.add_comm 1 (2 * j)]
  exact congrArg _ (FirLine.holds_push h 0#32 (2 * j + 1) (by omega))

end Held

/-- The outputs of a block in direct mode. -/
theorem getD_convDirectBlock (ftz : Bool) (taps : Nat → Word) {nt : Nat} (xs : List Word) :
    ∀ (l : FirLine) (past : List Word), l.Holds nt past → ∀ i < xs.length,
      (convDirectBlock ftz taps nt l xs).2.getD i 0#32 =
        sumProducts ftz ((List.range nt).map fun k =>
          (taps k, ((xs.take (i + 1)).reverse ++ past).getD k 0#32)) := by
  induction xs with
  | nil => intro l past _ i hi; simp at hi
  | cons x xs ih =>
    intro l past h i hi
    rw [convDirectBlock_cons]
    cases i with
    | zero => simpa using convDirectSample_of_holds ftz taps h x
    | succ i =>
      rw [List.getD_cons_succ, convDirectSample_line, ih _ _ (FirLine.holds_push h x) i (by simpa using hi)]
      simp

/-- A block moves the cursor on by its length. -/
theorem cur_convDirectBlock (ftz : Bool) (taps : Nat → Word) {nt : Nat} (xs : List Word) :
    ∀ l : FirLine, l.cur < nt →
      (convDirectBlock ftz taps nt l xs).1.cur = (l.cur + xs.length) % nt := by
  induction xs with
  | nil => exact fun l hl => (Nat.mod_eq_of_lt hl).symm
  | cons x xs ih =>
    intro l hl
    rw [convDirectBlock_cons, ih _ (ringNext_lt l.cur (by omega)), convDirectSample_cur, ringNext,
      Nat.mod_add_mod, List.length_cons, Nat.add_assoc, Nat.add_comm 1]

end Sys2Proof.Machine
end

section
/-! SUPPORT. Sums to which a zero of either sign adds nothing: those from +0 without FTZ are never -0
and never a NaN but the canonical one (00_scope.md R14, R16). -/

namespace Sys2Proof.Machine

/-! ### Negative zero -/

theorem roundMag_one_pos {k : Nat} (hk : 0 < k) : 0 < roundMag k 1 := by
  have hstep := le_roundEven_step k 1
  have hexact : roundStep k 1 = 0 → roundEven k (1 * 2 ^ roundStep k 1) = k := fun h0 => by
    rw [h0]; simpa using roundEven_of_dvd k (den := 1) one_pos
  rw [roundMag_eq]
  split <;> omega

/-- A whole number of units rounds to -0 only from a negative zero. -/
theorem eq_zero_of_rn32_eq_negZero {s : Bool} {k : Nat} (h : rn32 s k 1 = zero true) :
    s = true ∧ k = 0 := by
  have hbits : roundMag k 1 < 2 ^ 31 := (roundMag_le k 1).trans_lt (by decide)
  rw [rn32_eq s k one_pos] at h
  constructor
  · rw [← signBit_packBits s hbits, h, signBit_zero]
  · by_contra hk
    have hmag := toNat_packBits_mod s hbits
    rw [h, zero, toNat_packBits_mod true (by decide)] at hmag
    exact (roundMag_one_pos (Nat.pos_of_ne_zero hk)).ne hmag

/-- A sum of two finite values is -0 only when the first is. -/
theorem eq_negZero_of_addFinite {s t : Bool} {m n : Nat} (h : addFinite false s m t n = zero true) :
    s = true ∧ m = 0 := by
  rw [addFinite_eq false rfl rfl] at h
  by_cases h0 : (if s then -(m : Int) else m) + (if t then -(n : Int) else n) = 0
  · have hsign : (s && t) = true := by simpa [h0] using congrArg signBit h
    obtain ⟨rfl, rfl⟩ := Bool.and_eq_true_iff.mp hsign
    simp only [if_true] at h0
    exact ⟨rfl, by omega⟩
  · rw [if_neg h0, flush_false] at h
    exact absurd (Int.natAbs_eq_zero.mp (eq_zero_of_rn32_eq_negZero h).2) h0

/-- Adding to a word that is not -0 does not give -0. -/
theorem fadd_ne_negZero {a : Word} (ha : a ≠ zero true) (b : Word) : fadd false a b ≠ zero true := by
  unfold fadd
  split
  case h_7 s m t n hop _ =>
    intro h
    obtain ⟨rfl, rfl⟩ := eq_negZero_of_addFinite h
    rw [operand_eq, flush_false] at hop
    exact ha (eq_of_unpack_eq hop (unpack_zero true))
  case h_3 s t _ _ => split <;> cases s <;> decide
  case h_4 s _ _ _ _ => cases s <;> decide
  case h_6 t _ _ => cases t <;> decide
  all_goals decide

/-! ### Sums from +0 -/

/-- The words that a sum from +0 takes: a NaN only as the canonical one, and no -0. -/
def IsSum (w : Word) : Prop := NaNIsCanonical w ∧ w ≠ zero true

theorem isSum_sumProducts (terms : List (Word × Word)) : IsSum (sumProducts false terms) := by
  have hkeep : ∀ acc, IsSum acc →
      IsSum (terms.foldl (fun acc t => fadd false acc (fmul false t.1 t.2)) acc) := by
    induction terms with
    | nil => exact fun _ hacc => hacc
    | cons t terms ih =>
      exact fun acc hacc => ih _ ⟨nanIsCanonical_fadd false acc _, fadd_ne_negZero hacc.2 _⟩
  exact hkeep 0#32 ⟨nanIsCanonical_zero false, by decide⟩

theorem eq_infinity_of_unpack {w : Word} {s : Bool} (h : unpack w = .inf s) : w = infinity s := by
  unfold unpack at h
  split at h
  · next he =>
    split at h
    · next hf =>
      obtain rfl : signBit w = s := Fl.inf.inj h
      have hbits : w.toNat % 2 ^ 31 = 0x7F800000 := by
        rw [expField_eq] at he; rw [fracField_eq] at hf; omega
      rw [infinity, ← hbits, packBits_signBit]
    · cases h
  · split at h <;> cases h

/-- Adding a zero of either sign to a sum gives the sum. -/
theorem fadd_zero_of_isSum {a : Word} (h : IsSum a) (s : Bool) : fadd false a (zero s) = a := by
  obtain ⟨hnan, hneg⟩ := h
  cases hu : unpack a with
  | nan =>
    have ha := (isNaN_iff a).mpr hu
    rw [fadd_nan (.inl ha), hnan ha]
  | inf t =>
    obtain rfl := eq_infinity_of_unpack hu
    exact fadd_inf_fin (operand_infinity false t) (operand_of_finite false (isFinite_zero s))
  | fin t m => exact fadd_zero false s (isFinite_of_unpack hu) (flush_false a) hneg

/-- The product of a finite tap with +0 adds nothing to a sum. -/
theorem sumProducts_add_zero (terms : List (Word × Word)) {c : Word} (hc : isFinite c = true) :
    fadd false (sumProducts false terms) (fmul false c 0#32) = sumProducts false terms := by
  rw [fmul_eq_zero false hc (b := 0#32) rfl (.inr rfl)]
  exact fadd_zero_of_isSum (isSum_sumProducts terms) _

/-! ### Sums with every second product left out -/

section Halves
variable {n : Nat} {taps past : Nat → Word} (htaps : ∀ k < n, isFinite (taps k) = true)
include htaps

/-- The odd products may be left out when their samples are +0. -/
theorem sumProducts_even (hz : ∀ k, k % 2 = 1 → past k = 0#32) :
    sumProducts false ((List.range n).map fun k => (taps k, past k)) =
      sumProducts false ((List.range ((n + 1) / 2)).map fun j => (taps (2 * j), past (2 * j))) := by
  induction n with
  | zero => rfl
  | succ n ih =>
    rw [sumProducts_range_succ, ih fun k hk => htaps k (by omega)]
    rcases Nat.mod_two_eq_zero_or_one n with hn | hn
    · rw [show (n + 1 + 1) / 2 = (n + 1) / 2 + 1 by omega, sumProducts_range_succ,
        show 2 * ((n + 1) / 2) = n by omega]
    · rw [show (n + 1 + 1) / 2 = (n + 1) / 2 by omega, hz n hn,
        sumProducts_add_zero _ (htaps n (by omega))]

/-- The even products may be left out when their samples are +0. -/
theorem sumProducts_odd (hz : ∀ k, k % 2 = 0 → past k = 0#32) :
    sumProducts false ((List.range n).map fun k => (taps k, past k)) =
      sumProducts false ((List.range (n / 2)).map fun j =>
        (taps (2 * j + 1), past (2 * j + 1))) := by
  induction n with
  | zero => rfl
  | succ n ih =>
    rw [sumProducts_range_succ, ih fun k hk => htaps k (by omega)]
    rcases Nat.mod_two_eq_zero_or_one n with hn | hn
    · rw [show (n + 1) / 2 = n / 2 by omega, hz n hn, sumProducts_add_zero _ (htaps n (by omega))]
    · rw [show (n + 1) / 2 = n / 2 + 1 by omega, sumProducts_range_succ,
        show 2 * (n / 2) + 1 = n by omega]

end Halves

end Sys2Proof.Machine
end

section
/-! PROOF. Direct mode as a convolution, and polyphase mode as direct mode on the zero-stuffed sequence
(42_convolution.md R171, R176, R177). -/

namespace Sys2Proof.Machine

/-! ### Direct mode -/

/-- Settles O50: a line holds the samples so far, and a zeroed one holds +0 before the first. -/
theorem directModeIsConvolution : Obligations.DirectModeIsConvolution := by
  refine ⟨fun ftz taps nt l hnt => ⟨rfl, fun x xs => ?_,
      fun hl xs => cur_convDirectBlock ftz taps xs l hl⟩,
    fun ftz taps nt xs hnt => ⟨?_, length_convDirectBlock ftz taps nt xs _, fun i hi => ?_⟩⟩
  · refine ⟨(convDirectSample ftz taps nt l x).1, rfl, fun k => FirLine.get_push .., ?_⟩
    rw [convDirectBlock_cons, convDirectSample_output ftz taps hnt]
    rfl
  · rw [cur_convDirectBlock ftz taps xs _ hnt, Nat.zero_add]
  · rw [getD_convDirectBlock ftz taps xs _ [] (FirLine.holds_zeroed nt) i hi, sumProducts_range]
    simp only [getD_reverse_take xs _ hi, ← not_le, ite_not]

/-! ### Polyphase mode -/

/-- Every second sample, from the latest (`r = 0`) or the one before it (`r = 1`), is +0. -/
def ZeroEverySecond (r : Nat) (past : List Word) : Prop := ∀ d, d % 2 = r → past.getD d 0#32 = 0#32

/-- After any further sample the zeros are one step farther back. -/
theorem zeroEverySecond_cons {past : List Word} (h : ZeroEverySecond 0 past) (x : Word) :
    ZeroEverySecond 1 (x :: past) := by
  intro d hd
  cases d with
  | zero => cases hd
  | succ d => exact h d (by omega)

/-- After a further zero the zeros start at the latest sample. -/
theorem zeroEverySecond_zero_cons {past : List Word} (h : ZeroEverySecond 1 past) :
    ZeroEverySecond 0 (0#32 :: past) := by
  intro d hd
  cases d with
  | zero => rfl
  | succ d => exact h d (by omega)

section Phases
variable {taps : Nat → Word} {nt : Nat} (htaps : ∀ k < nt, isFinite (taps k) = true)
  {l : FirLine} {past : List Word} (h : l.Holds nt past)
include htaps h

/-- The even half of a pair is direct mode on its sample. -/
theorem polyEven_eq_convDirectSample (hz : ZeroEverySecond 0 past) (x : Word) :
    polyEven false taps nt l x = convDirectSample false taps nt l x := by
  refine Prod.ext rfl ?_
  rw [polyEven_of_holds false taps h, convDirectSample_of_holds false taps h]
  exact (sumProducts_even (past := fun k => (x :: past).getD k 0#32) htaps
    (zeroEverySecond_cons hz x)).symm

/-- The odd half of a pair is direct mode on a zero. -/
theorem polyOdd_eq_convDirectSample (hz : ZeroEverySecond 1 past) :
    polyOdd false taps nt l = convDirectSample false taps nt l 0#32 := by
  refine Prod.ext rfl ?_
  rw [polyOdd_of_holds false taps h, convDirectSample_of_holds false taps h]
  exact (sumProducts_odd (past := fun k => (0#32 :: past).getD k 0#32) htaps
    (zeroEverySecond_zero_cons hz)).symm

end Phases

/-- Polyphase mode on a line whose every second sample is +0. -/
theorem convPolyBlock_eq_convDirectBlock {taps : Nat → Word} {nt : Nat}
    (htaps : ∀ k < nt, isFinite (taps k) = true) (xs : List Word) :
    ∀ (l : FirLine) (past : List Word), l.Holds nt past → ZeroEverySecond 0 past →
      convPolyBlock false taps nt l xs = convDirectBlock false taps nt l (zeroStuff xs) := by
  induction xs with
  | nil => intro l past _ _; rfl
  | cons x xs ih =>
    intro l past h hz
    have h1 := FirLine.holds_push h x
    have hz1 := zeroEverySecond_cons hz x
    have heven := polyEven_eq_convDirectSample htaps h hz x
    have hodd := polyOdd_eq_convDirectSample htaps h1 hz1
    rw [← convDirectSample_line false taps l x] at hodd
    have hrest := ih _ _ (FirLine.holds_push h1 0#32) (zeroEverySecond_zero_cons hz1)
    rw [← convDirectSample_line false taps l x, ← convDirectSample_line false taps _ 0#32] at hrest
    rw [convPolyBlock_cons, polyPair_eq, heven, hodd, zeroStuff, convDirectBlock_cons,
      convDirectBlock_cons, hrest]

/-- Settles O51: the samples of a zero-stuffed sequence are +0 at every second step. -/
theorem polyphaseEqualsDirect : Obligations.PolyphaseEqualsDirect := fun _ nt xs _ htaps =>
  convPolyBlock_eq_convDirectBlock htaps xs _ [] (FirLine.holds_zeroed nt) fun _ _ => rfl

end Sys2Proof.Machine
end

section
/-! SUPPORT. What a filter primitive on the convolution state leaves: its channel's line and samples,
NUMERR, and the rest of the state (42_convolution.md R173, R175). -/

namespace Sys2Proof.Machine

/-! ### One block of SCR -/

/-- The samples stored in a channel of SCR read back. -/
theorem scrBlock_setScrBlock (s : State) (c : Nat) (ws : List Word) :
    (s.setScrBlock c ws).scrBlock c ws.length = ws := by
  refine List.ext_getElem (by simp) fun i hi hw => ?_
  rw [getElem_scrBlock, scrAddr_eq]
  exact loadWord_storeBlock ws s (scrAddr c 0) i hw

/-- The bytes outside the samples stored in a channel read as before. -/
theorem sameBytesOutside_setScrBlock (s : State) (c : Nat) (ws : List Word) :
    sameBytesOutside s (s.setScrBlock c ws) (inWords (scrAddr c 0) ws.length) := fun a ha =>
  readByte_storeBlock_outside ws s (scrAddr c 0) a (by unfold inWords at ha; omega)

/-- NUMERR after the samples of one channel were stored and flagged, in terms of what they read as. -/
theorem numerrAfter_of_scrBlock {s t : State} {c n : Nat} {ws : List Word}
    (hflag : t.numerr = (s.numerr || anyNonFinite ws)) (hblock : t.scrBlock c n = ws) :
    s.NumerrAfter t (fun _ i => scrAddr c i) 1 n := by
  subst hblock
  unfold State.NumerrAfter
  rw [hflag]
  simp [anyNonFinite, State.scrBlock, State.loadBlock, ← scrAddr_eq]

/-- The even samples of a block (42_convolution.md R175). -/
theorem getElem?_evens (xs : List Word) : ∀ p, (evens xs)[p]? = xs[2 * p]? := by
  induction xs using evens.induct with
  | case1 => intro p; simp [evens]
  | case2 x => intro p; cases p <;> simp [evens]
  | case3 x y xs ih =>
    intro p
    cases p with
    | zero => rfl
    | succ p => exact ih p

/-- The even samples of a channel of SCR, as the addresses that are read. -/
theorem evens_scrBlock (s : State) (c : Nat) {n : Nat} (hn : n % 2 = 0) :
    evens (s.scrBlock c n) =
      (List.range (n / 2)).map (fun p => s.loadWord (scrAddr c (2 * p))) := by
  refine List.ext_getElem (by simp; omega) fun p hp _ => ?_
  have hp' : p < (n + 1) / 2 := by simpa using hp
  have hget := getElem?_evens (s.scrBlock c n) p
  rw [List.getElem?_eq_getElem hp, List.getElem?_eq_getElem (by simp; omega), getElem_scrBlock] at hget
  simpa using hget

/-! ### The lines of a stage -/

theorem length_firLines {s : State} (h : s.Shape) (g : FirStage) :
    (s.firLines g).length = s.params.nchMax := by
  obtain ⟨hup, hdn, -⟩ := h
  cases g with
  | up4 => exact hup
  | dn4 => exact hdn

/-- Replacing a channel's line by itself changes nothing. -/
theorem setFirLine_self {s : State} (h : s.Shape) (g : FirStage) {c : Nat}
    (hc : c < s.params.nchMax) : s.setFirLine g c (s.firLine g c) = s := by
  have hlen : c < (s.firLines g).length := by rwa [length_firLines h]
  rw [State.setFirLine, State.firLine, List.getD_eq_getElem _ _ hlen, List.set_getElem_self]
  cases g <;> rfl

section StoreFir
variable (s : State) (g : FirStage) (c : Nat) (r : FirLine × List Word)

/-- Only the memory, NUMERR and the convolution states change. -/
theorem storeFir_eq :
    s.storeFir g c r = { s with
      mem := (s.storeFir g c r).mem
      numerr := (s.storeFir g c r).numerr
      firUp4 := (s.storeFir g c r).firUp4
      firDn4 := (s.storeFir g c r).firDn4 } := by
  cases g <;> rfl

theorem readByte_storeFir (a : Nat) :
    (s.storeFir g c r).readByte a = (s.setScrBlock c r.2).readByte a := by
  cases g <;> rfl

theorem scrBlock_storeFir : (s.storeFir g c r).scrBlock c r.2.length = r.2 := by
  rw [State.storeFir]
  exact scrBlock_setScrBlock (s.setFirLine g c r.1) c r.2

theorem numerr_storeFir : (s.storeFir g c r).numerr = (s.numerr || anyNonFinite r.2) := by
  cases g <;> rfl

theorem firLines_storeFir_same : (s.storeFir g c r).firLines g = (s.firLines g).set c r.1 := by
  cases g <;> rfl

theorem firLines_storeFir_ne {g' : FirStage} (h : g' ≠ g) :
    (s.storeFir g c r).firLines g' = s.firLines g' := by
  cases g with
  | up4 => cases g' with
    | up4 => exact absurd rfl h
    | dn4 => rfl
  | dn4 => cases g' with
    | up4 => rfl
    | dn4 => exact absurd rfl h

theorem firLine_storeFir_ne {g' : FirStage} {c' : Nat} (h : (g', c') ≠ (g, c)) :
    (s.storeFir g c r).firLine g' c' = s.firLine g' c' := by
  by_cases hg : g' = g
  · subst hg
    have hc : c ≠ c' := fun hc => h (by rw [hc])
    simp only [State.firLine, firLines_storeFir_same, List.getD_eq_getElem?_getD,
      List.getElem?_set_ne hc]
  · rw [State.firLine, firLines_storeFir_ne s g c r hg, State.firLine]

variable {s c} (hs : s.Shape) (hc : c < s.params.nchMax)
include hs hc

theorem firLine_storeFir_same : (s.storeFir g c r).firLine g c = r.1 := by
  have hlen : c < (s.firLines g).length := by rwa [length_firLines hs]
  simp [State.firLine, firLines_storeFir_same, List.getD_eq_getElem?_getD, hlen]

/-- A result with no sample and the line as it was changes nothing. -/
theorem storeFir_self : s.storeFir g c (s.firLine g c, []) = s := by
  rw [State.storeFir, setFirLine_self hs g hc, State.setScrBlock, storeBlock_nil, State.flagNumerr]
  simp [anyNonFinite]

end StoreFir

/-- A command that completes with a result of `n` samples and a new line, and what it leaves. A result
of no samples keeps the line. -/
theorem storeFir_completes {i : Instr} {s : State} {g : FirStage} {ch : BitVec 4} {n : BitVec 16}
    {r : FirLine × List Word} (hs : s.Shape) (hch : ch.toNat < s.params.nchMax)
    (hlen : r.2.length = n.toNat) (hnil : r.2 = [] → r.1 = s.firLine g ch.toNat)
    (hexec : exec i s = .next (s.storeFir g ch.toNat r).completed) :
    ∃ t, exec i s = .next t ∧
      t = { s with
        mem := t.mem
        numerr := t.numerr
        firUp4 := t.firUp4
        firDn4 := t.firDn4
        done := true
        engPhase := .idle } ∧
      (t.firLine g ch.toNat, t.scrBlock ch.toNat n.toNat) = r ∧
      (∀ g' c', (g', c') ≠ (g, ch.toNat) → t.firLine g' c' = s.firLine g' c') ∧
      s.NumerrAfter t (fun _ i => scrAddr ch.toNat i) 1 n.toNat ∧
      sameBytesOutside s t (inWords (scrAddr ch.toNat 0) n.toNat) ∧
      (n = 0#16 → t = s.completed) := by
  have hblock : (s.storeFir g ch.toNat r).completed.scrBlock ch.toNat n.toNat = r.2 := by
    rw [← hlen]; exact scrBlock_storeFir s g ch.toNat r
  refine ⟨_, hexec, ?_, ?_, fun g' c' h => ?_, ?_, fun a ha => ?_, fun hn => ?_⟩
  · rw [State.completed, storeFir_eq]
  · exact Prod.ext (firLine_storeFir_same g r hs hch) hblock
  · exact firLine_storeFir_ne s g ch.toNat r h
  · exact numerrAfter_of_scrBlock (numerr_storeFir s g ch.toNat r) hblock
  · rw [readByte_completed, readByte_storeFir]
    exact sameBytesOutside_setScrBlock s ch.toNat r.2 a (by rwa [hlen])
  · have hempty : r.2 = [] := List.eq_nil_of_length_eq_zero (by rw [hlen, hn]; rfl)
    rw [show r = (s.firLine g ch.toNat, []) from Prod.ext (hnil hempty) hempty,
      storeFir_self g hs hch]

end Sys2Proof.Machine
end

section
/-! PROOF. CONV_DIRECT and CONV_POLY (42_convolution.md R173 to R175). -/

namespace Sys2Proof.Machine

/-! ### The bodies -/

section Bodies
variable {s : State} {ch n : Nat} (h : primitiveInRange s.params ch n = true) (g : FirStage)
include h

theorem convDirectBody_of_inRange :
    convDirectBody g ch n s = .ok (s.storeFir g ch
      (convDirectBlock s.params.ftz (s.tap g) (s.irLen g) (s.firLine g ch) (s.scrBlock ch n))) :=
  if_pos h

theorem convPolyBody_of_inRange (hn : n % 2 = 0) :
    convPolyBody g ch n s = .ok (s.storeFir g ch
      (convPolyBlock s.params.ftz (s.tap g) (s.irLen g) (s.firLine g ch)
        (evens (s.scrBlock ch n)))) :=
  if_pos (by rw [h, decide_eq_true hn]; rfl)

end Bodies

/-- A block of no outputs keeps its line. -/
theorem convDirectBlock_line_of_nil {ftz : Bool} {taps : Nat → Word} {nt : Nat} {l : FirLine}
    {xs : List Word} (h : (convDirectBlock ftz taps nt l xs).2 = []) :
    (convDirectBlock ftz taps nt l xs).1 = l := by
  cases xs with
  | nil => rfl
  | cons x xs => rw [convDirectBlock_cons] at h; cases h

theorem convPolyBlock_line_of_nil {ftz : Bool} {taps : Nat → Word} {nt : Nat} {l : FirLine}
    {xs : List Word} (h : (convPolyBlock ftz taps nt l xs).2 = []) :
    (convPolyBlock ftz taps nt l xs).1 = l := by
  cases xs with
  | nil => rfl
  | cons x xs => rw [convPolyBlock_cons] at h; cases h

/-! ### The statements -/

/-- Settles O47: the command stores the result of direct mode. -/
theorem convDirectCompletes : Obligations.ConvDirectCompletes := by
  intro s stg g ch n _ hs hstg hch hn
  have hrange := (primitiveInRange_iff s.params ch.toNat n.toNat).mpr ⟨hch, hn⟩
  refine storeFir_completes hs hch (by simp) convDirectBlock_line_of_nil ?_
  rw [exec_eq_finishCommand rfl, commandBody, hstg, onStage, convDirectBody_of_inRange hrange]
  rfl

/-- Settles O48: a pair is its two halves written out, and the command stores the result of polyphase mode on the even samples. -/
theorem convPolyCompletes : Obligations.ConvPolyCompletes := by
  refine ⟨fun ftz taps nt l hnt => ⟨rfl, fun x xs => ?_⟩,
    fun s stg g ch n _ hs hstg hch hn heven => ?_⟩
  · refine ⟨(polyEven ftz taps nt l x).1, (polyOdd ftz taps nt (polyEven ftz taps nt l x).1).1, rfl,
      fun k => FirLine.get_push .., rfl, fun k => FirLine.get_push .., ?_⟩
    rw [convPolyBlock_cons, polyPair_eq, polyEven_output ftz taps hnt, polyOdd_output ftz taps hnt]
    rfl
  · have hrange := (primitiveInRange_iff s.params ch.toNat n.toNat).mpr ⟨hch, hn⟩
    rw [← evens_scrBlock s ch.toNat heven]
    refine storeFir_completes hs hch (by simp; omega) convPolyBlock_line_of_nil ?_
    rw [exec_eq_finishCommand rfl, commandBody, hstg, onStage,
      convPolyBody_of_inRange hrange g heven]
    rfl

end Sys2Proof.Machine
end

section
/-! PROOF. Which command raises which error when (60_exceptions.md R302, R305). -/

namespace Sys2Proof.Machine

/-! ### A command that raises -/

/-- A command whose body raises records the error and nothing else (60_exceptions.md R303, R322). -/
theorem exec_of_error {i : Instr} {s : State} {e : ErrorCode}
    (h : isCommand i = true ∧ commandBody i s = .error e) : exec i s = .next (s.raised e.code) := by
  obtain ⟨hi, hbody⟩ := h
  rw [exec_eq_finishCommand hi, hbody, finishCommand_error]
  rfl

/-! ### The errors of the bodies -/

theorem upsampleBody_notPrep {s : State} (h : s.prepared = false) (n : Nat) :
    upsampleBody n s = .error .notPrep := by simp [upsampleBody, h]

theorem processBody_notPrep {s : State} (h : s.prepared = false) (n : Nat) :
    processBody n s = .error .notPrep := by simp [processBody, h]

theorem downsampleBody_notPrep {s : State} (h : s.prepared = false) :
    downsampleBody s = .error .notPrep := by simp [downsampleBody, h]

theorem effectChecks_notPrep {s : State} (h : s.prepared = false) (body : State → State) :
    effectChecks s body = .error .notPrep := (effectChecks_error_iff s body _).mpr (.inl ⟨h, rfl⟩)

section Range
variable {s : State} {n : Nat}

theorem upsampleBody_range (hp : s.prepared = true) (h : blockInRange s.params n = false) :
    upsampleBody n s = .error .range := by simp [upsampleBody, hp, h]

theorem processBody_range (hp : s.prepared = true) (h : blockInRange s.params n = false) :
    processBody n s = .error .range := by simp [processBody, hp, h]

end Range

theorem downsampleBody_seq {s : State} (hp : s.prepared = true) (h : s.wmode = .none) :
    downsampleBody s = .error .seq := by simp [downsampleBody, hp, h]

theorem effectChecks_seq {s : State} (hp : s.prepared = true) (h : s.wmode = .none)
    (body : State → State) : effectChecks s body = .error .seq :=
  (effectChecks_error_iff s body _).mpr (.inr ⟨hp, h, rfl⟩)

section Primitives
variable {s : State} {ch n : Nat}

theorem convDirectBody_range (h : primitiveInRange s.params ch n = false) (g : FirStage) :
    convDirectBody g ch n s = .error .range := by simp [convDirectBody, h]

theorem convPolyBody_range (h : primitiveInRange s.params ch n = false ∨ n % 2 = 1) (g : FirStage) :
    convPolyBody g ch n s = .error .range := by
  rcases h with h | h <;> simp [convPolyBody, h]

theorem rlpRunBody_range (h : primitiveInRange s.params ch n = false) (g : RlpStage) :
    rlpRunBody g ch n s = .error .range := by simp [rlpRunBody, h]

end Primitives

/-! ### Stages -/

theorem firStage?_of_not_isFir {stg : Stage} (h : stg.isFir = false) : firStage? stg = none := by
  cases stg with
  | up2 | dn2 => rfl
  | up4 | dn4 => cases h

theorem rlpStage?_of_isFir {stg : Stage} (h : stg.isFir = true) : rlpStage? stg = none := by
  cases stg with
  | up2 | dn2 => cases h
  | up4 | dn4 => rfl

/-- A term with a stage of the wrong kind is a command whose body raises ERR_ILLEGAL (log 15). -/
theorem commandBody_of_not_wellFormed {i : Instr} (h : i.WellFormed = false) (s : State) :
    isCommand i = true ∧ commandBody i s = .error .illegal := by
  cases i with
  | convDirect stg ch n => exact ⟨rfl, by rw [commandBody, firStage?_of_not_isFir h]; rfl⟩
  | convPoly stg ch n => exact ⟨rfl, by rw [commandBody, firStage?_of_not_isFir h]; rfl⟩
  | rlpRun stg ch n =>
    exact ⟨rfl, by rw [commandBody, rlpStage?_of_isFir (by simpa [Instr.WellFormed] using h)]; rfl⟩
  | _ => cases h

/-! ### The statement -/

/-- Settles O26: each clause by the error of the commands' bodies. -/
theorem commandErrorTable : Obligations.CommandErrorTable := by
  refine fun s ch n => ⟨fun hp i hi => exec_of_error (e := .notPrep) ?_,
    fun hp hn i hi => exec_of_error (e := .range) ?_, fun hp hw i hi => exec_of_error (e := .seq) ?_,
    fun hr i hi => exec_of_error (e := .range) ?_, fun hodd i hi => exec_of_error (e := .range) ?_,
    fun i hi => exec_of_error (e := .illegal) (commandBody_of_not_wellFormed hi s)⟩
  all_goals revert i
  · simp [isCommand, commandBody, upsampleBody_notPrep hp, processBody_notPrep hp,
      downsampleBody_notPrep hp, effectChecks_notPrep hp]
  · have hrange : blockInRange s.params n.toNat = false := by
      rw [Bool.eq_false_iff, ne_eq, blockInRange_iff]; omega
    simp [isCommand, commandBody, upsampleBody_range hp hrange, processBody_range hp hrange]
  · simp [isCommand, commandBody, downsampleBody_seq hp hw, effectChecks_seq hp hw]
  · have hrange : primitiveInRange s.params ch.toNat n.toNat = false := by
      rw [Bool.eq_false_iff, ne_eq, primitiveInRange_iff]; omega
    simp [isCommand, commandBody, onStage, firStage?, rlpStage?, convDirectBody_range hrange,
      convPolyBody_range (.inl hrange), rlpRunBody_range hrange]
  · simp [isCommand, commandBody, onStage, firStage?, convPolyBody_range (.inr hodd)]

end Sys2Proof.Machine
end

section
/-! SUPPORT. The recursive stage over a block: a stage of several sections as its sections one after
another, and one section as its recurrence (43_recursive.md R191). -/

namespace Sys2Proof.Machine

/-! ### One sample through a cascade -/

section Cascade
variable (ftz : Bool) (coef : Nat → Coefs)

/-- A cascade that starts one section later takes the coefficients one section later. -/
theorem cascadeSample_succ (bs : List Biquad) : ∀ nsec q v,
    cascadeSample ftz coef nsec (q + 1) bs v =
      cascadeSample ftz (fun p => coef (p + 1)) nsec q bs v := by
  induction bs with
  | nil => intro nsec q v; cases nsec <;> rfl
  | cons b bs ih =>
    intro nsec q v
    cases nsec with
    | zero => rfl
    | succ nsec => simp only [cascadeSample, ih]

/-- The first section, and its output through the others. -/
theorem rlpSample_succ_cons (nsec : Nat) (b : Biquad) (bs : List Biquad) (x : Word) :
    rlpSample ftz coef (nsec + 1) (b :: bs) x =
      ((biquadSample ftz (coef 0) b x).1 ::
          (rlpSample ftz (fun q => coef (q + 1)) nsec bs (biquadSample ftz (coef 0) b x).2).1,
        (rlpSample ftz (fun q => coef (q + 1)) nsec bs (biquadSample ftz (coef 0) b x).2).2) := by
  simp only [rlpSample, cascadeSample, cascadeSample_succ]

/-- The sections after the first `nsec` keep their states. -/
theorem getElem?_cascadeSample (bs : List Biquad) : ∀ nsec q v {p}, nsec ≤ p →
    (cascadeSample ftz coef nsec q bs v).1[p]? = bs[p]? := by
  induction bs with
  | nil => intro nsec q v p _; cases nsec <;> rfl
  | cons b bs ih =>
    intro nsec q v p hp
    cases nsec with
    | zero => rfl
    | succ nsec =>
      obtain ⟨p, rfl⟩ : ∃ p', p = p' + 1 := ⟨p - 1, by omega⟩
      simpa [cascadeSample] using ih nsec (q + 1) _ (by omega)

/-! ### A block through a cascade -/

theorem getElem?_rlpBlock {nsec p : Nat} (hp : nsec ≤ p) (xs : List Word) :
    ∀ bs, (rlpBlock ftz coef nsec bs xs).1[p]? = bs[p]? := by
  induction xs with
  | nil => intro bs; rfl
  | cons x xs ih =>
    intro bs
    rw [rlpBlock_cons, ih, rlpSample, getElem?_cascadeSample _ _ _ _ _ _ hp]

theorem rlpBlock_zero (bs : List Biquad) (xs : List Word) :
    rlpBlock ftz coef 0 bs xs = (bs, xs) := by
  induction xs with
  | nil => rfl
  | cons x xs ih => rw [rlpBlock_cons, rlpSample, cascadeSample, ih]

/-- A block of one section: each sample moves the section on. -/
theorem rlpBlock_one_cons (b : Biquad) (x : Word) (xs : List Word) :
    rlpBlock ftz coef 1 [b] (x :: xs) =
      ((rlpBlock ftz coef 1 [(biquadSample ftz (coef 0) b x).1] xs).1,
        (biquadSample ftz (coef 0) b x).2 ::
          (rlpBlock ftz coef 1 [(biquadSample ftz (coef 0) b x).1] xs).2) := rfl

/-- Sample after sample through the cascade is section after section over the block. -/
theorem rlpBlock_succ_cons (nsec : Nat) (xs : List Word) : ∀ b bs,
    rlpBlock ftz coef (nsec + 1) (b :: bs) xs =
      ((rlpBlock ftz coef 1 [b] xs).1 ++
          (rlpBlock ftz (fun q => coef (q + 1)) nsec bs (rlpBlock ftz coef 1 [b] xs).2).1,
        (rlpBlock ftz (fun q => coef (q + 1)) nsec bs (rlpBlock ftz coef 1 [b] xs).2).2) := by
  induction xs with
  | nil => intro b bs; rfl
  | cons x xs ih =>
    intro b bs
    rw [rlpBlock_cons, rlpSample_succ_cons, ih, rlpBlock_one_cons, rlpBlock_cons]

/-- A block of no outputs keeps the sections' states. -/
theorem rlpBlock_state_of_nil {nsec : Nat} {bs : List Biquad} {xs : List Word}
    (h : (rlpBlock ftz coef nsec bs xs).2 = []) : (rlpBlock ftz coef nsec bs xs).1 = bs := by
  cases xs with
  | nil => rfl
  | cons x xs => rw [rlpBlock_cons] at h; cases h

/-! ### The recurrence of one section -/

/-- The numbering of a block with the two samples before it, moved on by one sample. -/
theorem sampleAt_cons_succ (one two v : Word) (ws : List Word) (i : Nat) :
    sampleAt one two (v :: ws) (i + 1) = sampleAt v one ws i := by
  match i with
  | 0 | 1 => rfl
  | i + 2 => rw [sampleAt_add_two v one]; exact sampleAt_add_two one two (v :: ws) (i + 1)

/-- Each output of a section is what the section gives for the last two inputs and outputs. -/
theorem rlpBlock_one_output (xs : List Word) : ∀ (b : Biquad) {i : Nat}, i < xs.length →
    let x := sampleAt b.x1 b.x2 xs
    let y := sampleAt b.y1 b.y2 (rlpBlock ftz coef 1 [b] xs).2
    y (i + 2) = (biquadSample ftz (coef 0) ⟨x (i + 1), x i, y (i + 1), y i⟩ (x (i + 2))).2 := by
  induction xs with
  | nil => intro b i hi; cases hi
  | cons v xs ih =>
    intro b i hi
    cases i with
    | zero => rfl
    | succ i =>
      simp only [rlpBlock_one_cons, sampleAt_cons_succ]
      exact ih (biquadSample ftz (coef 0) b v).1 (Nat.lt_of_succ_lt_succ hi)

/-- The state that a section is left in holds the last two inputs and outputs. -/
theorem rlpBlock_one_state (xs : List Word) : ∀ (b : Biquad),
    let x := sampleAt b.x1 b.x2 xs
    let y := sampleAt b.y1 b.y2 (rlpBlock ftz coef 1 [b] xs).2
    (rlpBlock ftz coef 1 [b] xs).1 =
      [⟨x (xs.length + 1), x xs.length, y (xs.length + 1), y xs.length⟩] := by
  induction xs with
  | nil => intro b; rfl
  | cons v xs ih =>
    intro b
    simp only [rlpBlock_one_cons, List.length_cons, sampleAt_cons_succ]
    exact ih (biquadSample ftz (coef 0) b v).1

end Cascade

end Sys2Proof.Machine
end

section
/-! PROOF. RLP_RUN: what storing its result leaves, and the statement (43_recursive.md R191,
R193). -/

namespace Sys2Proof.Machine

/-! ### The result stored -/

/-- Replacing a channel's section states by themselves changes nothing. -/
theorem setRlpLine_self {s : State} (h : s.Shape) (g : RlpStage) {c : Nat}
    (hc : c < s.params.nchMax) : s.setRlpLine g c (s.rlpLine g c) = s := by
  have hlen : c < (s.rlpLines g).length := by rwa [(shape_rlpLines h g).1]
  rw [State.setRlpLine, State.rlpLine, List.getD_eq_getElem _ _ hlen, List.set_getElem_self]
  cases g <;> rfl

section StoreRlp
variable (s : State) (g : RlpStage) (c : Nat) (r : List Biquad × List Word)

/-- Only the memory, NUMERR and the recursive states change. -/
theorem storeRlp_eq :
    s.storeRlp g c r = { s with
      mem := (s.storeRlp g c r).mem
      numerr := (s.storeRlp g c r).numerr
      rlpUp2 := (s.storeRlp g c r).rlpUp2
      rlpDn2 := (s.storeRlp g c r).rlpDn2 } := by
  cases g <;> rfl

theorem readByte_storeRlp (a : Nat) :
    (s.storeRlp g c r).readByte a = (s.setScrBlock c r.2).readByte a := by
  cases g <;> rfl

theorem scrBlock_storeRlp : (s.storeRlp g c r).scrBlock c r.2.length = r.2 := by
  rw [State.storeRlp]
  exact scrBlock_setScrBlock (s.setRlpLine g c r.1) c r.2

theorem numerr_storeRlp : (s.storeRlp g c r).numerr = (s.numerr || anyNonFinite r.2) := by
  cases g <;> rfl

theorem rlpLines_storeRlp (g' : RlpStage) :
    (s.storeRlp g c r).rlpLines g' =
      if g' = g then (s.rlpLines g).set c r.1 else s.rlpLines g' := by
  cases g <;> cases g' <;> rfl

theorem rlpLine_storeRlp_ne {g' : RlpStage} {c' : Nat} (h : (g', c') ≠ (g, c)) :
    (s.storeRlp g c r).rlpLine g' c' = s.rlpLine g' c' := by
  rw [State.rlpLine, rlpLines_storeRlp, State.rlpLine]
  split
  · next hg =>
    subst hg
    have hc : c ≠ c' := fun hc => h (by rw [hc])
    simp only [List.getD_eq_getElem?_getD, List.getElem?_set_ne hc]
  · rfl

variable {s c} (hs : s.Shape) (hc : c < s.params.nchMax)
include hs hc

theorem rlpLine_storeRlp_same : (s.storeRlp g c r).rlpLine g c = r.1 := by
  have hlen : c < (s.rlpLines g).length := by rwa [(shape_rlpLines hs g).1]
  simp [State.rlpLine, rlpLines_storeRlp, List.getD_eq_getElem?_getD, hlen]

/-- A result with no sample and the section states as they were changes nothing. -/
theorem storeRlp_self : s.storeRlp g c (s.rlpLine g c, []) = s := by
  rw [State.storeRlp, setRlpLine_self hs g hc, State.setScrBlock, storeBlock_nil, State.flagNumerr]
  simp [anyNonFinite]

end StoreRlp

/-! ### The command -/

theorem rlpRunBody_of_inRange {s : State} {ch n : Nat}
    (h : primitiveInRange s.params ch n = true) (g : RlpStage) :
    rlpRunBody g ch n s = .ok (s.storeRlp g ch
      (rlpBlock s.params.ftz (s.coefs g) (s.rlpNsec g) (s.rlpLine g ch) (s.scrBlock ch n))) :=
  if_pos h

/-- RLP_RUN in range stores the block that its stage gives. -/
theorem exec_rlpRun_of_inRange {s : State} {stg : Stage} {g : RlpStage} {ch : BitVec 4}
    {n : BitVec 16} (hstg : rlpStage? stg = some g)
    (h : primitiveInRange s.params ch.toNat n.toNat = true) :
    exec (.rlpRun stg ch n) s = .next (s.storeRlp g ch.toNat
      (rlpBlock s.params.ftz (s.coefs g) (s.rlpNsec g) (s.rlpLine g ch.toNat)
        (s.scrBlock ch.toNat n.toNat))).completed := by
  rw [exec_eq_finishCommand rfl, commandBody, hstg, onStage, rlpRunBody_of_inRange h]
  rfl

/-- Settles O49: the command stores the result of the cascade, which is its sections one after
another, each by its recurrence. -/
theorem rlpRunCompletes : Obligations.RlpRunCompletes := by
  refine ⟨fun s stg g ch n _ hs hstg hch hn => ?_,
    fun ftz coef b xs => ⟨length_rlpBlock ftz coef 1 xs [b],
      fun i hi => rlpBlock_one_output ftz coef xs b hi, rlpBlock_one_state ftz coef xs b⟩,
    fun ftz coef nsec b bs xs =>
      ⟨rlpBlock_zero ftz coef bs xs, rlpBlock_succ_cons ftz coef nsec xs b bs⟩⟩
  have hexec := exec_rlpRun_of_inRange hstg ((primitiveInRange_iff _ _ _).mpr ⟨hch, hn⟩)
  set r := rlpBlock s.params.ftz (s.coefs g) (s.rlpNsec g) (s.rlpLine g ch.toNat)
    (s.scrBlock ch.toNat n.toNat) with hr
  have hlen : r.2.length = n.toNat := by simp [hr]
  have hline : (s.storeRlp g ch.toNat r).completed.rlpLine g ch.toNat = r.1 :=
    rlpLine_storeRlp_same g r hs hch
  have hblock : (s.storeRlp g ch.toNat r).completed.scrBlock ch.toNat n.toNat = r.2 := by
    rw [← hlen]; exact scrBlock_storeRlp s g ch.toNat r
  refine ⟨_, hexec, ?_, Prod.ext hline hblock, fun q hq => ?_, fun g' c' h => ?_, ?_, fun a ha => ?_,
    fun hn0 => ?_⟩
  · rw [State.completed, storeRlp_eq]
  · rw [hline, hr, getElem?_rlpBlock _ _ hq]
  · exact rlpLine_storeRlp_ne s g ch.toNat r h
  · exact numerrAfter_of_scrBlock (numerr_storeRlp s g ch.toNat r) hblock
  · rw [readByte_completed, readByte_storeRlp]
    exact sameBytesOutside_setScrBlock s ch.toNat r.2 a (by rwa [hlen])
  · have hempty : r.2 = [] := List.eq_nil_of_length_eq_zero (by rw [hlen, hn0]; rfl)
    have hself : r = (s.rlpLine g ch.toNat, []) :=
      Prod.ext (rlpBlock_state_of_nil _ _ hempty) hempty
    rw [hself, storeRlp_self g hs hch]

end Sys2Proof.Machine
end

section
/-! PROOF. NOP, SET_ENABLED and PREPARE's checks (44_orchestrator.md R200 to R205, R230). -/

namespace Sys2Proof.Machine

/-- A command whose body completes sets DONE and frees the ENGINE (60_exceptions.md R322). -/
theorem exec_of_ok {i : Instr} {s u : State} (hi : isCommand i = true)
    (h : commandBody i s = .ok u) : exec i s = .next u.completed := by
  rw [exec_eq_finishCommand hi, h]
  rfl

/-! ### NOP -/

theorem decodeCmd_eq_nop_iff (w : Word) : decodeCmd w = .ok .nop ↔ w = 0#32 := by
  constructor
  · intro h
    obtain ⟨-, henc⟩ := (decode_eq_ok_iff ⟨cmdAddr, w⟩ .nop).mp h
    exact (congrArg RegWrite.data henc).symm
  · rintro rfl
    rfl

/-- Settles O27: the command, its word, and the START and FINISH steps that run it. -/
theorem nopCompletes : Obligations.NopCompletes := by
  refine ⟨fun _ => rfl, decodeCmd_eq_nop_iff, fun s rest hin hphase hcmd => ?_⟩
  have hstart : step s = .next (State.start { s with inputs := .engine :: rest }) := by
    rw [step_engine (.inl hin), engineTurn, hphase]
  refine ⟨_, hstart, rfl, ?_⟩
  have hdecode : decode ⟨cmdAddr, s.pendCmd⟩ = .ok .nop := by
    rw [decode_cmdAddr, decodeCmd_eq_nop_iff, hcmd]
  exact step_of_decode _ rest .nop (.inl rfl) rfl hdecode

/-! ### SET_ENABLED -/

/-- An access to OS_REQ is refused only for its size: the address is mapped, and the register is
writable in every phase and takes every value (20_memory.md R94; 44_orchestrator.md R230). -/
theorem checkAccess_osReq_error {s : State} {g : Agent} {size : Nat} {v : Word} {e : ErrorCode}
    (h : checkAccess s ⟨g, .write, 0x01C#32, size, v⟩ = .error e) : size ≠ 4 ∧ e = .bus := by
  by_cases hsize : size = 4
  · subst hsize
    have hok := (checkAccess_reg s g .write .osReq v).trans
      ((checkTarget_write_ok_iff s _ .osReq rfl).mpr ⟨.inr rfl, rfl⟩)
    cases hok.symm.trans h
  · rw [checkAccess, if_neg fun hform => hsize hform.1] at h
    exact ⟨hsize, (Except.error.inj h).symm⟩

/-- Settles O28: the operation by its definition, the bus step by the write of OS_REQ. -/
theorem setEnabledCompletes : Obligations.SetEnabledCompletes := by
  refine fun s v => ⟨rfl, fun rest hw => step_writeReg (r := .osReq) hw (.inr rfl) rfl, ?_, fun h => ?_,
    fun g size e h => checkAccess_osReq_error h⟩
  · simp [State.pending]
  · simp [State.pending, ← h]

/-! ### PREPARE -/

/-- The rates that PREPARE accepts (44_orchestrator.md R202). -/
theorem positiveRate_eq_some_iff (d : BitVec 64) (u : Nat) :
    positiveRate d = some u ↔
      expField64 d ≠ 2047 ∧ d.getLsbD 63 = false ∧ magnitude64 d ≠ 0 ∧ magnitude64 d = u := by
  unfold positiveRate
  split
  · next h => simp [h]
  · next h =>
    split
    · next hs => simp [hs]
    · next hs =>
      split
      · next h0 => simp [h0]
      · next h0 =>
        exact ⟨fun hu => ⟨h, Bool.eq_false_iff.mpr hs, h0, Option.some.inj hu⟩,
          fun ⟨_, _, _, hu⟩ => congrArg some hu⟩

/-- When the rates of PREPARE exist, and what they are (44_orchestrator.md R202, R203). -/
theorem prepareRates_ok_iff (s : State) (r : Rates) :
    prepareRates s = .ok r ↔
      ∃ fs, positiveRate (bits64 s.fsHi s.fsLo) = some fs ∧
        blockInRange s.params s.blockSize.toNat = true ∧
        s.rateFactor * fs < pow2 1024 * pow2 1074 ∧
        vibLength (s.rateFactor * fs) ≤ s.params.vibMax ∧
        r = ⟨s.rateFactor * fs, s.rateFactor * s.blockSize.toNat, vibLength (s.rateFactor * fs)⟩ := by
  refine ⟨prepareRates_ok, ?_⟩
  rintro ⟨fs, hfs, hblock, hrate, hlen, rfl⟩
  unfold prepareRates
  rw [hfs]
  dsimp only
  rw [if_pos hblock, if_pos hrate, if_pos hlen]

/-- Settles O31: the rates exist exactly on the listed conditions (`prepareRates_ok_iff`), and every
error is ERR_RANGE (`prepareRates_error`). -/
theorem prepareCompletes : Obligations.PrepareCompletes := by
  intro s d k ufs
  refine ⟨fun hfin hsign hpos h1 hmax hrate hlen => ?_, fun hbad => ?_⟩
  · have hfs := (positiveRate_eq_some_iff d _).mpr ⟨hfin, hsign, hpos, rfl⟩
    have hblock := (blockInRange_iff s.params _).mpr ⟨h1, hmax⟩
    have hr := (prepareRates_ok_iff s _).mpr ⟨_, hfs, hblock, hrate, hlen, rfl⟩
    exact exec_of_ok (i := .prepare) rfl ((prepareBody_ok_iff s _).mpr ⟨_, hr, rfl⟩)
  · refine exec_of_error (e := .range) ⟨rfl, ?_⟩
    rw [commandBody, prepareBody]
    cases hr : prepareRates s with
    | error e => rw [prepareRates_error hr]
    | ok r =>
      obtain ⟨fs, hfs, hblock, hrate, hlen, -⟩ := prepareRates_ok hr
      obtain ⟨hfin, hsign, hpos, rfl⟩ := (positiveRate_eq_some_iff d fs).mp hfs
      obtain ⟨h1, hmax⟩ := (blockInRange_iff s.params _).mp hblock
      rcases hbad with h | h | h | h | h | h | h
      · exact absurd h hfin
      · exact absurd (hsign.symm.trans h) Bool.false_ne_true
      · exact absurd h hpos
      · omega
      · omega
      · exact absurd hrate h.not_gt
      · exact absurd hlen h.not_ge

end Sys2Proof.Machine
end

section
/-! PROOF. The rates of PREPARE are exact (44_orchestrator.md R202, R203): packing a binary64 that was
multiplied by 1 or 4, and the ceiling of the vibrato length. -/

namespace Sys2Proof.Machine

/-! ### Packing a binary64 -/

theorem bits64_hiWord_loWord (d : BitVec 64) : bits64 (hiWord d) (loWord d) = d := by
  apply BitVec.eq_of_getLsbD_eq
  intro i hi
  rw [bits64, BitVec.getLsbD_append, hiWord, loWord, BitVec.getLsbD_extractLsb',
    BitVec.getLsbD_extractLsb']
  split
  · next h => simp [h]
  · next h => simp [show i - 32 < 32 by omega, show 32 + (i - 32) = i by omega]

/-- The pattern of a step and a significand, as in `bitsValue_step`: its exponent and sign, and the
magnitude `q·2^step` (00_scope.md R18). -/
theorem binary64_of_step {step q : Nat} (hlo : step = 0 ∨ 2 ^ 52 ≤ q) (hhi : q < 2 ^ 53)
    (hstep : step ≤ 2045) :
    let d := BitVec.ofNat 64 (step * 2 ^ 52 + q)
    expField64 d ≠ 2047 ∧ d.getLsbD 63 = false ∧ magnitude64 d = q * 2 ^ step := by
  intro d
  have hd : d.toNat = step * 2 ^ 52 + q := by
    rw [BitVec.toNat_ofNat, Nat.mod_eq_of_lt (by omega)]
  have hexp : expField64 d = step + q / 2 ^ 52 := by unfold expField64; rw [hd]; omega
  have hfrac : fracField64 d = q % 2 ^ 52 := by unfold fracField64; rw [hd]; omega
  refine ⟨by omega, ?_, ?_⟩
  · rw [BitVec.getLsbD, hd, Nat.testBit_lt_two_pow (by omega)]
  · unfold magnitude64
    rw [hexp, hfrac]
    by_cases hq : q < 2 ^ 52
    · obtain rfl : step = 0 := by omega
      rw [if_pos (by omega)]; omega
    · rw [if_neg (by omega), show 2 ^ 52 + q % 2 ^ 52 = q by omega,
        show step + q / 2 ^ 52 - 1 = step by omega]

/-- A finite binary64 magnitude is a significand below 2^53 and a power of 2. -/
theorem exists_magnitude64_eq (d : BitVec 64) : ∃ q e, q < 2 ^ 53 ∧ magnitude64 d = q * 2 ^ e := by
  have hfrac : fracField64 d < 2 ^ 52 := Nat.mod_lt _ (by decide)
  unfold magnitude64
  split
  · exact ⟨_, 0, by omega, (Nat.mul_one _).symm⟩
  · exact ⟨_, _, by omega, rfl⟩

theorem log2_mul_two_pow {q : Nat} (hq : 0 < q) (e : Nat) : (q * 2 ^ e).log2 = q.log2 + e := by
  have hpos := Nat.two_pow_pos e
  rw [Nat.log2_eq_iff (Nat.mul_pos hq hpos).ne', Nat.pow_add, Nat.add_right_comm, Nat.pow_add]
  exact ⟨Nat.mul_le_mul_right _ (Nat.log2_self_le hq.ne'),
    Nat.mul_lt_mul_of_pos_right Nat.lt_log2_self hpos⟩

/-- Packing is exact on every product of a significand and a power of 2 below the overflow. -/
theorem pack64_exact {q e b : Nat} (hq : q < 2 ^ 53) (hpos : 0 < q) (hlt : q * 2 ^ e < pow2 b)
    (hb : b ≤ 2098) :
    let d := pack64 (q * 2 ^ e)
    expField64 d ≠ 2047 ∧ d.getLsbD 63 = false ∧ magnitude64 d = q * 2 ^ e := by
  have hlog := log2_mul_two_pow hpos e
  have hqlog : q.log2 < 53 := (Nat.log2_lt hpos.ne').mpr hq
  have htop : q.log2 + e < b := by
    rwa [← hlog, Nat.log2_lt (Nat.mul_pos hpos (Nat.two_pow_pos e)).ne']
  obtain ⟨step, hstep⟩ : ∃ step, q.log2 + e - 52 = step := ⟨_, rfl⟩
  have hsplit : q * 2 ^ e = q * 2 ^ (e - step) * 2 ^ step := by
    rw [Nat.mul_assoc, ← Nat.pow_add, Nat.sub_add_cancel (by omega)]
  have hsig : (q * 2 ^ e) / 2 ^ step = q * 2 ^ (e - step) := by
    rw [hsplit, Nat.mul_div_cancel _ (Nat.two_pow_pos step)]
  have hsiglog := log2_mul_two_pow hpos (e - step)
  have hne := (Nat.mul_pos hpos (Nat.two_pow_pos (e - step))).ne'
  have hpack : pack64 (q * 2 ^ e) = BitVec.ofNat 64 (step * 2 ^ 52 + q * 2 ^ (e - step)) := by
    unfold pack64
    dsimp only
    rw [hlog, hstep, hsig]
  rw [hpack, hsplit]
  refine binary64_of_step ?_ ((Nat.log2_lt hne).mp (by omega)) (by omega)
  rcases Nat.eq_zero_or_pos step with h0 | h0
  · exact .inl h0
  · exact .inr ((Nat.le_log2 hne).mp (by omega))

/-- The rate that PREPARE stores is exactly `k` times the rate given (44_orchestrator.md R203). -/
theorem pack64_mul_magnitude64 {d : BitVec 64} {k : Nat} (hk : k = 1 ∨ k = 4)
    (hpos : magnitude64 d ≠ 0) (hlt : k * magnitude64 d < pow2 1024 * pow2 1074) :
    expField64 (pack64 (k * magnitude64 d)) ≠ 2047 ∧
      (pack64 (k * magnitude64 d)).getLsbD 63 = false ∧
      magnitude64 (pack64 (k * magnitude64 d)) = k * magnitude64 d := by
  obtain ⟨q, e, hq, hm⟩ := exists_magnitude64_eq d
  have hqpos : 0 < q := Nat.pos_of_ne_zero fun h0 => hpos (by rw [hm, h0, Nat.zero_mul])
  rw [← pow2_add] at hlt
  obtain ⟨j, hj⟩ : ∃ j, k * magnitude64 d = q * 2 ^ (e + j) := by
    rcases hk with rfl | rfl
    · exact ⟨0, by rw [hm, Nat.one_mul, Nat.add_zero]⟩
    · exact ⟨2, by rw [hm, Nat.pow_add]; ring⟩
  rw [hj] at hlt ⊢
  exact pack64_exact hq hqpos hlt le_rfl

/-! ### The vibrato length -/

theorem two_le_vibLength (ufs : Nat) : 2 ≤ vibLength ufs := le_max_left _ _

/-- The vibrato length is the least one of at least 2 that covers 7 ms (44_orchestrator.md R202). -/
theorem vibLength_le_iff {ufs l : Nat} (hl : 2 ≤ l) :
    vibLength ufs ≤ l ↔ 7 * ufs ≤ 1000 * (l * pow2 1074) := by
  have hpos := pow2_pos 1074
  unfold vibLength
  rw [Nat.max_le, and_iff_right hl, ← Nat.lt_succ_iff, Nat.div_lt_iff_lt_mul (by omega),
    show l.succ * (1000 * pow2 1074) = 1000 * (l * pow2 1074) + 1000 * pow2 1074 by
      rw [Nat.succ_mul]; ring]
  generalize l * pow2 1074 = x at *
  generalize pow2 1074 = p at *
  omega

/-! ### The statement -/

/-- Settles O32: UP_FS by `pack64_mul_magnitude64`, VIB_LEN by `vibLength_le_iff`. -/
theorem prepareRatesExact : Obligations.PrepareRatesExact := by
  intro s t hp hbody d u k
  obtain ⟨r, hr, rfl⟩ := (prepareBody_ok_iff s t).mp hbody
  obtain ⟨fs, hfs, hblock, hrate, hlen, rfl⟩ := prepareRates_ok hr
  obtain ⟨-, -, hpos, rfl⟩ := (positiveRate_eq_some_iff d fs).mp hfs
  obtain ⟨-, ⟨-, hblkMax⟩, -, -, ⟨-, hvibMax⟩⟩ := (legal_iff _).mp hp
  obtain ⟨-, hsize⟩ := (blockInRange_iff _ _).mp hblock
  have hk : k = 1 ∨ k = 4 := by
    by_cases ha : s.active = true
    · exact .inr (if_pos ha)
    · exact .inl (if_neg ha)
  have hu : u = pack64 (k * magnitude64 d) := bits64_hiWord_loWord _
  obtain ⟨hexp, hsign, hmag⟩ := pack64_mul_magnitude64 (d := d) hk hpos hrate
  rw [← hu] at hexp hsign hmag
  have hlen' : vibLength (k * magnitude64 d) ≤ s.params.vibMax := hlen
  have hvib : (BitVec.ofNat 16 (vibLength (k * magnitude64 d))).toNat =
      vibLength (k * magnitude64 d) := by
    rw [BitVec.toNat_ofNat, Nat.mod_eq_of_lt (by omega)]
  have hup : (BitVec.ofNat 16 (k * s.blockSize.toNat)).toNat = k * s.blockSize.toNat := by
    rw [BitVec.toNat_ofNat, Nat.mod_eq_of_lt (by rcases hk with h | h <;> rw [h] <;> omega)]
  have h2 := two_le_vibLength (k * magnitude64 d)
  refine ⟨exec_of_ok (i := .prepare) rfl hbody, hexp, hsign, hmag, hup, ?_⟩
  show 2 ≤ (BitVec.ofNat 16 (vibLength (k * magnitude64 d))).toNat ∧
    (BitVec.ofNat 16 (vibLength (k * magnitude64 d))).toNat ≤ s.params.vibMax ∧
    7 * magnitude64 u ≤
      1000 * ((BitVec.ofNat 16 (vibLength (k * magnitude64 d))).toNat * pow2 1074) ∧
    ∀ l : Nat, 2 ≤ l → 7 * magnitude64 u ≤ 1000 * (l * pow2 1074) →
      (BitVec.ofNat 16 (vibLength (k * magnitude64 d))).toNat ≤ l
  rw [hvib, hmag]
  exact ⟨h2, hlen', (vibLength_le_iff h2).mp le_rfl, fun l hl => (vibLength_le_iff hl).mpr⟩

end Sys2Proof.Machine
end

section
/-! SUPPORT. Channels of samples stored in SCR and OUT: what reads back, what stays, and NUMERR
(10_state.md R52, R63; 20_memory.md R84). -/

namespace Sys2Proof.Machine

/-! ### The elements of IN and OUT -/

theorem inAddr_eq (c i : Nat) : inAddr c i = inAddr c 0 + 4 * i := by
  unfold inAddr; omega

theorem outAddr_eq (c i : Nat) : outAddr c i = outAddr c 0 + 4 * i := by
  unfold outAddr; omega

@[simp] theorem length_inBlock (s : State) (c n : Nat) : (s.inBlock c n).length = n := by
  simp [State.inBlock]

theorem getElem_inBlock (s : State) (c n i : Nat) (h : i < (s.inBlock c n).length) :
    (s.inBlock c n)[i] = s.loadWord (inAddr c i) := by
  rw [inAddr_eq]
  exact getElem_loadBlock s (inAddr c 0) n i h

/-- A block of the work buffer that a machine with legal parameters holds fits in its windows. -/
theorem block_le {p : Params} (hp : p.legal = true) {n : Nat} (hn : n ≤ p.blkMax) : n ≤ 0x3FFF := by
  obtain ⟨-, ⟨-, hblk⟩, -⟩ := (legal_iff p).mp hp
  omega

/-! ### Storing a block in each channel of OUT -/

section Store
variable {n : Nat} {chans : List (List Word)} (hlen : ∀ ws ∈ chans, ws.length = n)
include hlen

/-- Every stored sample reads back. -/
theorem loadWord_setOutChannels (hn : n ≤ 0x3FFF) (s : State) {c i : Nat} (hc : c < chans.length)
    (hi : i < chans[c].length) :
    (s.setOutChannels chans).loadWord (outAddr c i) = chans[c][i] := by
  have hlc := hlen _ (List.getElem_mem hc)
  have h := loadWord_storeChannels (fun c => outAddr c 0) chans s 0 c i hc hi
    (fun j hkj _ => by simp only [outAddr]; omega)
  rw [outAddr_eq]
  rw [Nat.zero_add] at h
  exact h

/-- The bytes outside the stored blocks read as before. -/
theorem readByte_setOutChannels (s : State) {a : Nat}
    (ha : ¬ inChannels outAddr chans.length n a) :
    (s.setOutChannels chans).readByte a = s.readByte a := by
  refine readByte_storeChannels_outside (fun c => outAddr c 0) chans s 0 a fun i hi => ?_
  rw [hlen _ (List.getElem_mem hi), Nat.zero_add]
  by_contra hno
  exact ha ⟨i, hi, by unfold inWords; omega⟩

/-- NUMERR after channels were stored and flagged, in terms of what they read as. -/
theorem numerrAfter_of_channels {s t : State} {elem : Nat → Nat → Nat}
    (hflag : t.numerr = (s.numerr || anyNonFinite chans.flatten))
    (hload : ∀ (c i : Nat) (hc : c < chans.length) (hi : i < chans[c].length),
      t.loadWord (elem c i) = chans[c][i]) :
    s.NumerrAfter t elem chans.length n := by
  unfold State.NumerrAfter
  rw [hflag, Bool.or_eq_true, anyNonFinite_flatten_iff]
  refine or_congr_right ⟨?_, ?_⟩
  · rintro ⟨c, hc, i, hi, hnf⟩
    exact ⟨c, hc, i, hlen _ (List.getElem_mem hc) ▸ hi, by rwa [hload c i hc hi]⟩
  · rintro ⟨c, hc, i, hi, hnf⟩
    have hi' : i < chans[c].length := (hlen _ (List.getElem_mem hc)).symm ▸ hi
    exact ⟨c, hc, i, hi', by rwa [← hload c i hc hi']⟩

end Store

/-! ### Per-channel states -/

/-- An entry after the first entries were replaced. -/
theorem getD_replaceFirst {α : Type} (new old : List α) (c : Nat) (d : α) :
    (replaceFirst new old).getD c d = if c < new.length then new.getD c d else old.getD c d := by
  simp only [List.getD_eq_getElem?_getD, replaceFirst, List.getElem?_append, List.getElem?_drop]
  split
  · rfl
  · next h => rw [Nat.add_sub_cancel' (not_lt.mp h)]

/-- An entry of a list with one value per channel. -/
theorem getD_map_range {α : Type} (f : Nat → α) {n c : Nat} (hc : c < n) (d : α) :
    ((List.range n).map f).getD c d = f c := by
  rw [List.getD_eq_getElem _ _ (by simpa using hc)]
  simp

/-- An entry after the first `n` channels took new values. -/
theorem getD_replaceFirst_map_range {α : Type} (f : Nat → α) (n : Nat) (old : List α) (c : Nat)
    (d : α) :
    (replaceFirst ((List.range n).map f) old).getD c d = if c < n then f c else old.getD c d := by
  rw [getD_replaceFirst, List.length_map, List.length_range]
  split
  · next hc => exact getD_map_range f hc d
  · rfl

end Sys2Proof.Machine
end

section
/-! PROOF. UPSAMPLE of a base-rate or transitional block (44_orchestrator.md R210 to R213): the toggle
and the copy. -/

namespace Sys2Proof.Machine

/-! ### The command -/

/-- UPSAMPLE of a block in range on a prepared machine completes (44_orchestrator.md R210). -/
theorem exec_upsample {s : State} {n : BitVec 16} (hp : s.prepared = true) (h1 : 1 ≤ n.toNat)
    (hmax : n.toNat ≤ s.params.blkMax) :
    exec (.upsample n) s = .next (upsampleRun n.toNat s).completed :=
  exec_of_ok (i := .upsample n) rfl
    ((upsampleBody_ok_iff _ s _).mpr ⟨hp, (blockInRange_iff _ _).mpr ⟨h1, hmax⟩, rfl⟩)

theorem transitional_iff (s : State) : s.transitional = true ↔ s.TransitionalNow := by
  simp [State.transitional, State.TransitionalNow]

/-! ### The toggle -/

/-- ACTIVE after the toggle: the sampled request, unless a re-prepare is owed. -/
theorem active_applyToggle (s : State) :
    s.applyToggle.active = if s.prepareReq then s.active else s.reqSnap := by
  unfold State.applyToggle
  split
  · rfl
  · split
    · rfl
    · next heq => exact (by simpa using heq : s.reqSnap = s.active).symm

/-- After the toggle a transitional block owes a re-prepare. -/
theorem prepareReq_applyToggle_eq (s : State) : s.applyToggle.prepareReq = s.transitional := by
  cases ht : s.transitional with
  | true => exact prepareReq_applyToggle ht
  | false =>
    obtain ⟨hr, htog⟩ := applyToggle_of_not_transitional ht
    rw [htog]
    exact hr

/-- A toggle that is applied dirties the oversampler's latency. -/
theorem osDirty_applyToggle (s : State) :
    s.applyToggle.osDirty = (s.osDirty || (!s.prepareReq && (s.reqSnap != s.active))) := by
  unfold State.applyToggle
  split
  · next hr => simp [hr]
  · next hr =>
    split
    · next hne => simp [hr, hne]
    · next heq => simp [heq]

/-- The toggle, written out (44_orchestrator.md R212). -/
theorem applyToggle_written_out (s : State) :
    s.applyToggle = { s with
      active := if s.prepareReq then s.active else s.reqSnap
      prepareReq := s.prepareReq || (s.reqSnap != s.active)
      osDirty := s.osDirty || (!s.prepareReq && (s.reqSnap != s.active))
      lastTrans := s.prepareReq || (s.reqSnap != s.active) } := by
  rw [applyToggle_eq, active_applyToggle, prepareReq_applyToggle_eq, osDirty_applyToggle,
    applyToggle_lastTrans, State.transitional]

theorem readByte_applyToggle (s : State) (a : Nat) : s.applyToggle.readByte a = s.readByte a := by
  rw [applyToggle_eq]; rfl

theorem loadWord_applyToggle (s : State) (a : Nat) : s.applyToggle.loadWord a = s.loadWord a := by
  rw [applyToggle_eq]; rfl

/-! ### The base-rate copy -/

/-- The scratch channels that the base-rate copy writes (44_orchestrator.md R213). -/
def State.upCopies (s : State) (n : Nat) : List (List Word) :=
  (List.range s.nchOut.toNat).map (fun c => s.inBlock (inputOf s.nchIn.toNat c) n)

@[simp] theorem length_upCopies (s : State) (n : Nat) : (s.upCopies n).length = s.nchOut.toNat := by
  simp [State.upCopies]

theorem length_of_mem_upCopies {s : State} {n : Nat} : ∀ ws ∈ s.upCopies n, ws.length = n := by
  intro ws hws
  obtain ⟨c, -, rfl⟩ := List.mem_map.mp hws
  exact length_inBlock ..

theorem getElem_upCopies (s : State) (n : Nat) {c : Nat} (h : c < (s.upCopies n).length) :
    (s.upCopies n)[c] = s.inBlock (inputOf s.nchIn.toNat c) n := by simp [State.upCopies]

/-- The copy's samples are those of the input channels, bit for bit. -/
theorem loadWord_copyUp (s : State) {n : Nat} (hn : n ≤ 0x10000) (mode : WMode) {c i : Nat}
    (hc : c < s.nchOut.toNat) (hi : i < n) :
    (s.copyUp n mode).loadWord (scrAddr c i) = s.loadWord (inAddr (inputOf s.nchIn.toNat c) i) := by
  have hc' : c < (s.upCopies n).length := by simpa using hc
  have hi' : i < ((s.upCopies n)[c]).length := by rw [getElem_upCopies]; simpa using hi
  refine (loadWord_setScrChannels length_of_mem_upCopies hn s hc' hi').trans ?_
  simp only [getElem_upCopies, getElem_inBlock]

theorem sameBytesOutside_copyUp (s : State) (n : Nat) (mode : WMode) :
    sameBytesOutside s (s.copyUp n mode) (inChannels scrAddr s.nchOut.toNat n) := fun _ ha =>
  readByte_setScrChannels length_of_mem_upCopies s (by rwa [length_upCopies])

/-- A block that is transitional or at base rate is copied. -/
theorem upsampleRun_copies {s : State} (n : Nat) (h : s.TransitionalNow ∨ s.active = false) :
    upsampleRun n s = s.applyToggle.copyUp n (if s.transitional then .trans else .pass) := by
  unfold upsampleRun
  split
  · rfl
  · next ht =>
    have hbase := h.resolve_left fun h => ht ((transitional_iff s).mpr h)
    rw [if_neg (by simp [hbase])]

/-- Settles O33: the toggle, then the base-rate copy. -/
theorem upsampleCopies : Obligations.UpsampleCopies := by
  intro s n hp hregs hprep h1 hmax hbase
  have hn := block_le hp hmax
  have hrun := upsampleRun_copies n.toNat hbase
  refine ⟨_, exec_upsample hprep h1 hmax, ?_, fun c hc i hi => ?_, fun a ha => ?_⟩
  · rw [hrun, ← BitVec.ofNat_toNat]
    conv_lhs => rw [State.completed, copyUp_eq]
    rw [applyToggle_written_out]
    rfl
  · rw [loadWord_completed, hrun, loadWord_copyUp _ (by omega) _ (by simpa using hc) hi,
      loadWord_applyToggle, applyToggle_nchIn, inputOf]
  · rw [readByte_completed, hrun, sameBytesOutside_copyUp _ _ _ a (by rwa [applyToggle_nchOut]),
      readByte_applyToggle]

end Sys2Proof.Machine
end

section
/-! PROOF. UPSAMPLE of an oversampled block (44_orchestrator.md R211, R214): the x4 path, channel by
channel. -/

namespace Sys2Proof.Machine

/-! ### The channels of the x4 path -/

theorem legalChannels_nchIn {s : State} (h : s.RegistersLegal) :
    legalChannels s.params s.nchIn = true := h.1

/-- At least one channel carries its own input. -/
theorem inputChannels_pos {s : State} (h : s.RegistersLegal) :
    0 < min s.nchIn.toNat s.nchOut.toNat := by
  have hin := ((legalChannels_iff _ _).mp (legalChannels_nchIn h)).1
  have hout := ((legalChannels_iff _ _).mp (legalChannels_nchOut h)).1
  omega

@[simp] theorem length_upChannel (s : State) (c : Nat) (xs : List Word) :
    (s.upChannel c xs).2.2.length = 4 * xs.length := by
  simp [State.upChannel]; omega

@[simp] theorem length_upSamples (s : State) (n : Nat) :
    (s.upSamples n).length = s.nchOut.toNat := by
  simp [State.upSamples]

theorem getElem_upResults (s : State) (n : Nat) {c : Nat} (h : c < (s.upResults n).length) :
    (s.upResults n)[c] = s.upChannel c (s.inBlock c n) := by simp [State.upResults]

/-- Each scratch channel is its own x4 path's, or channel 0's. -/
theorem getElem_upSamples {s : State} (n : Nat) (hpos : 0 < min s.nchIn.toNat s.nchOut.toNat)
    {c : Nat} (h : c < (s.upSamples n).length) :
    (s.upSamples n)[c] =
      (s.upChannel (inputOf (min s.nchIn.toNat s.nchOut.toNat) c)
        (s.inBlock (inputOf (min s.nchIn.toNat s.nchOut.toNat) c) n)).2.2 := by
  simp only [State.upSamples, List.getElem_append, inputOf, List.length_map, length_upResults]
  split
  · simp [getElem_upResults]
  · rw [List.getElem_replicate, List.headD_eq_head?_getD, List.head?_eq_getElem?,
      List.getElem?_eq_getElem (by simpa using hpos)]
    simp [getElem_upResults]

theorem length_of_mem_upSamples {s : State} {n : Nat}
    (hpos : 0 < min s.nchIn.toNat s.nchOut.toNat) : ∀ ws ∈ s.upSamples n, ws.length = 4 * n := by
  intro ws hws
  obtain ⟨c, hc, rfl⟩ := List.getElem_of_mem hws
  rw [getElem_upSamples n hpos, length_upChannel, length_inBlock]

/-! ### What the path leaves -/

section Oversample
variable (s : State) (n : Nat)

theorem readByte_oversample (a : Nat) :
    (s.oversample n).readByte a = (s.setScrChannels (s.upSamples n)).readByte a := rfl

theorem loadWord_oversample (a : Nat) :
    (s.oversample n).loadWord a = (s.setScrChannels (s.upSamples n)).loadWord a := rfl

theorem numerr_oversample :
    (s.oversample n).numerr = (s.numerr || anyNonFinite (s.upSamples n).flatten) :=
  congrArg (· || anyNonFinite (s.upSamples n).flatten) (setScrChannels_numerr s _)

/-- The recursive states of the channels that carry their own input move on; the others stay. -/
theorem rlpLine_oversample (c : Nat) :
    (s.oversample n).rlpLine .up2 c =
      if c < min s.nchIn.toNat s.nchOut.toNat then (s.upChannel c (s.inBlock c n)).1
      else s.rlpLine .up2 c := by
  rw [oversample_eq]
  show (replaceFirst ((s.upResults n).map Prod.fst) s.rlpUp2).getD c [] = _
  rw [State.upResults, List.map_map]
  exact getD_replaceFirst_map_range ..

theorem firLine_oversample (c : Nat) :
    (s.oversample n).firLine .up4 c =
      if c < min s.nchIn.toNat s.nchOut.toNat then (s.upChannel c (s.inBlock c n)).2.1
      else s.firLine .up4 c := by
  rw [oversample_eq]
  show (replaceFirst ((s.upResults n).map (Prod.fst ∘ Prod.snd)) s.firUp4).getD c FirLine.zero = _
  rw [State.upResults, List.map_map]
  exact getD_replaceFirst_map_range ..

variable {s n} (hpos : 0 < min s.nchIn.toNat s.nchOut.toNat)
include hpos

theorem sameBytesOutside_oversample :
    sameBytesOutside s (s.oversample n) (inChannels scrAddr s.nchOut.toNat (4 * n)) := fun a ha => by
  rw [readByte_oversample,
    readByte_setScrChannels (length_of_mem_upSamples hpos) s (by rwa [length_upSamples])]

variable (hn : 4 * n ≤ 0x10000)
include hn

theorem scrBlock_oversample {c : Nat} (hc : c < s.nchOut.toNat) :
    (s.oversample n).scrBlock c (4 * n) =
      (s.upChannel (inputOf (min s.nchIn.toNat s.nchOut.toNat) c)
        (s.inBlock (inputOf (min s.nchIn.toNat s.nchOut.toNat) c) n)).2.2 := by
  have hc' : c < (s.upSamples n).length := by simpa using hc
  rw [← getElem_upSamples n hpos hc']
  have hlen := length_of_mem_upSamples hpos _ (List.getElem_mem hc')
  refine List.ext_getElem (by rw [length_scrBlock, hlen]) fun i hi hi' => ?_
  rw [getElem_scrBlock, loadWord_oversample,
    loadWord_setScrChannels (length_of_mem_upSamples hpos) hn s hc' hi']

theorem numerrAfter_oversample :
    s.NumerrAfter (s.oversample n) scrAddr s.nchOut.toNat (4 * n) := by
  rw [← length_upSamples s n]
  exact numerrAfter_of_channels (length_of_mem_upSamples hpos) (numerr_oversample s n)
    fun c i hc hi => loadWord_setScrChannels (length_of_mem_upSamples hpos) hn s hc hi

end Oversample

/-! ### The statement -/

theorem upsampleRun_oversamples {s : State} (n : Nat) (ht : ¬ s.TransitionalNow)
    (ha : s.active = true) :
    upsampleRun n s = State.oversample { s with lastTrans := false } n := by
  have ht' : s.transitional = false := Bool.eq_false_iff.mpr fun h => ht ((transitional_iff s).mp h)
  unfold upsampleRun
  rw [if_neg (by simp [ht']), if_pos ha, (applyToggle_of_not_transitional ht').2]

/-- Settles O34: nothing is toggled, and the x4 path runs. -/
theorem upsampleOversamples : Obligations.UpsampleOversamples := by
  intro s n hinv hprep h1 hmax ht ha
  have hn := block_le hinv.1 hmax
  have hpos := inputChannels_pos (registersLegal_of_inv hinv)
  have hrun := upsampleRun_oversamples n.toNat ht ha
  have hblock := fun c => scrBlock_oversample (s := { s with lastTrans := false }) (n := n.toNat)
    hpos (by omega) (c := c)
  have hrlp := rlpLine_oversample { s with lastTrans := false } n.toNat
  have hfir := firLine_oversample { s with lastTrans := false } n.toNat
  refine ⟨_, exec_upsample hprep h1 hmax, ?_, ?_, ?_, ?_, ?_⟩
  all_goals rw [hrun]
  · rw [← BitVec.ofNat_toNat]
    conv_lhs => rw [State.completed, oversample_eq]
    rfl
  · intro c hc
    have hin : (List.range n.toNat).map (fun i => s.loadWord (inAddr c i)) = s.inBlock c n.toNat :=
      List.ext_getElem (by simp) fun i _ _ => by rw [getElem_inBlock]; simp
    have hcown := hblock c (lt_of_lt_of_le hc (min_le_right _ _))
    rw [inputOf, if_pos hc] at hcown
    rw [hin]
    exact ⟨(hrlp c).trans (if_pos hc), (hfir c).trans (if_pos hc), hcown⟩
  · intro c hc
    refine ⟨(hrlp c).trans (if_neg hc.not_gt), (hfir c).trans (if_neg hc.not_gt), fun hout => ?_⟩
    have h0 := hblock 0 (lt_of_lt_of_le hpos (min_le_right _ _))
    have hcopy := hblock c hout
    rw [inputOf, if_pos hpos] at h0
    rw [inputOf, if_neg hc.not_gt] at hcopy
    exact hcopy.trans h0.symm
  · exact numerrAfter_oversample (s := { s with lastTrans := false }) hpos (by omega)
  · exact sameBytesOutside_oversample (s := { s with lastTrans := false }) hpos

end Sys2Proof.Machine
end

section
/-! PROOF. DOWNSAMPLE (44_orchestrator.md R215 to R218): the base-rate copy and the x4 down path. -/

namespace Sys2Proof.Machine

/-! ### The command -/

/-- DOWNSAMPLE of a work buffer on a prepared machine completes (44_orchestrator.md R215). -/
theorem exec_downsample {s : State} (hp : s.prepared = true) (hw : s.wmode ≠ .none) :
    exec .downsample s = .next (downsampleRun s).completed :=
  exec_of_ok (i := .downsample) rfl ((downsampleBody_ok_iff s _).mpr ⟨hp, hw, rfl⟩)

/-! ### The output channels -/

/-- An output channel is the buffer's channel, or channel 0 (44_orchestrator.md R216, R217). -/
theorem getElem_outputChannels_map (m : Nat) {n : Nat} (hn : 0 < n) (f : Nat → List Word) {o : Nat}
    (h : o < (outputChannels m ((List.range n).map f)).length) :
    (outputChannels m ((List.range n).map f))[o] = f (inputOf n o) := by
  have hin : inputOf n o < n := by unfold inputOf; split <;> omega
  simp only [outputChannels, List.getElem_map, List.getElem_range, List.length_map,
    List.length_range]
  exact getD_map_range f hin []

section Output
variable {m n k : Nat} (hn : 0 < n) {f : Nat → List Word} (hf : ∀ c, (f c).length = k)
include hn hf

theorem length_of_mem_outputChannels :
    ∀ ws ∈ outputChannels m ((List.range n).map f), ws.length = k := by
  intro ws hws
  obtain ⟨o, ho, rfl⟩ := List.getElem_of_mem hws
  rw [getElem_outputChannels_map m hn, hf]

/-- An output channel that was stored reads back. -/
theorem loadBlock_setOutChannels (hk : k ≤ 0x3FFF) (s : State) {o : Nat} (ho : o < m) :
    (s.setOutChannels (outputChannels m ((List.range n).map f))).loadBlock (outAddr o 0) k =
      f (inputOf n o) := by
  have ho' : o < (outputChannels m ((List.range n).map f)).length := by simpa using ho
  rw [← getElem_outputChannels_map m hn f ho']
  have hlen := length_of_mem_outputChannels (m := m) hn hf
  have hlo := hlen _ (List.getElem_mem ho')
  refine List.ext_getElem (by rw [length_loadBlock, hlo]) fun i hi hi' => ?_
  rw [getElem_loadBlock, ← outAddr_eq, loadWord_setOutChannels hlen hk s ho' hi']

end Output

/-! ### The base-rate copy -/

section Copy
variable {s : State} (hch : 0 < s.wch.toNat)
include hch

theorem length_of_mem_downCopies : ∀ ws ∈ s.downCopies, ws.length = s.wn.toNat :=
  length_of_mem_outputChannels hch fun _ => length_scrBlock ..

theorem sameBytesOutside_copyDown :
    sameBytesOutside s s.copyDown (inChannels outAddr s.nchOut.toNat s.wn.toNat) := fun a ha => by
  have h := readByte_setOutChannels (length_of_mem_downCopies hch) s (a := a)
    (by rwa [State.downCopies, length_outputChannels])
  exact h

variable (hn : s.wn.toNat ≤ 0x3FFF)
include hn

/-- The copy's samples are those of the work buffer, bit for bit. -/
theorem loadWord_copyDown {o i : Nat} (ho : o < s.nchOut.toNat) (hi : i < s.wn.toNat) :
    s.copyDown.loadWord (outAddr o i) = s.loadWord (scrAddr (inputOf s.wch.toNat o) i) := by
  have ho' : o < s.downCopies.length := by rwa [State.downCopies, length_outputChannels]
  have hchan : s.downCopies[o] = s.scrBlock (inputOf s.wch.toNat o) s.wn.toNat :=
    getElem_outputChannels_map _ hch _ ho'
  have hi' : i < s.downCopies[o].length := by rwa [hchan, length_scrBlock]
  refine (loadWord_setOutChannels (length_of_mem_downCopies hch) hn s ho' hi').trans ?_
  simp only [hchan, getElem_scrBlock]

theorem numerrAfter_copyDown :
    s.NumerrAfter s.copyDown outAddr s.nchOut.toNat s.wn.toNat := by
  have hlen : s.downCopies.length = s.nchOut.toNat := length_outputChannels ..
  rw [← hlen]
  exact numerrAfter_of_channels (length_of_mem_downCopies hch)
    (congrArg (· || anyNonFinite s.downCopies.flatten) (setOutChannels_numerr s _))
    fun c i hc hi => loadWord_setOutChannels (length_of_mem_downCopies hch) hn s hc hi

end Copy

/-- Settles O35: the base-rate copy of a legal work buffer. -/
theorem downsampleCopies : Obligations.DownsampleCopies := by
  intro s hinv hprep hmode
  have hne : s.wmode ≠ .none := by rcases hmode with h | h <;> rw [h] <;> decide
  have hne4 : s.wmode ≠ .os4 := by rcases hmode with h | h <;> rw [h] <;> decide
  obtain ⟨-, hblk, hch, -⟩ := workBufferLegal_of_inv hinv hne
  have hn := block_le hinv.1 hblk
  have hrun : downsampleRun s = s.copyDown := if_neg hne4
  refine ⟨_, exec_downsample hprep hne, ?_, fun o ho i hi => ?_, ?_, ?_⟩
  all_goals rw [hrun]
  · rw [State.completed, copyDown_eq]
  · exact loadWord_copyDown hch hn ho hi
  · exact numerrAfter_copyDown hch hn
  · exact sameBytesOutside_copyDown hch

/-! ### The x4 down path -/

theorem length_downChannel (s : State) (c n : Nat) :
    (s.downChannel c (s.scrBlock c (4 * n))).2.2.length = n := by
  simp [State.downChannel]; omega

theorem downSamples_def (s : State) :
    s.downSamples = outputChannels s.nchOut.toNat ((List.range s.wch.toNat).map fun c =>
      (s.downChannel c (s.scrBlock c (4 * s.wn.toNat))).2.2) := by
  rw [State.downSamples, State.downResults, List.map_map]
  rfl

section Decimate
variable (s : State)

/-- The convolution states of the buffer's channels move on; the others stay. -/
theorem firLine_decimate (c : Nat) :
    s.decimate.firLine .dn4 c =
      if c < s.wch.toNat then (s.downChannel c (s.scrBlock c (4 * s.wn.toNat))).1
      else s.firLine .dn4 c := by
  rw [decimate_eq]
  show (replaceFirst (s.downResults.map Prod.fst) s.firDn4).getD c FirLine.zero = _
  rw [State.downResults, List.map_map]
  exact getD_replaceFirst_map_range ..

theorem rlpLine_decimate (c : Nat) :
    s.decimate.rlpLine .dn2 c =
      if c < s.wch.toNat then (s.downChannel c (s.scrBlock c (4 * s.wn.toNat))).2.1
      else s.rlpLine .dn2 c := by
  rw [decimate_eq]
  show (replaceFirst (s.downResults.map (Prod.fst ∘ Prod.snd)) s.rlpDn2).getD c [] = _
  rw [State.downResults, List.map_map]
  exact getD_replaceFirst_map_range ..

variable {s} (hch : 0 < s.wch.toNat)
include hch

theorem length_of_mem_downSamples : ∀ ws ∈ s.downSamples, ws.length = s.wn.toNat := by
  rw [downSamples_def]
  exact length_of_mem_outputChannels hch fun c => length_downChannel s c _

theorem sameBytesOutside_decimate :
    sameBytesOutside s s.decimate (inChannels outAddr s.nchOut.toNat s.wn.toNat) := fun a ha => by
  have h := readByte_setOutChannels (length_of_mem_downSamples hch) s (a := a)
    (by rwa [State.downSamples, length_outputChannels])
  exact h

variable (hn : s.wn.toNat ≤ 0x3FFF)
include hn

theorem loadBlock_decimate {o : Nat} (ho : o < s.nchOut.toNat) :
    s.decimate.loadBlock (outAddr o 0) s.wn.toNat =
      (s.downChannel (inputOf s.wch.toNat o)
        (s.scrBlock (inputOf s.wch.toNat o) (4 * s.wn.toNat))).2.2 := by
  have h := loadBlock_setOutChannels hch (fun c => length_downChannel s c _) hn s ho
  rw [← downSamples_def] at h
  exact h

theorem numerrAfter_decimate :
    s.NumerrAfter s.decimate outAddr s.nchOut.toNat s.wn.toNat := by
  have hlen : s.downSamples.length = s.nchOut.toNat := length_outputChannels ..
  rw [← hlen]
  exact numerrAfter_of_channels (length_of_mem_downSamples hch)
    (congrArg (· || anyNonFinite s.downSamples.flatten) (setOutChannels_numerr s _))
    fun c i hc hi => loadWord_setOutChannels (length_of_mem_downSamples hch) hn s hc hi

end Decimate

/-- Settles O36: the x4 down path of a legal work buffer. -/
theorem downsampleDecimates : Obligations.DownsampleDecimates := by
  intro s hinv hprep hmode stages
  have hne : s.wmode ≠ .none := by rw [hmode]; decide
  obtain ⟨-, hblk, hch, -⟩ := workBufferLegal_of_inv hinv hne
  have hn := block_le hinv.1 hblk
  have hrun : downsampleRun s = s.decimate := if_pos hmode
  have hfir := firLine_decimate s
  have hrlp := rlpLine_decimate s
  refine ⟨_, exec_downsample hprep hne, ?_, fun c hc => ?_, fun c hc => ?_, fun o ho => ?_, ?_, ?_⟩
  all_goals rw [hrun]
  · conv_lhs => rw [State.completed, decimate_eq]
    rfl
  · exact ⟨(hfir c).trans (if_pos hc), (hrlp c).trans (if_pos hc)⟩
  · exact ⟨(hfir c).trans (if_neg hc.not_gt), (hrlp c).trans (if_neg hc.not_gt)⟩
  · exact loadBlock_decimate hch hn ho
  · exact numerrAfter_decimate hch hn
  · exact sameBytesOutside_decimate hch

end Sys2Proof.Machine
end

section
/-! PROOF. PROCESS (44_orchestrator.md R220 to R222, R225): the composition of UPSAMPLE, the selected
effects and DOWNSAMPLE, and the blocks that it copies. -/

namespace Sys2Proof.Machine

/-! ### The command -/

/-- PROCESS of a block in range on a prepared machine completes (44_orchestrator.md R220, R221). -/
theorem exec_process {s : State} {n : BitVec 16} (hp : s.prepared = true) (h1 : 1 ≤ n.toNat)
    (hmax : n.toNat ≤ s.params.blkMax) :
    exec (.process n) s = .next (processRun n.toNat s).completed :=
  exec_of_ok (i := .process n) rfl
    ((processBody_ok_iff _ s _).mpr ⟨hp, (blockInRange_iff _ _).mpr ⟨h1, hmax⟩, rfl⟩)

theorem processRun_def (n : Nat) (s : State) :
    processRun n s = (downsampleRun (if (upsampleRun n s).wmode = .trans then upsampleRun n s
      else runEffects (upsampleRun n s))).flagNumerr (upsampleRun n s).workBuffer.flatten := rfl

theorem after_of_exec {i : Instr} {s t : State} (h : exec i s = .next t) : after i s = t := by
  rw [after, h]

/-! ### The bookkeeping of a command between the parts

A part run as a command leaves DONE set and the ENGINE idle, which no later part reads. -/

theorem storeChannels_completed (addr : Nat → Nat) (chans : List (List Word)) :
    ∀ (s : State) (c : Nat),
      s.completed.storeChannels addr c chans = (s.storeChannels addr c chans).completed := by
  induction chans with
  | nil => intro s c; rfl
  | cons ws rest ih => intro s c; exact ih (s.storeBlock (addr c) ws) (c + 1)

theorem mapWork_completed (s : State) (f : Word → Word) :
    s.completed.mapWork f = (s.mapWork f).completed :=
  congrArg (State.flagNumerr · (s.workBuffer.map (List.map f)).flatten)
    (storeChannels_completed _ _ s 0)

/-- WAVEFOLD maps the work buffer (46_effects.md R260, R262). -/
theorem wavefoldBody_eq (s : State) :
    wavefoldBody s = s.mapWork (wfSample s.params.ftz (wfParams s.params.ftz s.wfDrive).1
      (wfParams s.params.ftz s.wfDrive).2) := rfl

theorem wavefoldBody_completed (s : State) : wavefoldBody s.completed = (wavefoldBody s).completed :=
  mapWork_completed s _

theorem saturateBody_completed (s : State) : saturateBody s.completed = (saturateBody s).completed :=
  mapWork_completed s _

theorem vibratoBody_completed (s : State) : vibratoBody s.completed = (vibratoBody s).completed := by
  rw [vibratoBody_def, vibratoBody_def]
  exact congrArg (State.flagNumerr · (s.vibResults.map Prod.snd).flatten)
    (storeChannels_completed _ (s.vibResults.map Prod.snd) { s with
      vibInc := s.vibIncNow, vph := s.vibFramesNow.2
      vib := replaceFirst (s.vibResults.map Prod.fst) s.vib } 0)

theorem copyDown_completed (s : State) : s.completed.copyDown = s.copyDown.completed := by
  rw [copyDown_def, copyDown_def]
  exact congrArg (fun u : State => State.flagNumerr { u with wmode := .none } s.downCopies.flatten)
    (storeChannels_completed _ s.downCopies s 0)

theorem decimate_completed (s : State) : s.completed.decimate = s.decimate.completed := by
  rw [decimate_def, decimate_def]
  exact congrArg (fun u : State => State.flagNumerr { u with
      firDn4 := replaceFirst (s.downResults.map Prod.fst) s.firDn4
      rlpDn2 := replaceFirst (s.downResults.map (Prod.fst ∘ Prod.snd)) s.rlpDn2
      wmode := .none } s.downSamples.flatten)
    (storeChannels_completed _ s.downSamples s 0)

theorem downsampleRun_completed (s : State) :
    downsampleRun s.completed = (downsampleRun s).completed := by
  unfold downsampleRun
  by_cases h : s.wmode = .os4
  · rw [if_pos h, if_pos (show s.completed.wmode = .os4 from h), decimate_completed]
  · rw [if_neg h, if_neg (show ¬ s.completed.wmode = .os4 from h), copyDown_completed]

/-! ### The selected effects -/

/-- A prepared machine with a work buffer: what the effects and DOWNSAMPLE ask for. -/
def State.HasWork (s : State) : Prop := s.prepared = true ∧ s.wmode ≠ .none

theorem hasWork_mapWork {s : State} (f : Word → Word) (h : s.HasWork) : (s.mapWork f).HasWork :=
  mapWork_eq s f ▸ h

theorem hasWork_vibratoBody {s : State} (h : s.HasWork) : (vibratoBody s).HasWork :=
  vibratoBody_eq s ▸ h

/-- An effect selected or not, as a command and as a part of PROCESS. -/
theorem after_effect_if {i : Instr} {body : State → State} {s : State}
    (hexec : ∀ u, exec i u = finishCommand u (effectChecks u body))
    (hbody : body s.completed = (body s).completed) (h : s.HasWork) (b : Bool) :
    (if b then after i s.completed else s.completed) = (if b then body s else s).completed := by
  split
  · refine after_of_exec ?_
    have hok : effectChecks s.completed body = .ok (body s).completed :=
      (effectChecks_ok_iff s.completed _ body).mpr ⟨h.1, h.2, hbody.symm⟩
    rw [hexec, hok]
    rfl
  · rfl

/-- The effect commands one by one are the effects of PROCESS (44_orchestrator.md R222). -/
theorem afterSelectedEffects_completed {s : State} (h : s.HasWork) :
    afterSelectedEffects s.completed = (runEffects s).completed := by
  have hfold := after_effect_if (i := .wavefold) (fun _ => rfl) (wavefoldBody_completed s) h
    (s.fxCtrl.getLsbD 0)
  have h1 := keeps_optional (P := State.HasWork) (f := wavefoldBody)
    (fun _ hu => hasWork_mapWork _ hu) h (s.fxCtrl.getLsbD 0)
  unfold afterSelectedEffects runEffects
  dsimp only
  rw [show s.completed.fxCtrl = s.fxCtrl from rfl, hfold]
  generalize (if s.fxCtrl.getLsbD 0 then wavefoldBody s else s) = u at h1 ⊢
  have hsat := after_effect_if (i := .saturate) (fun _ => rfl) (saturateBody_completed u) h1
    (u.fxCtrl.getLsbD 1)
  have h2 := keeps_optional (P := State.HasWork) (f := saturateBody)
    (fun _ hu => hasWork_mapWork _ hu) h1 (u.fxCtrl.getLsbD 1)
  rw [show u.completed.fxCtrl = u.fxCtrl from rfl, hsat]
  generalize (if u.fxCtrl.getLsbD 1 then saturateBody u else u) = v at h2 ⊢
  exact after_effect_if (i := .vibrato) (fun _ => rfl) (vibratoBody_completed v) h2
    (v.fxCtrl.getLsbD 2)

theorem hasWork_runEffects {s : State} (h : s.HasWork) : (runEffects s).HasWork :=
  keeps_optional (fun _ hu => hasWork_vibratoBody hu) (keeps_optional
    (fun _ hu => hasWork_mapWork _ hu) (keeps_optional (fun _ hu => hasWork_mapWork _ hu) h _) _) _

/-- UPSAMPLE leaves a work buffer. -/
theorem hasWork_upsampleRun {s : State} (n : Nat) (hp : s.prepared = true) :
    (upsampleRun n s).HasWork := by
  have hp' : s.applyToggle.prepared = true := by rwa [applyToggle_prepared]
  refine upsampleRun_cases (fun _ => ?_) (fun _ _ => ?_) (fun _ _ => ?_)
  · rw [copyUp_eq]; exact ⟨hp', nofun⟩
  · rw [oversample_eq]; exact ⟨hp', nofun⟩
  · rw [copyUp_eq]; exact ⟨hp', nofun⟩

/-! ### The composition -/

/-- A non-finite sample of the work buffer, by the addresses that are read. -/
theorem anyNonFinite_workBuffer (s : State) :
    anyNonFinite s.workBuffer.flatten = (List.range s.wch.toNat).any (fun c =>
      (List.range s.wlen.toNat).any (fun i => !isFinite (s.loadWord (scrAddr c i)))) := by
  simp only [anyNonFinite, State.workBuffer, State.scrBlock, State.loadBlock, List.any_flatten,
    List.any_map, Function.comp_def, ← scrAddr_eq]

/-- Settles O37: each part leaves as a command what it leaves inside PROCESS, DONE and the ENGINE's
phase aside. -/
theorem processEqualsSplitPath : Obligations.ProcessEqualsSplitPath := by
  intro s n hp h1 hmax u e d
  have hu : u = (upsampleRun n.toNat s).completed := after_of_exec (exec_upsample hp h1 hmax)
  have hwork := hasWork_upsampleRun n.toNat hp
  rw [exec_process hp h1 hmax, processRun_def]
  generalize upsampleRun n.toNat s = v at hu hwork ⊢
  have he : e = State.completed (if v.wmode = .trans then v else runEffects v) := by
    show (if u.wmode = .trans then u else afterSelectedEffects u) = _
    rw [hu, afterSelectedEffects_completed hwork, apply_ite State.completed]
    rfl
  have hwork' : State.HasWork (if v.wmode = .trans then v else runEffects v) := by
    split
    · exact hwork
    · exact hasWork_runEffects hwork
  generalize (if v.wmode = .trans then v else runEffects v) = w at he hwork' ⊢
  have hd : d = (downsampleRun w).completed := by
    refine after_of_exec ?_
    rw [he, exec_downsample (s := w.completed) hwork'.1 hwork'.2, downsampleRun_completed]
    rfl
  rw [hd, hu]
  show _ = Host.Outcome.next { (downsampleRun w).completed with
    numerr := (downsampleRun w).numerr || (List.range v.wch.toNat).any (fun c =>
      (List.range v.wlen.toNat).any (fun i => !isFinite (v.loadWord (scrAddr c i)))) }
  rw [← anyNonFinite_workBuffer]
  rfl

/-! ### The blocks that PROCESS copies -/

/-- With no effect selected the effects do nothing. -/
theorem runEffects_of_none {s : State} (h : s.fxCtrl = 0#3) : runEffects s = s := by
  unfold runEffects
  simp [h]

/-- Settles O38: the base-rate copy up, no effect, and the base-rate copy down. -/
theorem processIdentity : Obligations.ProcessIdentity := by
  intro s n hp hregs hprep h1 hmax hcase
  have hn := block_le hp hmax
  have hout := ((legalChannels_iff _ _).mp (legalChannels_nchOut hregs)).1
  have hbase : s.TransitionalNow ∨ s.active = false :=
    hcase.symm.imp_right fun ⟨ha, _⟩ => ha
  have hrun := upsampleRun_copies n.toNat hbase
  have hquiet : (if (upsampleRun n.toNat s).wmode = .trans then upsampleRun n.toNat s
      else runEffects (upsampleRun n.toNat s)) = upsampleRun n.toNat s := by
    split
    · rfl
    · next hmode =>
      refine runEffects_of_none ?_
      rcases hcase with ⟨-, -, -, hfx⟩ | ht
      · rw [upsampleRun_eq]; exact hfx
      · refine absurd ?_ hmode
        rw [hrun, if_pos ((transitional_iff s).mpr ht)]
        rfl
  have hmode : (upsampleRun n.toNat s).wmode ≠ .os4 := by
    rw [hrun]
    show (if s.transitional then WMode.trans else WMode.pass) ≠ .os4
    split <;> decide
  have hdown : downsampleRun (upsampleRun n.toNat s) = (upsampleRun n.toNat s).copyDown :=
    if_neg hmode
  have hch : (upsampleRun n.toNat s).wch = s.nchOut := by
    rw [hrun]; exact applyToggle_nchOut s
  have hnch : (upsampleRun n.toNat s).nchOut = s.nchOut := by rw [upsampleRun_eq]
  have hwn : (upsampleRun n.toNat s).wn.toNat = n.toNat := by
    rw [hrun]
    show (BitVec.ofNat 32 n.toNat).toNat = n.toNat
    rw [BitVec.toNat_ofNat, Nat.mod_eq_of_lt (by omega)]
  refine ⟨_, exec_process hprep h1 hmax, fun o ho i hi => ?_, fun a ha => ?_⟩
  all_goals rw [processRun_def, hquiet, hdown]
  · rw [loadWord_completed, loadWord_flagNumerr, loadWord_copyDown (by rw [hch]; omega)
      (by omega) (by rwa [hnch]) (by rwa [hwn]), hch, inputOf, if_pos ho, hrun,
      loadWord_copyUp _ (by omega) _ (by rwa [applyToggle_nchOut]) hi, loadWord_applyToggle,
      applyToggle_nchIn]
    congr 2
    unfold inputOf
    split <;> split <;> omega
  · obtain ⟨hscr, hout'⟩ := not_or.mp ha
    rw [readByte_completed, readByte_flagNumerr,
      sameBytesOutside_copyDown (by rw [hch]; omega) a (by rwa [hnch, hwn]), hrun,
      sameBytesOutside_copyUp _ _ _ a (by rwa [applyToggle_nchOut]), readByte_applyToggle]

end Sys2Proof.Machine
end

section
/-! PROOF. ACTIVE changes only by the toggle (44_orchestrator.md R212, R231). -/

namespace Sys2Proof.Machine

/-! ### The four fields of the toggle -/

/-- ACTIVE, PREPARE_REQ, OS_DIRTY and LAST_TRANS are the same in both states. -/
def SameToggle (s t : State) : Prop :=
  t.active = s.active ∧ t.prepareReq = s.prepareReq ∧ t.osDirty = s.osDirty ∧
    t.lastTrans = s.lastTrans

theorem sameToggle_mapWork {s u : State} (f : Word → Word) (h : SameToggle s u) :
    SameToggle s (u.mapWork f) := mapWork_eq u f ▸ h

theorem sameToggle_vibratoBody {s u : State} (h : SameToggle s u) :
    SameToggle s (vibratoBody u) := vibratoBody_eq u ▸ h

theorem sameToggle_downsampleRun {s u : State} (h : SameToggle s u) :
    SameToggle s (downsampleRun u) := downsampleRun_eq u ▸ h

theorem sameToggle_runEffects {s u : State} (h : SameToggle s u) : SameToggle s (runEffects u) :=
  keeps_optional (fun _ hu => sameToggle_vibratoBody hu) (keeps_optional
    (fun _ hu => sameToggle_mapWork _ hu) (keeps_optional (fun _ hu => sameToggle_mapWork _ hu) h _)
    _) _

/-- UPSAMPLE leaves them as its toggle does. -/
theorem sameToggle_upsampleRun (n : Nat) (s : State) :
    SameToggle s.applyToggle (upsampleRun n s) := by
  refine upsampleRun_cases (fun _ => ?_) (fun _ _ => ?_) (fun _ _ => ?_)
  · rw [copyUp_eq]; exact ⟨rfl, rfl, rfl, rfl⟩
  · rw [oversample_eq]; exact ⟨rfl, rfl, rfl, rfl⟩
  · rw [copyUp_eq]; exact ⟨rfl, rfl, rfl, rfl⟩

/-- PROCESS leaves them as UPSAMPLE does. -/
theorem sameToggle_processRun (n : Nat) (s : State) :
    SameToggle s.applyToggle (processRun n s) := by
  have hup := sameToggle_upsampleRun n s
  rw [processRun_def]
  refine sameToggle_downsampleRun (?_ : SameToggle s.applyToggle _)
  split
  · exact hup
  · exact sameToggle_runEffects hup

/-- The toggle of 44_orchestrator.md R212 was applied between the states. -/
def Toggled (s t : State) : Prop :=
  s.prepareReq = false ∧ s.reqSnap ≠ s.active ∧ t.active = s.reqSnap ∧ t.prepareReq = true ∧
    t.osDirty = true ∧ t.lastTrans = true

/-- Where the toggle changes ACTIVE it was applied. -/
theorem toggled_of_sameToggle {s t : State} (h : SameToggle s.applyToggle t)
    (hne : t.active ≠ s.active) : Toggled s t := by
  obtain ⟨ha, hr, hd, hl⟩ := h
  rw [active_applyToggle] at ha
  have hreq : s.prepareReq = false :=
    Bool.eq_false_iff.mpr fun hreq => hne (ha.trans (if_pos hreq))
  rw [if_neg (by simp [hreq])] at ha
  have hsnap : s.reqSnap ≠ s.active := fun he => hne (ha.trans he)
  have ht : s.transitional = true := (transitional_iff s).mpr (.inr hsnap)
  refine ⟨hreq, hsnap, ha, ?_, ?_, ?_⟩
  · rw [hr, prepareReq_applyToggle_eq, ht]
  · rw [hd, osDirty_applyToggle]; simp [hreq, hsnap]
  · rw [hl, applyToggle_lastTrans, ht]

/-! ### The commands -/

/-- An UPSAMPLE or PROCESS in range on a prepared machine that toggles. -/
def CommandToggles (i : Instr) (s t : State) : Prop :=
  (∃ n, (i = .upsample n ∨ i = .process n) ∧ 1 ≤ n.toNat ∧ n.toNat ≤ s.params.blkMax) ∧
    s.prepared = true ∧ Toggled s t

/-- What a body that passed its check completed with. -/
theorem eq_of_ite_ok {c : Prop} [Decidable c] {a u : State} {e : ErrorCode}
    (h : (if c then Except.ok a else .error e) = .ok u) : u = a := by
  split at h
  · exact (Except.ok.inj h).symm
  · cases h

/-- A completed command that changes ACTIVE toggles. -/
theorem commandToggles_of_commandBody {i : Instr} {s u : State} (h : commandBody i s = .ok u)
    (hne : u.active ≠ s.active) : CommandToggles i s u := by
  cases i with
  | upsample n =>
    obtain ⟨hp, hn, rfl⟩ := (upsampleBody_ok_iff _ s u).mp h
    exact ⟨⟨n, .inl rfl, (blockInRange_iff _ _).mp hn⟩, hp,
      toggled_of_sameToggle (sameToggle_upsampleRun _ s) hne⟩
  | process n =>
    obtain ⟨hp, hn, rfl⟩ := (processBody_ok_iff _ s u).mp h
    exact ⟨⟨n, .inr rfl, (blockInRange_iff _ _).mp hn⟩, hp,
      toggled_of_sameToggle (sameToggle_processRun _ s) hne⟩
  | nop => exact absurd (congrArg State.active (Except.ok.inj h).symm) hne
  | prepare =>
    obtain ⟨r, -, rfl⟩ := (prepareBody_ok_iff s u).mp h
    exact absurd (applyPrepare_active s r) hne
  | downsample =>
    obtain ⟨-, -, rfl⟩ := (downsampleBody_ok_iff s u).mp h
    exact absurd (by rw [downsampleRun_eq]) hne
  | wavefold =>
    obtain ⟨-, -, rfl⟩ := (effectChecks_ok_iff s u _).mp h
    exact absurd (by rw [wavefoldBody_eq, mapWork_eq]) hne
  | saturate =>
    obtain ⟨-, -, rfl⟩ := (effectChecks_ok_iff s u _).mp h
    exact absurd (by rw [saturateBody_eq, mapWork_eq]) hne
  | vibrato =>
    obtain ⟨-, -, rfl⟩ := (effectChecks_ok_iff s u _).mp h
    exact absurd (by rw [vibratoBody_eq]) hne
  | convDirect stg ch n =>
    obtain ⟨g, hg⟩ := onStage_ok h
    exact absurd (by rw [eq_of_ite_ok hg]; simp) hne
  | convPoly stg ch n =>
    obtain ⟨g, hg⟩ := onStage_ok h
    exact absurd (by rw [eq_of_ite_ok hg]; simp) hne
  | rlpRun stg ch n =>
    obtain ⟨g, hg⟩ := onStage_ok h
    exact absurd (by rw [eq_of_ite_ok hg]; simp) hne
  | setEnabled | latTick => cases h

/-! ### The turns -/

/-- A turn of the ENGINE that changes ACTIVE is the FINISH step of a command that toggles. -/
theorem commandToggles_of_engineTurn {s t : State} (h : engineTurn s = .next t)
    (hne : t.active ≠ s.active) :
    s.engPhase = .started ∧ ∃ i, decode ⟨cmdAddr, s.pendCmd⟩ = .ok i ∧ CommandToggles i s t := by
  cases hphase : s.engPhase with
  | idle =>
    rw [engineTurn, hphase] at h
    exact absurd (congrArg State.active (Host.Outcome.next.inj h).symm) hne
  | queued =>
    rw [engineTurn, hphase] at h
    exact absurd (congrArg State.active (Host.Outcome.next.inj h).symm) hne
  | started =>
    cases hd : decode ⟨cmdAddr, s.pendCmd⟩ with
    | error e =>
      rw [engineTurn_of_illegal hphase hd] at h
      exact absurd (congrArg State.active (Host.Outcome.next.inj h).symm) hne
    | ok i =>
      rw [engineTurn_of_decode hphase hd,
        exec_eq_finishCommand (namesCommand_decodeCmd s.pendCmd i hd)] at h
      obtain ⟨u, hu, rfl⟩ | ⟨e, -, rfl⟩ := finishCommand_cases h
      · have htoggles : CommandToggles i s u := commandToggles_of_commandBody hu hne
        exact ⟨rfl, i, rfl, htoggles⟩
      · exact absurd rfl hne

/-- No register write changes ACTIVE. -/
theorem active_writeReg (s : State) (v : Word) (r : Reg) : (s.writeReg v r).active = s.active := by
  cases r with
  | status => rw [State.writeReg, writeStatus_eq]
  | latTick => rw [State.writeReg, latTick_eq]
  | _ => rfl

/-- No bus access changes ACTIVE. -/
theorem active_busTurn {s t : State} {a : BusAccess} (h : busTurn a s = .next t) :
    t.active = s.active := by
  cases hc : checkAccess s a with
  | error e =>
    rw [busTurn_error hc] at h
    obtain rfl := Host.Outcome.next.inj h
    rfl
  | ok u =>
    rw [busTurn_ok hc] at h
    refine (congrArg State.active (Host.Outcome.next.inj h).symm).trans ?_
    unfold State.performAccess
    split
    · rfl
    · cases u with
      | reg r => exact active_writeReg s a.wdata r
      | element => rfl

/-! ### The statement -/

/-- Settles O54: the bus leaves ACTIVE alone, and the ENGINE's turn toggles. -/
theorem activeChangesOnlyByToggle : Obligations.ActiveChangesOnlyByToggle := by
  intro s t hstep hne
  have htoggle : ∀ rest, s.EngineNext rest → s.engPhase = .started ∧ (∃ rest, s.EngineNext rest) ∧
      (∃ n, (decode ⟨cmdAddr, s.pendCmd⟩ = .ok (.upsample n) ∨
        decode ⟨cmdAddr, s.pendCmd⟩ = .ok (.process n)) ∧
        1 ≤ n.toNat ∧ n.toNat ≤ s.params.blkMax) ∧
      s.prepared = true ∧ Toggled s t := fun rest hnext => by
    obtain ⟨hphase, i, hd, ⟨n, hi, hrange⟩, hp, htog⟩ := commandToggles_of_engineTurn
      (s := { s with inputs := rest }) ((step_engine hnext).symm.trans hstep) hne
    refine ⟨hphase, ⟨rest, hnext⟩, ⟨n, ?_, hrange⟩, hp, htog⟩
    rcases hi with rfl | rfl
    · exact .inl hd
    · exact .inr hd
  cases hin : s.inputs with
  | nil => exact .inr (htoggle [] (.inr ⟨hin, rfl⟩))
  | cons event rest =>
    cases event with
    | engine => exact .inr (htoggle rest (.inl hin))
    | reset => exact .inl ⟨rest, rfl⟩
    | bus a => exact absurd (active_busTurn ((step_bus hin).symm.trans hstep)) hne

end Sys2Proof.Machine
end

section
/-! SUPPORT. Silence (44_orchestrator.md R223): the operations, the filters and the memoryless effects
give +0 for +0 (00_scope.md R14; 42_convolution.md R171, R174; 43_recursive.md R191; 46_effects.md R263,
R271). -/

namespace Sys2Proof.Machine

/-! ### Operations on +0 -/

/-- A product of +0 with a finite word is a zero of the word's sign. -/
theorem fmul_posZero (ftz : Bool) {a : Word} (ha : isFinite a = true) :
    fmul ftz a 0#32 = zero (signBit a) :=
  (fmul_eq_zero ftz ha (isFinite_zero false) (.inr (by simp))).trans (by simp)

theorem posZero_fmul (ftz : Bool) {a : Word} (ha : isFinite a = true) :
    fmul ftz 0#32 a = zero (signBit a) :=
  (fmul_eq_zero ftz (isFinite_zero false) ha (.inl (by simp))).trans (by simp)

/-- +0 takes up a zero of either sign. -/
theorem posZero_fadd (ftz s : Bool) : fadd ftz 0#32 (zero s) = 0#32 :=
  fadd_zero ftz s (isFinite_zero false) (flush_zero ftz false) (by decide)

theorem posZero_fsub (ftz s : Bool) : fsub ftz 0#32 (zero s) = 0#32 := by
  rw [fsub, fneg_zero, posZero_fadd]

/-- A factor under which +0 stays +0: finite, with a clear sign bit. -/
def QuietGain (w : Word) : Prop := isFinite w = true ∧ signBit w = false

theorem QuietGain.fmul_posZero {w : Word} (h : QuietGain w) (ftz : Bool) :
    fmul ftz w 0#32 = 0#32 := by
  rw [Machine.fmul_posZero ftz h.1, h.2]; rfl

theorem QuietGain.posZero_fmul {w : Word} (h : QuietGain w) (ftz : Bool) :
    fmul ftz 0#32 w = 0#32 := by
  rw [Machine.posZero_fmul ftz h.1, h.2]; rfl

/-! ### Silent blocks -/

/-- Every sample is +0. -/
def Silent (xs : List Word) : Prop := ∀ x ∈ xs, x = 0#32

theorem Silent.head {x : Word} {xs : List Word} (h : Silent (x :: xs)) : x = 0#32 :=
  h x (List.mem_cons_self ..)

theorem Silent.tail {x : Word} {xs : List Word} (h : Silent (x :: xs)) : Silent xs :=
  fun y hy => h y (List.mem_cons_of_mem x hy)

theorem silent_nil : Silent [] := nofun

theorem silent_cons {xs : List Word} (h : Silent xs) : Silent (0#32 :: xs) := fun y hy =>
  (List.mem_cons.mp hy).elim id (h y)

theorem silent_map {f : Word → Word} (hf : f 0#32 = 0#32) {xs : List Word} (h : Silent xs) :
    Silent (xs.map f) := fun y hy => by
  obtain ⟨x, hx, rfl⟩ := List.mem_map.mp hy
  rw [h x hx, hf]

theorem silent_zeroStuff {xs : List Word} (h : Silent xs) : Silent (zeroStuff xs) := by
  induction xs with
  | nil => exact silent_nil
  | cons x xs ih =>
    obtain rfl := h.head
    exact silent_cons (silent_cons (ih h.tail))

theorem silent_evens {xs : List Word} (h : Silent xs) : Silent (evens xs) := by
  induction xs using evens.induct with
  | case1 => exact silent_nil
  | case2 x => exact h
  | case3 x y xs ih =>
    obtain rfl := h.head
    exact silent_cons (ih h.tail.tail)

/-! ### Convolution -/

theorem sumProducts_silent (ftz : Bool) {terms : List (Word × Word)}
    (h : ∀ t ∈ terms, isFinite t.1 = true ∧ t.2 = 0#32) : sumProducts ftz terms = 0#32 := by
  unfold sumProducts
  induction terms with
  | nil => rfl
  | cons t terms ih =>
    obtain ⟨hfin, hzero⟩ := h t (List.mem_cons_self ..)
    rw [List.foldl_cons, hzero, fmul_posZero ftz hfin, posZero_fadd]
    exact ih fun u hu => h u (List.mem_cons_of_mem t hu)

theorem FirLine.get_of_hist_nil {l : FirLine} (h : l.hist = []) (k : Nat) : l.get k = 0#32 := by
  unfold FirLine.get
  rw [h]
  rfl

/-- Pushing +0 lists nothing. -/
theorem FirLine.hist_push_zero {l : FirLine} (h : l.hist = []) (k : Nat) :
    (l.push k 0#32).hist = [] := by
  show Store.write FirLine.unlisted l.hist k 0#32 = []
  rw [h]
  rfl

section Fir
variable (ftz : Bool) {taps : Nat → Word} {nt : Nat} (htaps : ∀ k < nt, isFinite (taps k) = true)
  {l : FirLine} (hl : l.hist = [])
include htaps hl

theorem convDirectSample_silent :
    (convDirectSample ftz taps nt l 0#32).1.hist = [] ∧
      (convDirectSample ftz taps nt l 0#32).2 = 0#32 := by
  have hpush := FirLine.hist_push_zero hl (ringNext l.cur nt)
  refine ⟨hpush, sumProducts_silent ftz fun t ht => ?_⟩
  obtain ⟨k, hk, rfl⟩ := List.mem_map.mp ht
  exact ⟨htaps k (List.mem_range.mp hk), FirLine.get_of_hist_nil hpush _⟩

theorem polyEven_silent :
    (polyEven ftz taps nt l 0#32).1.hist = [] ∧ (polyEven ftz taps nt l 0#32).2 = 0#32 := by
  have hpush := FirLine.hist_push_zero hl (ringNext l.cur nt)
  refine ⟨hpush, sumProducts_silent ftz fun t ht => ?_⟩
  obtain ⟨j, hj, rfl⟩ := List.mem_map.mp ht
  have hj' := List.mem_range.mp hj
  exact ⟨htaps (2 * j) (by omega), FirLine.get_of_hist_nil hpush _⟩

theorem polyOdd_silent :
    (polyOdd ftz taps nt l).1.hist = [] ∧ (polyOdd ftz taps nt l).2 = 0#32 := by
  have hpush := FirLine.hist_push_zero hl (ringNext l.cur nt)
  refine ⟨hpush, sumProducts_silent ftz fun t ht => ?_⟩
  obtain ⟨j, hj, rfl⟩ := List.mem_map.mp ht
  have hj' := List.mem_range.mp hj
  exact ⟨htaps (2 * j + 1) (by omega), FirLine.get_of_hist_nil hpush _⟩

omit hl in
theorem convDirectBlock_silent {xs : List Word} (hxs : Silent xs) :
    ∀ l : FirLine, l.hist = [] → Silent (convDirectBlock ftz taps nt l xs).2 := by
  induction xs with
  | nil => exact fun _ _ => silent_nil
  | cons x xs ih =>
    intro l hl
    obtain rfl := hxs.head
    obtain ⟨hline, hout⟩ := convDirectSample_silent ftz htaps hl
    rw [convDirectBlock_cons, hout]
    exact silent_cons (ih hxs.tail _ hline)

omit hl in
theorem convPolyBlock_silent {xs : List Word} (hxs : Silent xs) :
    ∀ l : FirLine, l.hist = [] → Silent (convPolyBlock ftz taps nt l xs).2 := by
  induction xs with
  | nil => exact fun _ _ => silent_nil
  | cons x xs ih =>
    intro l hl
    obtain rfl := hxs.head
    obtain ⟨heven, hout0⟩ := polyEven_silent ftz htaps hl
    obtain ⟨hodd, hout1⟩ := polyOdd_silent ftz htaps heven
    rw [convPolyBlock_cons, polyPair_eq, hout0, hout1]
    exact silent_cons (silent_cons (ih hxs.tail _ hodd))

end Fir

/-! ### The recursive stage -/

/-- Coefficients under which a zeroed section stays silent: finite, with B0's sign bit clear
(log 19). -/
def Coefs.Quiet (k : Coefs) : Prop :=
  isFinite k.b0 = true ∧ isFinite k.b1 = true ∧ isFinite k.b2 = true ∧
    isFinite k.a1 = true ∧ isFinite k.a2 = true ∧ signBit k.b0 = false

theorem biquadSample_silent (ftz : Bool) {k : Coefs} (h : k.Quiet) :
    biquadSample ftz k Biquad.zero 0#32 = (Biquad.zero, 0#32) := by
  obtain ⟨hb0, hb1, hb2, ha1, ha2, hsign⟩ := h
  have hacc : fmul ftz k.b0 0#32 = 0#32 := QuietGain.fmul_posZero ⟨hb0, hsign⟩ ftz
  simp only [biquadSample, Biquad.zero, hacc, fmul_posZero ftz hb1, fmul_posZero ftz hb2,
    fmul_posZero ftz ha1, fmul_posZero ftz ha2, posZero_fadd, posZero_fsub]

section Rlp
variable (ftz : Bool) {coef : Nat → Coefs} {bs : List Biquad} (hbs : ∀ b ∈ bs, b = Biquad.zero)
include hbs

/-- A zeroed cascade stays zeroed. -/
theorem cascadeSample_silent (nsec : Nat) : ∀ q, (∀ p < nsec, (coef (q + p)).Quiet) →
    cascadeSample ftz coef nsec q bs 0#32 = (bs, 0#32) := by
  induction bs generalizing nsec with
  | nil => intro q _; cases nsec <;> rfl
  | cons b bs ih =>
    intro q hq
    cases nsec with
    | zero => rfl
    | succ nsec =>
      obtain rfl := hbs b (List.mem_cons_self ..)
      have hrest := ih (fun c hc => hbs c (List.mem_cons_of_mem _ hc)) nsec (q + 1) fun p hp => by
        rw [Nat.add_assoc, Nat.add_comm 1]
        exact hq (p + 1) (by omega)
      have hfirst := biquadSample_silent ftz (hq 0 (by omega))
      rw [Nat.add_zero] at hfirst
      simp only [cascadeSample, hfirst, hrest]

theorem rlpBlock_silent {nsec : Nat} (hcoef : ∀ q < nsec, (coef q).Quiet) {xs : List Word}
    (hxs : Silent xs) : Silent (rlpBlock ftz coef nsec bs xs).2 := by
  have hsample : rlpSample ftz coef nsec bs 0#32 = (bs, 0#32) :=
    cascadeSample_silent ftz hbs nsec 0 fun p hp => by rw [Nat.zero_add]; exact hcoef p hp
  induction xs with
  | nil => exact silent_nil
  | cons x xs ih =>
    obtain rfl := hxs.head
    rw [rlpBlock_cons, hsample]
    exact silent_cons (ih hxs.tail)

end Rlp

/-! ### Gains from the effect controls -/

theorem signBit_rn32 (neg : Bool) (num : Nat) {den : Nat} (hd : 0 < den) :
    signBit (rn32 neg num den) = neg := by
  rw [rn32_eq neg num hd, signBit_packBits neg ((roundMag_le num den).trans_lt (by decide))]

theorem quietGain_rn32 (ftz : Bool) {num den : Nat} (hd : 0 < den)
    (h : num < den * (pow2 277 - pow2 252)) : QuietGain (flush ftz (rn32 false num den)) := by
  refine ⟨?_, ?_⟩
  · rw [isFinite_flush, isFinite_rn32 false hd h]
  · rw [signBit_flush, signBit_rn32 false num hd]

theorem quietGain_f32One : QuietGain f32One := ⟨rfl, rfl⟩

theorem quietGain_f32Two : QuietGain f32Two := ⟨rfl, rfl⟩

/-- A finite drive clamped to at least 1. -/
theorem clampedDrive_ge_one {drive : Word} (hd : isFinite drive = true) :
    isFinite (if fle f32One drive then drive else f32One) = true ∧
      (pow2 149 : Nat) ≤ unitsOf (if fle f32One drive then drive else f32One) := by
  split
  · next hle =>
    rw [fle_of_keys orderKey_f32One (orderKey_finite hd), decide_eq_true_eq] at hle
    exact ⟨hd, hle⟩
  · exact ⟨isFinite_f32One, unitsOf_f32One.ge⟩

/-- Both parameters of the wavefolder of a finite drive are gains (46_effects.md R262). -/
theorem quietGain_wfParams (ftz : Bool) {drive : Word} (hd : isFinite drive = true) :
    QuietGain (wfParams ftz drive).1 ∧ QuietGain (wfParams ftz drive).2 := by
  obtain ⟨hfin, hone⟩ := clampedDrive_ge_one hd
  unfold wfParams
  dsimp only
  generalize (if fle f32One drive then drive else f32One) = d at hfin hone ⊢
  have hpos := pow2_pos 149
  have hsign : signBit d = false := by
    rw [signBit_of_units_ne hfin (by omega), decide_eq_false (by omega)]
  have hflush := flush_of_one_le ftz hfin hone
  have hmag : (unitsOf d).natAbs < pow2 277 := mag_lt (unpack_of_finite hfin)
  have hbound := overflowBound_eq
  have hp277 : pow2 277 = 2 ^ 25 * pow2 252 := by rw [show 277 = 25 + 252 from rfl, pow2_add, pow2_eq 25]
  refine ⟨?_, ?_⟩
  · have hhalf : flush ftz f32Half = f32Half := by
      rw [← halfWord_one, flush_halfWord (by decide)]
    rw [fmul_finite ftz hfin rfl, hflush, hhalf, hsign, unitsOf_of_unpack unpack_f32Half]
    refine quietGain_rn32 ftz hpos ?_
    rw [pow2_149_eq, hbound]
    simp only [Bool.false_eq_true, if_false, Int.natAbs_mul, Int.natAbs_natCast]
    have hstep : (unitsOf d).natAbs * pow2 148 < pow2 277 * pow2 148 :=
      Nat.mul_lt_mul_of_pos_right hmag (pow2_pos 148)
    refine hstep.trans_le ?_
    rw [hp277, show 2 * pow2 148 * ((2 ^ 25 - 1) * pow2 252) = 2 * (2 ^ 25 - 1) * pow2 252 * pow2 148
      by ring]
    exact Nat.mul_le_mul_right _ (Nat.mul_le_mul_right _ (by decide))
  · have honeflush := flush_of_one_le ftz isFinite_f32One unitsOf_f32One.ge
    rw [fdiv_finite ftz isFinite_f32One hfin (by rw [hflush]; omega), hflush, honeflush, hsign,
      unitsOf_f32One, Int.natAbs_natCast]
    have hle : pow2 149 ≤ (unitsOf d).natAbs := by omega
    refine quietGain_rn32 ftz (by omega) ?_
    have hlt : pow2 149 < pow2 277 - pow2 252 := by
      have h1 : pow2 149 ≤ pow2 252 := Nat.pow_le_pow_right (by decide) (by decide)
      have h2 := pow2_pos 252
      rw [hbound]
      omega
    exact (Nat.mul_lt_mul_of_pos_left hlt hpos).trans_le (Nat.mul_le_mul_right _ hle)

/-- A clamped control lies in [0, 1] (46_effects.md R270, R277). -/
theorem clampUnit_range (w : Word) : QuietGain (clampUnit w) ∧ UpTo (pow2 149) (clampUnit w) := by
  unfold clampUnit
  split
  · next hpos =>
    split
    · exact ⟨quietGain_f32One, isFinite_f32One, unitsOf_f32One ▸ Int.natCast_nonneg _,
        unitsOf_f32One.le⟩
    · next hle =>
      unfold flt at hpos
      rw [orderKey_zeroWord] at hpos
      cases hkey : orderKey w with
      | none => rw [hkey] at hpos; cases hpos
      | some x =>
        rw [hkey] at hpos
        rw [flt_of_keys orderKey_f32One hkey, decide_eq_true_eq] at hle
        have hx : 0 < x := of_decide_eq_true hpos
        have hlt : pow2 149 < pow2 277 := mag_lt unpack_f32One
        have hfin := isFinite_of_orderKey hkey (by omega)
        obtain rfl : unitsOf w = x := Option.some.inj ((orderKey_finite hfin).symm.trans hkey)
        refine ⟨⟨hfin, ?_⟩, hfin, hx.le, not_lt.mp hle⟩
        rw [signBit_of_units_ne hfin hx.ne', decide_eq_false hx.not_gt]
  · exact ⟨⟨rfl, rfl⟩, upTo_zero _ false⟩

/-! ### The memoryless effects -/

/-- The fraction one half folds to +0, before the last gain. -/
theorem fold_half (ftz : Bool) :
    fsub ftz (fmul ftz f32Two (if feq (fractionOf f32Half) f32One then 0#32 else
      fractionOf f32Half)) f32One = 0#32 := by
  revert ftz
  decide +kernel

/-- The wavefolder of +0: the fold of one half (46_effects.md R263). -/
theorem wfSample_silent (ftz : Bool) {dh dinv : Word} (hdh : QuietGain dh) (hdinv : QuietGain dinv) :
    wfSample ftz dh dinv 0#32 = 0#32 := by
  have hv : fadd ftz 0#32 f32Half = f32Half := by
    have hone : (1 : Int).natAbs < 2 ^ 24 := by decide
    rw [← halfWord_one]
    refine zero_fadd ftz false (isFinite_halfWord hone) (flush_halfWord hone ftz) ?_
    rw [unitsOf_halfWord hone, Int.one_mul]
    exact_mod_cast (pow2_pos 148).ne'
  unfold wfSample
  simp only [hdh.posZero_fmul, hv, fold_half, hdinv.posZero_fmul]
  rfl

/-- The two roots of +0 differ from it by +0. -/
theorem roots_posZero (ftz : Bool) :
    fsub ftz (fmul ftz (sign1 0#32) (fsqrt ftz (fmul ftz (sign1 0#32) (fmul ftz (sign1 0#32)
      (fsqrt ftz (fmul ftz (sign1 0#32) 0#32)))))) 0#32 = 0#32 := by
  revert ftz
  decide +kernel

/-- The saturator of +0 (46_effects.md R271). -/
theorem satSample_silent (ftz : Bool) {d : Word} (hd : QuietGain d) : satSample ftz d 0#32 = 0#32 := by
  unfold satSample
  simp only [roots_posZero, hd.fmul_posZero]
  exact posZero_fadd ftz false

end Sys2Proof.Machine
end

section
/-! SUPPORT. Silence through the vibrato (46_effects.md R279 to R281): the LFO and the offsets are small
enough that no read position overflows, and a line that holds only +0 gives only +0. -/

namespace Sys2Proof.Machine

/-! ### Words of bounded magnitude -/

/-- The word is finite, of at most 2^e units of 2^-149. -/
def AtMost (e : Nat) (w : Word) : Prop := isFinite w = true ∧ (unitsOf w).natAbs ≤ pow2 e

theorem pow2_le {j k : Nat} (h : j ≤ k) : pow2 j ≤ pow2 k := Nat.pow_le_pow_right (by decide) h

theorem atMost_of_unpack {w : Word} {s : Bool} {m e : Nat} (h : unpack w = .fin s m)
    (hm : m ≤ pow2 e) : AtMost e w :=
  ⟨isFinite_of_unpack h, (natAbs_unitsOf h).trans_le hm⟩

theorem atMost_zero (e : Nat) (neg : Bool) : AtMost e (zero neg) := by simp [AtMost]

theorem atMost_of_upTo {e : Nat} {w : Word} (h : UpTo (pow2 e) w) : AtMost e w := by
  obtain ⟨hfin, hlo, hhi⟩ := h
  exact ⟨hfin, by omega⟩

theorem atMost_flush (ftz : Bool) {e : Nat} {w : Word} (h : AtMost e w) : AtMost e (flush ftz w) := by
  rcases flush_cases ftz w with he | he
  · rwa [he]
  · rw [he]; exact atMost_zero e _

/-- Rounding does not pass a power of two. -/
theorem atMost_rn32 (neg : Bool) {num den e : Nat} (hd : 0 < den) (he : e ≤ 253)
    (h : num ≤ pow2 e * den) : AtMost e (rn32 neg num den) := by
  obtain ⟨b, hb, hv⟩ := exists_bitsValue_eq (z := 1) (by decide) he
  rw [Nat.one_mul] at hv
  rw [pow2_eq, ← hv] at h
  obtain ⟨hfin, hle⟩ := bitsValue_roundMag_le hd hb h
  exact atMost_of_unpack (unpack_rn32 neg hd hfin) (by rwa [pow2_eq, ← hv])

theorem atMost_fneg {e : Nat} {w : Word} (h : AtMost e w) : AtMost e (fneg w) :=
  ⟨by simpa using h.1, by rw [unitsOf_fneg h.1, Int.natAbs_neg]; exact h.2⟩

theorem atMost_f32OfNat {n e : Nat} (h : n ≤ pow2 e) (he : e ≤ 104) :
    AtMost (e + 149) (f32OfNat n) :=
  atMost_rn32 false one_pos (by omega) (by
    rw [Nat.mul_one, pow2_add]; exact Nat.mul_le_mul_right _ h)

section Operations
variable (ftz : Bool) {j k e : Nat} {a b : Word} (ha : AtMost j a) (hb : AtMost k b) (he : e ≤ 253)
include ha hb he

theorem atMost_fmul (h : j + k ≤ e + 149) : AtMost e (fmul ftz a b) := by
  obtain ⟨-, haj⟩ := atMost_flush ftz ha
  obtain ⟨-, hbk⟩ := atMost_flush ftz hb
  rw [fmul_finite ftz ha.1 hb.1]
  refine atMost_flush ftz (atMost_rn32 _ (pow2_pos 149) he ?_)
  rw [Int.natAbs_mul, ← pow2_add]
  exact (Nat.mul_le_mul haj hbk).trans ((pow2_add j k).ge.trans (pow2_le h))

theorem atMost_fadd (hj : j < e) (hk : k < e) : AtMost e (fadd ftz a b) := by
  obtain ⟨-, haj⟩ := atMost_flush ftz ha
  obtain ⟨-, hbk⟩ := atMost_flush ftz hb
  have hj' : pow2 j ≤ pow2 (e - 1) := pow2_le (by omega)
  have hk' : pow2 k ≤ pow2 (e - 1) := pow2_le (by omega)
  have hdouble : pow2 e = 2 * pow2 (e - 1) := by
    conv_lhs => rw [show e = 1 + (e - 1) by omega, pow2_add, pow2_eq 1, Nat.pow_one]
  rw [fadd_finite ftz ha.1 hb.1]
  split
  · exact atMost_zero _ _
  · exact atMost_flush ftz (atMost_rn32 _ one_pos he (by omega))

theorem atMost_fsub (hj : j < e) (hk : k < e) : AtMost e (fsub ftz a b) :=
  atMost_fadd ftz ha (atMost_fneg hb) he hj hk

end Operations

/-! ### The LFO (46_effects.md R279, log 4) -/

/-- With terms that do not grow, the series is at most its number of terms times the first. -/
theorem sineSeries_le {bits square : Nat} (hsq : square ≤ 6 * pow2 bits) (fuel : Nat) :
    ∀ (term k : Nat) (even : Bool) (plus minus : Nat), 1 ≤ k →
      sineSeries bits fuel square term k even plus minus ≤ plus + fuel * term := by
  induction fuel with
  | zero => intro term k even plus minus _; simp [sineSeries]
  | succ fuel ih =>
    intro term k even plus minus hk
    have hscaled : term * square / pow2 bits ≤ 6 * term := by
      refine Nat.div_le_of_le_mul ?_
      rw [Nat.mul_left_comm, ← Nat.mul_assoc, Nat.mul_comm _ term]
      calc term * square ≤ term * (6 * pow2 bits) := Nat.mul_le_mul_left _ hsq
        _ = _ := by ring
    have hsix : 6 ≤ (k + 1) * (k + 2) := Nat.mul_le_mul (show 2 ≤ k + 1 by omega)
      (show 3 ≤ k + 2 by omega)
    have hnext : term * square / pow2 bits / ((k + 1) * (k + 2)) ≤ term :=
      Nat.div_le_of_le_mul (hscaled.trans (Nat.mul_le_mul_right _ hsix))
    have hrest := Nat.mul_le_mul_left fuel hnext
    rw [Nat.succ_mul]
    cases even with
    | true => exact (ih _ _ _ _ _ (by omega)).trans (by omega)
    | false => exact (ih _ _ _ _ _ (by omega)).trans (by omega)

/-- The sine of a quarter turn at most, loosely bounded. -/
theorem sineQuarter_le {t : Nat} (ht : t ≤ pow2 147) : sineQuarter t ≤ pow2 408 := by
  have hpi : piScaled ≤ pow2 482 := by decide +kernel
  have hx : piScaled * t / pow2 228 ≤ pow2 401 := by
    refine Nat.div_le_of_le_mul ((Nat.mul_le_mul hpi ht).trans ?_)
    rw [← pow2_add, ← pow2_add]
  have hsq : piScaled * t / pow2 228 * (piScaled * t / pow2 228) / pow2 400 ≤ 6 * pow2 400 := by
    refine Nat.div_le_of_le_mul ((Nat.mul_le_mul hx hx).trans ?_)
    rw [← pow2_add, Nat.mul_left_comm, ← pow2_add, show 401 + 401 = 2 + (400 + 400) from rfl,
      pow2_add 2]
    exact Nat.mul_le_mul_right _ (by decide)
  have hsum : sineQuarter t ≤ 0 + (400 / 8 + 50) * (piScaled * t / pow2 228) :=
    sineSeries_le hsq _ _ 1 true 0 0 le_rfl
  calc sineQuarter t ≤ 0 + (400 / 8 + 50) * (piScaled * t / pow2 228) := hsum
    _ ≤ pow2 7 * pow2 401 := by
      rw [Nat.zero_add]
      exact Nat.mul_le_mul (by decide) hx
    _ = pow2 408 := (pow2_add 7 401).symm

theorem atMost_sineOfTurn (neg : Bool) (t : Nat) : AtMost 157 (sineOfTurn neg t) := by
  unfold sineOfTurn
  dsimp only
  generalize (if decide (pow2 148 ≤ t) = true then t - pow2 148 else t) = u
  have hq : (if pow2 147 < u then pow2 148 - u else u) ≤ pow2 147 := by
    have hdouble : pow2 148 = 2 * pow2 147 := by
      rw [show 148 = 1 + 147 from rfl, pow2_add, pow2_eq 1, Nat.pow_one]
    split <;> omega
  generalize (if pow2 147 < u then pow2 148 - u else u) = q at hq ⊢
  split
  · exact atMost_zero _ _
  · split
    · refine atMost_of_unpack (unpack_packBits _ (by decide)) ?_
      decide +kernel
    · refine atMost_rn32 _ (pow2_pos 251) (by decide) ?_
      rw [← pow2_add]
      exact sineQuarter_le hq

/-- The default LFO of a finite phase. -/
theorem atMost_sin2pi {p : Word} (hp : isFinite p = true) : AtMost 157 (sin2pi .default p) := by
  show AtMost 157 (sin2piDefault p)
  rw [sin2piDefault, unpack_of_finite hp]
  exact atMost_sineOfTurn _ _

/-! ### The offsets and the read position (46_effects.md R280, R281) -/

theorem atMost_c09 : AtMost 149 c09 := ⟨by decide +kernel, by decide +kernel⟩

theorem atMost_f32Half : AtMost 148 f32Half := atMost_of_unpack unpack_f32Half le_rfl

theorem atMost_vibOffset (ftz : Bool) {depth lfo : Word} {len : Nat} (hdepth : AtMost 149 depth)
    (hlfo : AtMost 157 lfo) (hlen : len ≤ pow2 16) : AtMost 173 (vibOffset ftz depth lfo len) := by
  have hscaled : AtMost 149 (fmul ftz c09 depth) :=
    atMost_fmul ftz atMost_c09 hdepth (by decide) (by decide)
  have hmod : AtMost 157 (fmul ftz (fmul ftz c09 depth) lfo) :=
    atMost_fmul ftz hscaled hlfo (by decide) (by decide)
  have hhalved : AtMost 156 (fmul ftz (fmul ftz (fmul ftz c09 depth) lfo) f32Half) :=
    atMost_fmul ftz hmod atMost_f32Half (by decide) (by decide)
  have hoff : AtMost 157
      (fadd ftz (fmul ftz (fmul ftz (fmul ftz c09 depth) lfo) f32Half) f32Half) :=
    atMost_fadd ftz hhalved atMost_f32Half (by decide) (by decide) (by decide)
  exact atMost_fmul ftz hoff (atMost_f32OfNat hlen (by decide)) (by decide) (by decide)

/-- Every offset of a block that starts at a phase is finite and small. -/
theorem atMost_vibFrames (ftz : Bool) {depth inc : Word} {len : Nat} (hdepth : AtMost 149 depth)
    (hinc : UpTo (1 * pow2 148) inc) (hlen : len ≤ pow2 16) (n : Nat) :
    ∀ vph, PhaseWord vph →
      ∀ off ∈ (vibFrames ftz (sin2pi .default) depth inc len n vph).1, AtMost 173 off := by
  induction n with
  | zero => exact fun _ _ => nofun
  | succ n ih =>
    intro vph hvph off hoff
    rcases List.mem_cons.mp hoff with rfl | hrest
    · exact atMost_vibOffset ftz hdepth (atMost_sin2pi hvph.1) hlen
    · exact ih _ (phaseWord_vibAdvance ftz hinc hvph) off hrest

theorem isFinite_vibReadPos (ftz : Bool) {w len : Nat} {off : Word} (hoff : AtMost 173 off)
    (hw : w ≤ pow2 16) (hlen : len ≤ pow2 16) : isFinite (vibReadPos ftz w off len) = true := by
  have hdiff : AtMost 174 (fsub ftz (f32OfNat w) off) :=
    atMost_fsub ftz (atMost_f32OfNat hw (by decide)) hoff (by decide) (by decide) (by decide)
  have hwrapped : AtMost 175 (fadd ftz (fsub ftz (f32OfNat w) off) (f32OfNat len)) :=
    atMost_fadd ftz hdiff (atMost_f32OfNat hlen (by decide)) (by decide) (by decide) (by decide)
  unfold vibReadPos
  dsimp only
  split
  · exact hwrapped.1
  · exact hdiff.1

/-- A fraction is finite. -/
theorem isFinite_fractionOf (v : Word) : isFinite (fractionOf v) = true := by
  have hpos : (0 : Int) < (pow2 149 : Nat) := Int.natCast_pos.mpr (pow2_pos 149)
  have hlt := Int.emod_lt_of_pos (unitsOf v) hpos
  exact (atMost_rn32 (e := 149) false one_pos (by decide) (by omega)).1

/-! ### A line that holds only +0 -/

theorem VibLine.get_of_vb_nil {l : VibLine} (h : l.vb = []) (free : Nat → Word) (k : Nat) :
    l.get true free k = 0#32 := by
  unfold VibLine.get
  rw [h]
  rfl

theorem VibLine.vb_push_zero {l : VibLine} (h : l.vb = []) (k : Nat) :
    (l.push true k 0#32).vb = [] := by
  show Store.write (VibLine.unlisted true) l.vb k 0#32 = []
  rw [h]
  rfl

section Line
variable (ftz : Bool) (free : Nat → Word) {len : Nat} (hpos : 0 < len) (hlen : len ≤ pow2 16)
include hpos hlen

theorem vibSample_silent {l : VibLine} (hl : l.vb = []) {off : Word} (hoff : AtMost 173 off) :
    (vibSample ftz true free len l 0#32 off).1.vb = [] ∧
      (vibSample ftz true free len l 0#32 off).2 = 0#32 := by
  have hw := ringNext_lt l.vw hpos
  have hline := VibLine.vb_push_zero hl (ringNext l.vw len)
  have hfin := isFinite_vibReadPos ftz hoff (w := ringNext l.vw len) (by omega) hlen
  refine ⟨hline, ?_⟩
  have hdiff : fsub ftz 0#32 0#32 = 0#32 := posZero_fsub ftz false
  simp only [vibSample, VibLine.get_of_vb_nil hline, hdiff, vibReadFraction, if_pos hfin,
    fmul_posZero ftz (isFinite_fractionOf _), posZero_fadd]

theorem vibBlock_silent {xs : List (Word × Word)} (hxs : ∀ x ∈ xs, x.1 = 0#32 ∧ AtMost 173 x.2) :
    ∀ l : VibLine, l.vb = [] → Silent (vibBlock ftz true free len l xs).2 := by
  induction xs with
  | nil => exact fun _ _ => silent_nil
  | cons x xs ih =>
    intro l hl
    obtain ⟨x, off⟩ := x
    obtain ⟨hx, hoff⟩ := hxs (x, off) (List.mem_cons_self ..)
    obtain rfl : x = 0#32 := hx
    obtain ⟨hline, hout⟩ := vibSample_silent ftz free hpos hlen hl hoff
    rw [vibBlock_cons, hout]
    exact silent_cons (ih (fun y hy => hxs y (List.mem_cons_of_mem _ hy)) _ hline)

end Line

end Sys2Proof.Machine
end

section
/-! PROOF. PROCESS of silence (44_orchestrator.md R223): each part leaves a silent work buffer, and
DOWNSAMPLE writes it to OUT. -/

namespace Sys2Proof.Machine

/-! ### The configuration of the stages -/

/-- Finite taps, and coefficients under which a zeroed section stays silent. -/
def State.QuietConfig (s : State) : Prop :=
  (∀ g k, k < s.irLen g → isFinite (s.tap g k) = true) ∧
    ∀ g q, q < s.rlpNsec g → (s.coefs g q).Quiet

/-- No cascade is longer than RLP_SEC_MAX allows. -/
theorem rlpNsec_le {s : State} (hp : s.params.legal = true) (hr : s.RegistersLegal) (g : RlpStage) :
    s.rlpNsec g ≤ 4 := by
  obtain ⟨-, -, -, -, hup, hdn⟩ := hr
  obtain ⟨-, -, -, ⟨-, hsec⟩, -⟩ := (legal_iff _).mp hp
  cases g
  · exact ((legalNsec_iff _ _).mp hup).2.trans hsec
  · exact ((legalNsec_iff _ _).mp hdn).2.trans hsec

/-- Storing in SCR leaves the words below its window alone. -/
theorem loadWord_setScrChannels_below (s : State) (chans : List (List Word)) {a : Nat}
    (ha : a + 4 ≤ 0x400000) : (s.setScrChannels chans).loadWord a = s.loadWord a :=
  loadWord_congr fun b _ hb => readByte_storeChannels_outside _ _ _ _ _ fun i _ =>
    .inl (by simp only [scrAddr]; omega)

/-- The taps and the coefficients of legal lengths lie below SCR (20_memory.md R84). -/
theorem tapAddr_below (g : FirStage) {k : Nat} (hk : k ≤ 1023) : tapAddr g k + 4 ≤ 0x400000 := by
  cases g <;> simp only [tapAddr] <;> omega

theorem coefAddr_below (g : RlpStage) {q j : Nat} (hq : q ≤ 4) (hj : j ≤ 4) :
    coefAddr g q j + 4 ≤ 0x400000 := by
  cases g <;> simp only [coefAddr] <;> omega

/-- Storing in SCR leaves the taps and the coefficients alone. -/
theorem quietConfig_setScrChannels {s : State} (hp : s.params.legal = true) (hr : s.RegistersLegal)
    (h : s.QuietConfig) (chans : List (List Word)) : (s.setScrChannels chans).QuietConfig := by
  obtain ⟨htap, hcoef⟩ := h
  refine ⟨fun g k hk => ?_, fun g q hq => ?_⟩
  · have hk' : k < s.irLen g := by rw [setScrChannels_eq] at hk; exact hk
    have hle := irLen_le hp hr g
    rw [State.tap, loadWord_setScrChannels_below _ _ (tapAddr_below g (hk'.le.trans hle))]
    exact htap g k hk'
  · have hq' : q < s.rlpNsec g := by rw [setScrChannels_eq] at hq; exact hq
    have hle := rlpNsec_le hp hr g
    have hword : ∀ j ≤ 4, (s.setScrChannels chans).loadWord (coefAddr g q j) =
        s.loadWord (coefAddr g q j) := fun j hj =>
      loadWord_setScrChannels_below _ _ (coefAddr_below g (hq'.le.trans hle) hj)
    rw [State.coefs, hword 0 (by decide), hword 1 (by decide), hword 2 (by decide),
      hword 3 (by decide), hword 4 (by decide)]
    exact hcoef g q hq'

/-! ### Silent channels -/

theorem inputOf_lt {n : Nat} (hn : 0 < n) (c : Nat) : inputOf n c < n := by
  unfold inputOf; split <;> omega

/-- Silent channels stored in SCR read as +0. -/
theorem loadWord_setScrChannels_silent {n : Nat} {chans : List (List Word)}
    (hlen : ∀ ws ∈ chans, ws.length = n) (hsilent : ∀ ws ∈ chans, Silent ws) (hn : n ≤ 0x10000)
    (s : State) {c i : Nat} (hc : c < chans.length) (hi : i < n) :
    (s.setScrChannels chans).loadWord (scrAddr c i) = 0#32 := by
  have hmem := List.getElem_mem hc
  rw [loadWord_setScrChannels hlen hn s hc (by rwa [hlen _ hmem])]
  exact hsilent _ hmem _ (List.getElem_mem _)

/-- The samples of the work buffer are all +0. -/
def State.SilentScr (s : State) : Prop :=
  ∀ c < s.wch.toNat, ∀ i < s.wlen.toNat, s.loadWord (scrAddr c i) = 0#32

theorem State.SilentScr.silent_scrBlock {s : State} (h : s.SilentScr) {c : Nat}
    (hc : c < s.wch.toNat) {n : Nat} (hn : n ≤ s.wlen.toNat) : Silent (s.scrBlock c n) := by
  intro x hx
  obtain ⟨i, hi, rfl⟩ := List.getElem_of_mem hx
  rw [getElem_scrBlock]
  exact h c hc i (lt_of_lt_of_le (by simpa using hi) hn)

theorem State.SilentScr.silent_workBuffer {s : State} (h : s.SilentScr) :
    ∀ ws ∈ s.workBuffer, Silent ws := by
  intro ws hws
  obtain ⟨c, hc, rfl⟩ := List.mem_map.mp hws
  exact h.silent_scrBlock (List.mem_range.mp hc) le_rfl

/-! ### UPSAMPLE -/

/-- A block of silence for UPSAMPLE: zeroed up stages, quiet configuration and silent inputs. -/
def State.SilentInput (s : State) (n : Nat) : Prop :=
  s.params.legal = true ∧ s.RegistersLegal ∧ s.QuietConfig ∧ (∀ l ∈ s.firUp4, l.hist = []) ∧
    (∀ bs ∈ s.rlpUp2, ∀ b ∈ bs, b = Biquad.zero) ∧ ∀ c < s.nchIn.toNat, Silent (s.inBlock c n)

theorem toNat_ofNat_block {n : Nat} (hn : 4 * n ≤ 0x10000) :
    (BitVec.ofNat 32 n).toNat = n ∧ (BitVec.ofNat 32 (4 * n)).toNat = 4 * n := by
  simp only [BitVec.toNat_ofNat]
  omega

section Up
variable {s : State} {n : Nat} (h : s.SilentInput n) (hn : 4 * n ≤ 0x10000)
include h

theorem silent_of_mem_upCopies : ∀ ws ∈ s.upCopies n, Silent ws := by
  obtain ⟨-, hr, -, -, -, hin⟩ := h
  have hpos : 0 < s.nchIn.toNat := lt_of_lt_of_le (inputChannels_pos hr) (min_le_left _ _)
  intro ws hws
  obtain ⟨c, -, rfl⟩ := List.mem_map.mp hws
  exact hin _ (inputOf_lt hpos c)

/-- The x4 path of a silent channel. -/
theorem silent_upChannel (c : Nat) {xs : List Word} (hxs : Silent xs) :
    Silent (s.upChannel c xs).2.2 := by
  obtain ⟨-, -, ⟨htap, hcoef⟩, hfir, hrlp, -⟩ := h
  have hstates : ∀ b ∈ s.rlpLine .up2 c, b = Biquad.zero := forall_getD hrlp (List.forall_mem_nil _) c
  have hline : (s.firLine .up4 c).hist = [] := forall_getD hfir (d := FirLine.zero) rfl c
  have hrec := rlpBlock_silent s.params.ftz hstates (hcoef .up2) (silent_zeroStuff hxs)
  have hgain := silent_map (quietGain_f32Two.fmul_posZero s.params.ftz) hrec
  exact convPolyBlock_silent s.params.ftz (htap .up4) hgain _ hline

theorem silent_of_mem_upSamples : ∀ ws ∈ s.upSamples n, Silent ws := by
  have hchan := silent_upChannel h
  obtain ⟨-, hr, -, -, -, hin⟩ := h
  have hpos := inputChannels_pos hr
  intro ws hws
  obtain ⟨c, hc, rfl⟩ := List.getElem_of_mem hws
  rw [getElem_upSamples n hpos]
  exact hchan _ (hin _ ((inputOf_lt hpos c).trans_le (min_le_left _ _)))

include hn

/-- The base-rate copy of silence. -/
theorem copyUp_silent (mode : WMode) : (s.copyUp n mode).QuietConfig ∧ (s.copyUp n mode).SilentScr ∧
    (s.copyUp n mode).wn.toNat = n := by
  have hsilent := silent_of_mem_upCopies h
  obtain ⟨hp, hr, hconf, -⟩ := h
  obtain ⟨hwn, -⟩ := toNat_ofNat_block hn
  refine ⟨quietConfig_setScrChannels hp hr hconf _, fun c hc i hi => ?_, hwn⟩
  exact loadWord_setScrChannels_silent length_of_mem_upCopies hsilent (by omega) s
    (by rw [length_upCopies]; exact hc) (hwn ▸ hi)

/-- The x4 path of silence. -/
theorem oversample_silent : (s.oversample n).QuietConfig ∧ (s.oversample n).SilentScr ∧
    (s.oversample n).wn.toNat = n := by
  have hsilent := silent_of_mem_upSamples h
  obtain ⟨hp, hr, hconf, -⟩ := h
  obtain ⟨hwn, hwlen⟩ := toNat_ofNat_block hn
  refine ⟨quietConfig_setScrChannels hp hr hconf _, fun c hc i hi => ?_, hwn⟩
  exact loadWord_setScrChannels_silent (length_of_mem_upSamples (inputChannels_pos hr)) hsilent hn s
    (by rw [length_upSamples]; exact hc) (hwlen ▸ hi)

/-- UPSAMPLE of silence leaves a silent work buffer, at either rate. -/
theorem upsampleRun_silent : (upsampleRun n s).QuietConfig ∧ (upsampleRun n s).SilentScr ∧
    (upsampleRun n s).wn.toNat = n := by
  have htog : s.applyToggle.SilentInput n := applyToggle_eq s ▸ h
  exact upsampleRun_cases
    (P := fun u => u.QuietConfig ∧ u.SilentScr ∧ u.wn.toNat = n)
    (fun _ => copyUp_silent htog hn _) (fun _ _ => oversample_silent htog hn)
    (fun _ _ => copyUp_silent htog hn _)

end Up

/-! ### The effects -/

/-- A silent work buffer, with zeroed down stages and quiet configuration: what the effects keep and
DOWNSAMPLE needs. -/
def State.SilentWork (m n : Nat) (s : State) : Prop :=
  (s.Inv ∧ s.HasWork ∧ (∀ l ∈ s.firDn4, l.hist = []) ∧
    (∀ bs ∈ s.rlpDn2, ∀ b ∈ bs, b = Biquad.zero) ∧ s.nchOut.toNat = m ∧ s.wn.toNat = n) ∧
  s.QuietConfig ∧ s.SilentScr

/-- Controls under which the effects keep silence (44_orchestrator.md R223, log 4). -/
def State.QuietEffects (s : State) : Prop :=
  isFinite s.wfDrive = true ∧ (s.fxCtrl.getLsbD 2 = true →
    s.params.sin2pi = .default ∧ s.PhaseInRange ∧ ∀ l ∈ s.vib, l.vb = [])

/-- The offsets of the block's frames are small, with the default LFO and a phase in range. -/
theorem atMost_vibFramesNow {s : State} (hsin : s.params.sin2pi = .default) (hphase : s.PhaseInRange) :
    ∀ off ∈ s.vibFramesNow.1, AtMost 173 off := by
  rw [State.vibFramesNow, hsin]
  exact atMost_vibFrames s.params.ftz (atMost_of_upTo (clampUnit_range s.vibDepth).2)
    (upTo_vibIncrement _ _) s.vibLen.isLt.le s.wlen.toNat s.vph ((phaseInRange_iff s).mp hphase)

section Effects
variable {m n : Nat} {s : State} (h : s.SilentWork m n)
include h

theorem silentWork_mapWork {f : Word → Word} (hf : f 0#32 = 0#32) :
    (s.mapWork f).SilentWork m n := by
  obtain ⟨⟨hinv, hwork, hrest⟩, hconf, hscr⟩ := h
  have hwlen := wlen_le_of_inv hinv hwork.2
  have hch : (s.mapWork f).wch = s.wch := by rw [mapWork_eq]
  have hlen : (s.mapWork f).wlen = s.wlen := by rw [mapWork_eq]
  refine ⟨⟨stepInvariant_inv.mapWork hinv f, hasWork_mapWork f hwork, mapWork_eq s f ▸ hrest⟩,
    quietConfig_setScrChannels hinv.1 (registersLegal_of_inv hinv) hconf _, fun c hc i hi => ?_⟩
  rw [hch] at hc
  rw [hlen] at hi
  rw [loadWord_mapWork hwlen f hc hi, hscr c hc i hi, hf]

theorem silent_of_mem_vibResults (hsin : s.params.sin2pi = .default) (hphase : s.PhaseInRange)
    (hlines : ∀ l ∈ s.vib, l.vb = []) :
    ∀ ws ∈ s.vibResults.map Prod.snd, ws.length = s.wlen.toNat ∧ Silent ws := by
  obtain ⟨⟨hinv, ⟨hprep, -⟩, -⟩, -, hscr⟩ := h
  have hoffs := atMost_vibFramesNow hsin hphase
  have hpos : 0 < s.vibLen.toNat := by
    obtain ⟨-, -, -, -, hvib, -⟩ := hinv
    rw [State.VibratoInRange, if_pos hprep] at hvib
    omega
  intro ws hws
  rw [State.vibResults, List.map_map] at hws
  obtain ⟨p, hp, rfl⟩ := List.mem_map.mp hws
  have hchan : p.1 ∈ s.workBuffer := List.fst_mem_of_mem_zipIdx hp
  have hline : (s.vibLine p.2).vb = [] := forall_getD hlines (d := VibLine.empty) rfl p.2
  refine ⟨?_, ?_⟩
  · obtain ⟨c, -, hc⟩ := List.mem_map.mp hchan
    simp [← hc, State.vibFramesNow]
  · rw [Function.comp_apply, hprep]
    refine vibBlock_silent s.params.ftz _ hpos s.vibLen.isLt.le (fun x hx => ?_) _ hline
    obtain ⟨hx1, hx2⟩ := List.of_mem_zip (a := x.1) (b := x.2) hx
    exact ⟨hscr.silent_workBuffer _ hchan _ hx1, hoffs _ hx2⟩

theorem silentWork_vibratoBody (hsin : s.params.sin2pi = .default) (hphase : s.PhaseInRange)
    (hlines : ∀ l ∈ s.vib, l.vb = []) : (vibratoBody s).SilentWork m n := by
  have hresults := silent_of_mem_vibResults h hsin hphase hlines
  obtain ⟨⟨hinv, hwork, hrest⟩, hconf, hscr⟩ := h
  have hwlen := wlen_le_of_inv hinv hwork.2
  have hregs := registersLegal_of_inv hinv
  have hch : (vibratoBody s).wch = s.wch := by rw [vibratoBody_eq]
  have hlen : (vibratoBody s).wlen = s.wlen := by rw [vibratoBody_eq]
  refine ⟨⟨inv_vibratoBody hinv, hasWork_vibratoBody hwork, vibratoBody_eq s ▸ hrest⟩,
    quietConfig_setScrChannels (s := { s with
      vibInc := s.vibIncNow, vph := s.vibFramesNow.2
      vib := replaceFirst (s.vibResults.map Prod.fst) s.vib })
      hinv.1 hregs hconf (s.vibResults.map Prod.snd), fun c hc i hi => ?_⟩
  rw [hch] at hc
  rw [hlen] at hi
  rw [vibratoBody_def, loadWord_flagNumerr]
  exact loadWord_setScrChannels_silent (fun ws hws => (hresults ws hws).1)
    (fun ws hws => (hresults ws hws).2) hwlen _ (by simpa [State.vibResults] using hc) hi

end Effects

section Selected
variable {m n : Nat} {s : State} (h : s.SilentWork m n ∧ s.QuietEffects)
include h

theorem silentWork_wavefoldBody :
    (wavefoldBody s).SilentWork m n ∧ (wavefoldBody s).QuietEffects := by
  obtain ⟨hwork, hfx⟩ := h
  obtain ⟨hdh, hdinv⟩ := quietGain_wfParams s.params.ftz hfx.1
  rw [wavefoldBody_eq]
  exact ⟨silentWork_mapWork hwork (wfSample_silent _ hdh hdinv), mapWork_eq s _ ▸ hfx⟩

theorem silentWork_saturateBody :
    (saturateBody s).SilentWork m n ∧ (saturateBody s).QuietEffects := by
  obtain ⟨hwork, hfx⟩ := h
  rw [saturateBody_eq]
  exact ⟨silentWork_mapWork hwork (satSample_silent _ (clampUnit_range _).1), mapWork_eq s _ ▸ hfx⟩

/-- Every selection of effects keeps a silent work buffer silent. -/
theorem silentWork_runEffects : (runEffects s).SilentWork m n := by
  have hfold := keeps_optional (P := fun u => u.SilentWork m n ∧ u.QuietEffects) (f := wavefoldBody)
    (fun _ hu => silentWork_wavefoldBody hu) h (s.fxCtrl.getLsbD 0)
  unfold runEffects
  dsimp only
  generalize (if s.fxCtrl.getLsbD 0 then wavefoldBody s else s) = u at hfold ⊢
  have hsat := keeps_optional (P := fun u => u.SilentWork m n ∧ u.QuietEffects) (f := saturateBody)
    (fun _ hu => silentWork_saturateBody hu) hfold (u.fxCtrl.getLsbD 1)
  generalize (if u.fxCtrl.getLsbD 1 then saturateBody u else u) = v at hsat ⊢
  obtain ⟨hwork, -, hvib⟩ := hsat
  split
  · next hsel =>
    obtain ⟨hsin, hphase, hlines⟩ := hvib hsel
    exact silentWork_vibratoBody hwork hsin hphase hlines
  · exact hwork

end Selected

/-! ### DOWNSAMPLE -/

/-- A channel of the work buffer holds WN samples, or four times as many (10_state.md R64). -/
theorem wlen_of_inv {s : State} (h : s.Inv) (hw : s.wmode ≠ .none) :
    s.wlen.toNat = if s.wmode = .os4 then 4 * s.wn.toNat else s.wn.toNat := by
  obtain ⟨-, -, -, -, -, hgeo⟩ := h
  unfold State.WorkGeometry at hgeo
  split at hgeo
  · next hmode => exact absurd hmode hw
  · next hmode => rw [hmode, hgeo.2]; rfl
  · next hmode => rw [hmode, hgeo.2]; rfl
  · next hmode => rw [hmode, hgeo.2]; rfl

/-- The x4 down path of a silent channel. -/
theorem silent_downChannel {m n : Nat} {s : State} (h : s.SilentWork m n) (c : Nat) {xs : List Word}
    (hxs : Silent xs) : Silent (s.downChannel c xs).2.2 := by
  obtain ⟨⟨-, -, hfir, hrlp, -⟩, ⟨htap, hcoef⟩, -⟩ := h
  have hstates : ∀ b ∈ s.rlpLine .dn2 c, b = Biquad.zero := forall_getD hrlp (List.forall_mem_nil _) c
  have hline : (s.firLine .dn4 c).hist = [] := forall_getD hfir (d := FirLine.zero) rfl c
  have hconv := convDirectBlock_silent s.params.ftz (htap .dn4) hxs _ hline
  exact silent_evens (rlpBlock_silent s.params.ftz hstates (hcoef .dn2) (silent_evens hconv))

/-- DOWNSAMPLE of a silent work buffer writes silence. -/
theorem loadWord_downsampleRun_silent {m n : Nat} {s : State} (h : s.SilentWork m n) {o i : Nat}
    (ho : o < m) (hi : i < n) : (downsampleRun s).loadWord (outAddr o i) = 0#32 := by
  have hdown := fun c => silent_downChannel h c (xs := s.scrBlock c (4 * s.wn.toNat))
  obtain ⟨⟨hinv, ⟨-, hmode⟩, -, -, rfl, rfl⟩, -, hscr⟩ := h
  obtain ⟨-, hblk, hch, -⟩ := workBufferLegal_of_inv hinv hmode
  have hn := block_le hinv.1 hblk
  have hlen := wlen_of_inv hinv hmode
  have hc := inputOf_lt hch o
  unfold downsampleRun
  split
  · next hos =>
    rw [if_pos hos] at hlen
    have hblock := loadBlock_decimate hch hn ho
    have hi' : i < (s.decimate.loadBlock (outAddr o 0) s.wn.toNat).length := by simpa using hi
    rw [outAddr_eq, ← getElem_loadBlock s.decimate _ s.wn.toNat i hi']
    refine hdown (inputOf s.wch.toNat o) (hscr.silent_scrBlock hc hlen.ge) _ ?_
    rw [← hblock]
    exact List.getElem_mem _
  · next hos =>
    rw [if_neg hos] at hlen
    rw [loadWord_copyDown hch hn ho hi]
    exact hscr _ hc i (hlen ▸ hi)

/-! ### The statement -/

/-- Settles O39: silence passes UPSAMPLE, the effects and DOWNSAMPLE, in every mode. -/
theorem silenceRoundTrip : Obligations.SilenceRoundTrip := by
  intro s n hinv hprep h1 hmax hup4 hdn4 hup2 hdn2 htap hcoef hdrive hvib hin
  have hblk := block_le hinv.1 hmax
  have hinput : s.SilentInput n.toNat := by
    refine ⟨hinv.1, registersLegal_of_inv hinv, ⟨htap, hcoef⟩, hup4, hup2, fun c hc x hx => ?_⟩
    obtain ⟨i, hi, rfl⟩ := List.getElem_of_mem hx
    rw [getElem_inBlock]
    exact hin c hc i (by simpa using hi)
  obtain ⟨hconf, hscr, hwn⟩ := upsampleRun_silent hinput (by omega)
  have hinv' := inv_upsampleRun ((blockInRange_iff _ _).mpr ⟨h1, hmax⟩) hinv
  have hwork := hasWork_upsampleRun n.toNat hprep
  have hup : (upsampleRun n.toNat s).SilentWork s.nchOut.toNat n.toNat := by
    refine ⟨⟨hinv', hwork, ?_, ?_, ?_, hwn⟩, hconf, hscr⟩
    all_goals rw [upsampleRun_eq]
    · exact hdn4
    · exact hdn2
  have hfx : (upsampleRun n.toNat s).QuietEffects := by
    have hquiet : s.QuietEffects := ⟨hdrive, hvib⟩
    rw [upsampleRun_eq]
    exact hquiet
  refine ⟨_, exec_process hprep h1 hmax, fun o ho i hi => ?_⟩
  rw [loadWord_completed, processRun_def, loadWord_flagNumerr]
  refine loadWord_downsampleRun_silent ?_ ho hi
  split
  · exact hup
  · exact silentWork_runEffects ⟨hup, hfx⟩

end Sys2Proof.Machine
end

section
/-! PROOF. LAT_TICK, and the events that set and clear the dirty flags (45_latency.md R240 to R243). -/

namespace Sys2Proof.Machine

/-! ### LAT_TICK -/

/-- The total of both inducers' delays, written out (45_latency.md R240, R241). -/
def State.latTotal (s : State) : Word :=
  (if s.active then
      BitVec.ofNat 32 (s.rlpLatUp2.toNat + s.rlpLatDn2.toNat + s.irLenUp4.toNat / 2 +
        s.irLenDn4.toNat / 2)
    else 0#32) + BitVec.ofNat 32 (s.vibLen.toNat / 2)

theorem osLat_add_vibLat (s : State) : s.osLat + s.vibLat = s.latTotal := rfl

/-- With an inducer dirty LAT_TICK publishes the total and clears both flags (45_latency.md R243). -/
theorem latTick_of_dirty {s : State} (h : s.osDirty = true ∨ s.vibDirty = true) :
    s.latTick = { s with
      latPub := s.latTotal, osTotal := s.latTotal, vibTotal := s.latTotal, osDirty := false,
      vibDirty := false, latNew := true } := by
  rw [State.latTick, if_pos (Bool.or_eq_true_iff.mpr h), osLat_add_vibLat]

/-- With neither dirty it does nothing. -/
theorem latTick_of_clean {s : State} (h : ¬ (s.osDirty = true ∨ s.vibDirty = true)) :
    s.latTick = s :=
  if_neg fun hor => h (Bool.or_eq_true_iff.mp hor)

/-- LAT_TICK does not read the interleaving. -/
theorem latTick_inputs (s : State) (rest : List Event) :
    State.latTick { s with inputs := rest } = { s.latTick with inputs := rest } := by
  by_cases h : s.osDirty = true ∨ s.vibDirty = true
  · rw [latTick_of_dirty h]
    exact latTick_of_dirty (s := { s with inputs := rest }) h
  · rw [latTick_of_clean h]
    exact latTick_of_clean (s := { s with inputs := rest }) h

/-- LAT_TICK leaves neither flag set. -/
theorem latTick_clears (s : State) : s.latTick.osDirty = false ∧ s.latTick.vibDirty = false := by
  by_cases h : s.osDirty = true ∨ s.vibDirty = true
  · rw [latTick_of_dirty h]
    exact ⟨rfl, rfl⟩
  · rw [latTick_of_clean h]
    simpa using h

/-- Settles O29: the operation is one of its two cases, and the bus step is the write of the
register, which is open in every phase and takes every value. -/
theorem latTickPublishes : Obligations.LatTickPublishes := by
  intro s v total t
  have htick : s.latTick = t := by
    show s.latTick = if s.osDirty = true ∨ s.vibDirty = true then _ else s
    split
    · next h => exact latTick_of_dirty h
    · next h => exact latTick_of_clean h
  refine ⟨congrArg Host.Outcome.next htick, fun rest hw => ?_⟩
  rw [step_writeReg (r := .latTick) hw (.inr rfl) rfl, State.writeReg, latTick_inputs, htick]
  rfl

/-! ### What sets and clears the dirty flags -/

/-- The dirty flags are the same in both states. -/
def SameDirty (s t : State) : Prop := t.osDirty = s.osDirty ∧ t.vibDirty = s.vibDirty

/-- OS_DIRTY is set, and VIB_DIRTY is the same in both states. -/
def SetsOsDirty (s t : State) : Prop := t.osDirty = true ∧ t.vibDirty = s.vibDirty

/-- The dirty flags change as a block that may toggle changes them: only with ACTIVE, and then only
OS_DIRTY, which is set (44_orchestrator.md R212). -/
def OnlyToggleDirties (s t : State) : Prop :=
  SameDirty s t ∨ (SetsOsDirty s t ∧ t.active ≠ s.active)

/-- The ENGINE's next turn is the FINISH step of a PREPARE that completes in `t`. -/
def PrepareFinishes (s t : State) : Prop :=
  s.engPhase = .started ∧ decode ⟨cmdAddr, s.pendCmd⟩ = .ok .prepare ∧
    ∃ rest u, s.EngineNext rest ∧ prepareBody { s with inputs := rest } = .ok u ∧ t = u.completed

/-- Everything that one step can do to the dirty flags (45_latency.md R242, R243). -/
inductive DirtyChange (s t : State) : Prop where
  | same (h : SameDirty s t)
  | toggle (h : SetsOsDirty s t) (hne : t.active ≠ s.active)
  | prepare (h : PrepareFinishes s t)
  /-- A write of an IR length or a recursive latency. -/
  | commit {r : Reg} {v : Word} {rest : List Event} (h : SetsOsDirty s t) (hr : r.setsOsDirty)
      (hw : s.WriteNext (BitVec.ofNat 32 r.offset) v rest)
  | tick {v : Word} {rest : List Event} (hos : t.osDirty = false) (hvib : t.vibDirty = false)
      (hw : s.WriteNext 0x020#32 v rest)
  | reset {rest : List Event} (hos : t.osDirty = false) (hvib : t.vibDirty = false)
      (hin : s.inputs = .reset :: rest)

/-! ### The commands -/

theorem sameDirty_mapWork {s u : State} (f : Word → Word) (h : SameDirty s u) :
    SameDirty s (u.mapWork f) := mapWork_eq u f ▸ h

theorem sameDirty_vibratoBody {s u : State} (h : SameDirty s u) :
    SameDirty s (vibratoBody u) := vibratoBody_eq u ▸ h

theorem sameDirty_downsampleRun {s u : State} (h : SameDirty s u) :
    SameDirty s (downsampleRun u) := downsampleRun_eq u ▸ h

theorem sameDirty_runEffects {s u : State} (h : SameDirty s u) : SameDirty s (runEffects u) :=
  keeps_optional (fun _ hu => sameDirty_vibratoBody hu) (keeps_optional
    (fun _ hu => sameDirty_mapWork _ hu) (keeps_optional (fun _ hu => sameDirty_mapWork _ hu) h _)
    _) _

/-- UPSAMPLE leaves the dirty flags as its toggle does. -/
theorem sameDirty_upsampleRun (n : Nat) (s : State) : SameDirty s.applyToggle (upsampleRun n s) := by
  obtain ⟨-, -, hos, -⟩ := sameToggle_upsampleRun n s
  exact ⟨hos, by rw [upsampleRun_eq, applyToggle_vibDirty]⟩

/-- PROCESS leaves them as UPSAMPLE does. -/
theorem sameDirty_processRun (n : Nat) (s : State) : SameDirty s.applyToggle (processRun n s) := by
  have hup := sameDirty_upsampleRun n s
  rw [processRun_def]
  refine sameDirty_downsampleRun (?_ : SameDirty s.applyToggle _)
  split
  · exact hup
  · exact sameDirty_runEffects hup

/-- The toggle sets OS_DIRTY just when it changes ACTIVE. -/
theorem onlyToggleDirties_of_applyToggle {s t : State} (h : SameDirty s.applyToggle t)
    (ha : t.active = s.applyToggle.active) : OnlyToggleDirties s t := by
  obtain ⟨hos, hvib⟩ := h
  rw [osDirty_applyToggle] at hos
  rw [active_applyToggle] at ha
  rw [applyToggle_vibDirty] at hvib
  cases htog : (!s.prepareReq && (s.reqSnap != s.active)) with
  | false => exact .inl ⟨by rw [hos, htog, Bool.or_false], hvib⟩
  | true =>
    obtain ⟨hreq, hsnap⟩ : s.prepareReq = false ∧ s.reqSnap ≠ s.active := by simpa using htog
    rw [hreq, if_neg Bool.false_ne_true] at ha
    exact .inr ⟨⟨by rw [hos, htog, Bool.or_true], hvib⟩, ha ▸ hsnap⟩

/-- A completed command other than PREPARE dirties only by the toggle. -/
theorem onlyToggleDirties_of_commandBody {i : Instr} {s u : State} (h : commandBody i s = .ok u)
    (hi : i ≠ .prepare) : OnlyToggleDirties s u := by
  have hrefl : SameDirty s s := ⟨rfl, rfl⟩
  cases i with
  | prepare => exact absurd rfl hi
  | upsample n =>
    obtain ⟨-, -, rfl⟩ := (upsampleBody_ok_iff _ s u).mp h
    exact onlyToggleDirties_of_applyToggle (sameDirty_upsampleRun _ s) (sameToggle_upsampleRun _ s).1
  | process n =>
    obtain ⟨-, -, rfl⟩ := (processBody_ok_iff _ s u).mp h
    exact onlyToggleDirties_of_applyToggle (sameDirty_processRun _ s) (sameToggle_processRun _ s).1
  | nop => exact .inl (Except.ok.inj h ▸ hrefl)
  | downsample =>
    obtain ⟨-, -, rfl⟩ := (downsampleBody_ok_iff s u).mp h
    exact .inl (sameDirty_downsampleRun hrefl)
  | wavefold | saturate =>
    obtain ⟨-, -, rfl⟩ := (effectChecks_ok_iff s u _).mp h
    exact .inl (sameDirty_mapWork _ hrefl)
  | vibrato =>
    obtain ⟨-, -, rfl⟩ := (effectChecks_ok_iff s u _).mp h
    exact .inl (sameDirty_vibratoBody hrefl)
  | convDirect | convPoly | rlpRun =>
    obtain ⟨g, hg⟩ := onStage_ok h
    rw [eq_of_ite_ok hg]
    exact .inl ⟨by simp, by simp⟩
  | setEnabled | latTick => cases h

/-! ### The turns -/

/-- A turn of the ENGINE dirties only by the toggle, unless it finishes a PREPARE. -/
theorem dirty_of_engineTurn {s t : State} (h : engineTurn s = .next t) :
    OnlyToggleDirties s t ∨
      (s.engPhase = .started ∧ decode ⟨cmdAddr, s.pendCmd⟩ = .ok .prepare ∧
        ∃ u, prepareBody s = .ok u ∧ t = u.completed) := by
  cases hphase : s.engPhase with
  | idle | queued =>
    rw [engineTurn, hphase] at h
    obtain rfl := Host.Outcome.next.inj h
    exact .inl (.inl ⟨rfl, rfl⟩)
  | started =>
    cases hd : decode ⟨cmdAddr, s.pendCmd⟩ with
    | error e =>
      rw [engineTurn_of_illegal hphase hd] at h
      obtain rfl := Host.Outcome.next.inj h
      exact .inl (.inl ⟨rfl, rfl⟩)
    | ok i =>
      rw [engineTurn_of_decode hphase hd,
        exec_eq_finishCommand (namesCommand_decodeCmd s.pendCmd i hd)] at h
      obtain ⟨u, hu, rfl⟩ | ⟨e, -, rfl⟩ := finishCommand_cases h
      · by_cases hi : i = .prepare
        · subst hi
          exact .inr ⟨rfl, rfl, u, hu, rfl⟩
        · have honly := onlyToggleDirties_of_commandBody hu hi
          exact .inl honly
      · exact .inl (.inl ⟨rfl, rfl⟩)

/-- What a register write does to the dirty flags. -/
theorem dirty_writeReg (s : State) (v : Word) (r : Reg) :
    SameDirty s (s.writeReg v r) ∨ (r.setsOsDirty ∧ SetsOsDirty s (s.writeReg v r)) ∨
      (r = .latTick ∧ (s.writeReg v r).osDirty = false ∧ (s.writeReg v r).vibDirty = false) := by
  cases r with
  | irLenUp4 => exact .inr (.inl ⟨.inl rfl, rfl, rfl⟩)
  | irLenDn4 => exact .inr (.inl ⟨.inr (.inl rfl), rfl, rfl⟩)
  | rlpLatUp2 => exact .inr (.inl ⟨.inr (.inr (.inl rfl)), rfl, rfl⟩)
  | rlpLatDn2 => exact .inr (.inl ⟨.inr (.inr (.inr rfl)), rfl, rfl⟩)
  | latTick => exact .inr (.inr ⟨rfl, latTick_clears s⟩)
  | status => rw [State.writeReg, writeStatus_eq]; exact .inl ⟨rfl, rfl⟩
  | _ => exact .inl ⟨rfl, rfl⟩

/-- A permitted write of a register is a write of a word to the register's address. -/
theorem writeNext_of_checkAccess {s s' : State} {a : BusAccess} {rest : List Event} {r : Reg}
    (hin : s.inputs = .bus a :: rest) (hk : a.kind = .write) (h : checkAccess s' a = .ok (.reg r)) :
    s.WriteNext (BitVec.ofNat 32 r.offset) a.wdata rest := by
  obtain ⟨htarget, -⟩ := checkAccess_ok h
  have haddr : a.addr = BitVec.ofNat 32 r.offset :=
    eq_ofNat_of_toNat_eq ((targetAt_reg_iff _).mp htarget).symm
  have hsize : a.size = 4 := by
    rcases checkAccess_cases s' a with ⟨-, he⟩ | ⟨-, -, -, he⟩ | ⟨-, hsize, -⟩
    · cases he.symm.trans h
    · cases he.symm.trans h
    · exact hsize
  obtain ⟨g, k, addr, size, v⟩ := a
  obtain rfl : k = .write := hk
  obtain rfl : size = 4 := hsize
  obtain rfl : addr = _ := haddr
  exact ⟨g, hin⟩

/-- What a bus access does to the dirty flags. -/
theorem dirtyChange_of_bus {s t : State} {a : BusAccess} {rest : List Event}
    (hin : s.inputs = .bus a :: rest) (h : step s = .next t) : DirtyChange s t := by
  cases hc : checkAccess { s with inputs := rest } a with
  | error e =>
    rw [step_bus hin, busTurn_error hc] at h
    obtain rfl := Host.Outcome.next.inj h
    exact .same ⟨rfl, rfl⟩
  | ok u =>
    rw [step_bus hin, busTurn_ok hc, State.performAccess] at h
    obtain rfl := Host.Outcome.next.inj h
    split
    · exact .same ⟨rfl, rfl⟩
    · next hk =>
      cases u with
      | element => exact .same ⟨rfl, rfl⟩
      | reg r =>
        have hw := writeNext_of_checkAccess hin hk hc
        obtain hsame | ⟨hr, hset⟩ | ⟨rfl, hos, hvib⟩ :=
          dirty_writeReg { s with inputs := rest } a.wdata r
        · exact .same hsame
        · exact .commit hset hr hw
        · exact .tick hos hvib hw

/-- What the ENGINE's turn does to the dirty flags. -/
theorem dirtyChange_of_engine {s t : State} {rest : List Event} (hnext : s.EngineNext rest)
    (h : step s = .next t) : DirtyChange s t := by
  obtain (hsame | ⟨hset, hne⟩) | ⟨hphase, hd, u, hu, ht⟩ :=
    dirty_of_engineTurn ((step_engine hnext).symm.trans h)
  · exact .same hsame
  · exact .toggle hset hne
  · exact .prepare ⟨hphase, hd, rest, u, hnext, hu, ht⟩

/-- Every step changes the dirty flags in one of these ways, or not at all. -/
theorem dirtyChange_of_step {s t : State} (h : step s = .next t) : DirtyChange s t := by
  cases hin : s.inputs with
  | nil => exact dirtyChange_of_engine (rest := []) (.inr ⟨hin, rfl⟩) h
  | cons event rest =>
    cases event with
    | engine => exact dirtyChange_of_engine (rest := rest) (.inl hin) h
    | bus a => exact dirtyChange_of_bus hin h
    | reset =>
      rw [step, hin] at h
      obtain rfl := Host.Outcome.next.inj h
      exact .reset rfl rfl hin

/-! ### The statement -/

/-- A completed PREPARE leaves both inducers dirty (44_orchestrator.md R205). -/
theorem PrepareFinishes.dirty {s t : State} (h : PrepareFinishes s t) :
    t.osDirty = true ∧ t.vibDirty = true := by
  obtain ⟨-, -, rest, u, -, hu, rfl⟩ := h
  obtain ⟨r, -, rfl⟩ := (prepareBody_ok_iff _ u).mp hu
  exact ⟨rfl, rfl⟩

/-- The addresses of the registers whose write dirties the oversampler. -/
theorem offset_of_setsOsDirty {r : Reg} (h : r.setsOsDirty) :
    BitVec.ofNat 32 r.offset = 0x080#32 ∨ BitVec.ofNat 32 r.offset = 0x084#32 ∨
      BitVec.ofNat 32 r.offset = 0x090#32 ∨ BitVec.ofNat 32 r.offset = 0x094#32 := by
  rcases h with rfl | rfl | rfl | rfl <;> decide

/-- What sets OS_DIRTY. -/
theorem osDirty_set_cases {s t : State} (h : DirtyChange s t) (hs : s.osDirty = false)
    (ht : t.osDirty = true) :
    t.active ≠ s.active ∨ PrepareFinishes s t ∨
      ∃ a v rest, s.WriteNext a v rest ∧
        (a = 0x080#32 ∨ a = 0x084#32 ∨ a = 0x090#32 ∨ a = 0x094#32) := by
  cases h with
  | same h => simp [h.1, hs] at ht
  | toggle _ hne => exact .inl hne
  | prepare h => exact .inr (.inl h)
  | commit _ hr hw => exact .inr (.inr ⟨_, _, _, hw, offset_of_setsOsDirty hr⟩)
  | tick hos | reset hos => simp [hos] at ht

/-- What sets VIB_DIRTY. -/
theorem vibDirty_set_cases {s t : State} (h : DirtyChange s t) (hs : s.vibDirty = false)
    (ht : t.vibDirty = true) : PrepareFinishes s t := by
  cases h with
  | same h | toggle h | commit h => simp [h.2, hs] at ht
  | prepare h => exact h
  | tick _ hvib | reset _ hvib => simp [hvib] at ht

/-- What clears a dirty flag. -/
theorem dirty_clear_cases {s t : State} (h : DirtyChange s t)
    (hclear : (s.osDirty = true ∧ t.osDirty = false) ∨ (s.vibDirty = true ∧ t.vibDirty = false)) :
    (∃ rest, s.inputs = .reset :: rest) ∨ ∃ v rest, s.WriteNext 0x020#32 v rest := by
  cases h with
  | same h | toggle h | commit h => simp [h.1, h.2] at hclear
  | prepare h => simp [h.dirty] at hclear
  | tick _ _ hw => exact .inr ⟨_, _, hw⟩
  | reset _ _ hin => exact .inl ⟨_, hin⟩

/-- Settles O55: each part from the ways in which a step can change the flags. -/
theorem dirtyFlagsSetOnlyByTheirEvents : Obligations.DirtyFlagsSetOnlyByTheirEvents := by
  intro s t hstep prepares
  have hchange := dirtyChange_of_step hstep
  exact ⟨osDirty_set_cases hchange, vibDirty_set_cases hchange, dirty_clear_cases hchange⟩

end Sys2Proof.Machine
end

section
/-! SUPPORT. Exact operations: words of a given number of units that FTZ leaves alone, on which an
operation with such a result does not round (00_scope.md R14, R15). -/

namespace Sys2Proof.Machine

/-- A positive factor leaves the sign. -/
theorem mul_neg_iff_left {z k : Int} (hk : 0 < k) : z * k < 0 ↔ z < 0 :=
  lt_iff_lt_of_le_iff_le (mul_nonneg_iff_of_pos_right hk)

/-- The word of `u` units of 2^-149, if it is not subnormal; 0 units are +0. -/
def OfUnits (u : Int) (w : Word) : Prop :=
  unpack w = .fin (decide (u < 0)) u.natAbs ∧ (u = 0 ∨ 2 ^ 23 ≤ u.natAbs)

theorem ofUnits_f32One : OfUnits (pow2 149 : Nat) f32One :=
  ⟨by rw [unpack_f32One]; simp, .inr (pow2_le (by decide : 23 ≤ 149))⟩

theorem ofUnits_f32Half : OfUnits (pow2 148 : Nat) f32Half :=
  ⟨by rw [unpack_f32Half]; simp, .inr (pow2_le (by decide : 23 ≤ 148))⟩

theorem ofUnits_f32Two : OfUnits (pow2 150 : Nat) f32Two :=
  ⟨by rw [show unpack f32Two = .fin false (pow2 150) by decide +kernel]; simp,
    .inr (pow2_le (by decide : 23 ≤ 150))⟩

/-- The word of `z·2^e` units. -/
def gridWord (e : Nat) (z : Int) : Word := rn32 (decide (z < 0)) (z.natAbs * pow2 e) 1

/-- A 24-bit multiple of 2^e units is a word of so many units. -/
theorem ofUnits_gridWord {z : Int} {e : Nat} (hz : z.natAbs < 2 ^ 24) (h23 : 23 ≤ e) (he : e ≤ 253) :
    OfUnits (z * (pow2 e : Nat)) (gridWord e z) := by
  have hpos : (0 : Int) < (pow2 e : Nat) := Int.natCast_pos.mpr (pow2_pos e)
  have habs : (z * (pow2 e : Nat)).natAbs = z.natAbs * pow2 e := by
    rw [Int.natAbs_mul, Int.natAbs_natCast]
  refine ⟨by rw [gridWord, unpack_rn32_scaled _ hz he, habs,
    decide_eq_decide.mpr (mul_neg_iff_left hpos)], ?_⟩
  rcases eq_or_ne z 0 with rfl | h0
  · exact .inl (Int.zero_mul _)
  · rw [habs]
    exact .inr ((pow2_le h23).trans (Nat.le_mul_of_pos_left _ (Int.natAbs_pos.mpr h0)))

section Fields
variable {u : Int} {w : Word} (h : OfUnits u w)
include h

theorem OfUnits.isFinite : isFinite w = true := isFinite_of_unpack h.1

theorem OfUnits.signBit : signBit w = decide (u < 0) := signBit_of_unpack h.1

theorem OfUnits.unitsOf : unitsOf w = u := by
  rw [unitsOf_of_unpack h.1]
  simp only [decide_eq_true_eq]
  split <;> omega

theorem OfUnits.flush (ftz : Bool) : flush ftz w = w :=
  flush_eq_self ftz h.1 fun _ => h.2.imp_left Int.natAbs_eq_zero.mpr

/-- Rounding the units gives the word, also as a quotient. -/
theorem OfUnits.rn32 {num den : Nat} (hd : 0 < den) (hnum : num = u.natAbs * den) :
    rn32 (decide (u < 0)) num den = w := rn32_exact h.1 hd hnum

theorem OfUnits.eq_zero (h0 : u = 0) : w = zero false := by
  subst h0
  exact eq_of_unpack_eq h.1 (unpack_zero false)

end Fields

section Operations
variable (ftz : Bool) {u v : Int} {a b w : Word} (ha : OfUnits u a) (hb : OfUnits v b)
include ha hb

theorem fadd_ofUnits (hw : OfUnits (u + v) w) : fadd ftz a b = w := by
  rw [fadd_finite ftz ha.isFinite hb.isFinite, ha.flush, hb.flush, ha.unitsOf, hb.unitsOf, ha.signBit,
    hb.signBit]
  split
  · next h0 =>
    rw [hw.eq_zero h0, show (decide (u < 0) && decide (v < 0)) = false by simp; omega]
  · rw [hw.rn32 one_pos (Nat.mul_one _).symm, hw.flush]

theorem fsub_ofUnits (hw : OfUnits (u - v) w) : fsub ftz a b = w := by
  rw [fsub_finite ftz ha.isFinite hb.isFinite, ha.flush, hb.flush, ha.unitsOf, hb.unitsOf, ha.signBit,
    hb.signBit]
  split
  · next h0 =>
    rw [hw.eq_zero h0, show (decide (u < 0) && !decide (v < 0)) = false by simp; omega]
  · rw [hw.rn32 one_pos (Nat.mul_one _).symm, hw.flush]

/-- A product with a positive factor. -/
theorem fmul_ofUnits {t : Int} (hw : OfUnits t w) (hpos : 0 < u ∨ 0 < v)
    (ht : u * v = t * (pow2 149 : Nat)) : fmul ftz a b = w := by
  have hone : (0 : Int) < (pow2 149 : Nat) := Int.natCast_pos.mpr (pow2_pos 149)
  have hsign : (decide (u < 0) != decide (v < 0)) = decide (t < 0) := by
    rcases hpos with h | h
    · rw [decide_eq_false h.not_gt, Bool.false_bne, decide_eq_decide, ← mul_neg_iff_left (z := t) hone,
        ← ht, Int.mul_comm, mul_neg_iff_left h]
    · rw [decide_eq_false h.not_gt, Bool.bne_false, decide_eq_decide, ← mul_neg_iff_left (z := t) hone,
        ← ht, mul_neg_iff_left h]
  rw [fmul_finite ftz ha.isFinite hb.isFinite, ha.flush, hb.flush, ha.unitsOf, hb.unitsOf, ha.signBit,
    hb.signBit, hsign, hw.rn32 (pow2_pos 149) (by rw [ht, Int.natAbs_mul, Int.natAbs_natCast]),
    hw.flush]

end Operations

end Sys2Proof.Machine
end

section
/-! PROOF. The wavefolder (46_effects.md R260 to R265). -/

namespace Sys2Proof.Machine

/-- Only 1.0 itself compares equal to 1.0. -/
theorem feq_f32One_iff (w : Word) : feq w f32One = true ↔ w = f32One := by
  constructor
  · intro h
    cases hkey : orderKey w with
    | none => rw [feq, hkey] at h; cases h
    | some x =>
      rw [feq_of_keys hkey orderKey_f32One, decide_eq_true_eq] at h
      have hlt : pow2 149 < pow2 277 := mag_lt unpack_f32One
      have hfin := isFinite_of_orderKey hkey (by omega)
      have hunits : unitsOf w = x := Option.some.inj ((orderKey_finite hfin).symm.trans hkey)
      have hpos := pow2_pos 149
      have hw := unpack_of_finite hfin
      rw [signBit_of_units_ne hfin (by omega), hunits, h, Int.natAbs_natCast,
        decide_eq_false (by omega)] at hw
      exact eq_of_unpack_eq hw unpack_f32One
  · rintro rfl
    exact (compare_self orderKey_f32One).2.2

/-- The fold: the fraction, with 1.0 taken to +0 (46_effects.md R263). -/
theorem wfSample_eq (ftz : Bool) (dh dinv x : Word) :
    wfSample ftz dh dinv x =
      if isFinite (fadd ftz (fmul ftz x dh) f32Half) = true then
        fmul ftz (fsub ftz (fmul ftz f32Two
          (if fractionOf (fadd ftz (fmul ftz x dh) f32Half) = f32One then 0#32
            else fractionOf (fadd ftz (fmul ftz x dh) f32Half))) f32One) dinv
      else canonicalNaN := by
  simp only [wfSample, feq_f32One_iff]

/-- Settles O40: the wavefolder by `wfSample_eq`, the command by `mapWork_completes`. -/
theorem wavefoldCompletes : Obligations.WavefoldCompletes :=
  ⟨wfSample_eq, fun s hinv hp hw => mapWork_completes hinv hp hw (wavefoldBody_eq s)⟩

/-! ### The grid (46_effects.md R265) -/

/-- At drive 1 the wavefolder halves its sample and does not scale its result. -/
theorem wfParams_one (ftz : Bool) : wfParams ftz f32One = (f32Half, f32One) := by
  revert ftz
  decide +kernel

/-- A fraction of `u` units below 1 is the word itself. -/
theorem fractionOf_ofUnits {u : Int} {w : Word} (h : OfUnits u w) (h0 : 0 ≤ u)
    (h1 : u < (pow2 149 : Nat)) : fractionOf w = w := by
  have hsign : decide (u < 0) = false := decide_eq_false h0.not_gt
  rw [fractionOf, h.unitsOf, Int.emod_eq_of_lt h0 h1, ← hsign]
  exact h.rn32 one_pos (by omega)

section Grid
variable (ftz : Bool) {k : Int} (hlo : -(2 ^ 23 : Nat) ≤ k) (hhi : k < (2 ^ 23 : Nat))
include hlo hhi

theorem ofUnits_sample : OfUnits (k * (pow2 126 : Nat)) (gridWord 126 k) :=
  ofUnits_gridWord (by omega) (by decide) (by decide)

/-- `v = x/2 + 1/2`, in [0, 1). -/
theorem ofUnits_shifted : OfUnits ((k + 2 ^ 23) * (pow2 125 : Nat)) (gridWord 125 (k + 2 ^ 23)) :=
  ofUnits_gridWord (by omega) (by decide) (by decide)

theorem halve_and_shift :
    fadd ftz (fmul ftz (gridWord 126 k) f32Half) f32Half = gridWord 125 (k + 2 ^ 23) := by
  have h126 : pow2 126 = 2 * pow2 125 := pow2_add 1 125
  have h148 : pow2 148 = 2 ^ 23 * pow2 125 := pow2_add 23 125
  have hpos := pow2_pos 148
  have hhalved : OfUnits (k * (pow2 125 : Nat)) (gridWord 125 k) :=
    ofUnits_gridWord (by omega) (by decide) (by decide)
  rw [fmul_ofUnits ftz (ofUnits_sample hlo hhi) ofUnits_f32Half hhalved (.inr (by omega))
    (by rw [h126, pow2_149_eq]; push_cast; ring)]
  refine fadd_ofUnits ftz hhalved ofUnits_f32Half ?_
  rw [h148, Nat.cast_mul, ← Int.add_mul]
  exact ofUnits_shifted hlo hhi

theorem shifted_lt_one : (k + 2 ^ 23) * (pow2 125 : Nat) < (pow2 149 : Nat) := by
  have hpos : (0 : Int) < (pow2 125 : Nat) := Int.natCast_pos.mpr (pow2_pos 125)
  rw [show pow2 149 = 2 ^ 24 * pow2 125 from pow2_add 24 125, Nat.cast_mul]
  exact mul_lt_mul_of_pos_right (by push_cast; omega) hpos

/-- `2·v - 1` is the sample again. -/
theorem double_and_shift :
    fsub ftz (fmul ftz f32Two (gridWord 125 (k + 2 ^ 23))) f32One = gridWord 126 k := by
  have h126 : pow2 126 = 2 * pow2 125 := pow2_add 1 125
  have h149 : pow2 149 = 2 ^ 23 * pow2 126 := pow2_add 23 126
  have h150 : pow2 150 = 2 * pow2 149 := pow2_add 1 149
  have hpos := pow2_pos 150
  have hdoubled : OfUnits ((k + 2 ^ 23) * (pow2 126 : Nat)) (gridWord 126 (k + 2 ^ 23)) :=
    ofUnits_gridWord (by omega) (by decide) (by decide)
  rw [fmul_ofUnits ftz ofUnits_f32Two (ofUnits_shifted hlo hhi) hdoubled (.inl (by omega))
    (by rw [h126, h150]; push_cast; ring)]
  refine fsub_ofUnits ftz hdoubled ofUnits_f32One ?_
  rw [h149, Nat.cast_mul, ← Int.sub_mul, Nat.cast_pow, Nat.cast_ofNat, Int.add_sub_cancel]
  exact ofUnits_sample hlo hhi

end Grid

/-- Settles O44: `v = x/2 + 1/2` lies in [0, 1) and is its own fraction, and every operation is
exact. -/
theorem wavefolderGridIdentity : Obligations.WavefolderGridIdentity := by
  intro ftz k hlo hhi
  have hv := ofUnits_shifted hlo hhi
  have hlt := shifted_lt_one hlo hhi
  have hfraction := fractionOf_ofUnits hv (Int.mul_nonneg (by omega) (by omega)) hlt
  have hne : gridWord 125 (k + 2 ^ 23) ≠ f32One := fun h => by
    rw [← hv.unitsOf, h, unitsOf_f32One] at hlt
    exact lt_irrefl _ hlt
  have hscale : fmul ftz (gridWord 126 k) f32One = gridWord 126 k :=
    fmul_ofUnits ftz (ofUnits_sample hlo hhi) ofUnits_f32One (ofUnits_sample hlo hhi)
      (.inr (Int.natCast_pos.mpr (pow2_pos 149))) rfl
  show wfSample ftz (wfParams ftz f32One).1 (wfParams ftz f32One).2 (gridWord 126 k) = gridWord 126 k
  rw [wfParams_one, wfSample_eq, halve_and_shift ftz hlo hhi, if_pos hv.isFinite, hfraction,
    if_neg hne, double_and_shift ftz hlo hhi, hscale]

end Sys2Proof.Machine
end

section
/-! PROOF. The saturator at drive 0 (46_effects.md R272). -/

namespace Sys2Proof.Machine

/-! ### Finite words -/

theorem fneg_fneg (w : Word) : fneg (fneg w) = w := by
  rw [fneg, fneg, BitVec.xor_assoc, BitVec.xor_self, BitVec.xor_zero]

/-- Units up to those of a finite word round to a finite word. -/
theorem isFinite_rn32_of_le (neg : Bool) {w : Word} {num : Nat} (hw : isFinite w = true)
    (h : num ≤ (unitsOf w).natAbs) : isFinite (rn32 neg num 1) = true := by
  obtain ⟨b, hb, -, hval⟩ := unpack_eq_fin (unpack_of_finite hw)
  exact isFinite_of_unpack
    (unpack_rn32 neg one_pos (bitsValue_roundMag_le one_pos hb (by omega)).1)

/-! ### The sign of a sample -/

/-- The word, negated or not: what a product with ±1 gives. -/
def applySign (neg : Bool) (w : Word) : Word := if neg then fneg w else w

@[simp] theorem applySign_applySign (neg : Bool) (w : Word) : applySign neg (applySign neg w) = w := by
  cases neg
  · rfl
  · exact fneg_fneg w

@[simp] theorem isFinite_applySign (neg : Bool) (w : Word) :
    isFinite (applySign neg w) = isFinite w := by
  cases neg
  · rfl
  · exact isFinite_fneg w

theorem unpack_applySign (neg : Bool) {w : Word} {s : Bool} {m : Nat} (h : unpack w = .fin s m) :
    unpack (applySign neg w) = .fin (neg != s) m := by
  cases neg
  · simpa [applySign] using h
  · simpa [applySign] using unpack_fneg h

theorem unitsOf_applySign (neg : Bool) {w : Word} (h : isFinite w = true) :
    unitsOf (applySign neg w) = if neg then -unitsOf w else unitsOf w := by
  cases neg
  · rfl
  · exact unitsOf_fneg h

/-- `sign1` of a finite word is ±1 by its units (00_scope.md R13, R17). -/
theorem sign1_finite {x : Word} (h : isFinite x = true) :
    sign1 x = applySign (decide (unitsOf x < 0)) f32One := by
  unfold sign1
  rw [fle_of_keys orderKey_zeroWord (orderKey_finite h)]
  by_cases h0 : unitsOf x < 0
  · rw [decide_eq_false (by omega), decide_eq_true h0]; rfl
  · rw [decide_eq_true (by omega), decide_eq_false h0]; rfl

/-- Without FTZ a product with ±1 is exact. -/
theorem fmul_sign (neg : Bool) {w : Word} (h : isFinite w = true) :
    fmul false (applySign neg f32One) w = applySign neg w := by
  have hone := unpack_applySign neg unpack_f32One
  rw [Bool.bne_false] at hone
  rw [fmul_finite false (isFinite_of_unpack hone) h, flush_false, flush_false w, flush_false,
    signBit_of_unpack hone, Int.natAbs_mul, natAbs_unitsOf hone, Nat.mul_comm]
  exact rn32_exact (unpack_applySign neg (unpack_of_finite h)) (pow2_pos 149) rfl

/-! ### The saturated value -/

/-- A finite word that is not below 0. -/
def NonNegWord (w : Word) : Prop := isFinite w = true ∧ 0 ≤ unitsOf w

/-- The root of such a word is one. -/
theorem nonNegWord_fsqrt {a : Word} (h : NonNegWord a) : NonNegWord (fsqrt false a) := by
  obtain ⟨hfin, h0⟩ := h
  rcases h0.eq_or_lt with hz | hpos
  · rw [fsqrt_finite_zero false hfin hz.symm]
    exact ⟨isFinite_zero _, (unitsOf_zero _).ge⟩
  · obtain ⟨k, hk, -⟩ := fsqrt_finite_pos false hfin hpos
    exact ⟨isFinite_of_unpack hk, (unitsOf_of_unpack hk).ge.trans' (Int.natCast_nonneg k)⟩

/-- The fourth root under the sign of the sample, which `satSample` mixes with it (R271). -/
def signedRoot (x : Word) : Word :=
  applySign (decide (unitsOf x < 0)) (fsqrt false (fsqrt false (applySign (decide (unitsOf x < 0)) x)))

theorem nonNegWord_magnitude {x : Word} (h : isFinite x = true) :
    NonNegWord (applySign (decide (unitsOf x < 0)) x) := by
  refine ⟨by simpa using h, ?_⟩
  rw [unitsOf_applySign _ h]
  simp only [decide_eq_true_eq]
  split <;> omega

theorem satSample_finite (d : Word) {x : Word} (h : isFinite x = true) :
    satSample false d x = fadd false x (fmul false d (fsub false (signedRoot x) x)) := by
  have ha := nonNegWord_magnitude h
  have hb := nonNegWord_fsqrt ha
  have hc := nonNegWord_fsqrt hb
  have hb' := (isFinite_applySign (decide (unitsOf x < 0)) _).trans hb.1
  unfold satSample
  dsimp only
  rw [sign1_finite h, fmul_sign _ h, fmul_sign _ hb.1, fmul_sign _ hb', applySign_applySign,
    fmul_sign _ hc.1, ← signedRoot]

/-- The root has the sample's sign, so it lies no further from it than the larger of the two. -/
theorem isFinite_signedRoot_sub {x : Word} (h : isFinite x = true) :
    isFinite (fsub false (signedRoot x) x) = true := by
  have hroot := nonNegWord_fsqrt (nonNegWord_fsqrt (nonNegWord_magnitude h))
  have hfin : isFinite (signedRoot x) = true := by simpa [signedRoot] using hroot.1
  have hunits := unitsOf_applySign (decide (unitsOf x < 0)) hroot.1
  rw [← signedRoot] at hunits
  simp only [decide_eq_true_eq] at hunits
  have h0 := hroot.2
  rw [fsub_finite false hfin h, flush_false, flush_false x, flush_false]
  split
  · exact isFinite_zero _
  · rcases le_total (unitsOf x).natAbs (unitsOf (signedRoot x)).natAbs with hle | hle
    · exact isFinite_rn32_of_le _ hfin (by split at hunits <;> omega)
    · exact isFinite_rn32_of_le _ h (by split at hunits <;> omega)

/-- Settles O43: the mix at drive +0 adds a zero, which changes only -0. -/
theorem saturatorZeroDriveIdentity : Obligations.SaturatorZeroDriveIdentity := by
  refine ⟨fun x hx hneg => ?_, by decide +kernel⟩
  have hmix : fmul false 0#32 (fsub false (signedRoot x) x) = zero _ :=
    posZero_fmul false (isFinite_signedRoot_sub hx)
  rw [satSample_finite _ hx, hmix, fadd_zero false _ hx (flush_false x) hneg]

end Sys2Proof.Machine
end

section
/-! PROOF. The default LFO at the quarter turns (46_effects.md R279). -/

namespace Sys2Proof.Machine

theorem pow2_lt {j k : Nat} (h : j < k) : pow2 j < pow2 k := Nat.pow_lt_pow_right (by decide) h

/-- The LFO of a phase in the first turn. -/
theorem sin2pi_default_of_unpack {p : Word} {t : Nat} (h : unpack p = .fin false t)
    (ht : t < pow2 149) : sin2pi .default p = sineOfTurn false t := by
  rw [sin2pi, sin2piDefault, h]
  exact congrArg (sineOfTurn false) (Nat.mod_eq_of_lt ht)

theorem sineOfTurn_zero (neg : Bool) : sineOfTurn neg 0 = zero false := by
  cases neg <;> decide +kernel

theorem sineOfTurn_quarter (neg : Bool) :
    sineOfTurn neg (pow2 147) = packBits neg 0x3F800000 := by
  cases neg <;> decide +kernel

theorem sineOfTurn_half (neg : Bool) : sineOfTurn neg (pow2 148) = zero false := by
  cases neg <;> decide +kernel

theorem sineOfTurn_threeQuarters (neg : Bool) :
    sineOfTurn neg (3 * pow2 147) = packBits (!neg) 0x3F800000 := by
  cases neg <;> decide +kernel

/-- Settles O46: the quarter turns are the exact cases of `sineOfTurn`. -/
theorem sineAtQuarterTurns : Obligations.SineAtQuarterTurns := by
  refine ⟨?_, ?_, ?_, ?_⟩
  · exact (sin2pi_default_of_unpack (unpack_zero false) (pow2_pos 149)).trans (sineOfTurn_zero false)
  · have hquarter : unpack 0x3E800000#32 = .fin false (pow2 147) := by decide +kernel
    exact (sin2pi_default_of_unpack hquarter (pow2_lt (by decide))).trans (sineOfTurn_quarter false)
  · exact (sin2pi_default_of_unpack unpack_f32Half (pow2_lt (by decide))).trans (sineOfTurn_half false)
  · have hthree : unpack 0x3F400000#32 = .fin false (3 * pow2 147) := by decide +kernel
    exact (sin2pi_default_of_unpack hthree (by decide +kernel)).trans (sineOfTurn_threeQuarters false)

end Sys2Proof.Machine
end

section
/-! SUPPORT. The vibrato in the frame order of 46_effects.md R275 against the channel order that the
model runs (log 17): the offsets do not depend on the samples, and a channel's line only on its own
samples. -/

namespace Sys2Proof.Machine

/-! ### One frame -/

section Frame
variable (ftz prepared : Bool) (free : Nat → Nat → Word) (len : Nat) (off : Word)

@[simp] theorem length_vibFrame_lines (ls : List VibLine) : ∀ (c : Nat) (xs : List Word),
    (vibFrame ftz prepared free len off c ls xs).1.length = ls.length := by
  induction ls with
  | nil => intro c xs; rfl
  | cons l ls ih =>
    intro c xs
    cases xs with
    | nil => rfl
    | cons x xs => simp [vibFrame, ih]

/-- The channels past the frame keep their lines. -/
theorem getElem?_vibFrame_lines_of_le (ls : List VibLine) : ∀ (c : Nat) (xs : List Word) {k : Nat},
    xs.length ≤ k → (vibFrame ftz prepared free len off c ls xs).1[k]? = ls[k]? := by
  induction ls with
  | nil => intro c xs k _; rfl
  | cons l ls ih =>
    intro c xs k hk
    cases xs with
    | nil => rfl
    | cons x xs =>
      obtain ⟨k, rfl⟩ : ∃ j, k = j + 1 := ⟨k - 1, by simp at hk; omega⟩
      simpa [vibFrame] using ih (c + 1) xs (by simpa using hk)

theorem vibFrame_cons (c : Nat) (l : VibLine) (ls : List VibLine) (x : Word) (xs : List Word) :
    vibFrame ftz prepared free len off c (l :: ls) (x :: xs) =
      ((vibSample ftz prepared (free c) len l x off).1 ::
          (vibFrame ftz prepared free len off (c + 1) ls xs).1,
        (vibSample ftz prepared (free c) len l x off).2 ::
          (vibFrame ftz prepared free len off (c + 1) ls xs).2) := rfl

/-- A channel of the frame: its own sample through its own line. -/
theorem vibFrame_channel (ls : List VibLine) : ∀ (c : Nat) (xs : List Word) {k : Nat},
    k < ls.length → k < xs.length →
      ((vibFrame ftz prepared free len off c ls xs).1.getD k VibLine.empty,
        (vibFrame ftz prepared free len off c ls xs).2.getD k 0#32) =
      vibSample ftz prepared (free (c + k)) len (ls.getD k VibLine.empty) (xs.getD k 0#32) off := by
  induction ls with
  | nil => intro c xs k hk; simp at hk
  | cons l ls ih =>
    intro c xs k hk hx
    cases xs with
    | nil => simp at hx
    | cons x xs =>
      cases k with
      | zero => simp only [vibFrame_cons, List.getD_cons_zero, Nat.add_zero]
      | succ k =>
        simp only [vibFrame_cons, List.getD_cons_succ]
        rw [ih (c + 1) xs (by simpa using hk) (by simpa using hx), Nat.add_right_comm, Nat.add_assoc]

end Frame

/-! ### A block of frames -/

section Block
variable (ftz prepared : Bool) (free : Nat → Nat → Word) (sine : Word → Word) (depth inc : Word)
  (len : Nat)

/-- The samples of one channel, frame after frame. -/
def channelOf (fs : List (List Word)) (c : Nat) : List Word := fs.map (fun f => f.getD c 0#32)

/-- The phase moves once per frame, whatever the lines. -/
theorem vibFramesInOrder_phase (fs : List (List Word)) : ∀ (vph : Word) (ls : List VibLine),
    (vibFramesInOrder ftz prepared free sine depth inc len fs vph ls).2.1 =
      (vibFrames ftz sine depth inc len fs.length vph).2 := by
  induction fs with
  | nil => intro vph ls; rfl
  | cons f fs ih => exact fun vph ls => ih _ _

@[simp] theorem length_vibFramesInOrder_lines (fs : List (List Word)) :
    ∀ (vph : Word) (ls : List VibLine),
      (vibFramesInOrder ftz prepared free sine depth inc len fs vph ls).2.2.length = ls.length := by
  induction fs with
  | nil => intro vph ls; rfl
  | cons f fs ih => intro vph ls; simp [vibFramesInOrder, ih]

/-- The channels past every frame keep their lines. -/
theorem getElem?_vibFramesInOrder_lines_of_le {k : Nat} (fs : List (List Word))
    (hk : ∀ f ∈ fs, f.length ≤ k) : ∀ (vph : Word) (ls : List VibLine),
      (vibFramesInOrder ftz prepared free sine depth inc len fs vph ls).2.2[k]? = ls[k]? := by
  induction fs with
  | nil => intro vph ls; rfl
  | cons f fs ih =>
    intro vph ls
    exact (ih (fun g hg => hk g (List.mem_cons_of_mem _ hg)) _ _).trans
      (getElem?_vibFrame_lines_of_le _ _ _ _ _ _ _ _ (hk f (List.mem_cons_self ..)))

/-- A channel of the frame order: its own samples through its own line, with the block's offsets. -/
theorem vibFramesInOrder_channel {k : Nat} (fs : List (List Word)) (hk : ∀ f ∈ fs, k < f.length) :
    ∀ (vph : Word) (ls : List VibLine), k < ls.length →
      ((vibFramesInOrder ftz prepared free sine depth inc len fs vph ls).2.2.getD k VibLine.empty,
        channelOf (vibFramesInOrder ftz prepared free sine depth inc len fs vph ls).1 k) =
      vibBlock ftz prepared (free k) len (ls.getD k VibLine.empty)
        ((channelOf fs k).zip (vibFrames ftz sine depth inc len fs.length vph).1) := by
  induction fs with
  | nil => intro vph ls _; rfl
  | cons f fs ih =>
    intro vph ls hls
    have hframe := vibFrame_channel ftz prepared free len (vibOffset ftz depth (sine vph) len) ls 0 f
      hls (hk f (List.mem_cons_self ..))
    have hrest := ih (fun g hg => hk g (List.mem_cons_of_mem _ hg)) (vibAdvance ftz inc vph)
      (vibFrame ftz prepared free len (vibOffset ftz depth (sine vph) len) 0 ls f).1 (by simpa using hls)
    rw [Nat.zero_add] at hframe
    obtain ⟨hline, hout⟩ := Prod.ext_iff.mp hframe
    dsimp only at hline hout
    rw [hline] at hrest
    obtain ⟨hlines, houts⟩ := Prod.ext_iff.mp hrest
    exact Prod.ext hlines (congrArg₂ List.cons hout houts)

end Block

/-! ### The work buffer -/

theorem length_of_mem_workFrames {s : State} {f : List Word} (h : f ∈ s.workFrames) :
    f.length = s.wch.toNat := by
  obtain ⟨i, -, rfl⟩ := List.mem_map.mp h
  simp

@[simp] theorem length_workFrames (s : State) : s.workFrames.length = s.wlen.toNat := by
  simp [State.workFrames]

/-- A channel of the work buffer's frames is its block of SCR. -/
theorem channelOf_workFrames (s : State) {c : Nat} (hc : c < s.wch.toNat) :
    channelOf s.workFrames c = s.scrBlock c s.wlen.toNat :=
  List.ext_getElem (by simp [channelOf]) fun i _ _ => by
    simp only [channelOf, State.workFrames, List.getElem_map, List.getElem_range, getElem_scrBlock]
    exact getD_map_range _ hc _

/-- VIBRATO in the frame order of the spec, on the work buffer of a prepared machine (46_effects.md
R275). -/
def State.vibInOrder (s : State) : List (List Word) × Word × List VibLine :=
  vibFramesInOrder s.params.ftz true (Config.freeVibElement s.resets) (sin2pi s.params.sin2pi)
    (clampUnit s.vibDepth) s.vibIncNow s.vibLen.toNat s.workFrames s.vph s.vib

theorem vph_vibInOrder (s : State) : s.vibInOrder.2.1 = s.vibFramesNow.2 := by
  rw [State.vibInOrder, vibFramesInOrder_phase, length_workFrames]
  rfl

theorem getElem_vibResults (s : State) {c : Nat} (h : c < s.vibResults.length) :
    s.vibResults[c] = vibBlock s.params.ftz s.prepared (Config.freeVibElement s.resets c)
      s.vibLen.toNat (s.vibLine c) ((s.scrBlock c s.wlen.toNat).zip s.vibFramesNow.1) := by
  simp [State.vibResults, getElem_workBuffer]

section Order
variable {s : State} (hp : s.prepared = true) (hch : s.wch.toNat ≤ s.vib.length)
include hp hch

/-- A channel run by itself gives its line and its samples of the frame order (log 17). -/
theorem vibResults_eq_vibInOrder {c : Nat} (h : c < s.vibResults.length) :
    s.vibResults[c] = (s.vibInOrder.2.2.getD c VibLine.empty, channelOf s.vibInOrder.1 c) := by
  have hc : c < s.wch.toNat := by simpa using h
  rw [getElem_vibResults, hp, State.vibInOrder, vibFramesInOrder_channel _ _ _ _ _ _ _ _
    (fun f hf => (length_of_mem_workFrames hf).symm ▸ hc) _ _ (hc.trans_le hch),
    channelOf_workFrames s hc, length_workFrames]
  rfl

/-- The lines after VIBRATO are those of the frame order. -/
theorem vib_vibInOrder : replaceFirst (s.vibResults.map Prod.fst) s.vib = s.vibInOrder.2.2 := by
  have hlen : s.vibInOrder.2.2.length = s.vib.length := length_vibFramesInOrder_lines ..
  refine List.ext_getElem? fun c => ?_
  rw [replaceFirst, List.getElem?_append]
  split
  · next hc =>
    have hc' : c < s.vibResults.length := by simpa using hc
    have hl : c < s.vibInOrder.2.2.length := by simp at hc'; omega
    rw [List.getElem?_map, List.getElem?_eq_getElem hc', Option.map_some,
      vibResults_eq_vibInOrder hp hch hc', List.getElem?_eq_getElem hl, List.getD_eq_getElem _ _ hl]
  · next hc =>
    rw [List.getElem?_drop, Nat.add_sub_cancel' (not_lt.mp hc)]
    refine (getElem?_vibFramesInOrder_lines_of_le _ _ _ _ _ _ _ _ (fun f hf => ?_) _ _).symm
    rw [length_of_mem_workFrames hf]
    simpa using hc

end Order

/-! ### What VIBRATO leaves -/

theorem length_of_mem_vibSamples {s : State} : ∀ ws ∈ s.vibResults.map Prod.snd,
    ws.length = s.wlen.toNat := by
  intro ws hws
  obtain ⟨c, hc, rfl⟩ := List.getElem_of_mem hws
  simp [getElem_vibResults, State.vibFramesNow]

section Vibrato
variable {s : State} (hn : s.wlen.toNat ≤ 0x10000)

theorem sameBytesOutside_vibratoBody :
    sameBytesOutside s (vibratoBody s) (inChannels scrAddr s.wch.toNat s.wlen.toNat) := by
  intro a ha
  rw [vibratoBody_def, readByte_flagNumerr]
  exact readByte_setScrChannels length_of_mem_vibSamples _ (by simpa using ha)

include hn

theorem loadWord_vibratoBody (c i : Nat) (hc : c < (s.vibResults.map Prod.snd).length)
    (hi : i < (s.vibResults.map Prod.snd)[c].length) :
    (vibratoBody s).loadWord (scrAddr c i) = (s.vibResults.map Prod.snd)[c][i] := by
  rw [vibratoBody_def, loadWord_flagNumerr]
  exact loadWord_setScrChannels length_of_mem_vibSamples hn _ hc hi

theorem numerrAfter_vibratoBody :
    s.NumerrAfter (vibratoBody s) scrAddr s.wch.toNat s.wlen.toNat := by
  have hflag : (vibratoBody s).numerr =
      (s.numerr || anyNonFinite (s.vibResults.map Prod.snd).flatten) :=
    congrArg (· || anyNonFinite (s.vibResults.map Prod.snd).flatten) (setScrChannels_numerr _ _)
  have h := numerrAfter_of_channels length_of_mem_vibSamples hflag (loadWord_vibratoBody hn)
  rwa [List.length_map, length_vibResults] at h

/-- The samples after VIBRATO are those of the frame order. -/
theorem loadWord_vibratoBody_inOrder (hp : s.prepared = true) (hch : s.wch.toNat ≤ s.vib.length)
    {c i : Nat} (hc : c < s.wch.toNat) (hi : i < s.wlen.toNat) :
    (vibratoBody s).loadWord (scrAddr c i) = (s.vibInOrder.1.getD i []).getD c 0#32 := by
  have hc' : c < (s.vibResults.map Prod.snd).length := by simpa using hc
  have hi' : i < (s.vibResults.map Prod.snd)[c].length :=
    (length_of_mem_vibSamples _ (List.getElem_mem hc')).symm ▸ hi
  have hchan : (s.vibResults.map Prod.snd)[c] = channelOf s.vibInOrder.1 c := by
    rw [List.getElem_map, vibResults_eq_vibInOrder hp hch]
  rw [loadWord_vibratoBody hn c i hc' hi', ← List.getD_eq_getElem _ 0#32 hi', hchan, channelOf]
  exact List.getD_map (d := []) ..

end Vibrato

end Sys2Proof.Machine
end

section
/-! PROOF. VIBRATO (46_effects.md R275 to R282): the increment, the sample through the line, and the
command in the frame order of the spec. -/

namespace Sys2Proof.Machine

/-! ### A quotient in lowest terms or not -/

theorem roundEven_mul_left {k : Nat} (hk : 0 < k) (num den : Nat) :
    roundEven (k * num) (k * den) = roundEven num den := by
  have hlt : ∀ x : Nat, 2 * (k * x) < k * den ↔ 2 * x < den := fun x => by
    rw [Nat.mul_left_comm, Nat.mul_lt_mul_left hk]
  have heq : ∀ x : Nat, 2 * (k * x) = k * den ↔ 2 * x = den := fun x => by
    rw [Nat.mul_left_comm, Nat.mul_right_inj hk.ne']
  unfold roundEven
  rw [Nat.mul_mod_mul_left, Nat.mul_div_mul_left _ _ hk]
  simp only [hlt, heq]

/-- `RN32` is of a quotient, not of its numerator and denominator. -/
theorem rn32_mul_left {k : Nat} (hk : 0 < k) (neg : Bool) (num den : Nat) :
    rn32 neg (k * num) (k * den) = rn32 neg num den := by
  have hstep : roundStep (k * num) (k * den) = roundStep num den := by
    rw [roundStep, roundStep, Nat.mul_div_mul_left _ _ hk]
  have hmag : roundMag (k * num) (k * den) = roundMag num den := by
    rw [roundMag_eq, roundMag_eq, hstep, Nat.mul_assoc, roundEven_mul_left hk]
  rw [rn32, rn32, hmag]
  simp [hk.ne']

/-! ### The increment (46_effects.md R278) -/

theorem vibIncrement_of_not_pos {freq : Word} (h : flt 0x00000000#32 freq = false) (ufs : Nat) :
    vibIncrement freq ufs = 0x00000000#32 := by
  rw [vibIncrement, h]; rfl

theorem vibIncrement_infinity (ufs : Nat) : vibIncrement (infinity false) ufs = 0x3F000000#32 := by
  have hpos : flt 0#32 (infinity false) = true := by
    rw [flt_of_keys orderKey_zeroWord (orderKey_infinity false)]
    exact decide_eq_true (unitsOf_between (w := 0#32) rfl).2
  rw [vibIncrement, if_pos hpos, unpack_infinity]
  rfl

section Positive
variable {freq : Word} {f : Nat} (hf : 1 ≤ f) (hfreq : unpack freq = .fin false f)
include hf hfreq

/-- The increment of a positive frequency, by the Nyquist rate. -/
theorem vibIncrement_pos (ufs : Nat) :
    vibIncrement freq ufs =
      if ufs ≤ 2 * (f * pow2 925) then f32Half else rn32 false (f * pow2 925 * pow2 149) ufs := by
  have hunits : unitsOf freq = f := unitsOf_of_unpack hfreq
  have hpos : flt 0x00000000#32 freq = true := by
    rw [flt_of_keys orderKey_zeroWord (orderKey_finite (isFinite_of_unpack hfreq)), hunits]
    exact decide_eq_true (by omega)
  rw [vibIncrement, hpos, hfreq]
  rfl

/-- The lesser of the frequency and half the rate, over the rate. -/
theorem vibIncrement_eq_rn32 {ufs : Nat} (h : 1 ≤ ufs) :
    vibIncrement freq ufs =
      rn32 false (min (2 * (f * pow2 925)) ufs * pow2 149) (2 * ufs) := by
  rw [vibIncrement_pos hf hfreq]
  split
  · next hle =>
    rw [min_eq_right hle]
    exact (rn32_exact unpack_f32Half (by omega) (by rw [pow2_149_eq]; ring)).symm
  · next hlt =>
    rw [min_eq_left (by omega), Nat.mul_assoc 2, rn32_mul_left two_pos]

end Positive

/-! ### The sample through the line (46_effects.md R281) -/

theorem vibSample_of_finite (ftz prepared : Bool) (free : Nat → Word) (len : Nat) (l : VibLine)
    (x off : Word) (h : isFinite (vibReadPos ftz (ringNext l.vw len) off len) = true) :
    vibSample ftz prepared free len l x off =
      let r := vibReadPos ftz (ringNext l.vw len) off len
      let i := (floorOf r % (len : Int)).toNat
      let m := l.push prepared (ringNext l.vw len) x
      (m, fadd ftz (m.get prepared free i) (fmul ftz (fractionOf r)
        (fsub ftz (m.get prepared free (ringNext i len)) (m.get prepared free i)))) := by
  simp only [vibSample, vibReadIndex, vibReadFraction, if_pos h]

/-! ### The command -/

theorem vibratoBody_inOrder {s : State} (hp : s.prepared = true)
    (hch : s.wch.toNat ≤ s.vib.length) :
    vibratoBody s = { s with
      mem := (vibratoBody s).mem, numerr := (vibratoBody s).numerr
      vibInc := s.vibIncNow, vph := s.vibInOrder.2.1, vib := s.vibInOrder.2.2 } := by
  rw [vph_vibInOrder, ← vib_vibInOrder hp hch]
  exact vibratoBody_eq s

/-- VIBRATO on a prepared machine with a work buffer: the frame order's samples, phase and lines, and
nothing else (46_effects.md R261, R275). -/
theorem vibrato_completes {s : State} (hinv : s.Inv) (hp : s.prepared = true)
    (hw : s.wmode ≠ .none) :
    ∃ t, exec .vibrato s = .next t ∧
      t = { s with
        mem := t.mem
        numerr := t.numerr
        vibInc := s.vibIncNow
        vph := s.vibInOrder.2.1
        vib := s.vibInOrder.2.2
        done := true
        engPhase := .idle } ∧
      (∀ c < s.wch.toNat, ∀ i < s.wlen.toNat,
        t.loadWord (scrAddr c i) = (s.vibInOrder.1.getD i []).getD c 0#32) ∧
      s.NumerrAfter t scrAddr s.wch.toNat s.wlen.toNat ∧
      sameBytesOutside s t (inChannels scrAddr s.wch.toNat s.wlen.toNat) := by
  have hn := wlen_le_of_inv hinv hw
  obtain ⟨-, -, -, hwch, -⟩ := workBufferLegal_of_inv hinv hw
  obtain ⟨-, ⟨-, -, -, -, hvib, -⟩, -⟩ := hinv
  have hch : s.wch.toNat ≤ s.vib.length := hwch.trans_eq hvib.symm
  have hok : commandBody .vibrato s = .ok (vibratoBody s) :=
    (effectChecks_ok_iff s _ vibratoBody).mpr ⟨hp, hw, rfl⟩
  refine ⟨(vibratoBody s).completed, exec_of_ok rfl hok, ?_, fun c hc i hi => ?_, ?_, ?_⟩
  · conv_lhs => rw [State.completed, vibratoBody_inOrder hp hch]
    rfl
  · exact loadWord_vibratoBody_inOrder hn hp hch hc hi
  · exact numerrAfter_vibratoBody hn
  · exact sameBytesOutside_vibratoBody

/-- Settles O42: the increment by `vibIncrement_eq_rn32`, the sample by `vibSample_of_finite`, the
command by `vibrato_completes`. -/
theorem vibratoRunsFrameByFrame : Obligations.VibratoRunsFrameByFrame := by
  refine ⟨fun freq ufs hufs => ⟨fun h => vibIncrement_of_not_pos h ufs, vibIncrement_infinity ufs,
    fun f hf hfreq => ⟨vibIncrement_eq_rn32 hf hfreq hufs, fun hle => ?_⟩⟩,
    fun ftz inc vph depth lfo len => ⟨rfl, rfl⟩,
    fun ftz free len l x off hfin => vibSample_of_finite ftz true free len l x off hfin,
    fun s hinv hp hw => ?_⟩
  · rw [vibIncrement_pos hf hfreq, if_pos hle]
    rfl
  · exact vibrato_completes hinv hp hw

end Sys2Proof.Machine
end

section
/-! PROOF. What every command ends with: DONE or a recorded error, and an ENGINE that is free again
(60_exceptions.md R300 to R322). -/

namespace Sys2Proof.Machine

/-! ### What a completed command leaves -/

/-- The events to come and the error record are the same in both states. -/
def SameRecord (s t : State) : Prop :=
  t.inputs = s.inputs ∧ t.err = s.err ∧ t.errcode = s.errcode

theorem SameRecord.refl (s : State) : SameRecord s s := ⟨rfl, rfl, rfl⟩

theorem sameRecord_mapWork {s u : State} (f : Word → Word) (h : SameRecord s u) :
    SameRecord s (u.mapWork f) := mapWork_eq u f ▸ h

theorem sameRecord_vibratoBody {s u : State} (h : SameRecord s u) :
    SameRecord s (vibratoBody u) := vibratoBody_eq u ▸ h

theorem sameRecord_downsampleRun {s u : State} (h : SameRecord s u) :
    SameRecord s (downsampleRun u) := downsampleRun_eq u ▸ h

theorem sameRecord_upsampleRun (n : Nat) (s : State) : SameRecord s (upsampleRun n s) :=
  upsampleRun_eq s n ▸ SameRecord.refl s

theorem sameRecord_runEffects {s u : State} (h : SameRecord s u) : SameRecord s (runEffects u) :=
  keeps_optional (fun _ hu => sameRecord_vibratoBody hu) (keeps_optional
    (fun _ hu => sameRecord_mapWork _ hu) (keeps_optional (fun _ hu => sameRecord_mapWork _ hu) h _)
    _) _

theorem sameRecord_processRun (n : Nat) (s : State) : SameRecord s (processRun n s) := by
  have hup := sameRecord_upsampleRun n s
  rw [processRun_def]
  refine sameRecord_downsampleRun (?_ : SameRecord s _)
  split
  · exact hup
  · exact sameRecord_runEffects hup

/-- No command that completes touches the error record (60_exceptions.md R303). -/
theorem sameRecord_of_completes {s u : State} (h : Completes s u) : SameRecord s u := by
  cases h with
  | nop => exact .refl s
  | prepare => exact .refl s
  | upsample => exact sameRecord_upsampleRun _ s
  | downsample => exact sameRecord_downsampleRun (.refl s)
  | process => exact sameRecord_processRun _ s
  | wavefold => exact sameRecord_mapWork _ (.refl s)
  | saturate => exact saturateBody_eq s ▸ sameRecord_mapWork _ (.refl s)
  | vibrato => exact sameRecord_vibratoBody (.refl s)
  | convDirect | convPoly => simp [SameRecord, State.storeFir]
  | rlpRun => simp [SameRecord, State.storeRlp]

/-! ### What a command raises -/

/-- The errors of the commands (60_exceptions.md R302): ERR_BUSY and ERR_BUS are the bus's own. -/
def commandErrors : List ErrorCode := [.illegal, .range, .notPrep, .seq]

theorem code_of_mem_commandErrors {e : ErrorCode} (h : e ∈ commandErrors) :
    1 ≤ e.code.toNat ∧ e.code.toNat ≤ 5 := by
  revert e; decide

/-- The error of a body that one check guards. -/
theorem eq_of_ite_error {c : Prop} [Decidable c] {u : State} {e e' : ErrorCode}
    (h : (if c then Except.ok u else .error e) = .error e') : e' = e := by
  split at h
  · cases h
  · exact (Except.error.inj h).symm

theorem onStage_error {α : Type} {g : Option α} {body : α → Except ErrorCode State} {e : ErrorCode}
    (h : onStage g body = .error e) : e = .illegal ∨ ∃ g, body g = .error e := by
  cases g with
  | some g => exact .inr ⟨g, h⟩
  | none => exact .inl (Except.error.inj h).symm

/-- A primitive raises ERR_ILLEGAL, or the error of its one check. -/
theorem mem_commandErrors_of_onStage {α : Type} {g : Option α} {body : α → Except ErrorCode State}
    {e : ErrorCode} (h : onStage g body = .error e) (hbody : ∀ g, body g = .error e → e = .range) :
    e ∈ commandErrors := by
  obtain rfl | ⟨g, hg⟩ := onStage_error h
  · decide
  · rw [hbody g hg]; decide

/-- UPSAMPLE and PROCESS raise ERR_NOT_PREP before ERR_RANGE (44_orchestrator.md R210, R221). -/
theorem mem_commandErrors_of_blockChecks {prepared inRange : Bool} {u : State} {e : ErrorCode}
    (h : (if prepared then if inRange then Except.ok u else .error .range else .error .notPrep) =
      .error e) : e ∈ commandErrors := by
  split at h
  · rw [eq_of_ite_error h]; decide
  · cases h; decide

/-- DOWNSAMPLE's checks are those of the effects (44_orchestrator.md R215, 46_effects.md R261). -/
theorem downsampleBody_eq_effectChecks (s : State) :
    downsampleBody s = effectChecks s downsampleRun := rfl

theorem effectChecks_error {s : State} {body : State → State} {e : ErrorCode}
    (h : effectChecks s body = .error e) : e ∈ commandErrors := by
  obtain ⟨-, rfl⟩ | ⟨-, -, rfl⟩ := (effectChecks_error_iff s body e).mp h
  · decide
  · decide

theorem prepareBody_error {s : State} {e : ErrorCode} (h : prepareBody s = .error e) :
    e ∈ commandErrors := by
  unfold prepareBody at h
  split at h
  · cases h
  · next e' hr =>
    cases h
    rw [prepareRates_error hr]; decide

theorem commandBody_error {i : Instr} {s : State} {e : ErrorCode} (h : commandBody i s = .error e) :
    e ∈ commandErrors := by
  cases i with
  | nop => cases h
  | prepare => exact prepareBody_error h
  | upsample | process => exact mem_commandErrors_of_blockChecks h
  | downsample => exact effectChecks_error ((downsampleBody_eq_effectChecks s).symm.trans h)
  | wavefold | saturate | vibrato => exact effectChecks_error h
  | convDirect | convPoly | rlpRun =>
    exact mem_commandErrors_of_onStage h fun _ hg => eq_of_ite_error hg
  | setEnabled | latTick => cases h; decide

/-- The commands are the operations that are writes to CMD (30_encoding.md R120). -/
theorem isCommand_of_encode {i : Instr} (h : (encode i).addr = cmdAddr) : isCommand i = true := by
  cases i with
  | setEnabled => exact absurd h (show osReqAddr ≠ cmdAddr by decide)
  | latTick => exact absurd h (show latTickAddr ≠ cmdAddr by decide)
  | _ => rfl

/-- Settles O25: a body that completes keeps the record (`sameRecord_of_completes`), and one that
raises has an error of the commands (`commandBody_error`). -/
theorem commandErrorsArePrecise : Obligations.CommandErrorsArePrecise := by
  intro i s t haddr h
  rw [exec_eq_finishCommand (isCommand_of_encode haddr)] at h
  obtain ⟨u, hu, rfl⟩ | ⟨e, he, rfl⟩ := finishCommand_cases h
  · obtain ⟨-, herr, hcode⟩ := sameRecord_of_completes (completes_of_commandBody hu)
    exact ⟨rfl, .inl ⟨rfl, herr, hcode⟩⟩
  · obtain ⟨hlo, hhi⟩ := code_of_mem_commandErrors (commandBody_error he)
    exact ⟨rfl, .inr ⟨e.code, hlo, hhi, rfl⟩⟩

/-! ### The ENGINE's turns -/

/-- FINISH is the end of a command, whatever the pending word (60_exceptions.md R322). -/
theorem engineTurn_of_started {s : State} (hphase : s.engPhase = .started) :
    ∃ b, engineTurn s = finishCommand s b ∧ ∀ u, b = .ok u → Completes s u := by
  cases hd : decode ⟨cmdAddr, s.pendCmd⟩ with
  | ok i =>
    refine ⟨commandBody i s, ?_, fun _ => completes_of_commandBody⟩
    rw [engineTurn_of_decode hphase hd,
      exec_eq_finishCommand (namesCommand_decodeCmd s.pendCmd i hd)]
  | error e => exact ⟨.error .illegal, engineTurn_of_illegal hphase hd, fun _ hu => by cases hu⟩

/-- The turns that the ENGINE has still to take for the command in hand: START and FINISH. -/
def EngPhase.turnsLeft : EngPhase → Nat
  | .idle => 0
  | .queued => 2
  | .started => 1

/-- Every turn of the ENGINE answers a state one turn nearer to IDLE and takes no event. -/
theorem engineTurn_turnsLeft (s : State) :
    ∃ t, engineTurn s = .next t ∧ t.inputs = s.inputs ∧
      t.engPhase.turnsLeft = s.engPhase.turnsLeft - 1 := by
  cases hphase : s.engPhase with
  | idle => exact ⟨s, by rw [engineTurn, hphase], rfl, by rw [hphase]; rfl⟩
  | queued => exact ⟨s.start, by rw [engineTurn, hphase], rfl, rfl⟩
  | started =>
    obtain ⟨b, hturn, hb⟩ := engineTurn_of_started hphase
    cases b with
    | ok u =>
      obtain ⟨hin, -, -⟩ := sameRecord_of_completes (hb u rfl)
      exact ⟨u.completed, hturn, hin, rfl⟩
    | error e => exact ⟨s.raised e.code, hturn, rfl, rfl⟩

theorem turnsLeft_le_two (p : EngPhase) : p.turnsLeft ≤ 2 := by cases p <;> decide

theorem busy_of_turnsLeft {s : State} (h : s.engPhase.turnsLeft = 0) : s.busy = false := by
  cases hphase : s.engPhase with
  | idle => simp [State.busy, hphase]
  | queued | started => rw [hphase] at h; cases h

/-- A step in which the ENGINE has the turn. -/
theorem step_turnsLeft {s : State} {rest : List Event} (h : s.EngineNext rest) :
    ∃ t, step s = .next t ∧ t.inputs = rest ∧
      t.engPhase.turnsLeft = s.engPhase.turnsLeft - 1 := by
  rw [step_engine h]
  exact engineTurn_turnsLeft { s with inputs := rest }

/-- Settles O10: START and FINISH are at most two turns, and each turn takes one of them. -/
theorem commandFinishesWithinTwoTurns : Obligations.CommandFinishesWithinTwoTurns := by
  intro s rest hin
  obtain ⟨t, hst, hint, ht⟩ := step_turnsLeft (s := s) (.inl hin)
  obtain ⟨u, htu, hinu, hu⟩ := step_turnsLeft (s := t) (.inl hint)
  have hle := turnsLeft_le_two s.engPhase
  have hbusy : u.busy = false := busy_of_turnsLeft (by omega)
  obtain ⟨hbit, -⟩ := statusWord_bits u
  exact ⟨t, u, hst, htu, hbusy, hbit.trans hbusy, hinu⟩

/-- Settles O7: both turns by the definition of the ENGINE's turn. -/
theorem engineStartSamplesRequest : Obligations.EngineStartSamplesRequest := by
  intro s rest hnext
  refine ⟨fun hphase => ?_, fun hphase => ?_⟩
  · rw [step_engine hnext, engineTurn, hphase]
    rfl
  · rw [step_engine hnext, engineTurn, hphase]

/-! ### Every step -/

/-- A bus access is refused with a reply or performed; neither stops the machine (60_exceptions.md
R300). -/
theorem busTurn_next (a : BusAccess) (s : State) : ∃ t, busTurn a s = .next t := by
  cases hc : checkAccess s a with
  | error e => exact ⟨_, busTurn_error hc⟩
  | ok u => exact ⟨_, busTurn_ok hc⟩

/-- Settles O9: by the next event, or the ENGINE's turn when none is to come. -/
theorem everyStepAnswersNext : Obligations.EveryStepAnswersNext := by
  intro s
  have hengine : ∀ rest, s.EngineNext rest → ∃ t, step s = .next t := fun rest hnext => by
    obtain ⟨t, ht, -⟩ := step_turnsLeft hnext
    exact ⟨t, ht⟩
  cases hin : s.inputs with
  | nil => exact hengine [] (.inr ⟨hin, rfl⟩)
  | cons event rest =>
    cases event with
    | engine => exact hengine rest (.inl hin)
    | reset => exact ⟨_, step_reset hin⟩
    | bus a =>
      obtain ⟨t, ht⟩ := busTurn_next a { s with inputs := rest }
      exact ⟨t, (step_bus hin).trans ht⟩

end Sys2Proof.Machine
end
